-- ==== Sys2Proof/Word.lean ====
section
/-! DEFINITION. The word types of the machine (00_scope R6: byte 8, word 16, doubleword 32 bits). -/

namespace Sys2Proof

/-- A byte, 8 bits (00_scope R6). -/
abbrev Byte := BitVec 8
/-- A word, 16 bits (00_scope R6). -/
abbrev Word := BitVec 16
/-- A doubleword, 32 bits (00_scope R6). -/
abbrev Dword := BitVec 32

end Sys2Proof
end

