-- ==== Sys2Proof/Config.lean ====
section
/-! DEFINITION. What an implementation fixes, and the free values (00_scope R5). -/

namespace Sys2Proof.Config

/-- What an address of memory that nothing has written reads as.
DESIGN CHOICE (log 3), unsafe: spec/ gives memory no contents at the start of a run (10_state R48). -/
def unlistedByte : Byte := 0#8

/-- The longest instruction, in bytes (30_encoding R90, decision D37). -/
def maxInstrLength : Nat := 15

/-- Bytes per parameter copied through a call gate, `P_PARAMSIZE` (00_scope R5, decision D13). -/
def paramSize : Nat := 4

/-- The D flag of the code segment in `State.reset`: 16-bit operands and addresses.
PRESUMED (log 1), unsafe: the family's real-address-mode reset, 10_state R48. -/
def resetD : Bool := false

/-- Free value: whether the byte at an address keeps the NEW value when the instruction that stored
it raises an exception part-way ("either the old or the new value", decision D6, 60_exceptions R295).
First argument: the state's counter `freeIx`; second: the linear address. Log 13, safe. -/
opaque keepsPartialStore : Nat → Nat → Bool

/-- Free value: whether the 16-bit IRET to a less privileged level leaves ESP[31:16] as before ("only SP's 16 bits
are loaded", 42_int R196's corner case) or loads it with zeros (its pseudocode). Log 18, safe. -/
opaque iretKeepsUpperEsp : Bool

end Sys2Proof.Config
end

