-- ==== Sys2Proof/Syntax.lean ====
section
/-! DEFINITION. The abstract instructions: one constructor of `Instr` per row of
spec/opcode_table.json (30_encoding R106), and the operand shapes of 30_encoding R97 to R105. -/

namespace Sys2Proof

/-- The general registers in the order of 10_state R21. -/
inductive Reg where
  | eax | ecx | edx | ebx | esp | ebp | esi | edi
deriving DecidableEq, Repr

/-- The segment registers (10_state R31). -/
inductive SegName where
  | es | cs | ss | ds | fs | gs
deriving DecidableEq, Repr

/-- The operand-size attribute (00_scope R11). -/
inductive OpSize where
  | w16 | w32
deriving DecidableEq, Repr

/-- The register part of a 16-bit effective address (30_encoding R100). -/
inductive Base16 where
  | bxsi | bxdi | bpsi | bpdi | si | di | bp | bx
  /-- `disp16` alone: rm = 6 with mod = 0. -/
  | none
deriving DecidableEq, Repr

/-- The offset expression of an explicit memory operand; the constructor is the address-size
attribute `AddrSize` (00_scope R11, 30_encoding R98 to R100). -/
inductive MemAddr where
  /-- base + index × 2^scale + disp modulo 2^32 (R98, R99). -/
  | a32 (base : Option Reg) (index : Option (Reg × BitVec 2)) (disp : Dword)
  /-- form + disp modulo 2^16 (R100). -/
  | a16 (form : Base16) (disp : Word)
deriving DecidableEq, Repr

/-- An explicit memory operand: a segment override, if any, and the offset (30_encoding R94, R101). -/
structure MemOp where
  seg : Option SegName
  addr : MemAddr
deriving DecidableEq, Repr

/-- A ModRM operand: a register (mod = 3) or memory (30_encoding R97). -/
inductive RM where
  | reg (r : Reg)
  | mem (m : MemOp)
deriving DecidableEq, Repr

/-- The instructions of 30_encoding R106. `sz` is the operand-size attribute where a row allows both. -/
inductive Instr where
  /-- PUSH r16/r32, R130. -/
  | pushR (sz : OpSize) (r : Reg)
  /-- PUSH r/m16/r/m32, R131. -/
  | pushRM (sz : OpSize) (rm : RM)
  /-- PUSH imm8, R132. -/
  | pushImm8 (sz : OpSize) (imm : Byte)
  /-- PUSH imm16/imm32, R133; a 16-bit immediate is held zero-extended. -/
  | pushImm (sz : OpSize) (imm : Dword)
  /-- PUSH ES, R134. -/
  | pushEs (sz : OpSize)
  /-- PUSH CS, R134. -/
  | pushCs (sz : OpSize)
  /-- PUSH SS, R134. -/
  | pushSs (sz : OpSize)
  /-- PUSH DS, R134. -/
  | pushDs (sz : OpSize)
  /-- PUSH FS, R134. -/
  | pushFs (sz : OpSize)
  /-- PUSH GS, R134. -/
  | pushGs (sz : OpSize)
  /-- POP r16/r32, R135. -/
  | popR (sz : OpSize) (r : Reg)
  /-- POP r/m16/r/m32, R136. -/
  | popRM (sz : OpSize) (rm : RM)
  /-- POP ES, R137. -/
  | popEs (sz : OpSize)
  /-- POP SS, R137. -/
  | popSs (sz : OpSize)
  /-- POP DS, R137. -/
  | popDs (sz : OpSize)
  /-- POP FS, R137. -/
  | popFs (sz : OpSize)
  /-- POP GS, R137. -/
  | popGs (sz : OpSize)
  /-- PUSHA, OpSize 16, R138. -/
  | pusha
  /-- PUSHAD, OpSize 32, R138. -/
  | pushad
  /-- POPA, OpSize 16, R139. -/
  | popa
  /-- POPAD, OpSize 32, R139. -/
  | popad
  /-- PUSHF, OpSize 16, R140. -/
  | pushf
  /-- PUSHFD, OpSize 32, R141. -/
  | pushfd
  /-- POPF, OpSize 16, R142. -/
  | popf
  /-- POPFD, OpSize 32, R143. -/
  | popfd
  /-- CALL rel16/rel32, R160; the displacement is held sign-extended to 32 bits (R103). -/
  | callRel (sz : OpSize) (rel : Dword)
  /-- CALL r/m16/r/m32, R161. -/
  | callRM (sz : OpSize) (rm : RM)
  /-- CALL ptr16:16/ptr16:32, R164; a 16-bit offset is held zero-extended. -/
  | callPtr (sz : OpSize) (sel : Word) (off : Dword)
  /-- CALL m16:16/m16:32, R165. -/
  | callMem (sz : OpSize) (m : MemOp)
  /-- RET, R162. -/
  | ret (sz : OpSize)
  /-- RET imm16, R163. -/
  | retImm (sz : OpSize) (k : Word)
  /-- RETF, R167. -/
  | retf (sz : OpSize)
  /-- RETF imm16, R168. -/
  | retfImm (sz : OpSize) (k : Word)
  /-- ENTER imm16, imm8, R220; LEVEL is the byte as encoded, taken modulo 32 by the meaning. -/
  | enter (sz : OpSize) (storage : Word) (level : Byte)
  /-- LEAVE, R223. -/
  | leave (sz : OpSize)
  /-- INT 3, R191. -/
  | int3
  /-- INT imm8, R190. -/
  | intImm (n : Byte)
  /-- INTO, R192. -/
  | into
  /-- IRET, OpSize 16, R194. -/
  | iret
  /-- IRETD, OpSize 32, R194. -/
  | iretd
  /-- BOUND r16/r32, m16&16/m32&32, R193. -/
  | bound (sz : OpSize) (r : Reg) (m : MemOp)
  /-- UD2, R198. -/
  | ud2
deriving DecidableEq, Repr

end Sys2Proof
end

