-- ==== Sys2Proof/WellFormed.lean ====
section
/-! DEFINITION. Which terms of `Instr` an encoding can spell (30_encoding R99, R102 to R104).
Every instruction the decoder answers is well formed; the encoder is meant for these. -/

namespace Sys2Proof

/-- A 32-bit index register is never ESP: index = 4 means no index (30_encoding R99). -/
def MemAddr.wf : MemAddr → Bool
  | .a32 _ (some (r, _)) _ => r != .esp
  | .a32 _ none _ => true
  | .a16 _ _ => true

def MemOp.wf (m : MemOp) : Bool := m.addr.wf

def RM.wf : RM → Bool
  | .reg _ => true
  | .mem m => m.wf

/-- A value of `sz` bits held zero-extended in 32 (30_encoding R102, R104). -/
def OpSize.fitsZero : OpSize → Dword → Bool
  | .w16, v => (v.setWidth 16).setWidth 32 == v
  | .w32, _ => true

/-- A value of `sz` bits held sign-extended in 32 (30_encoding R103). -/
def OpSize.fitsSign : OpSize → Dword → Bool
  | .w16, v => (v.setWidth 16).signExtend 32 == v
  | .w32, _ => true

/-- The instruction is one that some byte sequence of 30_encoding R91 spells. -/
def Instr.wf : Instr → Bool
  | .pushRM _ rm => rm.wf
  | .popRM _ rm => rm.wf
  | .callRM _ rm => rm.wf
  | .callMem _ m => m.wf
  | .bound _ _ m => m.wf
  | .pushImm sz imm => sz.fitsZero imm
  | .callPtr sz _ off => sz.fitsZero off
  | .callRel sz rel => sz.fitsSign rel
  | .pushR _ _ | .pushImm8 _ _ | .pushEs _ | .pushCs _ | .pushSs _ | .pushDs _ | .pushFs _ | .pushGs _
  | .popR _ _ | .popEs _ | .popSs _ | .popDs _ | .popFs _ | .popGs _
  | .pusha | .pushad | .popa | .popad | .pushf | .pushfd | .popf | .popfd
  | .ret _ | .retImm _ _ | .retf _ | .retfImm _ _ | .enter _ _ _ | .leave _
  | .int3 | .intImm _ | .into | .iret | .iretd | .ud2 => true

end Sys2Proof
end

