-- ==== Sys2Proof/Decode.lean ====
section
/-! DEFINITION. The decoder and the encoder of 30_encoding. Both follow the opcode map of R106;
`d` is the D flag of the code segment (00_scope R11), which with the 66H and 67H bytes gives the
operand size and the address size. The decoder is total: it answers an instruction and its length
in bytes, or says by name why the bytes spell none. -/

namespace Sys2Proof

/-- Why a byte sequence is no instruction of R106. -/
inductive DecodeStop where
  /-- The bytes end before the instruction does: the fetch of the next byte decides (R92). -/
  | truncated
  /-- One of the four reserved forms of R121: the machine raises #UD. -/
  | undefinedForm
  /-- LOCK, REPNE or REP before the opcode (R93, decision D31). -/
  | lockOrRep
  /-- The first opcode byte of a sequence that matches no row of R106 (R120, decision D39). -/
  | noRow (b0 : Byte)
deriving DecidableEq, Repr

/-- The 3-bit register number (10_state R21). -/
def Reg.number : Reg → BitVec 3
  | .eax => 0 | .ecx => 1 | .edx => 2 | .ebx => 3 | .esp => 4 | .ebp => 5 | .esi => 6 | .edi => 7

def Reg.ofNumber (n : BitVec 3) : Reg :=
  match n.toNat with
  | 0 => .eax | 1 => .ecx | 2 => .edx | 3 => .ebx | 4 => .esp | 5 => .ebp | 6 => .esi | _ => .edi

/-- The `rm` field of a 16-bit address form (R100); 6 stands for `disp16` alone when mod = 0. -/
def Base16.number : Base16 → BitVec 3
  | .bxsi => 0 | .bxdi => 1 | .bpsi => 2 | .bpdi => 3 | .si => 4 | .di => 5 | .bp => 6 | .bx => 7 | .none => 6

def Base16.ofNumber (n : BitVec 3) : Base16 :=
  match n.toNat with
  | 0 => .bxsi | 1 => .bxdi | 2 => .bpsi | 3 => .bpdi | 4 => .si | 5 => .di | 6 => .bp | _ => .bx

/-- The segment-override bytes of R93. -/
def SegName.overrideByte : SegName → Byte
  | .es => 0x26 | .cs => 0x2E | .ss => 0x36 | .ds => 0x3E | .fs => 0x64 | .gs => 0x65

/-- The sizes `P_D` gives, swapped by 66H or 67H (00_scope R11, 30_encoding R93). -/
def attributeSize (d swapped : Bool) : OpSize := if d != swapped then .w32 else .w16

/-- The bytes before the opcode, as far as they say something (R93). A byte said twice says the same
as once, and of two segment overrides the later holds (log 22). -/
structure Modifiers where
  opSwap : Bool
  addrSwap : Bool
  seg : Option SegName
deriving DecidableEq, Repr

/-- Consume the bytes of R93 and answer them with the rest, which begins at the opcode. DESIGN CHOICE (log 41):
a LOCK, REPNE or REP byte is refused wherever it stands among them, before the opcode is looked at, so also on a
form that R121 reserves; R93 and R121 say which goes first for neither. -/
def readModifiers (m : Modifiers) : List Byte → Except DecodeStop (Modifiers × List Byte)
  | [] => .error .truncated
  | b :: t =>
    match b.toNat with
    | 0x66 => readModifiers { m with opSwap := true } t
    | 0x67 => readModifiers { m with addrSwap := true } t
    | 0x26 => readModifiers { m with seg := some .es } t
    | 0x2E => readModifiers { m with seg := some .cs } t
    | 0x36 => readModifiers { m with seg := some .ss } t
    | 0x3E => readModifiers { m with seg := some .ds } t
    | 0x64 => readModifiers { m with seg := some .fs } t
    | 0x65 => readModifiers { m with seg := some .gs } t
    | 0xF0 | 0xF2 | 0xF3 => .error .lockOrRep
    | _ => .ok (m, b :: t)

/-- One byte of the instruction. -/
def readByte : List Byte → Except DecodeStop (Byte × List Byte)
  | [] => .error .truncated
  | b :: t => .ok (b, t)

/-- Two bytes, little-endian (R102). -/
def readWord : List Byte → Except DecodeStop (Word × List Byte)
  | b0 :: b1 :: t => .ok (b1 ++ b0, t)
  | _ => .error .truncated

/-- Four bytes, little-endian (R102). -/
def readDword : List Byte → Except DecodeStop (Dword × List Byte)
  | b0 :: b1 :: b2 :: b3 :: t => .ok (b3 ++ b2 ++ b1 ++ b0, t)
  | _ => .error .truncated

/-- An immediate or offset of `sz` bits, zero-extended (R102, R104). -/
def readSized (sz : OpSize) (bs : List Byte) : Except DecodeStop (Dword × List Byte) :=
  match sz with
  | .w16 => do let (v, t) ← readWord bs; .ok (v.setWidth 32, t)
  | .w32 => readDword bs

/-- A displacement of `sz` bits, sign-extended (R103). -/
def readSigned (sz : OpSize) (bs : List Byte) : Except DecodeStop (Dword × List Byte) :=
  match sz with
  | .w16 => do let (v, t) ← readWord bs; .ok (v.signExtend 32, t)
  | .w32 => readDword bs

/-- The displacement after ModRM or SIB with `AddrSize` 32: none, disp8 or disp32 by mod (R98). -/
def readDisp32 (mod : BitVec 2) (bs : List Byte) : Except DecodeStop (Dword × List Byte) :=
  match mod.toNat with
  | 0 => .ok (0, bs)
  | 1 => do let (v, t) ← readByte bs; .ok (v.signExtend 32, t)
  | _ => readDword bs

/-- The displacement with `AddrSize` 16 (R100). -/
def readDisp16 (mod : BitVec 2) (bs : List Byte) : Except DecodeStop (Word × List Byte) :=
  match mod.toNat with
  | 0 => .ok (0, bs)
  | 1 => do let (v, t) ← readByte bs; .ok (v.signExtend 16, t)
  | _ => readWord bs

/-- The SIB byte's index and scale: index = 4 is no index (R99). -/
def sibIndex (sib : Byte) : Option (Reg × BitVec 2) :=
  if sib.extractLsb' 3 3 = 4#3 then none
  else some (Reg.ofNumber (sib.extractLsb' 3 3), sib.extractLsb' 6 2)

/-- The memory operand of mod in 0..2 with `AddrSize` 32 (R98, R99). -/
def readAddr32 (mod : BitVec 2) (rm : BitVec 3) (bs : List Byte) :
    Except DecodeStop (MemAddr × List Byte) :=
  if rm = 4#3 then do
    let (sib, t) ← readByte bs
    if sib.extractLsb' 0 3 = 5#3 ∧ mod = 0#2 then
      let (disp, t) ← readDword t
      .ok (.a32 none (sibIndex sib) disp, t)
    else
      let (disp, t) ← readDisp32 mod t
      .ok (.a32 (some (Reg.ofNumber (sib.extractLsb' 0 3))) (sibIndex sib) disp, t)
  else if rm = 5#3 ∧ mod = 0#2 then do
    let (disp, t) ← readDword bs
    .ok (.a32 none none disp, t)
  else do
    let (disp, t) ← readDisp32 mod bs
    .ok (.a32 (some (Reg.ofNumber rm)) none disp, t)

/-- The memory operand of mod in 0..2 with `AddrSize` 16 (R100). -/
def readAddr16 (mod : BitVec 2) (rm : BitVec 3) (bs : List Byte) :
    Except DecodeStop (MemAddr × List Byte) :=
  if rm = 6#3 ∧ mod = 0#2 then do
    let (disp, t) ← readWord bs
    .ok (.a16 .none disp, t)
  else do
    let (disp, t) ← readDisp16 mod bs
    .ok (.a16 (Base16.ofNumber rm) disp, t)

def readAddr (asz : OpSize) (mod : BitVec 2) (rm : BitVec 3) (bs : List Byte) :
    Except DecodeStop (MemAddr × List Byte) :=
  match asz with
  | .w16 => readAddr16 mod rm bs
  | .w32 => readAddr32 mod rm bs

/-- The operand of a ModRM byte already read (R97). -/
def readRM (asz : OpSize) (seg : Option SegName) (modrm : Byte) (bs : List Byte) :
    Except DecodeStop (RM × List Byte) :=
  if modrm.extractLsb' 6 2 = 3#2 then .ok (.reg (Reg.ofNumber (modrm.extractLsb' 0 3)), bs)
  else do
    let (a, t) ← readAddr asz (modrm.extractLsb' 6 2) (modrm.extractLsb' 0 3) bs
    .ok (.mem ⟨seg, a⟩, t)

/-- The operand of an instruction whose register form is reserved (R121: FF /3 and 62 with mod = 3). -/
def readMemOnly (asz : OpSize) (seg : Option SegName) (modrm : Byte) (bs : List Byte) :
    Except DecodeStop (MemOp × List Byte) := do
  let (rm, t) ← readRM asz seg modrm bs
  match rm with
  | .reg _ => .error .undefinedForm
  | .mem m => .ok (m, t)

/-- Opcodes FF /2, /3, /6; /7 is reserved (R121), the others are out of scope. -/
def decodeGroupFF (sz asz : OpSize) (seg : Option SegName) (bs : List Byte) :
    Except DecodeStop (Instr × List Byte) := do
  let (modrm, t) ← readByte bs
  match (modrm.extractLsb' 3 3 : BitVec 3).toNat with
  | 2 => let (rm, t) ← readRM asz seg modrm t; .ok (.callRM sz rm, t)
  | 3 => let (m, t) ← readMemOnly asz seg modrm t; .ok (.callMem sz m, t)
  | 6 => let (rm, t) ← readRM asz seg modrm t; .ok (.pushRM sz rm, t)
  | 7 => .error .undefinedForm
  | _ => .error (.noRow 0xFF)

/-- Opcode 8F: /0 is POP r/m, the other reg fields are reserved (R121). -/
def decodeGroup8F (sz asz : OpSize) (seg : Option SegName) (bs : List Byte) :
    Except DecodeStop (Instr × List Byte) := do
  let (modrm, t) ← readByte bs
  if modrm.extractLsb' 3 3 = 0#3 then
    let (rm, t) ← readRM asz seg modrm t
    .ok (.popRM sz rm, t)
  else .error .undefinedForm

/-- Opcode 62: BOUND (R193). -/
def decodeBound (sz asz : OpSize) (seg : Option SegName) (bs : List Byte) :
    Except DecodeStop (Instr × List Byte) := do
  let (modrm, t) ← readByte bs
  let (m, t) ← readMemOnly asz seg modrm t
  .ok (.bound sz (Reg.ofNumber (modrm.extractLsb' 3 3)) m, t)

/-- The two-byte rows, after 0FH (R106). -/
def decodeTwoByte (sz : OpSize) (bs : List Byte) : Except DecodeStop (Instr × List Byte) := do
  let (b1, t) ← readByte bs
  match b1.toNat with
  | 0xA0 => .ok (.pushFs sz, t)
  | 0xA8 => .ok (.pushGs sz, t)
  | 0xA1 => .ok (.popFs sz, t)
  | 0xA9 => .ok (.popGs sz, t)
  | 0x0B => .ok (.ud2, t)
  | _ => .error (.noRow 0x0F)

/-- The row with operand size 16 or 32 of a pair that shares an opcode (R106, R125). -/
def bySize (sz : OpSize) (i16 i32 : Instr) : Instr :=
  match sz with
  | .w16 => i16
  | .w32 => i32

/-- The opcode map of R106, from the first byte after the modifiers. -/
def decodeOpcode (sz asz : OpSize) (seg : Option SegName) (bs : List Byte) :
    Except DecodeStop (Instr × List Byte) := do
  let (b0, t) ← readByte bs
  match b0.toNat with
  | 0x06 => .ok (.pushEs sz, t)
  | 0x0E => .ok (.pushCs sz, t)
  | 0x16 => .ok (.pushSs sz, t)
  | 0x1E => .ok (.pushDs sz, t)
  | 0x07 => .ok (.popEs sz, t)
  | 0x17 => .ok (.popSs sz, t)
  | 0x1F => .ok (.popDs sz, t)
  | 0x0F => decodeTwoByte sz t
  | 0x60 => .ok (bySize sz .pusha .pushad, t)
  | 0x61 => .ok (bySize sz .popa .popad, t)
  | 0x62 => decodeBound sz asz seg t
  | 0x68 => let (v, t) ← readSized sz t; .ok (.pushImm sz v, t)
  | 0x6A => let (v, t) ← readByte t; .ok (.pushImm8 sz v, t)
  | 0x8F => decodeGroup8F sz asz seg t
  | 0x9A =>
    let (off, t) ← readSized sz t
    let (sel, t) ← readWord t
    .ok (.callPtr sz sel off, t)
  | 0x9C => .ok (bySize sz .pushf .pushfd, t)
  | 0x9D => .ok (bySize sz .popf .popfd, t)
  | 0xC2 => let (k, t) ← readWord t; .ok (.retImm sz k, t)
  | 0xC3 => .ok (.ret sz, t)
  | 0xC8 =>
    let (storage, t) ← readWord t
    let (level, t) ← readByte t
    .ok (.enter sz storage level, t)
  | 0xC9 => .ok (.leave sz, t)
  | 0xCA => let (k, t) ← readWord t; .ok (.retfImm sz k, t)
  | 0xCB => .ok (.retf sz, t)
  | 0xCC => .ok (.int3, t)
  | 0xCD => let (v, t) ← readByte t; .ok (.intImm v, t)
  | 0xCE => .ok (.into, t)
  | 0xCF => .ok (bySize sz .iret .iretd, t)
  | 0xE8 => let (rel, t) ← readSigned sz t; .ok (.callRel sz rel, t)
  | 0xFF => decodeGroupFF sz asz seg t
  | n =>
    if n / 8 = 10 then .ok (.pushR sz (Reg.ofNumber (b0.extractLsb' 0 3)), t)
    else if n / 8 = 11 then .ok (.popR sz (Reg.ofNumber (b0.extractLsb' 0 3)), t)
    else .error (.noRow b0)

/-- Decode (R92): the instruction at the front of `bs` and its length in bytes, modifiers included. -/
def decode (d : Bool) (bs : List Byte) : Except DecodeStop (Instr × Nat) := do
  let (m, t) ← readModifiers ⟨false, false, none⟩ bs
  let (i, rest) ← decodeOpcode (attributeSize d m.opSwap) (attributeSize d m.addrSwap) m.seg t
  .ok (i, bs.length - rest.length)

/-! ## The encoder -/

/-- Byte `k` of a value, little-endian (20_memory R66). -/
def byteOf (v : Dword) (k : Nat) : Byte := v.extractLsb' (8 * k) 8

def wordBytes (v : Word) : List Byte := [v.extractLsb' 0 8, v.extractLsb' 8 8]

def dwordBytes (v : Dword) : List Byte := [byteOf v 0, byteOf v 1, byteOf v 2, byteOf v 3]

def sizedBytes (sz : OpSize) (v : Dword) : List Byte :=
  match sz with
  | .w16 => [byteOf v 0, byteOf v 1]
  | .w32 => dwordBytes v

/-- A ModRM or SIB byte from its three fields (R97, R99). -/
def fieldsByte (hi : BitVec 2) (mid lo : BitVec 3) : Byte := hi ++ mid ++ lo

/-- ModRM, SIB and displacement of a memory operand; `reg` is the ModRM reg field. The encoder always
writes the full displacement (mod = 2, or mod = 0 where there is no base). -/
def addrBytes (reg : BitVec 3) : MemAddr → List Byte
  | .a32 none none disp => fieldsByte 0 reg 5 :: dwordBytes disp
  | .a32 none (some (i, sc)) disp => fieldsByte 0 reg 4 :: fieldsByte sc i.number 5 :: dwordBytes disp
  | .a32 (some .esp) none disp => fieldsByte 2 reg 4 :: fieldsByte 0 4 4 :: dwordBytes disp
  | .a32 (some b) none disp => fieldsByte 2 reg b.number :: dwordBytes disp
  | .a32 (some b) (some (i, sc)) disp =>
    fieldsByte 2 reg 4 :: fieldsByte sc i.number b.number :: dwordBytes disp
  | .a16 .none disp => fieldsByte 0 reg 6 :: wordBytes disp
  | .a16 f disp => fieldsByte 2 reg f.number :: wordBytes disp

def rmBytes (reg : BitVec 3) : RM → List Byte
  | .reg r => [fieldsByte 3 reg r.number]
  | .mem m => addrBytes reg m.addr

/-- The bytes from the opcode on (R91, R106). -/
def opcodeBytes : Instr → List Byte
  | .pushR _ r => [0x50 + r.number.setWidth 8]
  | .pushRM _ rm => 0xFF :: rmBytes 6 rm
  | .pushImm8 _ v => [0x6A, v]
  | .pushImm sz v => 0x68 :: sizedBytes sz v
  | .pushEs _ => [0x06]
  | .pushCs _ => [0x0E]
  | .pushSs _ => [0x16]
  | .pushDs _ => [0x1E]
  | .pushFs _ => [0x0F, 0xA0]
  | .pushGs _ => [0x0F, 0xA8]
  | .popR _ r => [0x58 + r.number.setWidth 8]
  | .popRM _ rm => 0x8F :: rmBytes 0 rm
  | .popEs _ => [0x07]
  | .popSs _ => [0x17]
  | .popDs _ => [0x1F]
  | .popFs _ => [0x0F, 0xA1]
  | .popGs _ => [0x0F, 0xA9]
  | .pusha | .pushad => [0x60]
  | .popa | .popad => [0x61]
  | .pushf | .pushfd => [0x9C]
  | .popf | .popfd => [0x9D]
  | .callRel sz rel => 0xE8 :: sizedBytes sz rel
  | .callRM _ rm => 0xFF :: rmBytes 2 rm
  | .callPtr sz sel off => 0x9A :: (sizedBytes sz off ++ wordBytes sel)
  | .callMem _ m => 0xFF :: addrBytes 3 m.addr
  | .ret _ => [0xC3]
  | .retImm _ k => 0xC2 :: wordBytes k
  | .retf _ => [0xCB]
  | .retfImm _ k => 0xCA :: wordBytes k
  | .enter _ storage level => 0xC8 :: (wordBytes storage ++ [level])
  | .leave _ => [0xC9]
  | .int3 => [0xCC]
  | .intImm n => [0xCD, n]
  | .into => [0xCE]
  | .iret | .iretd => [0xCF]
  | .bound _ r m => 0x62 :: addrBytes r.number m.addr
  | .ud2 => [0x0F, 0x0B]

/-- The operand size an instruction asks for, where its meaning depends on one (R106). -/
def Instr.opSize? : Instr → Option OpSize
  | .pushR sz _ | .pushRM sz _ | .pushImm8 sz _ | .pushImm sz _ | .pushEs sz | .pushCs sz | .pushSs sz
  | .pushDs sz | .pushFs sz | .pushGs sz | .popR sz _ | .popRM sz _ | .popEs sz | .popSs sz | .popDs sz
  | .popFs sz | .popGs sz | .callRel sz _ | .callRM sz _ | .callPtr sz _ _ | .callMem sz _ | .ret sz
  | .retImm sz _ | .retf sz | .retfImm sz _ | .enter sz _ _ | .leave sz | .bound sz _ _ => some sz
  | .pusha | .popa | .pushf | .popf | .iret => some .w16
  | .pushad | .popad | .pushfd | .popfd | .iretd => some .w32
  | .int3 | .intImm _ | .into | .ud2 => none

/-- The explicit memory operand, where there is one. -/
def Instr.memOp? : Instr → Option MemOp
  | .pushRM _ (.mem m) | .popRM _ (.mem m) | .callRM _ (.mem m) | .callMem _ m | .bound _ _ m => some m
  | .pushRM _ (.reg _) | .popRM _ (.reg _) | .callRM _ (.reg _)
  | .pushR _ _ | .pushImm8 _ _ | .pushImm _ _ | .pushEs _ | .pushCs _ | .pushSs _ | .pushDs _ | .pushFs _
  | .pushGs _ | .popR _ _ | .popEs _ | .popSs _ | .popDs _ | .popFs _ | .popGs _ | .pusha | .pushad | .popa
  | .popad | .pushf | .pushfd | .popf | .popfd | .callRel _ _ | .callPtr _ _ _ | .ret _ | .retImm _ _
  | .retf _ | .retfImm _ _ | .enter _ _ _ | .leave _ | .int3 | .intImm _ | .into | .iret | .iretd
  | .ud2 => none

def MemAddr.addrSize : MemAddr → OpSize
  | .a32 _ _ _ => .w32
  | .a16 _ _ => .w16

/-- `b` where the wanted size is not the one the D flag gives, nothing where it is. -/
def swapByte (d : Bool) (b : Byte) (sz : OpSize) : List Byte :=
  if attributeSize d false = sz then [] else [b]

/-- The modifier bytes: 66H, 67H and a segment override, each only where needed (R93). -/
def modifierBytes (d : Bool) (i : Instr) : List Byte :=
  (match i.opSize? with
    | some sz => swapByte d 0x66 sz
    | none => []) ++
  (match i.memOp? with
    | some m => swapByte d 0x67 m.addr.addrSize ++ (m.seg.elim [] fun g => [g.overrideByte])
    | none => [])

/-- The bytes of an instruction in a code segment with D flag `d` (R91). -/
def encode (d : Bool) (i : Instr) : List Byte := modifierBytes d i ++ opcodeBytes i

/-! ## The opcode table's numbering -/

/-- The bytes of a table word. The table matches the 16-bit value `(b0 << 8) | b1`: the first byte of
an instruction is bits 15:8 of a 16-bit unit and the second bits 7:0; a later unit is 16 bits higher
(R106, log 23). A word of 8 bits is one byte. The bytes above `nbits` are 0. -/
def tableBytes (nbits w : Nat) : List Byte :=
  if nbits ≤ 8 then [BitVec.ofNat 8 w] ++ List.replicate 14 0
  else (List.range Config.maxInstrLength).map fun k =>
    BitVec.ofNat 8 ((w % 2 ^ nbits) >>> (16 * (k / 2) + 8 * (1 - k % 2)))

/-- The instruction the decoder reads from a table word, with the D flag of `State.reset`. -/
def decodeTableWord (nbits w : Nat) : Option Instr :=
  match decode Config.resetD (tableBytes nbits w) with
  | .ok (i, _) => some i
  | .error _ => none

end Sys2Proof
end

