-- ==== Sys2Proof/Machine/State.lean ====
section
/-! DEFINITION. The architectural state as plain data (10_state), the reasons a step can stop, the
exceptions the machine delivers, and the state after reset. -/

namespace Sys2Proof.Machine

open Sys2Proof

/-! ## Reasons to stop -/

/-- A stop of the machine itself. -/
inductive Fault where
  /-- Raised by every step of a processor in shutdown: the terminal state after a failed double-fault
  delivery (60_exceptions R294, 93 U18). Safe: the spec gives no further step. -/
  | shutdown
  /-- Raised by the delivery of an exception whose delivery raises the same benign exception again for
  ever (60_exceptions R294 gives no end of that chain; log 16). Safe: the processor takes no further step. -/
  | deliveryLoop
deriving DecidableEq, Repr

/-- What the spec tells the model to refuse. -/
inductive Refusal where
  /-- An instruction with no meaning yet; raised by `exec` alone. Safe. -/
  | notModelled (mnemonic : String)
  /-- An access past the top of the offset space, whatever its segment (20_memory R77, decision D9). Raised
  by the translation of any access. Safe. -/
  | offsetSpaceTop
  /-- An instruction byte that the run has stored (20_memory R84, decision D4). Raised by the fetch. Safe. -/
  | selfModifyingCode
  /-- A far CALL to a task gate or a TSS (41_call_ret R166, decision D15). Safe. -/
  | taskSwitch
  /-- An event whose IDT entry is a task gate (60_exceptions R289, decision D15). Safe. -/
  | handlerTask
  /-- IRET with the NT flag set (42_int R194, decision D38). Safe. -/
  | taskReturn
  /-- IRETD at level 0 to an image with VM set (42_int R194, decision D38). Safe. -/
  | virtual8086Return
  /-- The environment presents an SMI (60_exceptions R253, decision D25). Safe. -/
  | smi
  /-- The environment presents an INTR vector outside 32 to 255 (93 U2, 60_exceptions R275). Safe. -/
  | intrVectorOutOfRange
  /-- An instruction with a LOCK, REPNE or REP byte (30_encoding R93, decision D31). Raised by the decode. Safe. -/
  | lockOrRepByte
  /-- Bytes that match no row of the opcode map; the first opcode byte (30_encoding R120, 44 R246,
  decision D39). Raised by the decode. Safe. -/
  | opcodeOutOfScope (b0 : Byte)
deriving DecidableEq, Repr

/-! ## Exceptions and events -/

/-- The exceptions some rule raises, with their error codes (60_exceptions R255 to R276, R286). -/
inductive Exc where
  /-- #BR, vector 5, R260. -/
  | br
  /-- #UD, vector 6, R261. -/
  | ud
  /-- #DF, vector 8, R263; its code is 0. -/
  | df
  /-- #TS, vector 10, R265. -/
  | ts (code : Dword)
  /-- #NP, vector 11, R266. -/
  | np (code : Dword)
  /-- #SS, vector 12, R267. -/
  | ss (code : Dword)
  /-- #GP, vector 13, R268. -/
  | gp (code : Dword)
  /-- #PF, vector 14, R269. -/
  | pf (code : Dword)
  /-- #AC, vector 17, R272; its code is 0. -/
  | ac
deriving DecidableEq, Repr

/-- The kinds of event of `deliver` (60_exceptions R283). -/
inductive EventKind where
  | fault | trap | abort | software | external | nmi
deriving DecidableEq, Repr

/-- An event to deliver: vector, kind, error code if there is one (60_exceptions R283). -/
structure Event where
  vector : Byte
  kind : EventKind
  code : Option Dword
deriving DecidableEq, Repr

/-- The kinds of access `P_SEG` tells apart (20_memory R75); the spec's `stack` is split by direction. -/
inductive AccessKind where
  | stackRead | stackWrite | dataRead | dataWrite | fetch
deriving DecidableEq, Repr

/-- An exception of `P_SEG` that is not a segment check (20_memory R76): a paging failure with its
code, or an alignment check. -/
inductive TrapExc where
  | pageFault (code : Dword)
  | alignment
deriving DecidableEq, Repr

/-- One clause of `P_SEG` beyond the segment checks (20_memory R68, R75, R76; log 7): accesses of this
kind (any kind where there is none) that touch linear addresses `lo` to `hi` raise `exc`. -/
structure SegTrap where
  kind : Option AccessKind
  lo : Dword
  hi : Dword
  exc : TrapExc
deriving DecidableEq, Repr

/-! ## Descriptor and gate records -/

/-- A code or data segment's record (10_state R36, R37): what `P_SEG` needs (base, limit, writable),
the D or B flag, the privilege level and the present mark. -/
structure SegDesc where
  base : Dword
  limit : Dword
  /-- The D flag of a code segment, the B flag of a stack segment. -/
  big : Bool
  dpl : BitVec 2
  present : Bool
  writable : Bool
deriving DecidableEq, Repr

/-- `AccessRights` of a gate (10_state R38, R39; 41_call_ret R171). -/
structure AccessRights where
  dpl : BitVec 2
  present : Bool
deriving DecidableEq, Repr

/-- A call gate (10_state R38); `paramCount` is 0 to 31. -/
structure CallGate where
  access : AccessRights
  selector : Word
  offset : Dword
  paramCount : BitVec 5
deriving DecidableEq, Repr

/-- What a selector of `P_GDT` references (10_state R43, 41_call_ret R166). -/
inductive Descriptor where
  | code (d : SegDesc)
  | data (d : SegDesc)
  | callGate (g : CallGate)
  | taskGate (a : AccessRights)
  | tss (a : AccessRights)
deriving DecidableEq, Repr

/-- The two kinds of gate to a handler procedure (60_exceptions R280). -/
inductive GateKind where
  | interrupt | trap
deriving DecidableEq, Repr

/-- An interrupt or trap gate (10_state R39). -/
structure IntGate where
  kind : GateKind
  access : AccessRights
  selector : Word
  offset : Dword
deriving DecidableEq, Repr

/-- An entry of the IDT (10_state R39 to R41). -/
inductive IdtEntry where
  | gate (g : IntGate)
  | task (a : AccessRights)
deriving DecidableEq, Repr

/-- The stack of one privilege level in the TSS (10_state R42). -/
structure TssStack where
  ss : Word
  esp : Dword
deriving DecidableEq, Repr

/-- `P_MODE` (10_state R35). -/
inductive Mode where
  | protectedMode | realMode
deriving DecidableEq, Repr

/-! ## The functions a run's start supplies, as tables (00_scope R5, 70_reset R315; log 42) -/

/-- What `P_SEG` is asked (20_memory R75): the segment by its selector, the offset, the bytes and the kind. -/
structure SegQuery where
  sel : Word
  off : Dword
  len : Nat
  kind : AccessKind
deriving DecidableEq, Repr

/-- What a listed `P_SEG` query answers: `Ok(linear address)`, any address, or an exception (20_memory R75). -/
inductive SegVerdict where
  | linear (a : Dword)
  | raises (e : Exc)
deriving DecidableEq, Repr

/-- What `P_GATECHECK` is asked (41_call_ret R171): its kind, its gate or descriptor, the selector or vector, CPL. -/
inductive GateQuery where
  | call (g : CallGate) (sel : Word) (cpl : BitVec 2)
  | softint (g : IntGate) (vector : Byte) (cpl : BitVec 2)
  | ret (d : SegDesc) (sel : Word) (cpl : BitVec 2)
deriving DecidableEq, Repr

/-- What `P_ERRCODE` is asked (60_exceptions R286, R288). -/
structure ErrQuery where
  mode : Mode
  vector : Byte
  kind : EventKind
deriving DecidableEq, Repr

/-- What a listed `P_ERRCODE` query answers: nothing is pushed, the code the rule raised is, or this value is. -/
inductive ErrCode where
  | nothing
  | raised
  | value (code : Dword)
deriving DecidableEq, Repr

/-- What `P_SAVED_EIP` answers for a kind of event: the instruction the event belongs to, or the one after it
(60_exceptions R287). -/
inductive SavedAt where
  | instruction | next
deriving DecidableEq, Repr

/-- The instructions `P_FLAGMASK` tells apart (40_stack R142, R143, 42_int R194). -/
inductive FlagInstr where
  | popf | popfd | iret
deriving DecidableEq, Repr

/-- What `P_FLAGMASK` is asked. -/
structure MaskQuery where
  instr : FlagInstr
  cpl : BitVec 2
  eflags : Dword
deriving DecidableEq, Repr

/-- The answers of the spec's open functions that a run's start supplies (70_reset R315): a query that is listed
is answered by its entry, any other by the spec's default, which its operation states. -/
structure Params where
  /-- `P_SEG`, 20_memory R75. -/
  segVerdict : List (SegQuery × SegVerdict)
  /-- `P_GATECHECK`, 41_call_ret R171. -/
  gateCheck : List (GateQuery × Bool)
  /-- `P_ERRCODE`, 60_exceptions R286. -/
  errCode : List (ErrQuery × ErrCode)
  /-- `P_SAVED_EIP`, 60_exceptions R287. -/
  savedEip : List (EventKind × SavedAt)
  /-- `P_FLAGMASK`, 40_stack R142. -/
  flagMask : List (MaskQuery × Dword)
deriving DecidableEq, Repr

/-! ## The state -/

/-- The eight general registers (10_state R20). -/
structure Regs where
  eax : Dword
  ecx : Dword
  edx : Dword
  ebx : Dword
  esp : Dword
  ebp : Dword
  esi : Dword
  edi : Dword
deriving DecidableEq, Repr

/-- A segment register: the selector and the record loaded with it (10_state R32, R33). There is no
record after a null selector was loaded (41_call_ret R174, 93 K9). -/
structure SegReg where
  sel : Word
  desc : Option SegDesc
deriving DecidableEq, Repr

/-- What the environment presents at one instruction boundary (10_state R46, `P_EXT`): the inputs of R46, and a
machine check where a launch wants one (93 U5; log 45). -/
structure ExtInput where
  nmi : Bool
  intr : Option Byte
  smi : Bool
  machineCheck : Bool
deriving DecidableEq, Repr

/-- Memory: (address, byte) pairs, addresses strictly rising, no entry equal to what an unlisted
address reads as (20_memory R60, R72). -/
abbrev Memory := List Host.Cell

/-- The machine's state: 10_state as a whole, and the model's own fields named as such. -/
structure State where
  /-- General registers, R20. -/
  regs : Regs
  /-- The program counter, R25. -/
  eip : Dword
  /-- `pc_next` of the instruction being executed (00_scope R11); written by the fetch. -/
  pcNext : Dword
  /-- R27 to R30. -/
  eflags : Dword
  cs : SegReg
  ss : SegReg
  ds : SegReg
  es : SegReg
  fs : SegReg
  gs : SegReg
  /-- The current privilege level, R34. -/
  cpl : BitVec 2
  /-- `P_MODE`, R35. -/
  mode : Mode
  /-- `P_GDT`, keyed by the selector's bits 15:2, R43. -/
  gdt : List (BitVec 14 × Descriptor)
  /-- `P_IDT`, keyed by vector, R41. -/
  idt : List (Byte × IdtEntry)
  /-- `P_TSS` of levels 0, 1 and 2, R42. -/
  tss0 : TssStack
  tss1 : TssStack
  tss2 : TssStack
  /-- The part of `P_SEG` that is not segment checks (20_memory R75, R76). -/
  segTraps : List SegTrap
  /-- `P_SEG`, `P_GATECHECK`, `P_ERRCODE`, `P_SAVED_EIP` and `P_FLAGMASK` where they differ from their defaults
  (R315; log 42). -/
  params : Params
  mem : Memory
  /-- The model's own field: the linear addresses the run has stored to, strictly rising (20_memory R84). -/
  written : List Nat
  /-- Pending external events, R46. -/
  pendingNMI : Bool
  pendingINTR : Option Byte
  pendingSMI : Bool
  /-- A machine check the environment presented, 93 U5 (log 45). -/
  pendingMC : Bool
  /-- The model's own field: the vectors of INTR presented while one was pending, in order (log 15). -/
  waitingINTR : List Byte
  /-- `P_EXT` as plain data: what the environment presents at the coming boundaries (log 15). -/
  ext : List ExtInput
  /-- The instruction just executed was POP SS (60_exceptions R291, 70_reset R318). -/
  intShadow : Bool
  /-- The terminal state of 60_exceptions R294. -/
  shutdown : Bool
  /-- The model's own field: which free value comes next (`Config.keepsPartialStore`, log 13). -/
  freeIx : Nat
deriving DecidableEq, Repr

/-- A segment of the real-address-mode reset: PRESUMED, the family's (log 1). -/
def resetSeg (sel : Word) (base : Dword) : SegReg :=
  ⟨sel, some { base := base, limit := 0xFFFF, big := Config.resetD, dpl := 0, present := true, writable := true }⟩

/-- The machine after reset. spec/ leaves every value to `P_START` (10_state R48); these are the
family's values that R48 quotes for orientation, PRESUMED (log 1), and for the tables, memory and
pending events values of the model's, DESIGN CHOICE (log 2, log 3). Unsafe. -/
def State.reset : State where
  regs := { eax := 0, ecx := 0, edx := 0x600, ebx := 0, esp := 0, ebp := 0, esi := 0, edi := 0 }
  eip := 0xFFF0
  pcNext := 0xFFF0
  eflags := 0x2
  cs := resetSeg 0xF000 0xFFFF0000
  ss := resetSeg 0 0
  ds := resetSeg 0 0
  es := resetSeg 0 0
  fs := resetSeg 0 0
  gs := resetSeg 0 0
  cpl := 0
  mode := .realMode
  gdt := []
  idt := []
  tss0 := ⟨0, 0⟩
  tss1 := ⟨0, 0⟩
  tss2 := ⟨0, 0⟩
  segTraps := []
  params := ⟨[], [], [], [], []⟩
  mem := []
  written := []
  pendingNMI := false
  pendingINTR := none
  pendingSMI := false
  pendingMC := false
  waitingINTR := []
  ext := []
  intShadow := false
  shutdown := false
  freeIx := 0

end Sys2Proof.Machine
end

