-- ==== Sys2Proof/Machine/Flags.lean ====
section
/-! DEFINITION. EFLAGS: its bits (10_state R28 to R30), what POPF, POPFD and IRET may change
(`P_FLAGMASK`), and what entry to a handler clears. No other instruction in scope computes a flag
(10_state R29). -/

namespace Sys2Proof.Machine

open Sys2Proof

/-- IF, bit 9 (10_state R28). -/
def flagIF (e : Dword) : Bool := e.getLsbD 9
/-- OF, bit 11 (10_state R29). -/
def flagOF (e : Dword) : Bool := e.getLsbD 11
/-- NT, bit 14 (10_state R30; read by 42_int R194). -/
def flagNT (e : Dword) : Bool := e.getLsbD 14
/-- VM, bit 17 (10_state R30; read by 42_int R194). -/
def flagVM (e : Dword) : Bool := e.getLsbD 17
/-- AC, bit 18 (10_state R30; read by 20_memory R68). -/
def flagAC (e : Dword) : Bool := e.getLsbD 18
/-- IOPL, bits 13:12 (10_state R30). -/
def iopl (e : Dword) : BitVec 2 := e.extractLsb' 12 2

/-- The reserved bits as 10_state R30 fixes them: bit 1 reads 1; bits 3, 5, 15 and 31:22 read 0. -/
def reservedFlagsFixed (e : Dword) : Bool := e &&& 0xFFC0802A == 0x2

/-- Entry through an interrupt gate clears IF (60_exceptions R280, R284). -/
def clearIF (e : Dword) : Dword := e &&& 0xFFFFFDFF

/-- Entry in real-address mode clears IF, and TF with it (60_exceptions R288). -/
def clearIFTF (e : Dword) : Dword := e &&& 0xFFFFFCFF

/-- POPFD clears RF, bit 16, under the default mask (40_stack R143, 95 V-FL5; log 11). -/
def clearRF (e : Dword) : Dword := e &&& 0xFFFEFFFF

/-- The bits any of the three may change at any level: CF, PF, AF, ZF, SF, TF, DF, OF, NT, AC, ID. -/
def freeFlagBits : Dword := 0x00244DD5

/-- The default of `P_FLAGMASK(POPF or POPFD, CPL, EFLAGS)` (40_stack R142, R143, decision D21): IF only where
CPL is not above IOPL, IOPL only at CPL 0, reserved bits and VM, VIF, VIP never. Log 11. -/
def popFlagMask (cpl : BitVec 2) (e : Dword) : Dword :=
  freeFlagBits ||| (if cpl ≤ iopl e then 0x200 else 0) ||| (if cpl = 0 then 0x3000 else 0)

/-- The default of `P_FLAGMASK(IRET, CPL, EFLAGS)` (42_int R194 to R196, decision D21): as for POPFD, and RF, and
VIF and VIP at CPL 0. Log 11. -/
def iretFlagMask (cpl : BitVec 2) (e : Dword) : Dword :=
  popFlagMask cpl e ||| 0x10000 ||| (if cpl = 0 then 0x180000 else 0)

/-- The default of `P_FLAGMASK`. -/
def defaultFlagMask (q : MaskQuery) : Dword :=
  match q.instr with
  | .popf | .popfd => popFlagMask q.cpl q.eflags
  | .iret => iretFlagMask q.cpl q.eflags

/-- The bits no mask admits: the reserved bits, which 10_state R30 fixes. -/
def neverMasked : Dword := 0xFFC0802A

/-- The mask the run's start supplies for an instruction in this state, if it supplies one (70_reset R315). -/
def suppliedMask (i : FlagInstr) (s : State) : Option Dword := s.params.flagMask.lookup ⟨i, s.cpl, s.eflags⟩

/-- `P_FLAGMASK(instr, CPL, EFLAGS)` (00_scope R5, 70_reset R315): the run's own, else the default. -/
def flagMask (i : FlagInstr) (s : State) : Dword :=
  (suppliedMask i s).getD (defaultFlagMask ⟨i, s.cpl, s.eflags⟩) &&& ~~~neverMasked

/-- `EFLAGS <- (EFLAGS & ~M) | (v & M)` (40_stack R142). -/
def mergeFlags (mask e v : Dword) : Dword := (e &&& ~~~mask) ||| (v &&& mask)

/-- EFLAGS after POPF (40_stack R142). -/
def flagsAfterPopf (s : State) (v : Dword) : Dword := mergeFlags (flagMask .popf s &&& 0xFFFF) s.eflags v

/-- EFLAGS after POPFD (40_stack R143). That RF is cleared, the rule's remark on the chip, goes with the default
mask alone: DESIGN CHOICE (log 11), a mask the run supplies is merged as the rule's pseudocode has it. -/
def flagsAfterPopfd (s : State) (v : Dword) : Dword :=
  match suppliedMask .popfd s with
  | none => clearRF (mergeFlags (flagMask .popfd s) s.eflags v)
  | some _ => mergeFlags (flagMask .popfd s) s.eflags v

/-- EFLAGS after IRET or IRETD from `s`, the mask taken at the level before the return (42_int R195, R196). -/
def flagsAfterIret (sz : OpSize) (s : State) (v : Dword) : Dword :=
  match sz with
  | .w16 => mergeFlags (flagMask .iret s &&& 0xFFFF) s.eflags v
  | .w32 => mergeFlags (flagMask .iret s) s.eflags v

end Sys2Proof.Machine
end

