-- ==== Sys2Proof/Machine/Ops.lean ====
section
/-! DEFINITION. The named operations the meanings share: memory, registers, translation, the stack
primitives, descriptor lookups, taking an exception or interrupt (`deliver`), and returning from one. -/

namespace Sys2Proof.Machine

open Sys2Proof

/-! ## Memory -/

/-- The byte at a linear address: plain memory, a read changes nothing (20_memory R72). -/
def Memory.read (m : Memory) (a : Nat) : Byte :=
  match m with
  | [] => Config.unlistedByte
  | (k, b) :: t => if k = a then b else Memory.read t a

/-- Insert a cell below the first greater address. -/
def Memory.insert (a : Nat) (b : Byte) : Memory → Memory
  | [] => [(a, b)]
  | (k, c) :: t => if a < k then (a, b) :: (k, c) :: t else (k, c) :: Memory.insert a b t

/-- Store one byte; the canonical form is kept: a byte equal to what an unlisted address reads as is
not listed. -/
def Memory.put (m : Memory) (a : Nat) (b : Byte) : Memory :=
  if b = Config.unlistedByte then m.filter (fun c => c.1 != a)
  else Memory.insert a b (m.filter (fun c => c.1 != a))

/-- `n` bytes at `a`, little-endian, addresses modulo 2^32 (20_memory R66, R75), zero-extended. -/
def Memory.loadLE (m : Memory) (a : Dword) : Nat → Dword
  | 0 => 0
  | n + 1 => (Memory.loadLE m (a + 1) n <<< 8) ||| (m.read a.toNat).setWidth 32

/-- Store the low `n` bytes of `v` at `a`, little-endian (20_memory R66). -/
def Memory.storeLE (m : Memory) (a : Dword) : Nat → Dword → Memory
  | 0, _ => m
  | n + 1, v => Memory.storeLE (m.put a.toNat (v.setWidth 8)) (a + 1) n (v >>> 8)

/-- The canonical form: addresses below 2^32 and strictly rising, no entry an unlisted address would give. -/
def Memory.wf : Memory → Bool
  | [] => true
  | (a, b) :: t => decide (a < 2 ^ 32) && b != Config.unlistedByte &&
      t.all (fun c => decide (a < c.1)) && Memory.wf t

/-- The memory an instruction leaves that stored `new` over `old` and then raised an exception: each
byte old or new, as `keep` says (60_exceptions R295, decision D6). -/
def Memory.partialMix (keep : Nat → Bool) (old new : Memory) : Memory :=
  (new ++ old).foldl (fun m c => if keep c.1 then m.put c.1 (new.read c.1) else m) old

/-- Add an address to a strictly rising list. -/
def insertAddr (a : Nat) : List Nat → List Nat
  | [] => [a]
  | k :: t => if a < k then a :: k :: t else if a = k then k :: t else k :: insertAddr a t

/-- Record `n` stored bytes at `a` (20_memory R84). -/
def markWritten (w : List Nat) (a : Dword) : Nat → List Nat
  | 0 => w
  | n + 1 => markWritten (insertAddr a.toNat w) (a + 1) n

/-! ## Registers -/

def Regs.get (r : Reg) (g : Regs) : Dword :=
  match r with
  | .eax => g.eax | .ecx => g.ecx | .edx => g.edx | .ebx => g.ebx
  | .esp => g.esp | .ebp => g.ebp | .esi => g.esi | .edi => g.edi

def Regs.set (r : Reg) (v : Dword) (g : Regs) : Regs :=
  match r with
  | .eax => { g with eax := v } | .ecx => { g with ecx := v }
  | .edx => { g with edx := v } | .ebx => { g with ebx := v }
  | .esp => { g with esp := v } | .ebp => { g with ebp := v }
  | .esi => { g with esi := v } | .edi => { g with edi := v }

/-- `zext_32` of the low word (00_scope R8). -/
def low16 (v : Dword) : Dword := (v.setWidth 16).setWidth 32

/-- `old` with its low word replaced by that of `v`: a 16-bit write leaves bits 31:16 (10_state R23). -/
def setLow16 (old v : Dword) : Dword := (old.extractLsb' 16 16) ++ (v.setWidth 16)

/-- The bytes of one item: `n = OpSize/8` (00_scope R11). -/
def itemBytes : OpSize → Nat
  | .w16 => 2
  | .w32 => 4

/-- The low `OpSize` bits, zero-extended. -/
def truncSize (sz : OpSize) (v : Dword) : Dword :=
  match sz with
  | .w16 => low16 v
  | .w32 => v

/-- Write `OpSize` bits into a doubleword. -/
def writeSize (sz : OpSize) (old v : Dword) : Dword :=
  match sz with
  | .w16 => setLow16 old v
  | .w32 => v

def readReg (sz : OpSize) (r : Reg) (s : State) : Dword := truncSize sz (s.regs.get r)

def writeReg (sz : OpSize) (r : Reg) (v : Dword) (s : State) : State :=
  { s with regs := s.regs.set r (writeSize sz (s.regs.get r) v) }

def State.seg (s : State) : SegName → SegReg
  | .es => s.es | .cs => s.cs | .ss => s.ss | .ds => s.ds | .fs => s.fs | .gs => s.gs

/-- `pc <- pc_next` (10_state R26). -/
def advance (s : State) : State := { s with eip := s.pcNext }

/-! ## Trouble: an exception or a refusal inside a rule -/

/-- Why a rule is abandoned (00_scope R10). -/
inductive Trouble where
  | exc (e : Exc)
  | refuse (r : Refusal)
deriving DecidableEq, Repr

/-- An abandoned rule and the state it had reached: only its memory matters (00_scope R10, decision D6). -/
structure Stop where
  why : Trouble
  reached : State
deriving DecidableEq, Repr

/-- A check inside a rule: trouble abandons the rule at the state reached. -/
def attempt {α : Type} (s : State) (x : Except Trouble α) : Except Stop α :=
  match x with
  | .ok a => .ok a
  | .error t => .error ⟨t, s⟩

/-! ## Translation (`P_SEG`, 20_memory R75 to R77) -/

def AccessKind.isWrite : AccessKind → Bool
  | .stackWrite | .dataWrite => true
  | .stackRead | .dataRead | .fetch => false

/-- The exception of a failed segment check: #SS for an access that uses SS, #GP for any other
(20_memory R76, 60_exceptions R267, R268). -/
def segFault (isSS : Bool) (code : Dword) : Trouble := .exc (if isSS then .ss code else .gp code)

/-- A selector as an error code: index and TI (60_exceptions R286). -/
def selCode (sel : Word) : Dword := (sel &&& 0xFFFC).setWidth 32

/-- The access passes the top of the offset space: 2^32, and 2^16 for a 16-bit stack (`narrow`) (20_memory
R77, decision D9). -/
def pastTop (narrow : Bool) (off : Dword) (len : Nat) : Bool :=
  decide (off.toNat + len > 2 ^ 32) || (narrow && decide (off.toNat + len > 2 ^ 16))

/-- The base of a loaded segment; 0 where there is no record. -/
def segBase (r : SegReg) : Dword :=
  match r.desc with
  | some d => d.base
  | none => 0

/-- The segment checks of `P_SEG` where no verdict is listed: a loaded, present, permitting segment and the
access inside its limit (20_memory R75, R76). Log 6. -/
def checkSegment (isSS : Bool) (r : SegReg) (off : Dword) (len : Nat) (k : AccessKind) : Except Trouble Unit :=
  match r.desc with
  | none => .error (segFault isSS 0)
  | some d =>
    if d.present = false then .error (.exc (if isSS then .ss (selCode r.sel) else .np (selCode r.sel)))
    else if k.isWrite && !d.writable then .error (segFault isSS 0)
    else if off.toNat + len - 1 > d.limit.toNat then .error (segFault isSS 0)
    else .ok ()

/-- Whether a clause of `segTraps` raises for this access: one of its bytes, at addresses modulo 2^32, lies in
the clause's range (log 7). #AC only for a misaligned data reference at CPL 3 with the AC flag set (20_memory
R68). DESIGN CHOICE (log 7): an access is misaligned where its linear address is no multiple of its length, and
State holds no AM bit of CR0: that there is an #AC clause stands for AM = 1. -/
def SegTrap.hits (s : State) (lin : Dword) (len : Nat) (k : AccessKind) (t : SegTrap) : Bool :=
  (t.kind == none || t.kind == some k) &&
  (List.range len).any (fun j => decide (t.lo ≤ lin + BitVec.ofNat 32 j ∧ lin + BitVec.ofNat 32 j ≤ t.hi)) &&
  (match t.exc with
    | .pageFault _ => true
    | .alignment => k != .fetch && flagAC s.eflags && s.cpl == 3 && decide (lin.toNat % len ≠ 0))

def TrapExc.exc : TrapExc → Exc
  | .pageFault code => .pf code
  | .alignment => .ac

/-- `P_SEG` for an access that stays below the top (20_memory R75): the run's own verdict, a linear address or an
exception; else the segment checks and the clauses of `segTraps`, and the base plus the offset modulo 2^32. -/
def segVerdict (s : State) (isSS : Bool) (r : SegReg) (off : Dword) (len : Nat) (k : AccessKind) :
    Except Trouble Dword :=
  match s.params.segVerdict.lookup ⟨r.sel, off, len, k⟩ with
  | some (.linear a) => .ok a
  | some (.raises e) => .error (.exc e)
  | none => do
    checkSegment isSS r off len k
    match s.segTraps.find? (SegTrap.hits s (segBase r + off) len k) with
    | some t => .error (.exc t.exc.exc)
    | none => .ok (segBase r + off)

/-- The translation of an access through segment register `r`: refused past the top whatever the segment
(20_memory R77, decision D9), else what `P_SEG` answers (R75). -/
def translate (s : State) (isSS : Bool) (r : SegReg) (narrow : Bool) (off : Dword) (len : Nat)
    (k : AccessKind) : Except Trouble Dword :=
  if pastTop narrow off len then .error (.refuse .offsetSpaceTop) else segVerdict s isSS r off len k

/-- Store at a translated address, and record the bytes as written (20_memory R75, R84). -/
def storeAt (s : State) (lin : Dword) (n : Nat) (v : Dword) : State :=
  { s with mem := s.mem.storeLE lin n v, written := markWritten s.written lin n }

/-! ## The stack primitives (00_scope R12) -/

/-- `StackAddrSize` is 32: the B flag of the stack segment (00_scope R11, 10_state R37). -/
def wideStack (s : State) : Bool :=
  match s.ss.desc with
  | some d => d.big
  | none => false

/-- Modulo 2^`StackAddrSize` (20_memory R64). -/
def wrapStack (s : State) (v : Dword) : Dword := if wideStack s then v else low16 v

/-- `StackPtr()`. -/
def stackPtr (s : State) : Dword := wrapStack s s.regs.esp

/-- `SetStackPtr(v)`. -/
def setStackPtr (v : Dword) (s : State) : State :=
  { s with regs := { s.regs with esp := if wideStack s then v else setLow16 s.regs.esp v } }

/-- The linear address of `n` bytes of the current stack, or why there is none. -/
def stackSlot (s : State) (off : Dword) (n : Nat) (k : AccessKind) : Except Trouble Dword :=
  translate s true s.ss (!wideStack s) off n k

/-- `MemRead(SS:off, n)` of a stack access. -/
def peek (n : Nat) (off : Dword) (s : State) : Except Stop Dword := do
  let lin ← attempt s (stackSlot s off n .stackRead)
  .ok (s.mem.loadLE lin n)

/-- `Push_n(v)`. -/
def push (n : Nat) (v : Dword) (s : State) : Except Stop State := do
  let t := wrapStack s (stackPtr s - BitVec.ofNat 32 n)
  let lin ← attempt s (stackSlot s t n .stackWrite)
  .ok (setStackPtr t (storeAt s lin n v))

/-- `Pop_n()`. -/
def pop (n : Nat) (s : State) : Except Stop (Dword × State) := do
  let v ← peek n (stackPtr s) s
  .ok (v, setStackPtr (wrapStack s (stackPtr s + BitVec.ofNat 32 n)) s)

/-- `Release(k)`. -/
def release (k : Dword) (s : State) : State := setStackPtr (wrapStack s (stackPtr s + k)) s

/-- Push the values in order, `n` bytes each. -/
def pushAll (n : Nat) : List Dword → State → Except Stop State
  | [], s => .ok s
  | v :: t, s => do pushAll n t (← push n v s)

/-! ## Selectors and descriptors (`P_GDT`, 10_state R43) -/

/-- The requested privilege level of a selector (10_state R43). -/
def rpl (sel : Word) : BitVec 2 := sel.setWidth 2

/-- A selector with its RPL bits set (41_call_ret R172 step 7). -/
def withRpl (sel : Word) (level : BitVec 2) : Word := (sel.extractLsb' 2 14) ++ level

/-- A null selector references no descriptor. DESIGN CHOICE (log 8): null are 0000H to 0003H, index 0 of the
first table (bits 15:2 all 0); 0004H to 0007H, index 0 with the table bit set, are looked up like any other. -/
def isNull (sel : Word) : Bool := sel.extractLsb' 2 14 == 0

def descriptorOf (s : State) (sel : Word) : Option Descriptor :=
  if isNull sel then none else s.gdt.lookup (sel.extractLsb' 2 14)

def Descriptor.present : Descriptor → Bool
  | .code d | .data d => d.present
  | .callGate g => g.access.present
  | .taskGate a | .tss a => a.present

/-- `P_GDT(sel)`: #GP(sel) where there is no record, #NP(sel) where it is not present (60_exceptions R266). -/
def gdtLookup (s : State) (sel : Word) : Except Trouble Descriptor :=
  match descriptorOf s sel with
  | none => .error (.exc (.gp (selCode sel)))
  | some d => if d.present then .ok d else .error (.exc (.np (selCode sel)))

/-- A lookup that must find a code segment: #GP(sel) or #NP(sel) (60_exceptions R283, 41_call_ret R169, R172, R174,
42_int R195, R196). DESIGN CHOICE (log 8): a record that is both not present and no code segment raises #NP, presence
being checked first; these rules list the two exceptions and do not say which goes first. -/
def codeSegment (s : State) (sel : Word) : Except Trouble SegDesc := do
  match ← gdtLookup s sel with
  | .code d => .ok d
  | .data _ | .callGate _ | .taskGate _ | .tss _ => .error (.exc (.gp (selCode sel)))

/-- The default of `P_GATECHECK` (41_call_ret R171; log 9): a call gate's level is not below CPL or the
selector's RPL, a handler's gate not below CPL, the code segment of a return to a less privileged level is of the
level of the selector's RPL. -/
def defaultGateCheck (q : GateQuery) : Bool :=
  match q with
  | .call g sel cpl => decide (cpl ≤ g.access.dpl) && decide (rpl sel ≤ g.access.dpl)
  | .softint g _ cpl => decide (cpl ≤ g.access.dpl)
  | .ret d sel _ => d.dpl == rpl sel

/-- `P_GATECHECK` (00_scope R5, 70_reset R315): the run's own answer, else the default. -/
def gateAllows (s : State) (q : GateQuery) : Bool := (s.params.gateCheck.lookup q).getD (defaultGateCheck q)

/-- The code segment a return to a less privileged level goes to: `P_GATECHECK(return, …)` must hold (41_call_ret
R174, 42_int R196). A return to the same level asks the lookup alone (41_call_ret R169, 42_int R195). -/
def returnSegment (s : State) (sel : Word) : Except Trouble SegDesc := do
  let d ← codeSegment s sel
  if gateAllows s (.ret d sel s.cpl) then .ok d else .error (.exc (.gp (selCode sel)))

/-- A stack segment for privilege level `level`: a writable data segment of that level named with that
RPL, else `bad`; #SS(sel) where it is not present (40_stack R137, 60_exceptions R267). DESIGN CHOICE (log 8): a
segment both unfit and not present raises `bad`, fitness being checked first. -/
def stackSegment (s : State) (bad : Dword → Exc) (level : BitVec 2) (sel : Word) : Except Trouble SegDesc :=
  match descriptorOf s sel with
  | some (.data d) =>
    if d.writable && d.dpl == level && rpl sel == level then
      (if d.present then .ok d else .error (.exc (.ss (selCode sel))))
    else .error (.exc (bad (selCode sel)))
  | none | some (.code _) | some (.callGate _) | some (.taskGate _) | some (.tss _) =>
    .error (.exc (bad (selCode sel)))

/-- A segment for DS, ES, FS or GS: none for a null selector; else a segment whose level is not above
CPL or RPL (40_stack R137, 20_memory R79). DESIGN CHOICE (log 8): a segment both unfit and not present
raises #NP, the lookup with its presence check coming first. -/
def dataSegment (s : State) (sel : Word) : Except Trouble (Option SegDesc) :=
  if isNull sel then .ok none
  else do
    match ← gdtLookup s sel with
    | .data d | .code d =>
      if s.cpl ≤ d.dpl ∧ rpl sel ≤ d.dpl then .ok (some d) else .error (.exc (.gp (selCode sel)))
    | .callGate _ | .taskGate _ | .tss _ => .error (.exc (.gp (selCode sel)))

/-- A segment register loaded in real-address mode: base 16 × selector, the rest of the record as it was
(60_exceptions R288, decision D23; log 19). -/
def realSegment (sel : Word) (r : SegReg) : SegReg :=
  let base : Dword := sel.setWidth 32 <<< 4
  match r.desc with
  | some d => ⟨sel, some { d with base := base }⟩
  | none => ⟨sel, some { base := base, limit := 0xFFFF, big := false, dpl := 0, present := true, writable := true }⟩

/-- `P_TSS(level)` (10_state R42). -/
def tssStack (s : State) (level : BitVec 2) : TssStack :=
  match level.toNat with
  | 0 => s.tss0
  | 1 => s.tss1
  | _ => s.tss2

/-- Switch to the TSS stack of a more privileged level and push the saved SS and ESP on it: steps 2 to
4 of 41_call_ret R172, steps 1 to 3 of 60_exceptions R285. The level is switched with the stack, so that
the accesses to the new stack are the new level's (log 27). -/
def switchStack (level : BitVec 2) (s : State) : Except Stop State := do
  let t := tssStack s level
  let d ← attempt s (stackSegment s .ts level t.ss)
  pushAll 4 [s.ss.sel.setWidth 32, s.regs.esp]
    { s with ss := ⟨t.ss, some d⟩, regs := { s.regs with esp := t.esp }, cpl := level }

/-! ## Taking an exception or interrupt (60_exceptions R283 to R288, R294) -/

/-- The vector of an exception (60_exceptions R276). -/
def Exc.vector : Exc → Byte
  | .br => 5 | .ud => 6 | .df => 8 | .ts _ => 10 | .np _ => 11
  | .ss _ => 12 | .gp _ => 13 | .pf _ => 14 | .ac => 17

/-- Its error code (60_exceptions R286). -/
def Exc.code : Exc → Option Dword
  | .br | .ud => none
  | .df | .ac => some 0
  | .ts c | .np c | .ss c | .gp c | .pf c => some c

/-- Its class (60_exceptions R276). -/
def Exc.kind : Exc → EventKind
  | .df => .abort
  | .br | .ud | .ts _ | .np _ | .ss _ | .gp _ | .pf _ | .ac => .fault

def Exc.event (e : Exc) : Event := ⟨e.vector, e.kind, e.code⟩

/-- EXT, bit 0 of the selector-like codes, for an exception raised while an event that was not a
software interrupt is delivered (60_exceptions R286). -/
def Exc.withExt (k : EventKind) (e : Exc) : Exc :=
  match k with
  | .software => e
  | .fault | .trap | .abort | .external | .nmi =>
    match e with
    | .ts c => .ts (c ||| 1)
    | .np c => .np (c ||| 1)
    | .ss c => .ss (c ||| 1)
    | .gp c => .gp (c ||| 1)
    | .br | .ud | .df | .pf _ | .ac => e

/-- The default of `P_ERRCODE`: the vectors that push a code, when raised by the processor in protected mode
(60_exceptions R286, R288). -/
def pushesCode (q : ErrQuery) : Bool :=
  match q.mode, q.kind with
  | .realMode, _ => false
  | .protectedMode, .software | .protectedMode, .external | .protectedMode, .nmi => false
  | .protectedMode, .fault | .protectedMode, .trap | .protectedMode, .abort =>
    q.vector == 8 || (10 ≤ q.vector && q.vector ≤ 14) || q.vector == 17

/-- `P_ERRCODE` (00_scope R5, 70_reset R315): the run's own answer, else the default. -/
def errCode (s : State) (ev : Event) : ErrCode :=
  (s.params.errCode.lookup ⟨s.mode, ev.vector, ev.kind⟩).getD
    (if pushesCode ⟨s.mode, ev.vector, ev.kind⟩ then .raised else .nothing)

/-- The error code `deliver` pushes, if it pushes one; 0 where a code is asked for and none was raised. -/
def Event.pushed (ev : Event) (s : State) : Option Dword :=
  match errCode s ev with
  | .nothing => none
  | .raised => some (ev.code.getD 0)
  | .value c => some c

/-- The default of `P_SAVED_EIP` (60_exceptions R287, decision D17). -/
def defaultSavedEip : EventKind → SavedAt
  | .trap | .software | .external | .nmi => .next
  | .fault | .abort => .instruction

/-- `P_SAVED_EIP` (00_scope R5, 60_exceptions R287): the run's own answer, else the default. At a boundary, where
INTR and NMI are taken, the next instruction is at EIP; elsewhere it is at `pc_next`. -/
def savedEip (k : EventKind) (s : State) : Dword :=
  match (s.params.savedEip.lookup k).getD (defaultSavedEip k), k with
  | .instruction, _ | .next, .external | .next, .nmi => s.eip
  | .next, .fault | .next, .trap | .next, .abort | .next, .software => s.pcNext

/-- `8v + 2`: vector `v` as an error code (60_exceptions R286). -/
def idtCode (v : Byte) : Dword := 8 * v.setWidth 32 + 2

/-- `P_IDT(v)` (10_state R41, 60_exceptions R283): #GP(8v + 2) with no entry, #NP(8v + 2) not present; a
task gate is refused (60_exceptions R289). -/
def idtGate (s : State) (v : Byte) : Except Trouble IntGate :=
  match s.idt.lookup v with
  | none => .error (.exc (.gp (idtCode v)))
  | some (.gate g) => if g.access.present then .ok g else .error (.exc (.np (idtCode v)))
  | some (.task a) => if a.present then .error (.refuse .handlerTask) else .error (.exc (.np (idtCode v)))

/-- The checks before anything is pushed (60_exceptions R281, R283): the gate and the handler's code
segment; for a software interrupt `P_GATECHECK(softint, …)` (42_int R190). -/
def handlerGate (ev : Event) (s : State) : Except Trouble (IntGate × SegDesc) := do
  let g ← idtGate s ev.vector
  if ev.kind = .software ∧ gateAllows s (.softint g ev.vector s.cpl) = false then .error (.exc (.gp (idtCode ev.vector)))
  else do
    let c ← codeSegment s g.selector
    if s.cpl < c.dpl then .error (.exc (.gp (selCode g.selector)))
    else .ok (g, c)

/-- Entry in protected mode (60_exceptions R283 to R285). -/
def enterProtected (ev : Event) (s : State) : Except Stop State := do
  let (g, c) ← attempt s (handlerGate ev s)
  let s1 ← if c.dpl = s.cpl then .ok s else switchStack c.dpl s
  let s2 ← pushAll 4 ([s.eflags, s.cs.sel.setWidth 32, savedEip ev.kind s] ++ (ev.pushed s).toList) s1
  .ok { s2 with
    cs := ⟨withRpl g.selector c.dpl, some c⟩
    eip := g.offset
    cpl := c.dpl
    eflags := match g.kind with
      | .interrupt => clearIF s.eflags
      | .trap => s.eflags }

/-- Entry in real-address mode (60_exceptions R288): the table is at linear 0, four bytes an entry, the
offset first (10_state R44). An error code is pushed last, only where `P_ERRCODE` asks for one; DESIGN
CHOICE (log 46): as a word, its low 16 bits, the rule giving its width nowhere.
DESIGN CHOICE (log 39): the two table reads are of linear memory, through no segment, and nothing of `P_SEG`
stops them, although 20_memory R75 has every MemRead call it. -/
def enterReal (ev : Event) (s : State) : Except Stop State := do
  let s1 ← pushAll 2 ([s.eflags, s.cs.sel.setWidth 32, savedEip ev.kind s] ++ (ev.pushed s).toList) s
  let entry : Dword := 4 * ev.vector.setWidth 32
  .ok { s1 with
    cs := realSegment ((s1.mem.loadLE (entry + 2) 2).setWidth 16) s.cs
    eip := s1.mem.loadLE entry 2
    eflags := clearIFTF s.eflags }

/-- An exception raised inside an entry carries EXT as the event asks (60_exceptions R286). -/
def markExt (k : EventKind) (r : Except Stop State) : Except Stop State :=
  match r with
  | .ok s => .ok s
  | .error ⟨.exc e, p⟩ => .error ⟨.exc (e.withExt k), p⟩
  | .error ⟨.refuse x, p⟩ => .error ⟨.refuse x, p⟩

/-- One run of `deliver`'s pseudocode (60_exceptions R283). -/
def enterHandler (ev : Event) (s : State) : Except Stop State :=
  match s.mode with
  | .realMode => markExt ev.kind (enterReal ev s)
  | .protectedMode => markExt ev.kind (enterProtected ev s)

/-- What follows an exception raised during delivery (60_exceptions R294). -/
inductive Escalation where
  | serial | double | shutdown
deriving DecidableEq, Repr

/-- The contributory vectors (60_exceptions R294). -/
def contributory (v : Byte) : Bool := v == 0 || (10 ≤ v && v ≤ 13)

/-- First the event being delivered, second the vector raised (60_exceptions R294). -/
def escalate (first : Event) (second : Byte) : Escalation :=
  match first.kind with
  | .software | .external | .nmi => .serial
  | .fault | .trap | .abort =>
    if first.vector = 8 then .shutdown
    else if contributory first.vector && contributory second then .double
    else if first.vector = 14 && (contributory second || second == 14) then .double
    else .serial

/-- The state left by a rule that began in `s`, reached `p` and raised: registers and flags of `s`, each
byte stored in between old or new (00_scope R10, 60_exceptions R295, decision D6; log 13). DESIGN CHOICE (log 13): of
what the rule would have written, D6 and 93 U17, only the bytes it had stored before it raised, R295; the rest stay
old. -/
def abandon (s p : State) : State :=
  if p.mem = s.mem then { s with written := p.written }
  else { s with
    mem := Memory.partialMix (Config.keepsPartialStore s.freeIx) s.mem p.mem
    written := p.written
    freeIx := s.freeIx + 1 }

/-- Delivery with at most `fuel` exceptions raised on the way. The outcome of an entry depends on the
vector alone (the state before it is restored), so a chain longer than the raisable vectors repeats
for ever: `deliveryLoop` (log 16). -/
def deliverFrom : Nat → Event → State → Host.Outcome State Fault Refusal
  | 0, _, _ => .fault .deliveryLoop
  | fuel + 1, ev, s =>
    match enterHandler ev s with
    | .ok s' => .next s'
    | .error ⟨.refuse r, _⟩ => .refused r
    | .error ⟨.exc e, p⟩ =>
      match escalate ev e.vector with
      | .serial => deliverFrom fuel e.event (abandon s p)
      | .double => deliverFrom fuel Exc.df.event (abandon s p)
      | .shutdown => .next { abandon s p with shutdown := true }

/-- `deliver(v, kind, err)` (60_exceptions R283): the ONE way an exception or interrupt is taken. -/
def deliver (ev : Event) (s : State) : Host.Outcome State Fault Refusal := deliverFrom 10 ev s

/-- End an instruction that began in `s`: its next state, its refusal, or the exception it raises
delivered from the state as before it (00_scope R10). -/
def complete (s : State) (r : Except Stop State) : Host.Outcome State Fault Refusal :=
  match r with
  | .ok s' => .next s'
  | .error ⟨.refuse x, _⟩ => .refused x
  | .error ⟨.exc e, p⟩ => deliver e.event (abandon s p)

/-! ## Returns to another procedure (41_call_ret R169, R174; 42_int R194 to R197) -/

/-- A data segment register that names a segment more privileged than `level` is loaded with the null
selector (41_call_ret R174, 93 K9; log 25). -/
def nullAbove (level : BitVec 2) (r : SegReg) : SegReg :=
  match r.desc with
  | some d => if d.dpl < level then ⟨0, none⟩ else r
  | none => r

/-- The return to a less privileged level, the saved ESP and SS at stack offset `q` (41_call_ret R174,
42_int R196). -/
def outerReturn (sz : OpSize) (q eip : Dword) (cs : Word) (s : State) : Except Stop State := do
  let d ← attempt s (returnSegment s cs)
  let esp ← peek (itemBytes sz) (wrapStack s q) s
  let ssItem ← peek (itemBytes sz) (wrapStack s (q + BitVec.ofNat 32 (itemBytes sz))) s
  let ssSel : Word := ssItem.setWidth 16
  let sd ← attempt s (stackSegment s .gp (rpl cs) ssSel)
  .ok { s with
    cs := ⟨cs, some d⟩, eip := eip, cpl := rpl cs
    ss := ⟨ssSel, some sd⟩, regs := { s.regs with esp := esp }
    ds := nullAbove (rpl cs) s.ds, es := nullAbove (rpl cs) s.es
    fs := nullAbove (rpl cs) s.fs, gs := nullAbove (rpl cs) s.gs }

/-- ESP after an IRET to a less privileged level (42_int R196): with `OpSize` 16 the word is SP's, and ESP[31:16]
is a free value between the old and zero, the rule saying both (log 18). -/
def iretEsp (sz : OpSize) (old item : Dword) : Dword :=
  match sz with
  | .w16 => if Config.iretKeepsUpperEsp then setLow16 old item else item
  | .w32 => item

/-- IRET and IRETD (42_int R194 to R197). -/
def interruptReturn (sz : OpSize) (s : State) : Except Stop State := do
  let n := BitVec.ofNat 32 (itemBytes sz)
  let p := stackPtr s
  let eip ← peek (itemBytes sz) p s
  let csItem ← peek (itemBytes sz) (wrapStack s (p + n)) s
  let image ← peek (itemBytes sz) (wrapStack s (p + 2 * n)) s
  let cs : Word := csItem.setWidth 16
  let flags := flagsAfterIret sz s image
  let top := wrapStack s (p + 3 * n)
  match s.mode with
  | .realMode => .ok (setStackPtr top { s with cs := realSegment cs s.cs, eip := eip, eflags := flags })
  | .protectedMode =>
    if flagNT s.eflags then .error ⟨.refuse .taskReturn, s⟩
    else if sz = .w32 ∧ flagVM image ∧ s.cpl = 0 then .error ⟨.refuse .virtual8086Return, s⟩
    else if rpl cs < s.cpl then .error ⟨.exc (.gp (selCode cs)), s⟩
    else if rpl cs = s.cpl then do
      let d ← attempt s (codeSegment s cs)
      .ok (setStackPtr top { s with cs := ⟨cs, some d⟩, eip := eip, eflags := flags })
    else do
      let s' ← outerReturn sz (p + 3 * n) eip cs s
      .ok { s' with eflags := flags, regs := { s'.regs with esp := iretEsp sz s.regs.esp s'.regs.esp } }

end Sys2Proof.Machine
end

