-- ==== Sys2Proof/Machine/Operands.lean ====
section
/-! DEFINITION. The explicit operands: effective offsets (30_encoding R98 to R100), default segments
(R101), reading and writing a ModRM operand (R97), and code addresses. -/

namespace Sys2Proof.Machine

open Sys2Proof

/-- The register sum of a 16-bit form, before `disp` (30_encoding R100). -/
def base16Value (f : Base16) (g : Regs) : Word :=
  match f with
  | .bxsi => g.ebx.setWidth 16 + g.esi.setWidth 16
  | .bxdi => g.ebx.setWidth 16 + g.edi.setWidth 16
  | .bpsi => g.ebp.setWidth 16 + g.esi.setWidth 16
  | .bpdi => g.ebp.setWidth 16 + g.edi.setWidth 16
  | .si => g.esi.setWidth 16
  | .di => g.edi.setWidth 16
  | .bp => g.ebp.setWidth 16
  | .bx => g.ebx.setWidth 16
  | .none => 0

/-- The effective offset: modulo 2^32 (30_encoding R98, R99) or modulo 2^16 zero-extended (R100). -/
def effOffset (a : MemAddr) (g : Regs) : Dword :=
  match a with
  | .a32 base index disp =>
    (match base with
      | some b => g.get b
      | none => 0) +
    (match index with
      | some (i, sc) => g.get i <<< sc.toNat
      | none => 0) + disp
  | .a16 f disp => (base16Value f g + disp).setWidth 32

/-- The default segment: SS where the base is EBP or ESP or the form uses BP, else DS (30_encoding R101). -/
def defaultSeg (a : MemAddr) : SegName :=
  match a with
  | .a32 (some .ebp) _ _ | .a32 (some .esp) _ _ => .ss
  | .a32 (some .eax) _ _ | .a32 (some .ecx) _ _ | .a32 (some .edx) _ _ | .a32 (some .ebx) _ _
  | .a32 (some .esi) _ _ | .a32 (some .edi) _ _ | .a32 none _ _ => .ds
  | .a16 .bpsi _ | .a16 .bpdi _ | .a16 .bp _ => .ss
  | .a16 .bxsi _ | .a16 .bxdi _ | .a16 .si _ | .a16 .di _ | .a16 .bx _ | .a16 .none _ => .ds

/-- The segment of an operand: its override, else the default (30_encoding R94, R101). -/
def opSeg (m : MemOp) : SegName :=
  match m.seg with
  | some g => g
  | none => defaultSeg m.addr

/-- The linear address of `n` bytes of a memory operand, `disp` bytes above its offset, or why there is
none: #SS where the segment is SS, #GP otherwise (20_memory R76). DESIGN CHOICE (log 40): where R105, R165 and
R193 take the second item of a far pointer or of BOUND's pair at `ea + n`, the sum is modulo 2^32 with either
address size: past FFFFFFFFH it is at offset 0 and past FFFFH it goes on; the refusal of R77 is for one item.
DESIGN CHOICE (log 44): `P_SEG` is asked for data (`k`), not for a stack access, also where the segment is SS. -/
def operandSlot (s : State) (m : MemOp) (disp : Dword) (n : Nat) (k : AccessKind) : Except Trouble Dword :=
  translate s (opSeg m == .ss) (s.seg (opSeg m)) false (effOffset m.addr s.regs + disp) n k

/-- `MemRead(seg:off + disp, n)` of a memory operand. -/
def readMemOp (n : Nat) (m : MemOp) (disp : Dword) (s : State) : Except Stop Dword := do
  let lin ← attempt s (operandSlot s m disp n .dataRead)
  .ok (s.mem.loadLE lin n)

/-- A ModRM operand of `OpSize` bits (30_encoding R97). -/
def readRMOp (sz : OpSize) (rm : RM) (s : State) : Except Stop Dword :=
  match rm with
  | .reg r => .ok (readReg sz r s)
  | .mem m => readMemOp (itemBytes sz) m 0 s

/-- Write `OpSize` bits to a ModRM operand. -/
def writeRMOp (sz : OpSize) (rm : RM) (v : Dword) (s : State) : Except Stop State :=
  match rm with
  | .reg r => .ok (writeReg sz r v s)
  | .mem m => do
    let lin ← attempt s (operandSlot s m 0 (itemBytes sz) .dataWrite)
    .ok (storeAt s lin (itemBytes sz) v)

/-- The limit of the current code segment; none where there is no record. -/
def codeLimit (s : State) : Option Dword := s.cs.desc.map (·.limit)

/-- A near transfer's target outside the code segment limit raises #GP(0) (41_call_ret R160 to R162). -/
def checkTarget (s : State) (target : Dword) : Except Trouble Dword :=
  match codeLimit s with
  | some limit => if target ≤ limit then .ok target else .error (.exc (.gp 0))
  | none => .error (.exc (.gp 0))

/-- The `OpSize` bits of `v` as a signed number (42_int R193). -/
def signedSize (sz : OpSize) (v : Dword) : Int :=
  match sz with
  | .w16 => (v.setWidth 16).toInt
  | .w32 => v.toInt

end Sys2Proof.Machine
end

