-- ==== Sys2Proof/Machine/Call.lean ====
section
/-! DEFINITION. CALL and RET, near, far and between privilege levels (41_call_ret R160 to R176). -/

namespace Sys2Proof.Machine

open Sys2Proof

/-! ## Near -/

/-- The target of a relative call: `pc_next + rel`, its low word with `OpSize` 16 (R160, 30_encoding R103). -/
def relTarget (sz : OpSize) (rel : Dword) (s : State) : Dword := truncSize sz (s.pcNext + rel)

/-- Push the return-instruction pointer and go to the target (R160). -/
def nearCall (sz : OpSize) (target : Dword) (s : State) : Except Stop State := do
  let t ← attempt s (checkTarget s target)
  let s1 ← push (itemBytes sz) (truncSize sz s.pcNext) s
  .ok { s1 with eip := t }

/-- CALL rel16/rel32 (R160). -/
def execCallRel (sz : OpSize) (rel : Dword) (s : State) : Host.Outcome State Fault Refusal :=
  complete s (nearCall sz (relTarget sz rel s) s)

/-- CALL r/m16/r/m32: the operand is read before the push (R161). -/
def execCallRM (sz : OpSize) (rm : RM) (s : State) : Host.Outcome State Fault Refusal :=
  complete s (do nearCall sz (← readRMOp sz rm s) s)

/-- Pop the return-instruction pointer, then release `k` bytes (R162, R163). -/
def nearReturn (sz : OpSize) (k : Dword) (s : State) : Except Stop State := do
  let (v, s1) ← pop (itemBytes sz) s
  let t ← attempt s (checkTarget s v)
  .ok { release k s1 with eip := t }

/-- RET (R162). -/
def execRet (sz : OpSize) (s : State) : Host.Outcome State Fault Refusal := complete s (nearReturn sz 0 s)

/-- RET n (R163). -/
def execRetImm (sz : OpSize) (k : Word) (s : State) : Host.Outcome State Fault Refusal :=
  complete s (nearReturn sz (k.setWidth 32) s)

/-! ## Far CALL -/

/-- Copy `n` doublewords from the caller's stack, the highest first (R172 step 5). `old` is the caller's
SS, `narrow` and `ptr` its pointer's width and value. DESIGN CHOICE (log 32): of the rule's "#GP/#SS" for a
parameter that cannot be read, a failed segment check is #SS, the register the caller's stack was read through being
SS. -/
def copyParams (old : SegReg) (narrow : Bool) (ptr : Dword) : Nat → State → Except Stop State
  | 0, s => .ok s
  | n + 1, s => do
    let at' := ptr + BitVec.ofNat 32 (Config.paramSize * n)
    let off := if narrow then low16 at' else at'
    let lin ← attempt s (translate s true old narrow off Config.paramSize .stackRead)
    let s1 ← push 4 (s.mem.loadLE lin Config.paramSize) s
    copyParams old narrow ptr n s1

/-- A call through a call gate (R172, R173): to a more privileged level with a stack switch and a
parameter copy, or to the same level as a far call with 4-byte items. -/
def gateCall (g : CallGate) (gsel : Word) (s : State) : Except Stop State := do
  if gateAllows s (.call g gsel s.cpl) = false then .error ⟨.exc (.gp (selCode gsel)), s⟩
  else do
    let c ← attempt s (codeSegment s g.selector)
    if s.cpl < c.dpl then .error ⟨.exc (.gp (selCode g.selector)), s⟩
    else do
      let s1 ←
        if c.dpl = s.cpl then .ok s
        else do copyParams s.ss (!wideStack s) (stackPtr s) g.paramCount.toNat (← switchStack c.dpl s)
      let s2 ← pushAll 4 [s.cs.sel.setWidth 32, s.pcNext] s1
      .ok { s2 with cs := ⟨withRpl g.selector c.dpl, some c⟩, eip := g.offset, cpl := c.dpl }

/-- Steps 1 and 2 of a far call (R166). -/
def pushFarReturn (sz : OpSize) (s : State) : Except Stop State :=
  pushAll (itemBytes sz) [s.cs.sel.setWidth 32, truncSize sz s.pcNext] s

/-- `FarCall(sel, off)` (R166). The RPL bits of CS become CPL, as 10_state R34 has them (CPL = CS[1:0]; log 20). -/
def farCall (sz : OpSize) (sel : Word) (off : Dword) (s : State) : Except Stop State :=
  match s.mode with
  | .realMode => do
    let s1 ← pushFarReturn sz s
    .ok { s1 with cs := realSegment sel s.cs, eip := off }
  | .protectedMode => do
    match ← attempt s (gdtLookup s sel) with
    | .code d =>
      if d.dpl ≠ s.cpl then .error ⟨.exc (.gp (selCode sel)), s⟩
      else do
        let s1 ← pushFarReturn sz s
        .ok { s1 with cs := ⟨withRpl sel s.cpl, some d⟩, eip := off }
    | .callGate g => gateCall g sel s
    | .taskGate _ | .tss _ => .error ⟨.refuse .taskSwitch, s⟩
    | .data _ => .error ⟨.exc (.gp (selCode sel)), s⟩

/-- CALL ptr16:16/ptr16:32 (R164). -/
def execCallPtr (sz : OpSize) (sel : Word) (off : Dword) (s : State) : Host.Outcome State Fault Refusal :=
  complete s (farCall sz sel (truncSize sz off) s)

/-- CALL m16:16/m16:32: the offset, then the selector above it (R165, 30_encoding R105). -/
def execCallMem (sz : OpSize) (m : MemOp) (s : State) : Host.Outcome State Fault Refusal :=
  complete s (do
    let off ← readMemOp (itemBytes sz) m 0 s
    let sel ← readMemOp 2 m (BitVec.ofNat 32 (itemBytes sz)) s
    farCall sz (sel.setWidth 16) off s)

/-! ## Far RET -/

/-- `FarRet(k)` (R169), and to a less privileged level `OuterRet` (R174), which releases `k` bytes from
both stacks (R175). -/
def farReturn (sz : OpSize) (k : Dword) (s : State) : Except Stop State := do
  let n := BitVec.ofNat 32 (itemBytes sz)
  let p := stackPtr s
  let eip ← peek (itemBytes sz) p s
  let csItem ← peek (itemBytes sz) (wrapStack s (p + n)) s
  let cs : Word := csItem.setWidth 16
  let top := wrapStack s (p + 2 * n + k)
  match s.mode with
  | .realMode => .ok (setStackPtr top { s with cs := realSegment cs s.cs, eip := eip })
  | .protectedMode =>
    if rpl cs < s.cpl then .error ⟨.exc (.gp (selCode cs)), s⟩
    else if rpl cs = s.cpl then do
      let d ← attempt s (codeSegment s cs)
      .ok (setStackPtr top { s with cs := ⟨cs, some d⟩, eip := eip })
    else do .ok (release k (← outerReturn sz (p + 2 * n + k) eip cs s))

/-- RETF (R167). -/
def execRetf (sz : OpSize) (s : State) : Host.Outcome State Fault Refusal := complete s (farReturn sz 0 s)

/-- RETF n (R168). -/
def execRetfImm (sz : OpSize) (k : Word) (s : State) : Host.Outcome State Fault Refusal :=
  complete s (farReturn sz (k.setWidth 32) s)

end Sys2Proof.Machine
end

