-- ==== Sys2Proof/Machine/Frame.lean ====
section
/-! DEFINITION. ENTER and LEAVE (43_enter_leave R220 to R226). -/

namespace Sys2Proof.Machine

open Sys2Proof

/-- The display copy: `n` times, step the walk down one item and push the item it addresses in the stack
segment (R220, R222). -/
def copyDisplay (sz : OpSize) : Nat → Dword → State → Except Stop State
  | 0, _, s => .ok s
  | n + 1, t, s => do
    let t' := wrapStack s (t - BitVec.ofNat 32 (itemBytes sz))
    let v ← peek (itemBytes sz) t' s
    copyDisplay sz n t' (← push (itemBytes sz) v s)

/-- EBP loaded with a stack offset: a 16-bit operand or a 16-bit stack pointer writes BP alone (R220, R226). -/
def setFrame (sz : OpSize) (v : Dword) (s : State) : State :=
  let ebp := if wideStack s then writeSize sz s.regs.ebp v else setLow16 s.regs.ebp v
  { s with regs := { s.regs with ebp := ebp } }

/-- ENTER (R220 to R222, 16-bit form R226). -/
def enterFrame (sz : OpSize) (storage : Word) (level : Nat) (s : State) : Except Stop State := do
  let s1 ← push (itemBytes sz) (truncSize sz s.regs.ebp) s
  let frame := stackPtr s1
  let s2 ←
    if level = 0 then .ok s1
    else do
      let s2 ← copyDisplay sz (level - 1) (wrapStack s s.regs.ebp) s1
      push (itemBytes sz) (truncSize sz frame) s2
  let s3 := setFrame sz frame s2
  .ok (advance (setStackPtr (wrapStack s3 (stackPtr s3 - storage.setWidth 32)) s3))

/-- ENTER imm16, imm8: the level is taken modulo 32 (R220, decision D22). -/
def execEnter (sz : OpSize) (storage : Word) (level : Byte) (s : State) : Host.Outcome State Fault Refusal :=
  complete s (enterFrame sz storage (level.toNat % 32) s)

/-- LEAVE (R223). -/
def execLeave (sz : OpSize) (s : State) : Host.Outcome State Fault Refusal :=
  complete s (do
    let p := wrapStack s s.regs.ebp
    let v ← peek (itemBytes sz) p s
    let s1 := setStackPtr (wrapStack s (p + BitVec.ofNat 32 (itemBytes sz))) s
    .ok (advance (writeReg sz .ebp v s1)))

end Sys2Proof.Machine
end

