-- ==== Sys2Proof/Machine/Interrupt.lean ====
section
/-! DEFINITION. INT 3, INT n, INTO, BOUND, UD2, IRET and IRETD (42_int_bound_iret R190 to R199). -/

namespace Sys2Proof.Machine

open Sys2Proof

/-- A software interrupt: no error code, not masked by IF (R199). -/
def softwareEvent (v : Byte) : Event := ⟨v, .software, none⟩

/-- INT 3 (R191). -/
def execInt3 (s : State) : Host.Outcome State Fault Refusal := deliver (softwareEvent 3) s

/-- INT n (R190). -/
def execIntImm (n : Byte) (s : State) : Host.Outcome State Fault Refusal := deliver (softwareEvent n) s

/-- INTO (R192). -/
def execInto (s : State) : Host.Outcome State Fault Refusal :=
  if flagOF s.eflags then deliver (softwareEvent 4) s else .next (advance s)

/-- BOUND: both bounds are inclusive and the comparison is signed (R193). -/
def execBound (sz : OpSize) (r : Reg) (m : MemOp) (s : State) : Host.Outcome State Fault Refusal :=
  complete s (do
    let lo ← readMemOp (itemBytes sz) m 0 s
    let hi ← readMemOp (itemBytes sz) m (BitVec.ofNat 32 (itemBytes sz)) s
    let idx := signedSize sz (s.regs.get r)
    if idx < signedSize sz lo ∨ signedSize sz hi < idx then .error ⟨.exc .br, s⟩
    else .ok (advance s))

/-- UD2 (R198). -/
def execUd2 (s : State) : Host.Outcome State Fault Refusal := complete s (.error ⟨.exc .ud, s⟩)

/-- IRET, `OpSize` 16 (R194). -/
def execIret (s : State) : Host.Outcome State Fault Refusal := complete s (interruptReturn .w16 s)

/-- IRETD, `OpSize` 32 (R194). -/
def execIretd (s : State) : Host.Outcome State Fault Refusal := complete s (interruptReturn .w32 s)

end Sys2Proof.Machine
end

