-- ==== Sys2Proof/Machine/Stack.lean ====
section
/-! DEFINITION. PUSH, POP, PUSHA, POPA and the EFLAGS forms (40_stack_push_pop R130 to R144). -/

namespace Sys2Proof.Machine

open Sys2Proof

/-- Push one item of `OpSize` and go on. -/
def pushItem (sz : OpSize) (v : Dword) (s : State) : Except Stop State := do
  .ok (advance (← push (itemBytes sz) v s))

/-- PUSH Sreg: the selector, zero-extended to `OpSize` (R134, decision D24). -/
def pushSeg (sz : OpSize) (g : SegName) (s : State) : Except Stop State :=
  pushItem sz ((s.seg g).sel.setWidth 32) s

/-- PUSH r16/r32: the value before the pointer moves (R130). -/
def execPushR (sz : OpSize) (r : Reg) (s : State) : Host.Outcome State Fault Refusal :=
  complete s (pushItem sz (readReg sz r s) s)

/-- PUSH r/m (R131). -/
def execPushRM (sz : OpSize) (rm : RM) (s : State) : Host.Outcome State Fault Refusal :=
  complete s (do pushItem sz (← readRMOp sz rm s) s)

/-- PUSH imm8: sign-extended to `OpSize` (R132). -/
def execPushImm8 (sz : OpSize) (imm : Byte) (s : State) : Host.Outcome State Fault Refusal :=
  complete s (pushItem sz (truncSize sz (imm.signExtend 32)) s)

/-- PUSH imm16/imm32 (R133). -/
def execPushImm (sz : OpSize) (imm : Dword) (s : State) : Host.Outcome State Fault Refusal :=
  complete s (pushItem sz (truncSize sz imm) s)

/-- PUSH ES (R134). -/
def execPushEs (sz : OpSize) (s : State) : Host.Outcome State Fault Refusal := complete s (pushSeg sz .es s)

/-- PUSH CS (R134). -/
def execPushCs (sz : OpSize) (s : State) : Host.Outcome State Fault Refusal := complete s (pushSeg sz .cs s)

/-- PUSH SS (R134). -/
def execPushSs (sz : OpSize) (s : State) : Host.Outcome State Fault Refusal := complete s (pushSeg sz .ss s)

/-- PUSH DS (R134). -/
def execPushDs (sz : OpSize) (s : State) : Host.Outcome State Fault Refusal := complete s (pushSeg sz .ds s)

/-- PUSH FS (R134). -/
def execPushFs (sz : OpSize) (s : State) : Host.Outcome State Fault Refusal := complete s (pushSeg sz .fs s)

/-- PUSH GS (R134). -/
def execPushGs (sz : OpSize) (s : State) : Host.Outcome State Fault Refusal := complete s (pushSeg sz .gs s)

/-- POP r16/r32: the pointer moves, then the register is written, so POP ESP ends with the popped value
(R135, decision D30). -/
def execPopR (sz : OpSize) (r : Reg) (s : State) : Host.Outcome State Fault Refusal :=
  complete s (do
    let (v, s1) ← pop (itemBytes sz) s
    .ok (advance (writeReg sz r v s1)))

/-- POP r/m: a destination addressed through ESP uses the incremented pointer (R136, decision D30). DESIGN CHOICE (log
43): on a 16-bit stack the increment moves SP alone, so that ESP[31:16] counts in such an address. -/
def execPopRM (sz : OpSize) (rm : RM) (s : State) : Host.Outcome State Fault Refusal :=
  complete s (do
    let (v, s1) ← pop (itemBytes sz) s
    .ok (advance (← writeRMOp sz rm v s1)))

/-- What POP loads into DS, ES, FS or GS (R137). In real-address mode the base is 16 × selector (log 19).
DESIGN CHOICE (log 8): a segment both not present and unfit raises #NP, presence being checked first. -/
def loadDataSeg (s : State) (r : SegReg) (sel : Word) : Except Trouble SegReg :=
  match s.mode with
  | .realMode => .ok (realSegment sel r)
  | .protectedMode => do .ok ⟨sel, ← dataSegment s sel⟩

/-- What POP loads into SS (R137). DESIGN CHOICE (log 8): a segment both not present and unfit raises #GP,
fitness being checked first. -/
def loadStackSeg (s : State) (sel : Word) : Except Trouble SegReg :=
  match s.mode with
  | .realMode => .ok (realSegment sel s.ss)
  | .protectedMode => do .ok ⟨sel, some (← stackSegment s .gp s.cpl sel)⟩

/-- Pop a selector for DS, ES, FS or GS; the high half of a 32-bit slot is ignored (R137). -/
def popDataSeg (sz : OpSize) (r : SegReg) (s : State) : Except Stop (SegReg × State) := do
  let (v, s1) ← pop (itemBytes sz) s
  let r' ← attempt s1 (loadDataSeg s1 r (v.setWidth 16))
  .ok (r', advance s1)

/-- POP ES (R137). -/
def execPopEs (sz : OpSize) (s : State) : Host.Outcome State Fault Refusal :=
  complete s (do let (r, s1) ← popDataSeg sz s.es s; .ok { s1 with es := r })

/-- POP DS (R137). -/
def execPopDs (sz : OpSize) (s : State) : Host.Outcome State Fault Refusal :=
  complete s (do let (r, s1) ← popDataSeg sz s.ds s; .ok { s1 with ds := r })

/-- POP FS (R137). -/
def execPopFs (sz : OpSize) (s : State) : Host.Outcome State Fault Refusal :=
  complete s (do let (r, s1) ← popDataSeg sz s.fs s; .ok { s1 with fs := r })

/-- POP GS (R137). -/
def execPopGs (sz : OpSize) (s : State) : Host.Outcome State Fault Refusal :=
  complete s (do let (r, s1) ← popDataSeg sz s.gs s; .ok { s1 with gs := r })

/-- POP SS: the pointer moves in the old stack's width, the new record counts from the next instruction,
and no external event is taken before it (R137, 70_reset R318). -/
def execPopSs (sz : OpSize) (s : State) : Host.Outcome State Fault Refusal :=
  complete s (do
    let (v, s1) ← pop (itemBytes sz) s
    let r ← attempt s1 (loadStackSeg s1 (v.setWidth 16))
    .ok (advance { s1 with ss := r, intShadow := true }))

/-- The eight registers in PUSHA's order, ESP as before the instruction (R138). -/
def pushaItems (s : State) : List Dword :=
  [s.regs.eax, s.regs.ecx, s.regs.edx, s.regs.ebx, s.regs.esp, s.regs.ebp, s.regs.esi, s.regs.edi]

/-- PUSHA: the low words (R138). -/
def execPusha (s : State) : Host.Outcome State Fault Refusal :=
  complete s (do .ok (advance (← pushAll 2 (pushaItems s) s)))

/-- PUSHAD (R138). -/
def execPushad (s : State) : Host.Outcome State Fault Refusal :=
  complete s (do .ok (advance (← pushAll 4 (pushaItems s) s)))

/-- Pop one item into a register other than ESP. -/
def popInto (sz : OpSize) (r : Reg) (s : State) : Except Stop State := do
  let (v, s1) ← pop (itemBytes sz) s
  .ok (writeReg sz r v s1)

/-- Pop items into registers in order. -/
def popEach (sz : OpSize) : List Reg → State → Except Stop State
  | [], s => .ok s
  | r :: t, s => do popEach sz t (← popInto sz r s)

/-- POPA and POPAD: the saved-ESP slot is stepped over, not read (R139, 90 C1). -/
def popAll (sz : OpSize) (s : State) : Except Stop State := do
  let s1 ← popEach sz [.edi, .esi, .ebp] s
  let s2 ← popEach sz [.ebx, .edx, .ecx, .eax] (release (BitVec.ofNat 32 (itemBytes sz)) s1)
  .ok (advance s2)

/-- POPA (R139). -/
def execPopa (s : State) : Host.Outcome State Fault Refusal := complete s (popAll .w16 s)

/-- POPAD (R139). -/
def execPopad (s : State) : Host.Outcome State Fault Refusal := complete s (popAll .w32 s)

/-- PUSHF: the low word of EFLAGS (R140). -/
def execPushf (s : State) : Host.Outcome State Fault Refusal := complete s (pushItem .w16 (low16 s.eflags) s)

/-- PUSHFD: the entire register (R141; log 26). -/
def execPushfd (s : State) : Host.Outcome State Fault Refusal := complete s (pushItem .w32 s.eflags s)

/-- POPF (R142). -/
def execPopf (s : State) : Host.Outcome State Fault Refusal :=
  complete s (do
    let (v, s1) ← pop 2 s
    .ok (advance { s1 with eflags := flagsAfterPopf s v }))

/-- POPFD (R143). -/
def execPopfd (s : State) : Host.Outcome State Fault Refusal :=
  complete s (do
    let (v, s1) ← pop 4 s
    .ok (advance { s1 with eflags := flagsAfterPopfd s v }))

end Sys2Proof.Machine
end

