-- ==== Sys2Proof/Machine/Dispatch.lean ====
section
/-! DEFINITION. exec: one arm per constructor of Instr, in the order of spec/opcode_table.json. -/

namespace Sys2Proof.Machine

open Sys2Proof

def exec (i : Instr) (s : State) : Host.Outcome State Fault Refusal :=
  match i with
  | .pushR sz r => Sys2Proof.Machine.execPushR sz r s
  | .pushRM sz rm => Sys2Proof.Machine.execPushRM sz rm s
  | .pushImm8 sz imm => Sys2Proof.Machine.execPushImm8 sz imm s
  | .pushImm sz imm => Sys2Proof.Machine.execPushImm sz imm s
  | .pushEs sz => Sys2Proof.Machine.execPushEs sz s
  | .pushCs sz => Sys2Proof.Machine.execPushCs sz s
  | .pushSs sz => Sys2Proof.Machine.execPushSs sz s
  | .pushDs sz => Sys2Proof.Machine.execPushDs sz s
  | .pushFs sz => Sys2Proof.Machine.execPushFs sz s
  | .pushGs sz => Sys2Proof.Machine.execPushGs sz s
  | .popR sz r => Sys2Proof.Machine.execPopR sz r s
  | .popRM sz rm => Sys2Proof.Machine.execPopRM sz rm s
  | .popEs sz => Sys2Proof.Machine.execPopEs sz s
  | .popSs sz => Sys2Proof.Machine.execPopSs sz s
  | .popDs sz => Sys2Proof.Machine.execPopDs sz s
  | .popFs sz => Sys2Proof.Machine.execPopFs sz s
  | .popGs sz => Sys2Proof.Machine.execPopGs sz s
  | .pusha => Sys2Proof.Machine.execPusha s
  | .pushad => Sys2Proof.Machine.execPushad s
  | .popa => Sys2Proof.Machine.execPopa s
  | .popad => Sys2Proof.Machine.execPopad s
  | .pushf => Sys2Proof.Machine.execPushf s
  | .pushfd => Sys2Proof.Machine.execPushfd s
  | .popf => Sys2Proof.Machine.execPopf s
  | .popfd => Sys2Proof.Machine.execPopfd s
  | .callRel sz rel => Sys2Proof.Machine.execCallRel sz rel s
  | .callRM sz rm => Sys2Proof.Machine.execCallRM sz rm s
  | .callPtr sz sel off => Sys2Proof.Machine.execCallPtr sz sel off s
  | .callMem sz m => Sys2Proof.Machine.execCallMem sz m s
  | .ret sz => Sys2Proof.Machine.execRet sz s
  | .retImm sz k => Sys2Proof.Machine.execRetImm sz k s
  | .retf sz => Sys2Proof.Machine.execRetf sz s
  | .retfImm sz k => Sys2Proof.Machine.execRetfImm sz k s
  | .enter sz storage level => Sys2Proof.Machine.execEnter sz storage level s
  | .leave sz => Sys2Proof.Machine.execLeave sz s
  | .int3 => Sys2Proof.Machine.execInt3 s
  | .intImm n => Sys2Proof.Machine.execIntImm n s
  | .into => Sys2Proof.Machine.execInto s
  | .iret => Sys2Proof.Machine.execIret s
  | .iretd => Sys2Proof.Machine.execIretd s
  | .bound sz r m => Sys2Proof.Machine.execBound sz r m s
  | .ud2 => Sys2Proof.Machine.execUd2 s

end Sys2Proof.Machine
end

