-- ==== Sys2Proof/Machine/Fetch.lean ====
section
/-! DEFINITION. What happens at an instruction boundary: shutdown, the external events (60_exceptions
R291 to R293), and the fetch and decode of the next instruction (30_encoding R92, 20_memory R84). -/

namespace Sys2Proof.Machine

open Sys2Proof

/-- What a boundary leads to: an instruction to run in a state whose `pcNext` is set, or a whole step
done without one. -/
inductive Boundary where
  | run (i : Instr) (s : State)
  | done (o : Host.Outcome State Fault Refusal)

/-! ## The fetch -/

/-- `P_D` of the current code segment (10_state R36). -/
def codeD (s : State) : Bool :=
  match s.cs.desc with
  | some d => d.big
  | none => false

/-- The linear address of instruction byte `k`: offset EIP + k modulo 2^32, each byte an access of its
own (20_memory R69, R70, 10_state R26). -/
def fetchSlot (s : State) (k : Nat) : Except Trouble Dword :=
  translate s false s.cs false (s.eip + BitVec.ofNat 32 k) 1 .fetch

/-- Instruction byte `k` as memory stands now; a byte the run has stored is refused (20_memory R84). -/
def fetchByte (s : State) (k : Nat) : Except Trouble Byte := do
  let lin ← fetchSlot s k
  if s.written.contains lin.toNat then .error (.refuse .selfModifyingCode)
  else .ok (s.mem.read lin.toNat)

/-- The instruction bytes from `k` on that can be fetched, at most `n`, and why the next one cannot. -/
def fetchBytes (s : State) : Nat → Nat → List Byte × Option Trouble
  | 0, _ => ([], none)
  | n + 1, k =>
    match fetchByte s k with
    | .error t => ([], some t)
    | .ok b => (b :: (fetchBytes s n (k + 1)).1, (fetchBytes s n (k + 1)).2)

/-- The bytes the next instruction may take (30_encoding R90). -/
def fetchWindow (s : State) : List Byte × Option Trouble := fetchBytes s Config.maxInstrLength 0

/-- A rule abandoned before it stored anything. -/
def raise (s : State) (t : Trouble) : Host.Outcome State Fault Refusal := complete s (.error ⟨t, s⟩)

/-- What follows from bytes that spell no instruction: the fetch's own trouble where they end early,
#GP(0) where 15 bytes are not enough (30_encoding R90), #UD for a reserved form (R121), else a refusal. -/
def decodeTrouble (next : Option Trouble) : DecodeStop → Trouble
  | .truncated =>
    match next with
    | some t => t
    | none => .exc (.gp 0)
  | .undefinedForm => .exc .ud
  | .lockOrRep => .refuse .lockOrRepByte
  | .noRow b0 => .refuse (.opcodeOutOfScope b0)

/-- Fetch and decode at CS:EIP (30_encoding R92). -/
def fetchDecode (s : State) : Boundary :=
  match decode (codeD s) (fetchWindow s).1 with
  | .ok (i, len) => .run i { s with pcNext := s.eip + BitVec.ofNat 32 len }
  | .error e => .done (raise s (decodeTrouble (fetchWindow s).2 e))

/-! ## External events -/

/-- The pending vector and those that wait behind it: the first that waits becomes pending where none is. -/
def latchINTR (pending : Option Byte) (queue : List Byte) : Option Byte × List Byte :=
  match pending, queue with
  | none, v :: rest => (some v, rest)
  | p, q => (p, q)

/-- Ask the environment (60_exceptions R291): its next presentation is latched, NMI, SMI and a machine check (93
U5) at once whatever waits. DESIGN CHOICE (log 15): an INTR presented while one is pending waits behind it, in the
order of presentation, and holds back nothing else; the spec says nothing of a second INTR (10_state R46, D27). -/
def askEnvironment (s : State) : State :=
  let e : ExtInput := s.ext.headD ⟨false, none, false, false⟩
  let q := latchINTR s.pendingINTR (s.waitingINTR ++ e.intr.toList)
  { s with
    pendingNMI := s.pendingNMI || e.nmi, pendingSMI := s.pendingSMI || e.smi
    pendingMC := s.pendingMC || e.machineCheck
    pendingINTR := q.1, waitingINTR := q.2, ext := s.ext.tail }

/-- What a boundary owes: a refusal, an event taken in a state, or nothing. -/
inductive Due where
  | refused (r : Refusal)
  | event (ev : Event) (s : State)
  | none
deriving DecidableEq, Repr

/-- The event taken at a boundary in a state that has latched its inputs: NMI first, then INTR while
IF = 1 (60_exceptions R291 to R293). An SMI and an INTR vector below 32 are refused (R253, 93 U2; log 34). A machine
check is of class abort with no error code (R273, 93 U5); DESIGN CHOICE (log 45): it goes before an NMI.
DESIGN CHOICE (log 15): the event stops being pending where it is taken, before its delivery, so that one whose
delivery raises is used up; of R46 (cleared when delivered) with R283 and R294 the spec does not say. -/
def dueEvent (s : State) : Due :=
  if s.pendingSMI then .refused .smi
  else if s.pendingMC then .event ⟨18, .abort, none⟩ { s with pendingMC := false }
  else if s.pendingNMI then .event ⟨2, .nmi, none⟩ { s with pendingNMI := false }
  else
    match s.pendingINTR with
    | none => .none
    | some v =>
      if v < 32 then .refused .intrVectorOutOfRange
      else if flagIF s.eflags then .event ⟨v, .external, none⟩ { s with pendingINTR := none }
      else .none

/-- The boundary directly after POP SS does not ask the environment (60_exceptions R291, 70_reset R318). -/
def boundary (s : State) : Boundary :=
  if s.shutdown then .done (.fault .shutdown)
  else if s.intShadow then fetchDecode { s with intShadow := false }
  else
    match dueEvent (askEnvironment s) with
    | .refused r => .done (.refused r)
    | .event ev s' => .done (deliver ev s')
    | .none => fetchDecode (askEnvironment s)

/-! ## Placing an instruction -/

/-- The linear address instruction byte `k` is fetched from, whether or not the fetch raises. -/
def placeAddr (s : State) (k : Nat) : Nat :=
  let off := s.eip + BitVec.ofNat 32 k
  match s.params.segVerdict.lookup ⟨s.cs.sel, off, 1, .fetch⟩ with
  | some (.linear a) => a.toNat
  | some (.raises _) | none => (segBase s.cs + off).toNat

/-- Put bytes at CS:EIP + k, as code: bytes placed from outside are not bytes the run has stored (log 5). -/
def placeBytes (bs : List Byte) (k : Nat) (s : State) : State :=
  match bs with
  | [] => s
  | b :: t => placeBytes t (k + 1)
      { s with mem := s.mem.put (placeAddr s k) b, written := s.written.filter (· != placeAddr s k) }

/-- Whether the boundary of `s` would take an event or stop instead of fetching. -/
def eventWaits (s : State) : Bool := dueEvent (askEnvironment s) != .none

/-- The state whose next step fetches the bytes: they stand at CS:EIP; only where something would keep
the step from fetching is that removed (shutdown; an event due, held off for one instruction as after POP SS). -/
def placeInstruction (bs : List Byte) (s : State) : State :=
  let s1 := placeBytes bs 0 s
  { s1 with shutdown := false, intShadow := s1.intShadow || eventWaits s1 }

end Sys2Proof.Machine
end

