-- ==== Sys2Proof/Machine/Step.lean ====
section
/-! DEFINITION. One step: an instruction, an event delivery, or a stop (70_reset R328). -/

namespace Sys2Proof.Machine

open Sys2Proof

/-- One step of the machine (60_exceptions R291, 70_reset R328). -/
def step (s : State) : Host.Outcome State Fault Refusal :=
  match boundary s with
  | .run i s' => exec i s'
  | .done o => o

/-- `s` with the instruction of a table word at CS:EIP, where the next step fetches it (log 5, log 23). -/
def State.withFetchWord (s : State) (nbits w : Nat) : State := placeInstruction (tableBytes nbits w) s

end Sys2Proof.Machine
end

