-- ==== Sys2Proof/Safety.lean ====
section
/-! DEFINITION. The terms the claims use: the machine's invariant, what an instruction leaves alone,
which bytes it stores, and when a handler or a stack is ready. -/

namespace Sys2Proof.Safety

open Sys2Proof Sys2Proof.Machine

/-! ## The invariant -/

/-- A loaded record that is present and of privilege level `level`. -/
def loadedAt (level : BitVec 2) (r : SegReg) : Bool :=
  match r.desc with
  | some d => d.present && d.dpl == level
  | none => false

/-- A loaded record that is present. -/
def loadedPresent (r : SegReg) : Bool :=
  match r.desc with
  | some d => d.present
  | none => false

/-- A loaded record that permits writes. -/
def loadedWritable (r : SegReg) : Bool :=
  match r.desc with
  | some d => d.writable
  | none => false

/-- What every reachable state keeps: memory in its canonical form; the record of stored bytes strictly
rising; the reserved bits of EFLAGS as 10_state R30 fixes them; level 0 in real-address mode; in protected
mode CPL is CS[1:0] (10_state R34; after a direct far CALL by log 20), one of four levels (60_exceptions R296), CS holds
a present segment and SS a present writable one of level CPL. That every load of SS asks for such a segment, and of CS
for a present one, is the checks of log 8 (PRESUMED), no rule's; of what level CS's segment is no rule fixes: a return
to the same level does not ask (41_call_ret R169, 42_int R195). -/
structure Inv (s : State) : Prop where
  mem : s.mem.wf = true
  written : s.written.Pairwise (· < ·)
  flags : reservedFlagsFixed s.eflags = true
  real : s.mode = .realMode → s.cpl = 0
  level : s.mode = .protectedMode → rpl s.cs.sel = s.cpl
  code : s.mode = .protectedMode → loadedPresent s.cs = true
  stack : s.mode = .protectedMode → loadedAt s.cpl s.ss = true ∧ loadedWritable s.ss = true

/-! ## Frames -/

/-- `a` is none of the `n` bytes at linear address `lin`. -/
def Outside (lin : Dword) (n a : Nat) : Prop := ∀ k < n, a ≠ (lin + BitVec.ofNat 32 k).toNat

/-- Exactly one item was stored: it reads back as `v`, and every byte outside it is as before. -/
def StoresAt (sz : OpSize) (lin v : Dword) (s t : State) : Prop :=
  t.mem.loadLE lin (itemBytes sz) = truncSize sz v ∧
  (∀ a, Outside lin (itemBytes sz) a → t.mem.read a = s.mem.read a) ∧
  t.written = markWritten s.written lin (itemBytes sz)

/-! ## The stack -/

/-- ESP after the stack pointer moved by `d`: all of it on a 32-bit stack, SP alone on a 16-bit one
(20_memory R64). -/
def movedEsp (d : Dword) (s : State) : Dword :=
  if wideStack s then s.regs.esp + d else setLow16 s.regs.esp (s.regs.esp + d)

/-- The general registers with the stack pointer moved by `d` bytes. -/
def movedRegs (d : Dword) (s : State) : Regs := { s.regs with esp := movedEsp d s }

/-- The stack offset of the item that push number `j` (from 0) of `n` bytes each writes. -/
def pushOffset (n j : Nat) (s : State) : Dword := wrapStack s (stackPtr s - BitVec.ofNat 32 (n * (j + 1)))

/-- The stack offset of the item number `j` (from 0) above the top of stack. -/
def popOffset (n j : Nat) (s : State) : Dword := wrapStack s (stackPtr s + BitVec.ofNat 32 (n * j))

/-- The next `count` pushes of `n` bytes each can be stored, push `j` at linear address `slot j`. -/
def CanPush (n count : Nat) (slot : Nat → Dword) (s : State) : Prop :=
  ∀ j < count, stackSlot s (pushOffset n j s) n .stackWrite = .ok (slot j)

/-- The `n` bytes at `b` are none of those at `a`. -/
def Apart (n : Nat) (a b : Dword) : Prop := ∀ p < n, Outside a n (b + BitVec.ofNat 32 p).toNat

/-- No item pushed after item `j` of `count` touches it. Always so where the run lists no `P_SEG` verdicts (`slots_apart`
in Laws/Ops.lean); a run's own `P_SEG` can put two offsets at one address (20_memory R75). -/
def Untouched (n count j : Nat) (slot : Nat → Dword) (s : State) : Prop :=
  s.params.segVerdict = [] ∨ ∀ k, j < k → k < count → Apart n (slot k) (slot j)

/-- No two of `count` pushed items touch, so that each reads back as it was pushed. -/
def AllUntouched (n count : Nat) (slot : Nat → Dword) (s : State) : Prop := ∀ j < count, Untouched n count j slot s

/-- The values lie in the slots in order, each that no later one touches, and every byte outside the slots is as
before. -/
def PushedAt (sz : OpSize) (vs : List Dword) (slot : Nat → Dword) (s t : State) : Prop :=
  (∀ j v, vs[j]? = some v → Untouched (itemBytes sz) vs.length j slot s →
    t.mem.loadLE (slot j) (itemBytes sz) = truncSize sz v) ∧
  (∀ a, (∀ j < vs.length, Outside (slot j) (itemBytes sz) a) → t.mem.read a = s.mem.read a)

/-- Of `count` pushes of `n` bytes each, number `j` is the first that cannot be stored, and it raises `e`. -/
def PushFails (n count j : Nat) (slot : Nat → Dword) (e : Exc) (s : State) : Prop :=
  j < count ∧ CanPush n j slot s ∧ stackSlot s (pushOffset n j s) n .stackWrite = .error (.exc e)

/-- What an instruction leaves that raised after pushing `vs`: everything as before it, each byte of memory old
or as pushed (00_scope R10, 60_exceptions R295, decision D6; log 13). -/
def PartlyPushed (sz : OpSize) (vs : List Dword) (slot : Nat → Dword) (s u : State) : Prop :=
  ∃ p, PushedAt sz vs slot s p ∧ u = { s with mem := u.mem, written := u.written, freeIx := u.freeIx } ∧
    ∀ a, u.mem.read a = s.mem.read a ∨ u.mem.read a = p.mem.read a

/-- Items `lo` to `hi - 1` above the top of stack can be read, item `j` at linear address `slot j`. -/
def CanPop (n lo hi : Nat) (slot : Nat → Dword) (s : State) : Prop :=
  ∀ j, lo ≤ j → j < hi → stackSlot s (popOffset n j s) n .stackRead = .ok (slot j)

/-- Of `hi` items above the top of stack, number `j` is the first that cannot be read, and it raises `e`. -/
def PopFails (n hi j : Nat) (slot : Nat → Dword) (e : Exc) (s : State) : Prop :=
  j < hi ∧ CanPop n 0 j slot s ∧ stackSlot s (popOffset n j s) n .stackRead = .error (.exc e)

/-! ## Operands -/

/-- The first of a far pointer's or a BOUND pair's two reads that cannot be made raises `e`: the item of `n`
bytes at the operand, then the one of `n'` bytes above it (41_call_ret R165, 42_int R193). -/
def PairReadFails (n n' : Nat) (m : MemOp) (e : Exc) (s : State) : Prop :=
  operandSlot s m 0 n .dataRead = .error (.exc e) ∨
    ((∃ lin, operandSlot s m 0 n .dataRead = .ok lin) ∧
      operandSlot s m (BitVec.ofNat 32 n) n' .dataRead = .error (.exc e))

/-- The value of a ModRM operand: the register's low `OpSize` bits, or what memory holds at the operand's
address (30_encoding R97). -/
def OperandValue (sz : OpSize) (rm : RM) (v : Dword) (s : State) : Prop :=
  match rm with
  | .reg r => v = truncSize sz (s.regs.get r)
  | .mem m => ∃ lin, operandSlot s m 0 (itemBytes sz) .dataRead = .ok lin ∧ v = s.mem.loadLE lin (itemBytes sz)

/-- What each PUSH form without an explicit memory operand pushes, and in which size (40_stack R130, R132 to
R134, R140, R141). -/
def pushValue (i : Instr) (s : State) : Option (OpSize × Dword) :=
  match i with
  | .pushR sz r => some (sz, s.regs.get r)
  | .pushImm8 sz imm => some (sz, imm.signExtend 32)
  | .pushImm sz imm => some (sz, imm)
  | .pushEs sz => some (sz, s.es.sel.setWidth 32)
  | .pushCs sz => some (sz, s.cs.sel.setWidth 32)
  | .pushSs sz => some (sz, s.ss.sel.setWidth 32)
  | .pushDs sz => some (sz, s.ds.sel.setWidth 32)
  | .pushFs sz => some (sz, s.fs.sel.setWidth 32)
  | .pushGs sz => some (sz, s.gs.sel.setWidth 32)
  | .pushf => some (.w16, s.eflags)
  | .pushfd => some (.w32, s.eflags)
  | _ => none

/-! ## Near transfers -/

/-- The target of a near CALL: `pc_next + rel`, its low word with operand size 16, or the operand's value
(41_call_ret R160, R161). -/
def NearTarget (i : Instr) (sz : OpSize) (target : Dword) (s : State) : Prop :=
  match i with
  | .callRel z rel => z = sz ∧ target = truncSize sz (s.pcNext + rel)
  | .callRM z rm => z = sz ∧ OperandValue sz rm target s
  | _ => False

/-! ## Far transfers -/

/-- What a far CALL names: its operand size, selector and offset (41_call_ret R164, R165). -/
def FarTarget (i : Instr) (sz : OpSize) (sel : Word) (off : Dword) (s : State) : Prop :=
  match i with
  | .callPtr z x o => z = sz ∧ x = sel ∧ off = truncSize sz o
  | .callMem z m => z = sz ∧ ∃ a b,
      operandSlot s m 0 (itemBytes sz) .dataRead = .ok a ∧
      operandSlot s m (BitVec.ofNat 32 (itemBytes sz)) 2 .dataRead = .ok b ∧
      off = s.mem.loadLE a (itemBytes sz) ∧ sel = (s.mem.loadLE b 2).setWidth 16
  | _ => False

/-- How many bytes a far return releases (41_call_ret R167, R168). -/
def farReturnForm (i : Instr) : Option (OpSize × Dword) :=
  match i with
  | .retf sz => some (sz, 0)
  | .retfImm sz k => some (sz, k.setWidth 32)
  | _ => none

/-- How many bytes a near return releases (41_call_ret R162, R163). -/
def nearReturnForm (i : Instr) : Option (OpSize × Dword) :=
  match i with
  | .ret sz => some (sz, 0)
  | .retImm sz k => some (sz, k.setWidth 32)
  | _ => none

/-- The operand size of IRET and IRETD (42_int R194). -/
def interruptReturnForm (i : Instr) : Option OpSize :=
  match i with
  | .iret => some .w16
  | .iretd => some .w32
  | _ => none

/-- The parameters a call gate copies, in the order they are pushed: the highest first, parameter `k` from
linear address `src k` of the caller's stack (41_call_ret R172). -/
def gateParams (count : Nat) (src : Nat → Dword) (s : State) : List Dword :=
  (List.range count).reverse.map fun k => s.mem.loadLE (src k) 4

/-- What ENTER pushes, in order: EBP, then for a level above 0 the `level - 1` frame pointers it copies, copy
`k` from linear address `src k`, and the new frame's offset (43_enter R220). -/
def enterItems (sz : OpSize) (level : Nat) (src : Nat → Dword) (s : State) : List Dword :=
  s.regs.ebp ::
    (if level = 0 then []
     else (List.range (level - 1)).map (fun k => s.mem.loadLE (src k) (itemBytes sz)) ++
       [pushOffset (itemBytes sz) 0 s])

/-- What a POP of DS, ES, FS or GS leaves in the register `r`: in real-address mode base 16 × selector; in
protected mode nothing but the selector for a null one, else the present data or code segment's record,
its level not above CPL or RPL (40_stack R137). -/
def SegLoaded (s : State) (r : SegReg) (sel : Word) (r' : SegReg) : Prop :=
  match s.mode with
  | .realMode => r' = realSegment sel r
  | .protectedMode =>
    (isNull sel = true ∧ r' = ⟨sel, none⟩) ∨
    (isNull sel = false ∧ ∃ d, (gdtLookup s sel = .ok (.data d) ∨ gdtLookup s sel = .ok (.code d)) ∧
      s.cpl ≤ d.dpl ∧ rpl sel ≤ d.dpl ∧ r' = ⟨sel, some d⟩)

/-- What a POP of SS leaves in it (40_stack R137). -/
def StackSegLoaded (s : State) (sel : Word) (r' : SegReg) : Prop :=
  match s.mode with
  | .realMode => r' = realSegment sel s.ss
  | .protectedMode => ∃ d, descriptorOf s sel = some (.data d) ∧ d.writable = true ∧ d.dpl = s.cpl ∧
      rpl sel = s.cpl ∧ d.present = true ∧ r' = ⟨sel, some d⟩

/-! ## Entry to a handler -/

/-- The state whose stack a handler of level `level` uses: the current one at the same level, else the TSS
stack of the new level (60_exceptions R281, R285). -/
def entryStack (level : BitVec 2) (d : SegDesc) (s : State) : State :=
  if level = s.cpl then s
  else { s with
    ss := ⟨(tssStack s level).ss, some d⟩
    regs := { s.regs with esp := (tssStack s level).esp }
    cpl := level }

/-- What an entry pushes, in order (60_exceptions R284, R285). -/
def entryItems (level : BitVec 2) (ev : Event) (s : State) : List Dword :=
  (if level = s.cpl then [] else [s.ss.sel.setWidth 32, s.regs.esp]) ++
    [s.eflags, s.cs.sel.setWidth 32, savedEip ev.kind s] ++ (ev.pushed s).toList

/-- A protected-mode handler stands ready for `ev`: its gate and code segment pass the checks, a stack
segment `d` where the level changes, and room for the frame (60_exceptions R283, 70_reset R314). -/
def HandlerReady (ev : Event) (g : IntGate) (c d : SegDesc) (slot : Nat → Dword) (s : State) : Prop :=
  s.mode = .protectedMode ∧ handlerGate ev s = .ok (g, c) ∧
  (c.dpl ≠ s.cpl → stackSegment s .ts c.dpl (tssStack s c.dpl).ss = .ok d) ∧
  CanPush 4 (entryItems c.dpl ev s).length slot (entryStack c.dpl d s)

/-- The state a protected-mode entry leaves (60_exceptions R283 to R285): the frame in its slots, CS:EIP at
the gate's target, the level the handler's, IF cleared through an interrupt gate and no flag otherwise;
general registers other than ESP and everything else as before. -/
def Entered (ev : Event) (g : IntGate) (c d : SegDesc) (slot : Nat → Dword) (s t : State) : Prop :=
  PushedAt .w32 (entryItems c.dpl ev s) slot s t ∧
  t = { s with
    regs := movedRegs (-BitVec.ofNat 32 (4 * (entryItems c.dpl ev s).length)) (entryStack c.dpl d s)
    ss := (entryStack c.dpl d s).ss
    cs := ⟨withRpl g.selector c.dpl, some c⟩
    eip := g.offset
    cpl := c.dpl
    eflags := if g.kind = .interrupt then clearIF s.eflags else s.eflags
    mem := t.mem, written := t.written }

/-- What an entry in real-address mode pushes, in order: FLAGS, CS, IP, and an error code only where
`P_ERRCODE` asks for one in this mode (60_exceptions R288). -/
def realItems (ev : Event) (s : State) : List Dword :=
  [s.eflags, s.cs.sel.setWidth 32, savedEip ev.kind s] ++ (ev.pushed s).toList

/-- The state a real-address-mode entry leaves (60_exceptions R288): FLAGS, CS and IP pushed as words, IF and
TF cleared, CS:IP from the table at linear 0. -/
def EnteredReal (ev : Event) (slot : Nat → Dword) (s t : State) : Prop :=
  PushedAt .w16 (realItems ev s) slot s t ∧
  t = { s with
    regs := movedRegs (-BitVec.ofNat 32 (2 * (realItems ev s).length)) s
    cs := realSegment ((t.mem.loadLE (4 * ev.vector.setWidth 32 + 2) 2).setWidth 16) s.cs
    eip := t.mem.loadLE (4 * ev.vector.setWidth 32) 2
    eflags := clearIFTF s.eflags
    mem := t.mem, written := t.written }

/-- The event each instruction that calls a handler delivers, where its condition holds (42_int R190 to R193,
R198, R199): software interrupts, #BR out of bounds, #UD. -/
def CallsHandler (i : Instr) (ev : Event) (s : State) : Prop :=
  match i with
  | .int3 => ev = ⟨3, .software, none⟩
  | .intImm n => ev = ⟨n, .software, none⟩
  | .into => flagOF s.eflags = true ∧ ev = ⟨4, .software, none⟩
  | .ud2 => ev = ⟨6, .fault, none⟩
  | .bound sz r m => ev = ⟨5, .fault, none⟩ ∧ ∃ lo hi,
      operandSlot s m 0 (itemBytes sz) .dataRead = .ok lo ∧
      operandSlot s m (BitVec.ofNat 32 (itemBytes sz)) (itemBytes sz) .dataRead = .ok hi ∧
      (signedSize sz (s.regs.get r) < signedSize sz (s.mem.loadLE lo (itemBytes sz)) ∨
        signedSize sz (s.mem.loadLE hi (itemBytes sz)) < signedSize sz (s.regs.get r))
  | _ => False

/-- `s` is not in shutdown and takes no event at its boundary; `u` is `s` with its inputs latched, or after
POP SS with the shadow gone and the inputs not asked for: the state the next instruction is fetched in
(60_exceptions R291, 70_reset R318). -/
def AtFetch (s u : State) : Prop :=
  s.shutdown = false ∧
    if s.intShadow = true then u = { s with intShadow := false }
    else dueEvent (askEnvironment s) = .none ∧ u = askEnvironment s

/-- A flat segment (20_memory R75): base 0, limit FFFFFFFFH, present and writable. -/
def Flat (r : SegReg) : Prop :=
  ∃ d, r.desc = some d ∧ d.base = 0 ∧ d.limit = 0xFFFFFFFF ∧ d.present = true ∧ d.writable = true

/-- The two pairs of events that make a double fault (60_exceptions R294): contributory on contributory, and a
contributory or a page fault on a page fault. -/
def DoubleFaults (first second : Byte) : Prop :=
  (first ∈ [0, 10, 11, 12, 13] ∧ second ∈ [0, 10, 11, 12, 13]) ∨
    (first = 14 ∧ second ∈ [0, 10, 11, 12, 13, 14])

/-- The kinds of event the processor raises itself; the others never make a double fault (60_exceptions R294). -/
def raisedByProcessor : EventKind → Bool
  | .fault | .trap | .abort => true
  | .software | .external | .nmi => false

/-- The bytes that may stand before the opcode (30_encoding R93). -/
def beforeOpcode : List Byte := [0x66, 0x67, 0x26, 0x2E, 0x36, 0x3E, 0x64, 0x65, 0xF0, 0xF2, 0xF3]

/-- The first opcode bytes of the rows of 30_encoding R106, and of the forms R121 names. -/
def firstBytes : List Byte :=
  [0x06, 0x07, 0x0E, 0x0F, 0x16, 0x17, 0x1E, 0x1F, 0x50, 0x51, 0x52, 0x53, 0x54, 0x55, 0x56, 0x57, 0x58, 0x59,
    0x5A, 0x5B, 0x5C, 0x5D, 0x5E, 0x5F, 0x60, 0x61, 0x62, 0x68, 0x6A, 0x8F, 0x9A, 0x9C, 0x9D, 0xC2, 0xC3, 0xC8,
    0xC9, 0xCA, 0xCB, 0xCC, 0xCD, 0xCE, 0xCF, 0xE8, 0xFF]

/-- The instructions that write EFLAGS from an image (10_state R29). -/
def writesFlags (i : Instr) : Bool :=
  match i with
  | .popf | .popfd | .iret | .iretd => true
  | _ => false

/-- The returns that can lower the privilege (60_exceptions R298). -/
def returnsOutward (i : Instr) : Bool :=
  match i with
  | .retf _ | .retfImm _ _ | .iret | .iretd => true
  | _ => false

end Sys2Proof.Safety
end

