-- ==== Sys2Proof/Certificates/Slice0/Obligations.lean ====
section
/-! DEFINITION. The statements for the provers. Each docstring names the rule of spec/ it formalises; slot
functions give the linear address of each stack item, by the meaning's own translation. -/

open Sys2Proof Sys2Proof.Machine Sys2Proof.Safety

/-! ## Encoding -/

/-- Decoding an encoded well-formed instruction gives it back, whatever bytes follow (30_encoding R90 to R106). -/
def Obligations.DecodeEncode : Prop :=
  ∀ (d : Bool) (i : Instr) (rest : List Byte), i.wf = true →
    decode d (encode d i ++ rest) = .ok (i, (encode d i).length)

/-- What the decoder answers is well formed, takes at least one and no more bytes than there are, and depends on
those bytes alone (30_encoding R92). -/
def Obligations.DecodeSound : Prop :=
  ∀ (d : Bool) (bs : List Byte) (i : Instr) (n : Nat), decode d bs = .ok (i, n) →
    i.wf = true ∧ 1 ≤ n ∧ n ≤ bs.length ∧ ∀ rest, decode d (bs.take n ++ rest) = .ok (i, n)

/-- Words written out from the encodings of 30_encoding decode to the instructions they stand for. -/
def Obligations.DecodeWords : Prop :=
  decode true [0x54] = .ok (.pushR .w32 .esp, 1) ∧
  decode true [0xFF, 0x73, 0x10] = .ok (.pushRM .w32 (.mem ⟨none, .a32 (some .ebx) none 0x10⟩), 3) ∧
  decode true [0x8F, 0x04, 0x24] = .ok (.popRM .w32 (.mem ⟨none, .a32 (some .esp) none 0⟩), 3) ∧
  decode true [0x66, 0x0F, 0xA1] = .ok (.popFs .w16, 3) ∧
  decode true [0x9D] = .ok (.popfd, 1) ∧
  decode false [0x9D] = .ok (.popf, 1) ∧
  decode true [0xE8, 0xF9, 0xFF, 0xFF, 0xFF] = .ok (.callRel .w32 0xFFFFFFF9, 5) ∧
  decode true [0x9A, 0x10, 0x40, 0x00, 0x00, 0x08, 0x00] = .ok (.callPtr .w32 0x0008 0x4010, 7) ∧
  decode true [0xC8, 0x00, 0x08, 0x03] = .ok (.enter .w32 2048 3, 4) ∧
  decode true [0xCD, 0x40] = .ok (.intImm 0x40, 2) ∧
  decode false [0xFF, 0x5F, 0x04] = .ok (.callMem .w16 ⟨none, .a16 .bx 4⟩, 3) ∧
  decode true [0x64, 0x62, 0x03] = .ok (.bound .w32 .eax ⟨some .fs, .a32 (some .ebx) none 0⟩, 3)

/-- 30_encoding R121: 8F with reg 1 to 7, FF with reg 7, FF /3 and 62 with mod = 3 raise #UD; FF with reg 0, 1, 4
and 5 is refused, and so is an instruction carrying LOCK (R93, decision D31); that LOCK goes before #UD where one of
these forms carries it is the model's choice (log 41). `mods` are the other bytes before the opcode. -/
def Obligations.ReservedForms : Prop :=
  ∀ (s u : State) (mods rest : List Byte) (modrm : Byte), AtFetch s u →
    (∀ b ∈ mods, b ∈ [0x66, 0x67, 0x26, 0x2E, 0x36, 0x3E, 0x64, 0x65]) →
    ((fetchWindow u).1 = mods ++ 0x8F :: modrm :: rest → modrm.extractLsb' 3 3 ≠ 0#3 →
      step s = deliver Exc.ud.event u) ∧
    ((fetchWindow u).1 = mods ++ 0xFF :: modrm :: rest → modrm.extractLsb' 3 3 = 7#3 →
      step s = deliver Exc.ud.event u) ∧
    ((fetchWindow u).1 = mods ++ 0xFF :: modrm :: rest → modrm.extractLsb' 3 3 = 3#3 →
      modrm.extractLsb' 6 2 = 3#2 → step s = deliver Exc.ud.event u) ∧
    ((fetchWindow u).1 = mods ++ 0x62 :: modrm :: rest → modrm.extractLsb' 6 2 = 3#2 →
      step s = deliver Exc.ud.event u) ∧
    ((fetchWindow u).1 = mods ++ 0xFF :: modrm :: rest → modrm.extractLsb' 3 3 ∈ [0#3, 1#3, 4#3, 5#3] →
      step s = .refused (.opcodeOutOfScope 0xFF)) ∧
    ((fetchWindow u).1 = mods ++ 0xF0 :: rest → step s = .refused .lockOrRepByte)

/-! ## Steps -/

/-- A step runs the instruction the bytes at CS:EIP decode to, EIP still at it and `pcNext` after it. -/
def Obligations.StepRunsDecoded : Prop :=
  ∀ (s u : State) (i : Instr) (len : Nat), AtFetch s u → decode (codeD u) (fetchWindow u).1 = .ok (i, len) →
    step s = exec i { u with pcNext := u.eip + BitVec.ofNat 32 len }

/-- Where the bytes of a well-formed instruction's encoding can be fetched at CS:EIP, one after the other, the
step runs that instruction. -/
def Obligations.StepRunsEncoded : Prop :=
  ∀ (s u : State) (i : Instr), AtFetch s u → i.wf = true →
    (∀ k b, (encode (codeD u) i)[k]? = some b → fetchByte u k = .ok b) →
    step s = exec i { u with pcNext := u.eip + BitVec.ofNat 32 (encode (codeD u) i).length }

/-- 60_exceptions R291 to R293, 93 U5: at a boundary that asks the environment a machine check is delivered as vector 18,
an abort with no error code, and else an NMI, whatever IF is (a machine check first: log 45, DESIGN CHOICE); else an
INTR with vector 32 to 255 is delivered where IF = 1 and stays pending where IF = 0, the instruction being run; a
vector below 32 is refused (93 U2). What is presented is latched at once, all but INTR whatever waits; that an INTR
presented while one is pending waits behind it, and that an event stops being pending before its delivery, so that one
whose delivery raises is used up, is the model's choice (log 15). -/
def Obligations.EventRecognition : Prop :=
  ∀ (s u : State), s.shutdown = false → s.intShadow = false → u = askEnvironment s →
    (u.pendingSMI = false → u.pendingMC = true →
      step s = deliver ⟨18, .abort, none⟩ { u with pendingMC := false }) ∧
    (u.pendingSMI = false → u.pendingMC = false →
      (u.pendingNMI = true → step s = deliver ⟨2, .nmi, none⟩ { u with pendingNMI := false }) ∧
      (∀ v, u.pendingNMI = false → u.pendingINTR = some v → 32 ≤ v → flagIF u.eflags = true →
        step s = deliver ⟨v, .external, none⟩ { u with pendingINTR := none }) ∧
      (∀ v i len, u.pendingNMI = false → u.pendingINTR = some v → 32 ≤ v → flagIF u.eflags = false →
        decode (codeD u) (fetchWindow u).1 = .ok (i, len) →
        step s = exec i { u with pcNext := u.eip + BitVec.ofNat 32 len }) ∧
      (∀ v, u.pendingNMI = false → u.pendingINTR = some v → v < 32 →
        step s = .refused .intrVectorOutOfRange)) ∧
    (∀ e rest, s.ext = e :: rest →
      let latched : State :=
        { s with pendingNMI := s.pendingNMI || e.nmi, pendingSMI := s.pendingSMI || e.smi,
                 pendingMC := s.pendingMC || e.machineCheck, ext := rest }
      (s.pendingINTR = none → s.waitingINTR = [] → u = { latched with pendingINTR := e.intr }) ∧
      (∀ w l, s.pendingINTR = none → s.waitingINTR = w :: l →
        u = { latched with pendingINTR := some w, waitingINTR := l ++ e.intr.toList }) ∧
      (∀ w, s.pendingINTR = some w → u = { latched with waitingINTR := s.waitingINTR ++ e.intr.toList })) ∧
    (s.ext = [] → s.waitingINTR = [] → u = s)

/-- 60_exceptions R253: an SMI the environment presents is refused. -/
def Obligations.SmiRefused : Prop :=
  ∀ (s : State) (e : ExtInput) (rest : List ExtInput), s.shutdown = false → s.intShadow = false →
    s.ext = e :: rest → e.smi = true → step s = .refused .smi

/-- 70_reset R318: POP SS leaves the shadow, and the step after it runs its instruction with every pending event
and every input of the environment still waiting. -/
def Obligations.PopSsShadow : Prop :=
  ∀ (s : State) (i : Instr) (len : Nat), s.shutdown = false → s.intShadow = true →
    decode (codeD s) (fetchWindow { s with intShadow := false }).1 = .ok (i, len) →
    step s = exec i { s with intShadow := false, pcNext := s.eip + BitVec.ofNat 32 len }

/-- 20_memory R84: a step that needs an instruction byte the run has stored is refused, and every byte a store
writes is recorded as stored. -/
def Obligations.SelfModifyingCodeRefused : Prop :=
  (∀ (s u : State) (bs : List Byte) (lin : Dword), AtFetch s u → bs.length < Config.maxInstrLength →
    (∀ k b, bs[k]? = some b → fetchByte u k = .ok b) → decode (codeD u) bs = .error .truncated →
    fetchSlot u bs.length = .ok lin → lin.toNat ∈ u.written → step s = .refused .selfModifyingCode) ∧
  ∀ (s : State) (lin v : Dword) (n : Nat), (∀ a ∈ s.written, a ∈ (storeAt s lin n v).written) ∧
    ∀ k < n, (lin + BitVec.ofNat 32 k).toNat ∈ (storeAt s lin n v).written

/-- 10_state R35, R42, 70_reset R326: no step changes the mode; and no step changes the IDT, the TSS stacks, the
descriptor tables, the translation's clauses or the functions the run's start supplied. That no store reaches the
tables, which are data apart from memory, is the model's choice (log 7, log 42). -/
def Obligations.ModeFixed : Prop :=
  ∀ s t : State, step s = .next t →
    t.mode = s.mode ∧ t.idt = s.idt ∧ t.gdt = s.gdt ∧ t.tss0 = s.tss0 ∧ t.tss1 = s.tss1 ∧ t.tss2 = s.tss2 ∧
      t.segTraps = s.segTraps ∧ t.params = s.params

/-- Every step keeps the invariant: memory in canonical form, the reserved bits of EFLAGS, CPL 0 in real-address
mode; in protected mode CPL is CS[1:0] (log 20 for a direct far CALL), CS is loaded with a present segment and SS with a
present writable one of level CPL. That the loads of SS and CS check so is the model's (log 8, PRESUMED). -/
def Obligations.StepKeepsInv : Prop := ∀ s t : State, Inv s → step s = .next t → Inv t

/-- The state after reset meets the invariant. -/
def Obligations.ResetInv : Prop := Inv State.reset

/-! ## Memory and translation -/

/-- 20_memory R66: the byte at offset i of a stored value is its bits 8i+7:8i, a narrower load sees the low-order
bytes, and no other byte changes. -/
def Obligations.LittleEndian : Prop :=
  ∀ (s : State) (lin v : Dword) (n : Nat), n ≤ 4 →
    (∀ k < n, (storeAt s lin n v).mem.read (lin + BitVec.ofNat 32 k).toNat = v.extractLsb' (8 * k) 8) ∧
    (∀ m ≤ n, (storeAt s lin n v).mem.loadLE lin m = (v.setWidth (8 * m)).setWidth 32) ∧
    (∀ a, Outside lin n a → (storeAt s lin n v).mem.read a = s.mem.read a)

/-- 20_memory R77: an access whose bytes would pass the top of the offset space is refused, whatever the segment;
with the flat default every other access is at its offset (R75). A run may supply another `P_SEG` (log 42). -/
def Obligations.OffsetSpaceTop : Prop :=
  ∀ (s : State) (isSS : Bool) (r : SegReg) (narrow : Bool) (off : Dword) (len : Nat) (k : AccessKind),
    ((2 ^ 32 < off.toNat + len ∨ (narrow = true ∧ 2 ^ 16 < off.toNat + len)) →
      translate s isSS r narrow off len k = .error (.refuse .offsetSpaceTop)) ∧
    (off.toNat + len ≤ 2 ^ 32 → (narrow = true → off.toNat + len ≤ 2 ^ 16) → Flat r → s.segTraps = [] →
      s.params.segVerdict = [] → translate s isSS r narrow off len k = .ok off)

/-- 20_memory R68, R75, R76: below the top of the offset space an access is at the linear address, or raises the
exception, that the run's own `P_SEG` lists for it (log 42). Where it lists none, by the model's checks (log 6, log 7)
it raises #SS for the stack segment and #GP for another, #SS or #NP with the selector (log 33) for a segment not
present, and by the first clause of segTraps that hits it #PF, where a byte of it lies in a paging clause's range, or
#AC, for a misaligned data reference at CPL 3 with AC set; with no hit it is at base plus offset. -/
def Obligations.SegmentChecks : Prop :=
  ∀ (s : State) (isSS : Bool) (r : SegReg) (narrow : Bool) (off : Dword) (len : Nat) (k : AccessKind),
    off.toNat + len ≤ 2 ^ 32 → (narrow = true → off.toNat + len ≤ 2 ^ 16) →
    (∀ e, s.params.segVerdict.lookup ⟨r.sel, off, len, k⟩ = some (.raises e) →
      translate s isSS r narrow off len k = .error (.exc e)) ∧
    (∀ lin, s.params.segVerdict.lookup ⟨r.sel, off, len, k⟩ = some (.linear lin) →
      translate s isSS r narrow off len k = .ok lin) ∧
    (s.params.segVerdict.lookup ⟨r.sel, off, len, k⟩ = none →
      (r.desc = none → translate s isSS r narrow off len k = .error (.exc (if isSS then .ss 0 else .gp 0))) ∧
      ∀ d, r.desc = some d →
        (d.present = false → translate s isSS r narrow off len k =
          .error (.exc (if isSS then .ss (selCode r.sel) else .np (selCode r.sel)))) ∧
        (d.present = true → k.isWrite = true → d.writable = false →
          translate s isSS r narrow off len k = .error (.exc (if isSS then .ss 0 else .gp 0))) ∧
        (d.present = true → (k.isWrite = true → d.writable = true) → d.limit.toNat < off.toNat + len - 1 →
          translate s isSS r narrow off len k = .error (.exc (if isSS then .ss 0 else .gp 0))) ∧
        (d.present = true → (k.isWrite = true → d.writable = true) → off.toNat + len - 1 ≤ d.limit.toNat →
          let misses := fun x : SegTrap => (x.kind ≠ none ∧ x.kind ≠ some k) ∨
            (∀ j < len, ¬ (x.lo ≤ d.base + off + BitVec.ofNat 32 j ∧ d.base + off + BitVec.ofNat 32 j ≤ x.hi)) ∨
            (x.exc = .alignment ∧
              (k = .fetch ∨ flagAC s.eflags = false ∨ s.cpl ≠ 3 ∨ (d.base + off).toNat % len = 0))
          (∀ before c lo hi kind rest j, s.segTraps = before ++ ⟨kind, lo, hi, .pageFault c⟩ :: rest →
            (∀ x ∈ before, misses x) → (kind = none ∨ kind = some k) →
            j < len → lo ≤ d.base + off + BitVec.ofNat 32 j → d.base + off + BitVec.ofNat 32 j ≤ hi →
            translate s isSS r narrow off len k = .error (.exc (.pf c))) ∧
          (∀ before lo hi kind rest j, s.segTraps = before ++ ⟨kind, lo, hi, .alignment⟩ :: rest →
            (∀ x ∈ before, misses x) → (kind = none ∨ kind = some k) →
            j < len → lo ≤ d.base + off + BitVec.ofNat 32 j → d.base + off + BitVec.ofNat 32 j ≤ hi →
            k ≠ .fetch → flagAC s.eflags = true → s.cpl = 3 → (d.base + off).toNat % len ≠ 0 →
            translate s isSS r narrow off len k = .error (.exc .ac)) ∧
          ((∀ x ∈ s.segTraps, misses x) → translate s isSS r narrow off len k = .ok (d.base + off))))

/-- 20_memory R67: a push at any pointer of a flat 32-bit stack whose doubleword does not pass the top of the offset
space is performed at that address, aligned or not; pointer 0 wraps to FFFFFFFCH. -/
def Obligations.MisalignedPush : Prop :=
  ∀ (s : State) (r : Reg), Flat s.ss → wideStack s = true → s.segTraps = [] → s.params.segVerdict = [] →
    (s.regs.esp = 0 ∨ 4 ≤ s.regs.esp.toNat) →
    ∃ t, exec (.pushR .w32 r) s = .next t ∧ StoresAt .w32 (s.regs.esp - 4) (s.regs.get r) s t ∧
      t = { s with regs := { s.regs with esp := s.regs.esp - 4 }, eip := s.pcNext,
                   mem := t.mem, written := t.written }

/-- 20_memory R64: on a 32-bit stack the pointer is ESP modulo 2^32; on a 16-bit one it is SP modulo 2^16, its offset
zero-extended, and ESP[31:16] is not changed: for a push, a pop and a release. -/
def Obligations.StackPointerArithmetic : Prop :=
  ∀ (s t : State) (d : Dword),
    ((∃ n v, d = -BitVec.ofNat 32 n ∧ push n v s = .ok t) ∨
      (∃ n v, d = BitVec.ofNat 32 n ∧ pop n s = .ok (v, t)) ∨ release d s = t) →
    (wideStack s = true → stackPtr s = s.regs.esp ∧ t.regs.esp = s.regs.esp + d) ∧
    (wideStack s = false → stackPtr s = (s.regs.esp.setWidth 16).setWidth 32 ∧
      t.regs.esp.setWidth 16 = s.regs.esp.setWidth 16 + d.setWidth 16 ∧
      t.regs.esp.extractLsb' 16 16 = s.regs.esp.extractLsb' 16 16)

/-! ## PUSH and POP -/

/-- 40_stack R130, R132 to R134, R140, R141: the encodings of each PUSH without a memory operand, PUSHF and PUSHFD;
each stores its value, read before the pointer moves, in the new top of stack; no flag and no other register
changes. A slot that raises is the instruction's exception, with nothing changed. -/
def Obligations.PushValue : Prop :=
  (∀ (d : Bool) (r : Reg) (b0 b1 b2 b3 : Byte) (rest : List Byte),
    let sz := attributeSize d false
    decode d ((0x50 + r.number.setWidth 8) :: rest) = .ok (.pushR sz r, 1) ∧
    decode d (0x6A :: b0 :: rest) = .ok (.pushImm8 sz b0, 2) ∧
    decode false (0x68 :: b0 :: b1 :: rest) = .ok (.pushImm .w16 ((b1 ++ b0 : Word).setWidth 32), 3) ∧
    decode true (0x68 :: b0 :: b1 :: b2 :: b3 :: rest) = .ok (.pushImm .w32 (b3 ++ b2 ++ b1 ++ b0), 5) ∧
    decode d (0x06 :: rest) = .ok (.pushEs sz, 1) ∧ decode d (0x0E :: rest) = .ok (.pushCs sz, 1) ∧
    decode d (0x16 :: rest) = .ok (.pushSs sz, 1) ∧ decode d (0x1E :: rest) = .ok (.pushDs sz, 1) ∧
    decode d (0x0F :: 0xA0 :: rest) = .ok (.pushFs sz, 2) ∧ decode d (0x0F :: 0xA8 :: rest) = .ok (.pushGs sz, 2) ∧
    decode false (0x9C :: rest) = .ok (.pushf, 1) ∧ decode true (0x9C :: rest) = .ok (.pushfd, 1)) ∧
  ∀ (i : Instr) (sz : OpSize) (v : Dword) (s : State), pushValue i s = some (sz, v) →
    (∀ lin, stackSlot s (pushOffset (itemBytes sz) 0 s) (itemBytes sz) .stackWrite = .ok lin →
      ∃ t, exec i s = .next t ∧ StoresAt sz lin v s t ∧
        t = { s with regs := movedRegs (-BitVec.ofNat 32 (itemBytes sz)) s, eip := s.pcNext,
                     mem := t.mem, written := t.written }) ∧
    (∀ e, stackSlot s (pushOffset (itemBytes sz) 0 s) (itemBytes sz) .stackWrite = .error (.exc e) →
      exec i s = deliver e.event s)

/-- 40_stack R131: PUSH r/m pushes its operand, read before the pointer moves; the operand's exception goes before
the stack's. -/
def Obligations.PushOperand : Prop :=
  ∀ (sz : OpSize) (rm : RM) (s : State),
    (∀ v lin, OperandValue sz rm v s →
      stackSlot s (pushOffset (itemBytes sz) 0 s) (itemBytes sz) .stackWrite = .ok lin →
      ∃ t, exec (.pushRM sz rm) s = .next t ∧ StoresAt sz lin v s t ∧
        t = { s with regs := movedRegs (-BitVec.ofNat 32 (itemBytes sz)) s, eip := s.pcNext,
                     mem := t.mem, written := t.written }) ∧
    (∀ m e, rm = .mem m → operandSlot s m 0 (itemBytes sz) .dataRead = .error (.exc e) →
      exec (.pushRM sz rm) s = deliver e.event s) ∧
    (∀ v e, OperandValue sz rm v s →
      stackSlot s (pushOffset (itemBytes sz) 0 s) (itemBytes sz) .stackWrite = .error (.exc e) →
      exec (.pushRM sz rm) s = deliver e.event s)

/-- 40_stack R135: POP r (58 + r) moves the pointer, then writes the register: a 16-bit pop leaves bits 31:16, and
POP ESP ends with the popped value. Memory and flags are unchanged. -/
def Obligations.PopRegister : Prop :=
  (∀ (d : Bool) (r : Reg) (rest : List Byte),
    decode d ((0x58 + r.number.setWidth 8) :: rest) = .ok (.popR (attributeSize d false) r, 1)) ∧
  ∀ (sz : OpSize) (r : Reg) (s : State),
    (∀ lin, stackSlot s (stackPtr s) (itemBytes sz) .stackRead = .ok lin →
      exec (.popR sz r) s = .next { s with
        regs := (movedRegs (BitVec.ofNat 32 (itemBytes sz)) s).set r
          (writeSize sz ((movedRegs (BitVec.ofNat 32 (itemBytes sz)) s).get r) (s.mem.loadLE lin (itemBytes sz)))
        eip := s.pcNext }) ∧
    (∀ e, stackSlot s (stackPtr s) (itemBytes sz) .stackRead = .error (.exc e) →
      exec (.popR sz r) s = deliver e.event s)

/-- 40_stack R136: POP r/m stores the popped item at the operand's address, taken with the pointer already moved
where ESP is its base (on a 16-bit stack SP alone has moved: log 43); the register form is POP r. A destination that
raises leaves everything as before. -/
def Obligations.PopOperand : Prop :=
  ∀ (sz : OpSize) (s : State) (src : Dword), stackSlot s (stackPtr s) (itemBytes sz) .stackRead = .ok src →
    (∀ m dst, operandSlot { s with regs := movedRegs (BitVec.ofNat 32 (itemBytes sz)) s } m 0 (itemBytes sz)
        .dataWrite = .ok dst →
      ∃ t, exec (.popRM sz (.mem m)) s = .next t ∧ StoresAt sz dst (s.mem.loadLE src (itemBytes sz)) s t ∧
        t = { s with regs := movedRegs (BitVec.ofNat 32 (itemBytes sz)) s, eip := s.pcNext,
                     mem := t.mem, written := t.written }) ∧
    (∀ m e, operandSlot { s with regs := movedRegs (BitVec.ofNat 32 (itemBytes sz)) s } m 0 (itemBytes sz)
        .dataWrite = .error (.exc e) →
      exec (.popRM sz (.mem m)) s = deliver e.event s) ∧
    (∀ r, exec (.popRM sz (.reg r)) s = .next { s with
        regs := (movedRegs (BitVec.ofNat 32 (itemBytes sz)) s).set r
          (writeSize sz ((movedRegs (BitVec.ofNat 32 (itemBytes sz)) s).get r) (s.mem.loadLE src (itemBytes sz)))
        eip := s.pcNext })

/-- 40_stack R137: POP ES, DS, FS and GS load the selector of the slot's low word and its record; nothing else but
the stack pointer and EIP changes. -/
def Obligations.PopDataSegment : Prop :=
  ∀ (sz : OpSize) (s : State) (lin : Dword) (sel : Word) (r : SegReg),
    stackSlot s (stackPtr s) (itemBytes sz) .stackRead = .ok lin →
    sel = (s.mem.loadLE lin (itemBytes sz)).setWidth 16 →
    let t := { s with regs := movedRegs (BitVec.ofNat 32 (itemBytes sz)) s, eip := s.pcNext }
    (SegLoaded s s.es sel r → exec (.popEs sz) s = .next { t with es := r }) ∧
    (SegLoaded s s.ds sel r → exec (.popDs sz) s = .next { t with ds := r }) ∧
    (SegLoaded s s.fs sel r → exec (.popFs sz) s = .next { t with fs := r }) ∧
    (SegLoaded s s.gs sel r → exec (.popGs sz) s = .next { t with gs := r })

/-- 40_stack R137, 70_reset R318: POP SS loads SS, moves the pointer in the old stack's width and holds off
events for one instruction. -/
def Obligations.PopStackSegment : Prop :=
  ∀ (sz : OpSize) (s : State) (lin : Dword) (r : SegReg),
    stackSlot s (stackPtr s) (itemBytes sz) .stackRead = .ok lin →
    StackSegLoaded s ((s.mem.loadLE lin (itemBytes sz)).setWidth 16) r →
    exec (.popSs sz) s = .next { s with
      regs := movedRegs (BitVec.ofNat 32 (itemBytes sz)) s, eip := s.pcNext, ss := r, intShadow := true }

/-- 40_stack R137: what stops a POP of a segment register, with nothing changed: a stack read that raises; and in
protected mode a failing lookup with its exception, a segment more privileged than CPL or the selector's RPL and a
gate or TSS with #GP of the selector; for SS the exception of the stack segment's checks. The checks and their order
are the model's (log 8). -/
def Obligations.PopSegmentChecks : Prop :=
  ∀ (i : Instr) (sz : OpSize) (s : State),
    i ∈ [.popEs sz, .popDs sz, .popFs sz, .popGs sz, .popSs sz] →
    (∀ e, stackSlot s (stackPtr s) (itemBytes sz) .stackRead = .error (.exc e) → exec i s = deliver e.event s) ∧
    ∀ (lin : Dword) (sel : Word), s.mode = .protectedMode →
      stackSlot s (stackPtr s) (itemBytes sz) .stackRead = .ok lin →
      sel = (s.mem.loadLE lin (itemBytes sz)).setWidth 16 →
      (i ≠ .popSs sz → isNull sel = false →
        (∀ e, gdtLookup s sel = .error (.exc e) → exec i s = deliver e.event s) ∧
        (∀ d, (gdtLookup s sel = .ok (.data d) ∨ gdtLookup s sel = .ok (.code d)) →
          (d.dpl < s.cpl ∨ d.dpl < rpl sel) → exec i s = deliver (Exc.gp (selCode sel)).event s) ∧
        (∀ g a, (gdtLookup s sel = .ok (.callGate g) ∨ gdtLookup s sel = .ok (.taskGate a) ∨
          gdtLookup s sel = .ok (.tss a)) → exec i s = deliver (Exc.gp (selCode sel)).event s)) ∧
      (i = .popSs sz → ∀ e, stackSegment s .gp s.cpl sel = .error (.exc e) → exec i s = deliver e.event s)

/-- 40_stack R138: PUSHA and PUSHAD (60) push EAX, ECX, EDX, EBX, ESP as before, EBP, ESI and EDI in that order; the
pointer ends eight items lower. Where a push raises, the exception is taken with every register as before and each
byte pushed so far old or new (00_scope R10, 60_exceptions R295, decision D6; that it may be either is log 13). -/
def Obligations.PushAllRegisters : Prop :=
  (∀ rest, decode false (0x60 :: rest) = .ok (.pusha, 1) ∧ decode true (0x60 :: rest) = .ok (.pushad, 1)) ∧
  ∀ (i : Instr) (sz : OpSize) (s : State) (slot : Nat → Dword),
    (i = .pusha ∧ sz = .w16 ∨ i = .pushad ∧ sz = .w32) →
    let items := [s.regs.eax, s.regs.ecx, s.regs.edx, s.regs.ebx, s.regs.esp, s.regs.ebp, s.regs.esi, s.regs.edi]
    (CanPush (itemBytes sz) 8 slot s →
      ∃ t, exec i s = .next t ∧ PushedAt sz items slot s t ∧
        t = { s with regs := movedRegs (-BitVec.ofNat 32 (8 * itemBytes sz)) s, eip := s.pcNext,
                     mem := t.mem, written := t.written }) ∧
    (∀ j e, PushFails (itemBytes sz) 8 j slot e s →
      ∃ u, PartlyPushed sz (items.take j) slot s u ∧ exec i s = deliver e.event u)

/-- 40_stack R139: POPA and POPAD (61) load EDI, ESI, EBP, EBX, EDX, ECX and EAX, step over the saved-ESP slot without
reading it, and end the pointer eight items higher; with operand size 16 the high halves stay. A read that raises
leaves everything as before. -/
def Obligations.PopAllRegisters : Prop :=
  (∀ rest, decode false (0x61 :: rest) = .ok (.popa, 1) ∧ decode true (0x61 :: rest) = .ok (.popad, 1)) ∧
  ∀ (i : Instr) (sz : OpSize) (s : State) (slot : Nat → Dword),
    (i = .popa ∧ sz = .w16 ∨ i = .popad ∧ sz = .w32) →
    (CanPop (itemBytes sz) 0 3 slot s → CanPop (itemBytes sz) 4 8 slot s →
      let item := fun j => s.mem.loadLE (slot j) (itemBytes sz)
      exec i s = .next { s with
        regs := { edi := writeSize sz s.regs.edi (item 0), esi := writeSize sz s.regs.esi (item 1)
                  ebp := writeSize sz s.regs.ebp (item 2), ebx := writeSize sz s.regs.ebx (item 4)
                  edx := writeSize sz s.regs.edx (item 5), ecx := writeSize sz s.regs.ecx (item 6)
                  eax := writeSize sz s.regs.eax (item 7)
                  esp := movedEsp (BitVec.ofNat 32 (8 * itemBytes sz)) s }
        eip := s.pcNext }) ∧
    (∀ j e, j < 8 → j ≠ 3 →
      (∀ k < j, k ≠ 3 → stackSlot s (popOffset (itemBytes sz) k s) (itemBytes sz) .stackRead = .ok (slot k)) →
      stackSlot s (popOffset (itemBytes sz) j s) (itemBytes sz) .stackRead = .error (.exc e) →
      exec i s = deliver e.event s)

/-- PUSHA or PUSHAD followed by POPA or POPAD of the same size gives every general register back (40_stack R138,
R139), where the items are read from where they were pushed and, as always by the default `P_SEG`, do not overlap. -/
def Obligations.PushaPopa : Prop :=
  ∀ (i j : Instr) (sz : OpSize) (s : State) (slot : Nat → Dword) (q : Dword),
    (i = .pusha ∧ j = .popa ∧ sz = .w16 ∨ i = .pushad ∧ j = .popad ∧ sz = .w32) →
    CanPush (itemBytes sz) 8 slot s → AllUntouched (itemBytes sz) 8 slot s →
    (∀ k < 8, stackSlot s (pushOffset (itemBytes sz) k s) (itemBytes sz) .stackRead = .ok (slot k)) →
    ∃ t, exec i s = .next t ∧
      exec j { t with pcNext := q } = .next { s with eip := q, pcNext := q, mem := t.mem, written := t.written }

/-- 40_stack R142, R143: POPF pops a word and POPFD a doubleword; EFLAGS takes the bits their mask admits, and no
other register but the stack pointer changes. A read that raises leaves everything as before. -/
def Obligations.PopFlags : Prop :=
  ∀ (s : State),
    (∀ lin, stackSlot s (stackPtr s) 2 .stackRead = .ok lin →
      exec .popf s = .next { s with
        regs := movedRegs 2 s, eip := s.pcNext, eflags := flagsAfterPopf s (s.mem.loadLE lin 2) }) ∧
    (∀ lin, stackSlot s (stackPtr s) 4 .stackRead = .ok lin →
      exec .popfd s = .next { s with
        regs := movedRegs 4 s, eip := s.pcNext, eflags := flagsAfterPopfd s (s.mem.loadLE lin 4) }) ∧
    (∀ e, stackSlot s (stackPtr s) 2 .stackRead = .error (.exc e) → exec .popf s = deliver e.event s) ∧
    (∀ e, stackSlot s (stackPtr s) 4 .stackRead = .error (.exc e) → exec .popfd s = deliver e.event s)

/-- The masks of POPF, POPFD, IRET and IRETD, bit by bit. Where the run supplies none, those of decision D21: CF, PF,
AF, ZF, SF, TF, DF, OF and NT always load; IF only where CPL is not above IOPL; IOPL only at CPL 0; AC and ID with
32-bit operands; POPFD clears RF and leaves VM, VIF and VIP; IRETD loads RF, and VIF and VIP at CPL 0; every reserved
bit stays. The bits of RF, VIF and VIP are the model's (log 11). A mask the run supplies admits what it says, but no
reserved bit (10_state R30); that RF is then not cleared on top of it is the model's choice (log 11, log 42). -/
def Obligations.FlagMasks : Prop :=
  ∀ (s : State) (v : Dword) (b : Nat), b < 32 →
    let e := s.eflags
    (s.params.flagMask = [] →
      ((flagsAfterPopf s v).getLsbD b =
        if b ∈ [0, 2, 4, 6, 7, 8, 10, 11, 14] then v.getLsbD b
        else if b = 9 then (if s.cpl ≤ e.extractLsb' 12 2 then v.getLsbD 9 else e.getLsbD 9)
        else if b = 12 ∨ b = 13 then (if s.cpl = 0 then v.getLsbD b else e.getLsbD b)
        else e.getLsbD b) ∧
      ((flagsAfterPopfd s v).getLsbD b =
        if b ∈ [0, 2, 4, 6, 7, 8, 10, 11, 14, 18, 21] then v.getLsbD b
        else if b = 9 then (if s.cpl ≤ e.extractLsb' 12 2 then v.getLsbD 9 else e.getLsbD 9)
        else if b = 12 ∨ b = 13 then (if s.cpl = 0 then v.getLsbD b else e.getLsbD b)
        else if b = 16 then false
        else e.getLsbD b) ∧
      ((flagsAfterIret .w16 s v).getLsbD b = (flagsAfterPopf s v).getLsbD b) ∧
      ((flagsAfterIret .w32 s v).getLsbD b =
        if b ∈ [0, 2, 4, 6, 7, 8, 10, 11, 14, 16, 18, 21] then v.getLsbD b
        else if b = 9 then (if s.cpl ≤ e.extractLsb' 12 2 then v.getLsbD 9 else e.getLsbD 9)
        else if b = 12 ∨ b = 13 ∨ b = 19 ∨ b = 20 then (if s.cpl = 0 then v.getLsbD b else e.getLsbD b)
        else e.getLsbD b)) ∧
    (∀ m, s.params.flagMask.lookup ⟨.popf, s.cpl, e⟩ = some m → (flagsAfterPopf s v).getLsbD b =
      if m.getLsbD b = true ∧ b < 16 ∧ b ∉ [1, 3, 5, 15] then v.getLsbD b else e.getLsbD b) ∧
    (∀ m, s.params.flagMask.lookup ⟨.popfd, s.cpl, e⟩ = some m → (flagsAfterPopfd s v).getLsbD b =
      if m.getLsbD b = true ∧ b < 22 ∧ b ∉ [1, 3, 5, 15] then v.getLsbD b else e.getLsbD b) ∧
    (∀ m, s.params.flagMask.lookup ⟨.iret, s.cpl, e⟩ = some m →
      ((flagsAfterIret .w16 s v).getLsbD b =
        if m.getLsbD b = true ∧ b < 16 ∧ b ∉ [1, 3, 5, 15] then v.getLsbD b else e.getLsbD b) ∧
      ((flagsAfterIret .w32 s v).getLsbD b =
        if m.getLsbD b = true ∧ b < 22 ∧ b ∉ [1, 3, 5, 15] then v.getLsbD b else e.getLsbD b))

/-- 10_state R29: no instruction but POPF, POPFD, IRET and IRETD changes a flag, but for the clearing of IF on entry
to a handler; in real-address mode the entry clears TF as well (60_exceptions R288). -/
def Obligations.FlagsUnchanged : Prop :=
  ∀ (i : Instr) (s t : State), exec i s = .next t → writesFlags i = false → ∀ b < 32,
    (t.eflags.getLsbD b = true → s.eflags.getLsbD b = true) ∧
    (b ≠ 9 → (b ≠ 8 ∨ s.mode = .protectedMode) → t.eflags.getLsbD b = s.eflags.getLsbD b)

/-! ## CALL and RET -/

/-- 41_call_ret R160, R161: a near CALL pushes `pc_next` and loads EIP with its target; flags, segment registers and
the other general registers are unchanged. A target beyond the limit is #GP(0), a failing push its own exception, and
so is an operand that cannot be read. -/
def Obligations.NearCall : Prop :=
  (∀ (i : Instr) (sz : OpSize) (target limit : Dword) (s : State), NearTarget i sz target s →
    codeLimit s = some limit →
    (∀ lin, target ≤ limit →
      stackSlot s (pushOffset (itemBytes sz) 0 s) (itemBytes sz) .stackWrite = .ok lin →
      ∃ t, exec i s = .next t ∧ StoresAt sz lin s.pcNext s t ∧
        t = { s with regs := movedRegs (-BitVec.ofNat 32 (itemBytes sz)) s, eip := target,
                     mem := t.mem, written := t.written }) ∧
    (limit < target → exec i s = deliver (Exc.gp 0).event s) ∧
    (∀ e, target ≤ limit →
      stackSlot s (pushOffset (itemBytes sz) 0 s) (itemBytes sz) .stackWrite = .error (.exc e) →
      exec i s = deliver e.event s)) ∧
  ∀ (sz : OpSize) (m : MemOp) (e : Exc) (s : State),
    operandSlot s m 0 (itemBytes sz) .dataRead = .error (.exc e) → exec (.callRM sz (.mem m)) s = deliver e.event s

/-- 41_call_ret R162, R163: RET (C3) loads EIP with the popped item, zero-extended, and RET n (C2 iw) releases n
bytes more; memory is not written. A failing pop raises, and so does an item beyond the code segment limit, with
#GP(0). -/
def Obligations.NearReturn : Prop :=
  (∀ (d : Bool) (b0 b1 : Byte) (rest : List Byte),
    decode d (0xC3 :: rest) = .ok (.ret (attributeSize d false), 1) ∧
    decode d (0xC2 :: b0 :: b1 :: rest) = .ok (.retImm (attributeSize d false) (b1 ++ b0), 3)) ∧
  ∀ (i : Instr) (sz : OpSize) (k limit : Dword) (s : State), nearReturnForm i = some (sz, k) →
    codeLimit s = some limit →
    (∀ lin, stackSlot s (stackPtr s) (itemBytes sz) .stackRead = .ok lin →
      (s.mem.loadLE lin (itemBytes sz) ≤ limit →
        exec i s = .next { s with
          regs := movedRegs (BitVec.ofNat 32 (itemBytes sz) + k) s, eip := s.mem.loadLE lin (itemBytes sz) }) ∧
      (limit < s.mem.loadLE lin (itemBytes sz) → exec i s = deliver (Exc.gp 0).event s)) ∧
    (∀ e, stackSlot s (stackPtr s) (itemBytes sz) .stackRead = .error (.exc e) →
      exec i s = deliver e.event s)

/-- A near CALL followed by RET comes back to the instruction after it with every register as before it
(41_call_ret R160 to R162), where the item is read from where it was pushed. -/
def Obligations.CallThenRet : Prop :=
  ∀ (i : Instr) (sz : OpSize) (target limit lin q : Dword) (s : State), NearTarget i sz target s →
    codeLimit s = some limit → target ≤ limit → truncSize sz s.pcNext ≤ limit →
    stackSlot s (pushOffset (itemBytes sz) 0 s) (itemBytes sz) .stackWrite = .ok lin →
    stackSlot s (pushOffset (itemBytes sz) 0 s) (itemBytes sz) .stackRead = .ok lin →
    ∃ t, exec i s = .next t ∧
      exec (.ret sz) { t with pcNext := q } =
        .next { s with eip := truncSize sz s.pcNext, pcNext := q, mem := t.mem, written := t.written }

/-- 41_call_ret R164 to R166, 10_state R34: a direct far CALL to a code segment of the caller's level pushes CS and
`pc_next` and loads CS, its RPL bits CPL (log 20), and EIP; nothing else but the stack pointer changes. A push that
raises is the instruction's exception, what was pushed before it old or new (log 13). -/
def Obligations.FarCallDirect : Prop :=
  ∀ (i : Instr) (sz : OpSize) (sel : Word) (off : Dword) (d : SegDesc) (slot : Nat → Dword) (s : State),
    FarTarget i sz sel off s → s.mode = .protectedMode → gdtLookup s sel = .ok (.code d) → d.dpl = s.cpl →
    (CanPush (itemBytes sz) 2 slot s →
      ∃ t, exec i s = .next t ∧ PushedAt sz [s.cs.sel.setWidth 32, s.pcNext] slot s t ∧
        t = { s with regs := movedRegs (-BitVec.ofNat 32 (2 * itemBytes sz)) s, cs := ⟨withRpl sel s.cpl, some d⟩,
                     eip := off, mem := t.mem, written := t.written }) ∧
    (∀ j e, PushFails (itemBytes sz) 2 j slot e s →
      ∃ u, PartlyPushed sz ([s.cs.sel.setWidth 32, s.pcNext].take j) slot s u ∧ exec i s = deliver e.event u)

/-- 41_call_ret R166 in real-address mode: CS and `pc_next` are pushed, CS takes the selector with base
16 × selector; that its record is otherwise as before is the model's (log 19). A push that raises is the
instruction's exception, what was pushed before it old or new (log 13). -/
def Obligations.FarCallReal : Prop :=
  ∀ (i : Instr) (sz : OpSize) (sel : Word) (off : Dword) (slot : Nat → Dword) (s : State),
    FarTarget i sz sel off s → s.mode = .realMode →
    (CanPush (itemBytes sz) 2 slot s →
      ∃ t, exec i s = .next t ∧ PushedAt sz [s.cs.sel.setWidth 32, s.pcNext] slot s t ∧
        (∀ d, t.cs.desc = some d → d.base = 16 * sel.setWidth 32) ∧
        t = { s with regs := movedRegs (-BitVec.ofNat 32 (2 * itemBytes sz)) s, cs := realSegment sel s.cs,
                     eip := off, mem := t.mem, written := t.written }) ∧
    (∀ j e, PushFails (itemBytes sz) 2 j slot e s →
      ∃ u, PartlyPushed sz ([s.cs.sel.setWidth 32, s.pcNext].take j) slot s u ∧ exec i s = deliver e.event u)

/-- 41_call_ret R165, R166, R171, R172: what stops a far CALL before anything is pushed: an operand that cannot be
read; in protected mode a failing lookup, a code segment of another level, a data segment, a gate check that fails
(#GP with the selector; by default log 9), a gate whose target fails its lookup (#NP of a record not present, #GP of
none or of no code segment; that #NP goes first is log 8, DESIGN CHOICE) or is less privileged than the caller, a task
gate or TSS (refused). -/
def Obligations.FarCallChecks : Prop :=
  (∀ (sz : OpSize) (m : MemOp) (e : Exc) (s : State), PairReadFails (itemBytes sz) 2 m e s →
    exec (.callMem sz m) s = deliver e.event s) ∧
  (∀ (s : State) (sel : Word),
    (descriptorOf s sel = none → codeSegment s sel = .error (.exc (.gp (selCode sel)))) ∧
    (∀ x, descriptorOf s sel = some x → x.present = false →
      codeSegment s sel = .error (.exc (.np (selCode sel)))) ∧
    (∀ x, descriptorOf s sel = some x → x.present = true → (∀ d, x ≠ .code d) →
      codeSegment s sel = .error (.exc (.gp (selCode sel)))) ∧
    (∀ d, descriptorOf s sel = some (.code d) → d.present = true → codeSegment s sel = .ok d) ∧
    (∀ g, s.params.gateCheck = [] →
      (gateAllows s (.call g sel s.cpl) = true ↔ s.cpl ≤ g.access.dpl ∧ rpl sel ≤ g.access.dpl))) ∧
  ∀ (i : Instr) (sz : OpSize) (sel : Word) (off : Dword) (s : State),
    FarTarget i sz sel off s → s.mode = .protectedMode →
    (∀ e, gdtLookup s sel = .error (.exc e) → exec i s = deliver e.event s) ∧
    (∀ d, gdtLookup s sel = .ok (.code d) → d.dpl ≠ s.cpl → exec i s = deliver (Exc.gp (selCode sel)).event s) ∧
    (∀ d, gdtLookup s sel = .ok (.data d) → exec i s = deliver (Exc.gp (selCode sel)).event s) ∧
    (∀ a, gdtLookup s sel = .ok (.taskGate a) ∨ gdtLookup s sel = .ok (.tss a) →
      exec i s = .refused .taskSwitch) ∧
    (∀ g, gdtLookup s sel = .ok (.callGate g) →
      (gateAllows s (.call g sel s.cpl) = false → exec i s = deliver (Exc.gp (selCode sel)).event s) ∧
      (gateAllows s (.call g sel s.cpl) = true →
        (∀ e, codeSegment s g.selector = .error (.exc e) → exec i s = deliver e.event s) ∧
        (∀ c, codeSegment s g.selector = .ok c → s.cpl < c.dpl →
          exec i s = deliver (Exc.gp (selCode g.selector)).event s)))

/-- 41_call_ret R173: a call through a gate to the caller's own level pushes CS and `pc_next` as doublewords on the
current stack and goes to the gate's target; the instruction's offset is not used. A push that raises is the
instruction's exception, what was pushed before it old or new (log 13). -/
def Obligations.GateCallSameLevel : Prop :=
  ∀ (i : Instr) (sz : OpSize) (sel : Word) (off : Dword) (g : CallGate) (c : SegDesc) (slot : Nat → Dword)
    (s : State), FarTarget i sz sel off s → s.mode = .protectedMode →
    gdtLookup s sel = .ok (.callGate g) → gateAllows s (.call g sel s.cpl) = true →
    codeSegment s g.selector = .ok c → c.dpl = s.cpl →
    (CanPush 4 2 slot s →
      ∃ t, exec i s = .next t ∧ PushedAt .w32 [s.cs.sel.setWidth 32, s.pcNext] slot s t ∧
        t = { s with regs := movedRegs (-8#32) s, cs := ⟨withRpl g.selector s.cpl, some c⟩, eip := g.offset,
                     mem := t.mem, written := t.written }) ∧
    (∀ j e, PushFails 4 2 j slot e s →
      ∃ u, PartlyPushed .w32 ([s.cs.sel.setWidth 32, s.pcNext].take j) slot s u ∧ exec i s = deliver e.event u)

/-- 41_call_ret R172: a call through a gate to a more privileged level takes the TSS stack of that level and pushes
SS, ESP, the copied parameters with the highest first, CS and `pc_next` on it; the level, CS and EIP are the gate's,
and nothing else changes. The caller's parameters lie apart from the frame. -/
def Obligations.GateCallInward : Prop :=
  ∀ (i : Instr) (sz : OpSize) (sel : Word) (off : Dword) (g : CallGate) (c d : SegDesc) (slot src : Nat → Dword)
    (s : State), FarTarget i sz sel off s → s.mode = .protectedMode →
    gdtLookup s sel = .ok (.callGate g) → gateAllows s (.call g sel s.cpl) = true →
    codeSegment s g.selector = .ok c → c.dpl < s.cpl →
    stackSegment s .ts c.dpl (tssStack s c.dpl).ss = .ok d →
    CanPush 4 (4 + g.paramCount.toNat) slot (entryStack c.dpl d s) →
    (∀ k < g.paramCount.toNat, translate (entryStack c.dpl d s) true s.ss (!wideStack s)
      (wrapStack s (stackPtr s + BitVec.ofNat 32 (4 * k))) 4 .stackRead = .ok (src k)) →
    (∀ k < g.paramCount.toNat, ∀ b < 4, ∀ j < 4 + g.paramCount.toNat,
      Outside (slot j) 4 (src k + BitVec.ofNat 32 b).toNat) →
    ∃ t, exec i s = .next t ∧
      PushedAt .w32 ([s.ss.sel.setWidth 32, s.regs.esp] ++ gateParams g.paramCount.toNat src s ++
        [s.cs.sel.setWidth 32, s.pcNext]) slot s t ∧
      t = { s with
        regs := movedRegs (-BitVec.ofNat 32 (4 * (4 + g.paramCount.toNat))) (entryStack c.dpl d s)
        ss := ⟨(tssStack s c.dpl).ss, some d⟩, cs := ⟨withRpl g.selector c.dpl, some c⟩, eip := g.offset
        cpl := c.dpl, mem := t.mem, written := t.written }

/-- 41_call_ret R172, 60_exceptions R265, R267, R285: a TSS stack that is no writable data segment of the new level,
be it another segment, a gate, a TSS or nothing, is #TS with its selector, one that is not present #SS; a call
through a gate or an entry to a handler that finds such a stack, or cannot store SS and ESP on it, takes that
exception (the entry's with EXT, R286). What makes a stack segment unfit is the model's (log 8). -/
def Obligations.StackSwitchChecks : Prop :=
  (∀ (s : State) (level : BitVec 2) (sel : Word),
    (descriptorOf s sel = none → stackSegment s .ts level sel = .error (.exc (.ts (selCode sel)))) ∧
    (∀ x, descriptorOf s sel = some x → (∀ d, x ≠ .data d) →
      stackSegment s .ts level sel = .error (.exc (.ts (selCode sel)))) ∧
    (∀ d, descriptorOf s sel = some (.data d) → (d.writable = false ∨ d.dpl ≠ level ∨ rpl sel ≠ level) →
      stackSegment s .ts level sel = .error (.exc (.ts (selCode sel)))) ∧
    (∀ d, descriptorOf s sel = some (.data d) → d.writable = true → d.dpl = level → rpl sel = level →
      d.present = false → stackSegment s .ts level sel = .error (.exc (.ss (selCode sel))))) ∧
  (∀ (i : Instr) (sz : OpSize) (sel : Word) (off : Dword) (g : CallGate) (c : SegDesc) (e : Exc) (s : State),
    FarTarget i sz sel off s → s.mode = .protectedMode →
    gdtLookup s sel = .ok (.callGate g) → gateAllows s (.call g sel s.cpl) = true →
    codeSegment s g.selector = .ok c → c.dpl < s.cpl →
    (stackSegment s .ts c.dpl (tssStack s c.dpl).ss = .error (.exc e) → exec i s = deliver e.event s) ∧
    (∀ d j slot, stackSegment s .ts c.dpl (tssStack s c.dpl).ss = .ok d →
      PushFails 4 2 j slot e (entryStack c.dpl d s) →
      ∃ u, PartlyPushed .w32 ([s.ss.sel.setWidth 32, s.regs.esp].take j) slot s u ∧ exec i s = deliver e.event u)) ∧
  ∀ (ev : Event) (g : IntGate) (c : SegDesc) (e : Exc) (s : State), s.mode = .protectedMode →
    handlerGate ev s = .ok (g, c) → c.dpl ≠ s.cpl →
    (stackSegment s .ts c.dpl (tssStack s c.dpl).ss = .error (.exc e) →
      enterHandler ev s = .error ⟨.exc (e.withExt ev.kind), s⟩) ∧
    (∀ d j slot, stackSegment s .ts c.dpl (tssStack s c.dpl).ss = .ok d →
      PushFails 4 2 j slot e (entryStack c.dpl d s) →
      ∃ p, enterHandler ev s = .error ⟨.exc (e.withExt ev.kind), p⟩ ∧
        PushedAt .w32 ([s.ss.sel.setWidth 32, s.regs.esp].take j) slot s p)

/-- 41_call_ret R167 to R169: a far return to the same level loads EIP and CS from the two items on top and moves the
pointer past them and the n released bytes; in real-address mode without checks, CS's record being otherwise as
before (log 19). What stops it: a read that raises, a more privileged selector, a failing lookup. -/
def Obligations.FarReturnSameLevel : Prop :=
  ∀ (i : Instr) (sz : OpSize) (k : Dword) (slot : Nat → Dword) (s : State), farReturnForm i = some (sz, k) →
    (∀ j e, PopFails (itemBytes sz) 2 j slot e s → exec i s = deliver e.event s) ∧
    (CanPop (itemBytes sz) 0 2 slot s →
      let eip := s.mem.loadLE (slot 0) (itemBytes sz)
      let sel : Word := (s.mem.loadLE (slot 1) (itemBytes sz)).setWidth 16
      let regs := movedRegs (BitVec.ofNat 32 (2 * itemBytes sz) + k) s
      (s.mode = .realMode →
        exec i s = .next { s with regs := regs, eip := eip, cs := realSegment sel s.cs }) ∧
      (s.mode = .protectedMode → rpl sel < s.cpl → exec i s = deliver (Exc.gp (selCode sel)).event s) ∧
      (∀ e, s.mode = .protectedMode → rpl sel = s.cpl → codeSegment s sel = .error (.exc e) →
        exec i s = deliver e.event s) ∧
      (∀ d, s.mode = .protectedMode → rpl sel = s.cpl → codeSegment s sel = .ok d →
        exec i s = .next { s with regs := regs, eip := eip, cs := ⟨sel, some d⟩ }))

/-- 41_call_ret R174, R175: a far return to a less privileged level reads ESP and SS above the k released bytes,
returns to that stack and releases k bytes from it too; the data segment registers that name a more privileged
segment are loaded with the null selector (93 K9; log 25). With 16-bit items ESP is the word zero-extended (log 18).
A failing lookup or `P_GATECHECK` (by default, the segment's level is not the selector's RPL: log 9), a read of the
outer ESP or SS that raises, and an unfit stack segment (log 8) stop it. -/
def Obligations.FarReturnOutward : Prop :=
  ∀ (i : Instr) (sz : OpSize) (k : Dword) (slot : Nat → Dword) (s : State),
    farReturnForm i = some (sz, k) → s.mode = .protectedMode → CanPop (itemBytes sz) 0 2 slot s →
    let sel : Word := (s.mem.loadLE (slot 1) (itemBytes sz)).setWidth 16
    let q := stackPtr s + BitVec.ofNat 32 (2 * itemBytes sz) + k
    let espSlot := stackSlot s (wrapStack s q) (itemBytes sz) .stackRead
    let ssSlot := stackSlot s (wrapStack s (q + BitVec.ofNat 32 (itemBytes sz))) (itemBytes sz) .stackRead
    s.cpl < rpl sel →
    (∀ e, codeSegment s sel = .error (.exc e) → exec i s = deliver e.event s) ∧
    ∀ d, codeSegment s sel = .ok d →
      (s.params.gateCheck = [] → (gateAllows s (.ret d sel s.cpl) = true ↔ d.dpl = rpl sel)) ∧
      (gateAllows s (.ret d sel s.cpl) = false → exec i s = deliver (Exc.gp (selCode sel)).event s) ∧
      (gateAllows s (.ret d sel s.cpl) = true →
        (∀ e, espSlot = .error (.exc e) → exec i s = deliver e.event s) ∧
        (∀ a e, espSlot = .ok a → ssSlot = .error (.exc e) → exec i s = deliver e.event s) ∧
        ∀ a b, espSlot = .ok a → ssSlot = .ok b →
          let ssSel : Word := (s.mem.loadLE b (itemBytes sz)).setWidth 16
          (∀ e, stackSegment s .gp (rpl sel) ssSel = .error (.exc e) → exec i s = deliver e.event s) ∧
          ∀ sd, stackSegment s .gp (rpl sel) ssSel = .ok sd →
            let u : State := { s with
              cs := ⟨sel, some d⟩, eip := s.mem.loadLE (slot 0) (itemBytes sz), cpl := rpl sel
              ss := ⟨ssSel, some sd⟩, regs := { s.regs with esp := s.mem.loadLE a (itemBytes sz) }
              ds := nullAbove (rpl sel) s.ds, es := nullAbove (rpl sel) s.es
              fs := nullAbove (rpl sel) s.fs, gs := nullAbove (rpl sel) s.gs }
            exec i s = .next { u with regs := movedRegs k u })

/-! ## ENTER and LEAVE -/

/-- 43_enter R220, R221, R226: ENTER with level 0 (modulo 32, decision D22) pushes EBP, copies the stack pointer into
EBP and subtracts the storage from the stack pointer; no frame pointer is copied. That a 16-bit or mixed-size form
writes BP alone is log 35 (DEDUCED). A push that raises leaves everything as before. -/
def Obligations.EnterNonNested : Prop :=
  ∀ (sz : OpSize) (storage : Word) (level : Byte) (s : State), level.toNat % 32 = 0 →
    (∀ e, stackSlot s (pushOffset (itemBytes sz) 0 s) (itemBytes sz) .stackWrite = .error (.exc e) →
      exec (.enter sz storage level) s = deliver e.event s) ∧
    ∀ lin, stackSlot s (pushOffset (itemBytes sz) 0 s) (itemBytes sz) .stackWrite = .ok lin →
      ∃ t, exec (.enter sz storage level) s = .next t ∧ StoresAt sz lin s.regs.ebp s t ∧
        (sz = .w32 → wideStack s = true → t.regs =
          { s.regs with ebp := s.regs.esp - 4, esp := s.regs.esp - 4 - storage.setWidth 32 }) ∧
        t = { s with
          regs := { movedRegs (-BitVec.ofNat 32 (itemBytes sz) - storage.setWidth 32) s with ebp := t.regs.ebp }
          eip := s.pcNext, mem := t.mem, written := t.written } ∧
        t.regs.ebp = (if sz = .w32 ∧ wideStack s = true then pushOffset (itemBytes sz) 0 s
          else setLow16 s.regs.ebp (pushOffset (itemBytes sz) 0 s))

/-- 43_enter R220, R222: ENTER with level L above 0 pushes EBP, L - 1 frame pointers read below the caller's EBP in
the stack segment, and the new frame's offset; EBP holds that offset, all of it where operand and stack are 32-bit, else its
low word in BP alone (R226; for the mixed sizes log 35, DEDUCED), and the pointer ends L + 1 items and the storage
lower. The items read lie apart from the items pushed. -/
def Obligations.EnterNested : Prop :=
  ∀ (sz : OpSize) (storage : Word) (level : Byte) (slot src : Nat → Dword) (s : State),
    let L := level.toNat % 32
    0 < L → CanPush (itemBytes sz) (L + 1) slot s →
    (∀ k < L - 1, stackSlot s (wrapStack s (s.regs.ebp - BitVec.ofNat 32 (itemBytes sz * (k + 1)))) (itemBytes sz)
      .stackRead = .ok (src k)) →
    (∀ k < L - 1, ∀ b < itemBytes sz, ∀ j < L + 1,
      Outside (slot j) (itemBytes sz) (src k + BitVec.ofNat 32 b).toNat) →
    ∃ t, exec (.enter sz storage level) s = .next t ∧ PushedAt sz (enterItems sz L src s) slot s t ∧
      t = { s with
        regs := { movedRegs (-BitVec.ofNat 32 (itemBytes sz * (L + 1)) - storage.setWidth 32) s with
          ebp := if sz = .w32 ∧ wideStack s = true then pushOffset (itemBytes sz) 0 s
            else setLow16 s.regs.ebp (pushOffset (itemBytes sz) 0 s) }
        eip := s.pcNext, mem := t.mem, written := t.written }

/-- 43_enter R223: LEAVE (C9) sets the stack pointer just above the item EBP addresses and loads EBP with that item; the
old stack pointer is not used and memory is not written. A read that raises leaves EBP and ESP as before. -/
def Obligations.Leave : Prop :=
  (∀ (d : Bool) (rest : List Byte), decode d (0xC9 :: rest) = .ok (.leave (attributeSize d false), 1)) ∧
  ∀ (sz : OpSize) (s : State),
    let p := wrapStack s s.regs.ebp
    (∀ lin, stackSlot s p (itemBytes sz) .stackRead = .ok lin →
      exec (.leave sz) s = .next { s with
        regs := { s.regs with
          esp := if wideStack s then s.regs.ebp + BitVec.ofNat 32 (itemBytes sz)
            else setLow16 s.regs.esp (s.regs.ebp + BitVec.ofNat 32 (itemBytes sz))
          ebp := writeSize sz s.regs.ebp (s.mem.loadLE lin (itemBytes sz)) }
        eip := s.pcNext }) ∧
    (∀ e, stackSlot s p (itemBytes sz) .stackRead = .error (.exc e) → exec (.leave sz) s = deliver e.event s)

/-- LEAVE undoes ENTER at any level: every register is as before it (43_enter R223, R224), where the saved EBP is read
from where it was pushed and no later item touches it. A 16-bit ENTER on a 32-bit stack keeps only the low half of the
frame's offset, and is left out. -/
def Obligations.EnterThenLeave : Prop :=
  ∀ (sz : OpSize) (storage : Word) (level : Byte) (slot src : Nat → Dword) (q : Dword) (s : State),
    let L := level.toNat % 32
    (sz = .w32 ∨ wideStack s = false) → CanPush (itemBytes sz) (L + 1) slot s → Untouched (itemBytes sz) (L + 1) 0 slot s →
    (∀ k < L - 1, stackSlot s (wrapStack s (s.regs.ebp - BitVec.ofNat 32 (itemBytes sz * (k + 1)))) (itemBytes sz)
      .stackRead = .ok (src k)) →
    stackSlot s (pushOffset (itemBytes sz) 0 s) (itemBytes sz) .stackRead = .ok (slot 0) →
    ∃ t, exec (.enter sz storage level) s = .next t ∧
      exec (.leave sz) { t with pcNext := q } =
        .next { s with eip := q, pcNext := q, mem := t.mem, written := t.written }

/-! ## Exceptions and interrupts -/

/-- 60_exceptions R283 to R285: an entry in protected mode pushes (SS and ESP, on a switch to the TSS stack of the new
level,) EFLAGS, CS, the instruction pointer and the error code if there is one, loads CS and EIP from the gate, sets
the level, and clears IF through an interrupt gate; nothing else changes. That TF, NT, VM and RF stay is the model's
reading (log 24, DEDUCED). -/
def Obligations.ProtectedEntry : Prop :=
  ∀ (ev : Event) (g : IntGate) (c d : SegDesc) (slot : Nat → Dword) (s : State), HandlerReady ev g c d slot s →
    ∃ t, deliver ev s = .next t ∧ Entered ev g c d slot s t

/-- 60_exceptions R288: an entry in real-address mode pushes FLAGS, CS and IP as words, clears IF and TF, and takes
CS:IP from the table at linear address 4 × vector; no level changes, and no error code is pushed where the run's
`P_ERRCODE` asks for none (one it asks for is a word: log 46, DESIGN CHOICE). That CS's record is otherwise as before
is the model's (log 19, PRESUMED), and that nothing of `P_SEG` stops the table's two reads its choice (log 39). -/
def Obligations.RealEntry : Prop :=
  ∀ (ev : Event) (slot : Nat → Dword) (s : State), s.mode = .realMode →
    (s.params.errCode = [] → realItems ev s = [s.eflags, s.cs.sel.setWidth 32, savedEip ev.kind s]) ∧
    (CanPush 2 (realItems ev s).length slot s →
      ∃ t, deliver ev s = .next t ∧ EnteredReal ev slot s t ∧
        t.cs.sel = (t.mem.loadLE (4 * ev.vector.setWidth 32 + 2) 2).setWidth 16 ∧
        (∀ d, t.cs.desc = some d → d.base = 16 * t.cs.sel.setWidth 32))

/-- 42_int R190 to R193, R198, R199: INT 3, INT n, INTO with OF set, BOUND out of range and UD2 enter their handler: with
`pc_next` saved for the software interrupts and the instruction's own address for #BR and #UD, unless the run's
`P_SAVED_EIP` says otherwise (log 12, log 42); none pushes an error code, unless its `P_ERRCODE` asks for one. In
real-address mode CS's record is otherwise as before (log 19, PRESUMED), and nothing of `P_SEG` stops the reads of the
interrupt table: the model's choice (log 39). -/
def Obligations.CallsItsHandler : Prop :=
  ∀ (i : Instr) (ev : Event) (s : State), CallsHandler i ev s →
    (s.params.errCode = [] → ev.pushed s = none) ∧ (ev.kind = .software ∨ ev.kind = .fault) ∧
    (s.params.savedEip = [] → savedEip ev.kind s = if ev.kind = .software then s.pcNext else s.eip) ∧
    (∀ g c d slot, HandlerReady ev g c d slot s → ∃ t, exec i s = .next t ∧ Entered ev g c d slot s t) ∧
    (∀ slot, s.mode = .realMode → CanPush 2 (realItems ev s).length slot s →
      ∃ t, exec i s = .next t ∧ EnteredReal ev slot s t)

/-- 42_int R192, R193: INTO with OF clear and BOUND with the index within both inclusive signed bounds only go on to
the next instruction; a bound that cannot be read raises its exception. -/
def Obligations.NoHandlerCalled : Prop :=
  (∀ s : State, flagOF s.eflags = false → exec .into s = .next { s with eip := s.pcNext }) ∧
  (∀ (sz : OpSize) (r : Reg) (m : MemOp) (e : Exc) (s : State), PairReadFails (itemBytes sz) (itemBytes sz) m e s →
    exec (.bound sz r m) s = deliver e.event s) ∧
  ∀ (sz : OpSize) (r : Reg) (m : MemOp) (lo hi : Dword) (s : State),
    operandSlot s m 0 (itemBytes sz) .dataRead = .ok lo →
    operandSlot s m (BitVec.ofNat 32 (itemBytes sz)) (itemBytes sz) .dataRead = .ok hi →
    signedSize sz (s.mem.loadLE lo (itemBytes sz)) ≤ signedSize sz (s.regs.get r) →
    signedSize sz (s.regs.get r) ≤ signedSize sz (s.mem.loadLE hi (itemBytes sz)) →
    exec (.bound sz r m) s = .next { s with eip := s.pcNext }

/-- 60_exceptions R281, R283: the checks of an entry in protected mode, in order, each with its exception; a task gate
is refused (R289). For a software interrupt `P_GATECHECK` must hold: by default CPL is not above the gate's level, as
log 9 has it. -/
def Obligations.EntryChecks : Prop :=
  ∀ (ev : Event) (s : State),
    (s.idt.lookup ev.vector = none → handlerGate ev s = .error (.exc (.gp (8 * ev.vector.setWidth 32 + 2)))) ∧
    (∀ g, s.params.gateCheck = [] →
      (gateAllows s (.softint g ev.vector s.cpl) = true ↔ s.cpl ≤ g.access.dpl)) ∧
    (∀ g, s.idt.lookup ev.vector = some (.gate g) →
      (g.access.present = false → handlerGate ev s = .error (.exc (.np (8 * ev.vector.setWidth 32 + 2)))) ∧
      (g.access.present = true → ev.kind = .software → gateAllows s (.softint g ev.vector s.cpl) = false →
        handlerGate ev s = .error (.exc (.gp (8 * ev.vector.setWidth 32 + 2)))) ∧
      (g.access.present = true → (ev.kind = .software → gateAllows s (.softint g ev.vector s.cpl) = true) →
        (∀ x, codeSegment s g.selector = .error x → handlerGate ev s = .error x) ∧
        (∀ c, codeSegment s g.selector = .ok c →
          handlerGate ev s = if s.cpl < c.dpl then .error (.exc (.gp (selCode g.selector))) else .ok (g, c)))) ∧
    (∀ a, s.idt.lookup ev.vector = some (.task a) → a.present = true →
      handlerGate ev s = .error (.refuse .handlerTask) ∧
      (s.mode = .protectedMode → deliver ev s = .refused .handlerTask))

/-- 60_exceptions R294: an exception raised while an event is delivered is delivered in its place, or as a double
fault for the pairs the rule lists, in either mode; where the event was the double fault, the processor enters
shutdown. `p` is the state the failed entry had reached; the bytes it stored are old or new (`abandon`, log 13). In
real-address mode CS's record is otherwise as before (log 19, PRESUMED), and nothing of `P_SEG` stops the reads of the
interrupt table: the model's choice (log 39). In protected mode no flag but IF is cleared (log 24, DEDUCED). -/
def Obligations.NestedDelivery : Prop :=
  ∀ (ev : Event) (e : Exc) (p s : State), enterHandler ev s = .error ⟨.exc e, p⟩ →
    (raisedByProcessor ev.kind = false ∨ (ev.vector ≠ 8 ∧ ¬ DoubleFaults ev.vector e.vector) →
      (∀ g c d slot, HandlerReady e.event g c d slot (abandon s p) →
        ∃ t, deliver ev s = .next t ∧ Entered e.event g c d slot (abandon s p) t) ∧
      (∀ slot, s.mode = .realMode → CanPush 2 (realItems e.event (abandon s p)).length slot (abandon s p) →
        ∃ t, deliver ev s = .next t ∧ EnteredReal e.event slot (abandon s p) t)) ∧
    (raisedByProcessor ev.kind = true → DoubleFaults ev.vector e.vector →
      (∀ g c d slot, HandlerReady ⟨8, .abort, some 0⟩ g c d slot (abandon s p) →
        ∃ t, deliver ev s = .next t ∧ Entered ⟨8, .abort, some 0⟩ g c d slot (abandon s p) t) ∧
      (∀ slot, s.mode = .realMode →
        CanPush 2 (realItems ⟨8, .abort, some 0⟩ (abandon s p)).length slot (abandon s p) →
        ∃ t, deliver ev s = .next t ∧ EnteredReal ⟨8, .abort, some 0⟩ slot (abandon s p) t)) ∧
    (raisedByProcessor ev.kind = true → ev.vector = 8 →
      deliver ev s = .next { abandon s p with shutdown := true })

/-- 60_exceptions R294: with no IDT entry for the double fault or for a contributory exception an instruction raises,
the processor enters shutdown, with its registers as before; a processor in shutdown takes no step. -/
def Obligations.Shutdown : Prop :=
  (∀ (s : State) (e : Exc), s.mode = .protectedMode → e.kind = .fault → e.vector ∈ [10, 11, 12, 13] →
    s.idt.lookup e.vector = none → s.idt.lookup 8 = none → deliver e.event s = .next { s with shutdown := true }) ∧
  ∀ s : State, s.shutdown = true → step s = .fault .shutdown

/-- 00_scope R10, 60_exceptions R295: a rule abandoned by an exception delivers it from the state before the
instruction; each byte of memory holds its old value or the one the instruction had stored. That no other byte may be
new is the model's reading (log 13, DESIGN CHOICE). -/
def Obligations.AbandonedInstruction : Prop :=
  ∀ (s p : State) (e : Exc),
    (∃ u, complete s (.error ⟨.exc e, p⟩) = deliver e.event u ∧
      u = { s with mem := u.mem, written := u.written, freeIx := u.freeIx } ∧
      (∀ a, u.mem.read a = s.mem.read a ∨ u.mem.read a = p.mem.read a) ∧
      (p.mem = s.mem → u.mem = s.mem)) ∧
    (s.mem.wf = true → p.mem.wf = true → (abandon s p).mem.wf = true)

/-- 42_int R195, R197: IRET and IRETD to the same level load EIP, CS and EFLAGS from the three items on top and move
the pointer past them; in real-address mode without descriptors, CS's record being otherwise as before (log 19). -/
def Obligations.InterruptReturnSameLevel : Prop :=
  ∀ (i : Instr) (sz : OpSize) (slot : Nat → Dword) (s : State), interruptReturnForm i = some sz →
    CanPop (itemBytes sz) 0 3 slot s →
    let eip := s.mem.loadLE (slot 0) (itemBytes sz)
    let sel : Word := (s.mem.loadLE (slot 1) (itemBytes sz)).setWidth 16
    let image := s.mem.loadLE (slot 2) (itemBytes sz)
    let t : State := { s with
      regs := movedRegs (BitVec.ofNat 32 (3 * itemBytes sz)) s, eip := eip
      eflags := flagsAfterIret sz s image }
    (s.mode = .realMode → exec i s = .next { t with cs := realSegment sel s.cs }) ∧
    (∀ d, s.mode = .protectedMode → flagNT s.eflags = false →
      (sz = .w16 ∨ flagVM image = false ∨ s.cpl ≠ 0) → rpl sel = s.cpl → codeSegment s sel = .ok d →
      exec i s = .next { t with cs := ⟨sel, some d⟩ })

/-- 42_int R194 to R196: IRET with NT set and IRETD at level 0 to an image with VM set are refused; a return to a more
privileged level is #GP with the selector; an item that cannot be read and a lookup that fails raise, and so does,
on a return to a less privileged level alone, a `P_GATECHECK` that fails (its default is log 9). -/
def Obligations.InterruptReturnStops : Prop :=
  ∀ (i : Instr) (sz : OpSize) (slot : Nat → Dword) (s : State), interruptReturnForm i = some sz →
    (∀ j e, PopFails (itemBytes sz) 3 j slot e s → exec i s = deliver e.event s) ∧
    (s.mode = .protectedMode → CanPop (itemBytes sz) 0 3 slot s →
      let sel : Word := (s.mem.loadLE (slot 1) (itemBytes sz)).setWidth 16
      let image := s.mem.loadLE (slot 2) (itemBytes sz)
      (flagNT s.eflags = true → exec i s = .refused .taskReturn) ∧
      (flagNT s.eflags = false → sz = .w32 → flagVM image = true → s.cpl = 0 →
        exec i s = .refused .virtual8086Return) ∧
      (flagNT s.eflags = false → rpl sel < s.cpl → exec i s = deliver (Exc.gp (selCode sel)).event s) ∧
      (flagNT s.eflags = false → (sz = .w16 ∨ flagVM image = false ∨ s.cpl ≠ 0) → s.cpl ≤ rpl sel →
        (∀ e, codeSegment s sel = .error (.exc e) → exec i s = deliver e.event s) ∧
        (∀ d, codeSegment s sel = .ok d → s.cpl < rpl sel → gateAllows s (.ret d sel s.cpl) = false →
          exec i s = deliver (Exc.gp (selCode sel)).event s)))

/-- 42_int R196: IRET and IRETD to a less privileged level load EIP, CS, EFLAGS, ESP and SS from five items, with the
mask of the level before, and load the null selector where a data segment register names a more privileged segment
(log 25). With 16-bit items SP is the item, ESP[31:16] zero or as before (log 18). An outer item that cannot be read
and an unfit stack segment (log 8) raise. -/
def Obligations.InterruptReturnOutward : Prop :=
  ∀ (i : Instr) (sz : OpSize) (slot : Nat → Dword) (d : SegDesc) (s : State),
    interruptReturnForm i = some sz → s.mode = .protectedMode → flagNT s.eflags = false →
    CanPop (itemBytes sz) 0 3 slot s →
    let item := fun j => s.mem.loadLE (slot j) (itemBytes sz)
    let sel : Word := (item 1).setWidth 16
    let ssSel : Word := (item 4).setWidth 16
    (sz = .w16 ∨ flagVM (item 2) = false ∨ s.cpl ≠ 0) →
    s.cpl < rpl sel → codeSegment s sel = .ok d → gateAllows s (.ret d sel s.cpl) = true →
    (∀ j e, PopFails (itemBytes sz) 5 j slot e s → exec i s = deliver e.event s) ∧
    (CanPop (itemBytes sz) 0 5 slot s →
      (∀ e, stackSegment s .gp (rpl sel) ssSel = .error (.exc e) → exec i s = deliver e.event s) ∧
      ∀ sd, stackSegment s .gp (rpl sel) ssSel = .ok sd →
        ∃ esp, exec i s = .next { s with
            regs := { s.regs with esp := esp }, eip := item 0, cs := ⟨sel, some d⟩, cpl := rpl sel
            ss := ⟨ssSel, some sd⟩, eflags := flagsAfterIret sz s (item 2)
            ds := nullAbove (rpl sel) s.ds, es := nullAbove (rpl sel) s.es
            fs := nullAbove (rpl sel) s.fs, gs := nullAbove (rpl sel) s.gs } ∧
          (sz = .w32 → esp = item 3) ∧
          (sz = .w16 → esp.setWidth 16 = (item 3).setWidth 16 ∧
            (esp.extractLsb' 16 16 = 0 ∨ esp.extractLsb' 16 16 = s.regs.esp.extractLsb' 16 16)))

/-- IRETD from a level 0 handler that was entered without an error code gives the interrupted program back: every
register, flag, segment register and the level, at the saved instruction pointer (60_exceptions R282, 42_int R194 to
R196). The interrupted CS and SS still name the records they hold, and DS, ES, FS and GS no segment more privileged
than the program; `P_FLAGMASK` is its default; the frame is read from where it was pushed and, as always by the default
`P_SEG`, its items do not overlap. -/
def Obligations.HandlerReturnRestores : Prop :=
  ∀ (ev : Event) (g : IntGate) (c d cd sd : SegDesc) (slot : Nat → Dword) (q : Dword) (s t : State),
    HandlerReady ev g c d slot s → Entered ev g c d slot s t → c.dpl = 0 → ev.pushed s = none →
    s.params.flagMask = [] → flagNT s.eflags = false → flagVM s.eflags = false →
    s.cs.desc = some cd → codeSegment s s.cs.sel = .ok cd →
    (s.cpl ≠ 0 → gateAllows s (.ret cd s.cs.sel 0) = true) →
    rpl s.cs.sel = s.cpl →
    s.ss.desc = some sd → stackSegment s .gp s.cpl s.ss.sel = .ok sd →
    (∀ r ∈ [s.ds, s.es, s.fs, s.gs], ∀ x, r.desc = some x → s.cpl ≤ x.dpl) →
    AllUntouched 4 (entryItems c.dpl ev s).length slot s →
    CanPop 4 0 (entryItems c.dpl ev s).length (fun j => slot ((entryItems c.dpl ev s).length - 1 - j)) t →
    exec .iretd { t with pcNext := q } =
      .next { s with eip := savedEip ev.kind s, pcNext := q, mem := t.mem, written := t.written }

/-- 60_exceptions R298: in a step the level rises in number only where the instruction run is a far RET or an IRET in
protected mode; it falls, by an instruction or an event, only with the stack of the new level taken from the TSS and
the old SS and ESP pushed as the first two items on it, where they stay if, as always by the default `P_SEG`, no later
item touches them. What makes the TSS's stack segment fit (`stackSegment`) is the model's (log 8, PRESUMED). -/
def Obligations.PrivilegeChanges : Prop :=
  ∀ (s t : State), step s = .next t →
    (s.mode = .realMode → t.cpl = s.cpl) ∧
    (s.cpl < t.cpl → rpl t.cs.sel = t.cpl ∧ ∃ u i len, AtFetch s u ∧
      decode (codeD u) (fetchWindow u).1 = .ok (i, len) ∧ returnsOutward i = true) ∧
    (t.cpl < s.cpl → ∃ d count slot, stackSegment s .ts t.cpl (tssStack s t.cpl).ss = .ok d ∧
      t.ss = ⟨(tssStack s t.cpl).ss, some d⟩ ∧ rpl t.cs.sel = t.cpl ∧
      2 ≤ count ∧ CanPush 4 count slot (entryStack t.cpl d s) ∧
      (Untouched 4 count 0 slot s → t.mem.loadLE (slot 0) 4 = s.ss.sel.setWidth 32) ∧
      (Untouched 4 count 1 slot s → t.mem.loadLE (slot 1) 4 = s.regs.esp))

/-! ## Bytes that spell no instruction -/

/-- 30_encoding R90, R93, R120, 10_state R26: after any override bytes, a first byte of no row, and after 0F a second
of none, is refused (D39), and so is REPNE, REP or LOCK (D31; that it is also before a form R121 reserves is the model's
choice, log 41); 15 bytes that end no instruction are #GP(0); and where more bytes are needed, one that cannot be
fetched raises its exception. That the fetch goes byte by byte is the model's choice (log 28). -/
def Obligations.DecodeStops : Prop :=
  ∀ (s u : State) (mods rest : List Byte) (b : Byte), AtFetch s u →
    (∀ b ∈ mods, b ∈ [0x66, 0x67, 0x26, 0x2E, 0x36, 0x3E, 0x64, 0x65]) →
    ((fetchWindow u).1 = mods ++ b :: rest → b ∉ beforeOpcode → b ∉ firstBytes →
      step s = .refused (.opcodeOutOfScope b)) ∧
    ((fetchWindow u).1 = mods ++ 0x0F :: b :: rest → b ∉ [0x0B, 0xA0, 0xA1, 0xA8, 0xA9] →
      step s = .refused (.opcodeOutOfScope 0x0F)) ∧
    ((fetchWindow u).1 = mods ++ b :: rest → b ∈ [0xF0, 0xF2, 0xF3] → step s = .refused .lockOrRepByte) ∧
    ((fetchWindow u).1 = mods → mods.length = 15 → step s = deliver (Exc.gp 0).event u) ∧
    ((fetchWindow u).1.length = 15 → decode (codeD u) (fetchWindow u).1 = .error .truncated →
      step s = deliver (Exc.gp 0).event u) ∧
    (∀ bs e, bs.length < 15 → (∀ k b, bs[k]? = some b → fetchByte u k = .ok b) →
      decode (codeD u) bs = .error .truncated → fetchSlot u bs.length = .error (.exc e) →
      step s = deliver e.event u)
end

