-- ==== Sys2Proof/Laws/Memory.lean ====
section
/-! SUPPORT. The laws of memory: a read after a write, other bytes untouched, the canonical form kept. -/

namespace Sys2Proof.Laws

open Sys2Proof Sys2Proof.Machine

theorem read_filter_same (m : Memory) (a : Nat) :
    Memory.read (m.filter (fun c => c.1 != a)) a = Config.unlistedByte := by
  induction m with
  | nil => rfl
  | cons c t ih =>
    by_cases h : c.1 = a
    · simp [h, ih]
    · simp [h, Memory.read, ih]

theorem read_filter_ne (m : Memory) {a x : Nat} (h : x ≠ a) :
    Memory.read (m.filter (fun c => c.1 != a)) x = Memory.read m x := by
  induction m with
  | nil => rfl
  | cons c t ih =>
    by_cases hc : c.1 = a
    · have hx : c.1 ≠ x := fun e => h (e.symm.trans hc)
      simp [hc, Memory.read, ih, show a ≠ x from fun e => h e.symm]
    · by_cases hx : c.1 = x
      · simp [Memory.read, hx, h]
      · simp [hc, Memory.read, hx, ih]

theorem read_insert_ne (m : Memory) {a x : Nat} (b : Byte) (h : x ≠ a) :
    Memory.read (Memory.insert a b m) x = Memory.read m x := by
  induction m with
  | nil => simp [Memory.insert, Memory.read, Ne.symm h]
  | cons c t ih =>
    obtain ⟨k, v⟩ := c
    simp only [Memory.insert]
    split
    · simp [Memory.read, Ne.symm h]
    · simp [Memory.read, ih]

theorem read_insert_same (m : Memory) (a : Nat) (b : Byte) (h : ∀ c ∈ m, c.1 ≠ a) :
    Memory.read (Memory.insert a b m) a = b := by
  induction m with
  | nil => simp [Memory.insert, Memory.read]
  | cons c t ih =>
    obtain ⟨k, v⟩ := c
    simp only [Memory.insert]
    split
    · simp [Memory.read]
    · have hk : k ≠ a := h (k, v) (by simp)
      simp [Memory.read, hk, ih (fun c hc => h c (List.mem_cons_of_mem _ hc))]

/-- Reading the byte just stored gives it (20_memory R72). -/
@[simp] theorem read_put_same (m : Memory) (a : Nat) (b : Byte) : (m.put a b).read a = b := by
  unfold Memory.put
  split
  · rename_i h; rw [read_filter_same, h]
  · exact read_insert_same _ _ _ (fun c hc => by simpa using (List.mem_filter.1 hc).2)

/-- Storing a byte leaves every other byte as it was (20_memory R72). -/
theorem read_put_ne (m : Memory) {a x : Nat} (b : Byte) (h : x ≠ a) : (m.put a b).read x = m.read x := by
  unfold Memory.put
  split
  · exact read_filter_ne m h
  · rw [read_insert_ne _ b h, read_filter_ne m h]

theorem read_put (m : Memory) (a x : Nat) (b : Byte) :
    (m.put a b).read x = if x = a then b else m.read x := by
  split
  · rename_i h; rw [h, read_put_same]
  · rename_i h; exact read_put_ne m b h

/-- A store leaves every byte outside the stored ones as it was. -/
theorem read_storeLE_outside (n : Nat) : ∀ (m : Memory) (a : Dword) (v : Dword) (x : Nat),
    (∀ k < n, x ≠ (a + BitVec.ofNat 32 k).toNat) → (m.storeLE a n v).read x = m.read x := by
  induction n with
  | zero => intros; rfl
  | succ n ih =>
    intro m a v x h
    have h0 : x ≠ a.toNat := by simpa using h 0 (by omega)
    rw [Memory.storeLE, ih _ _ _ _ ?_, read_put_ne _ _ h0]
    intro k hk
    have := h (k + 1) (by omega)
    rwa [show a + 1 + BitVec.ofNat 32 k = a + BitVec.ofNat 32 (k + 1) by
      rw [BitVec.add_assoc]; congr 1; simp [BitVec.ofNat_add, BitVec.add_comm]]

/-- The canonical form of memory is the list strictly rising below 2^32 with no unlisted value. -/
theorem wf_iff (m : Memory) : m.wf = true ↔
    (∀ c ∈ m, c.1 < 2 ^ 32 ∧ c.2 ≠ Config.unlistedByte) ∧ m.Pairwise (fun c d => c.1 < d.1) := by
  induction m with
  | nil => simp [Memory.wf]
  | cons c t ih =>
    obtain ⟨k, v⟩ := c
    simp only [Memory.wf, Bool.and_eq_true, ih, List.pairwise_cons, List.all_eq_true,
      decide_eq_true_eq, bne_iff_ne, List.mem_cons, forall_eq_or_imp]
    constructor
    · rintro ⟨⟨⟨h1, h2⟩, h3⟩, h4, h5⟩; exact ⟨⟨⟨h1, h2⟩, h4⟩, h3, h5⟩
    · rintro ⟨⟨⟨h1, h2⟩, h4⟩, h3, h5⟩; exact ⟨⟨⟨h1, h2⟩, h3⟩, h4, h5⟩

theorem mem_insert {a : Nat} {b : Byte} {m : Memory} {c : Host.Cell} :
    c ∈ Memory.insert a b m ↔ c = (a, b) ∨ c ∈ m := by
  induction m with
  | nil => simp [Memory.insert]
  | cons d t ih =>
    obtain ⟨k, v⟩ := d
    simp only [Memory.insert]
    split
    · simp
    · simp only [List.mem_cons, ih]
      constructor
      · rintro (h | h | h) <;> simp [h]
      · rintro (h | h | h) <;> simp [h]

theorem pairwise_insert {a : Nat} {b : Byte} {m : Memory}
    (hp : m.Pairwise (fun c d => c.1 < d.1)) (ha : ∀ c ∈ m, c.1 ≠ a) :
    (Memory.insert a b m).Pairwise (fun c d => c.1 < d.1) := by
  induction m with
  | nil => simp [Memory.insert]
  | cons d t ih =>
    obtain ⟨k, v⟩ := d
    have hk : k ≠ a := ha (k, v) (by simp)
    obtain ⟨h1, h2⟩ := List.pairwise_cons.1 hp
    simp only [Memory.insert]
    split
    · rename_i hlt
      refine List.pairwise_cons.2 ⟨fun c hc => ?_, hp⟩
      rcases List.mem_cons.1 hc with h | h
      · subst h; exact hlt
      · exact Nat.lt_trans hlt (h1 c h)
    · rename_i hlt
      refine List.pairwise_cons.2 ⟨fun c hc => ?_, ih h2 (fun c hc => ha c (List.mem_cons_of_mem _ hc))⟩
      rcases mem_insert.1 hc with h | h
      · subst h
        show k < a
        have : k ≠ a := hk
        omega
      · exact h1 c h

/-- Storing a byte below 2^32 keeps the canonical form. -/
theorem put_wf {m : Memory} (h : m.wf = true) {a : Nat} (ha : a < 2 ^ 32) (b : Byte) :
    (m.put a b).wf = true := by
  rw [wf_iff] at h ⊢
  have hf : ∀ c ∈ m.filter (fun c => c.1 != a), c.1 < 2 ^ 32 ∧ c.2 ≠ Config.unlistedByte :=
    fun c hc => h.1 c (List.mem_filter.1 hc).1
  have hp := h.2.filter (fun c => c.1 != a)
  unfold Memory.put
  split
  · exact ⟨hf, hp⟩
  · rename_i hb
    refine ⟨fun c hc => ?_, pairwise_insert hp (fun c hc => by simpa using (List.mem_filter.1 hc).2)⟩
    rcases mem_insert.1 hc with rfl | hc
    · exact ⟨ha, hb⟩
    · exact hf c hc

/-- A store keeps the canonical form. -/
theorem storeLE_wf (n : Nat) : ∀ {m : Memory} (a v : Dword), m.wf = true → (m.storeLE a n v).wf = true := by
  induction n with
  | zero => intros; assumption
  | succ n ih => intro m a v h; exact ih _ _ (put_wf h a.isLt _)

theorem foldl_put_wf {keep : Nat → Bool} {new : Memory} (l : Memory) (hl : ∀ c ∈ l, c.1 < 2 ^ 32) :
    ∀ {old : Memory}, old.wf = true →
      Memory.wf (l.foldl (fun m c => if keep c.1 then Memory.put m c.1 (Memory.read new c.1) else m) old) = true := by
  induction l with
  | nil => intro old h; exact h
  | cons c t ih =>
    intro old h
    refine ih (fun d hd => hl d (List.mem_cons_of_mem _ hd)) ?_
    by_cases hk : keep c.1 = true
    · simpa [hk] using put_wf h (hl c (by simp)) _
    · simpa [hk] using h

/-- The mixture an abandoned instruction leaves keeps the canonical form. -/
theorem partialMix_wf {keep : Nat → Bool} {old new : Memory} (ho : old.wf = true) (hn : new.wf = true) :
    (Memory.partialMix keep old new).wf = true := by
  refine foldl_put_wf _ (fun c hc => ?_) ho
  rcases List.mem_append.1 hc with h | h
  · exact (((wf_iff _).1 hn).1 c h).1
  · exact (((wf_iff _).1 ho).1 c h).1

theorem read_foldl_put {keep : Nat → Bool} {new : Memory} (l : Memory) (x : Nat) :
    ∀ old : Memory,
      Memory.read (l.foldl (fun m c => if keep c.1 then Memory.put m c.1 (Memory.read new c.1) else m) old) x =
        if keep x = true ∧ x ∈ l.map (·.1) then Memory.read new x else Memory.read old x := by
  induction l with
  | nil => intro old; simp
  | cons c t ih =>
    intro old
    rw [List.foldl_cons, ih]
    by_cases hk : keep x = true
    · by_cases ht : x ∈ t.map (·.1)
      · simp only [hk, ht, List.map_cons, List.mem_cons, or_true, and_self, if_true]
      · by_cases hx : x = c.1
        · subst hx; simp only [hk, ht, and_false, if_false, if_true, List.map_cons, List.mem_cons, true_or, and_self, read_put_same]
        · have : Memory.read (if keep c.1 = true then Memory.put old c.1 (Memory.read new c.1) else old) x = Memory.read old x := by
            split
            · exact read_put_ne _ _ hx
            · rfl
          simp only [hk, ht, hx, List.map_cons, List.mem_cons, or_self, and_false, if_false, this]
    · have : Memory.read (if keep c.1 = true then Memory.put old c.1 (Memory.read new c.1) else old) x = Memory.read old x := by
        split
        · rename_i hc
          exact read_put_ne _ _ (fun e => hk (e ▸ hc))
        · rfl
      simp only [hk, false_and, if_false, this, Bool.false_eq_true]

theorem read_unlisted {m : Memory} {x : Nat} (h : x ∉ m.map (·.1)) : m.read x = Config.unlistedByte := by
  induction m with
  | nil => rfl
  | cons c t ih =>
    simp only [List.map_cons, List.mem_cons, not_or] at h
    simp [Memory.read, Ne.symm h.1, ih h.2]

/-- Each byte of the mixture is the old or the new one, as the free value says (decision D6). -/
theorem read_partialMix (keep : Nat → Bool) (old new : Memory) (x : Nat) :
    (Memory.partialMix keep old new).read x = if keep x then new.read x else old.read x := by
  rw [Memory.partialMix, read_foldl_put]
  by_cases hk : keep x = true
  · by_cases hx : x ∈ (new ++ old).map (·.1)
    · simp only [hk, hx, and_self, if_true]
    · have hn : x ∉ new.map (·.1) := fun h => hx (by rw [List.map_append]; exact List.mem_append_left _ h)
      have ho : x ∉ old.map (·.1) := fun h => hx (by rw [List.map_append]; exact List.mem_append_right _ h)
      simp only [hk, hx, and_false, if_false, if_true, read_unlisted hn, read_unlisted ho]
  · simp [hk]

/-- The recorded addresses: membership after one more is recorded. -/
theorem mem_insertAddr {a x : Nat} {w : List Nat} : x ∈ insertAddr a w ↔ x = a ∨ x ∈ w := by
  induction w with
  | nil => simp [insertAddr]
  | cons k t ih =>
    simp only [insertAddr]
    split
    · simp
    · split
      · rename_i h; subst h; simp
      · simp only [List.mem_cons, ih]
        constructor
        · rintro (h | h | h) <;> simp [h]
        · rintro (h | h | h) <;> simp [h]

theorem insertAddr_sorted {a : Nat} {w : List Nat} (h : w.Pairwise (· < ·)) :
    (insertAddr a w).Pairwise (· < ·) := by
  induction w with
  | nil => simp [insertAddr]
  | cons k t ih =>
    obtain ⟨h1, h2⟩ := List.pairwise_cons.1 h
    simp only [insertAddr]
    split
    · rename_i hlt
      refine List.pairwise_cons.2 ⟨fun c hc => ?_, h⟩
      rcases List.mem_cons.1 hc with rfl | hc
      · exact hlt
      · exact Nat.lt_trans hlt (h1 c hc)
    · split
      · exact h
      · refine List.pairwise_cons.2 ⟨fun c hc => ?_, ih h2⟩
        rcases mem_insertAddr.1 hc with rfl | hc
        · omega
        · exact h1 c hc

/-- Recording stored bytes keeps the record strictly rising. -/
theorem markWritten_sorted (n : Nat) : ∀ {w : List Nat} (a : Dword),
    w.Pairwise (· < ·) → (markWritten w a n).Pairwise (· < ·) := by
  induction n with
  | zero => intros; assumption
  | succ n ih => intro w a h; exact ih _ (insertAddr_sorted h)

/-- Byte `k` of a stored value is at address `a + k`: little-endian (20_memory R66). -/
theorem read_storeLE_byte (n : Nat) (hn : n ≤ 2 ^ 32) : ∀ (m : Memory) (a v : Dword) (k : Nat), k < n →
    (m.storeLE a n v).read (a + BitVec.ofNat 32 k).toNat = (v >>> (8 * k)).setWidth 8 := by
  induction n with
  | zero => intro m a v k hk; omega
  | succ n ih =>
    intro m a v k hk
    cases k with
    | zero =>
      rw [Memory.storeLE, read_storeLE_outside]
      · simp
      · intro j hj he
        have h2 : a + 0 = a + (1 + BitVec.ofNat 32 j) := by
          rw [← BitVec.add_assoc]; exact BitVec.eq_of_toNat_eq he
        have h3 := congrArg (·.toNat) ((BitVec.add_right_inj a).1 h2)
        rw [BitVec.toNat_add, BitVec.toNat_ofNat, show (0 : Dword).toNat = 0 from rfl,
          show (1 : Dword).toNat = 1 from rfl] at h3
        omega
    | succ k =>
      have := ih (by omega) (m.put a.toNat (v.setWidth 8)) (a + 1) (v >>> 8) k (by omega)
      rw [show a + BitVec.ofNat 32 (k + 1) = a + 1 + BitVec.ofNat 32 k by
        rw [BitVec.add_assoc]; congr 1; simp [BitVec.ofNat_add, BitVec.add_comm]]
      rw [Memory.storeLE, this, ← BitVec.shiftRight_add, show 8 + 8 * k = 8 * (k + 1) by omega]

/-- A load sees only the bytes it names. -/
theorem loadLE_congr (n : Nat) : ∀ {m m' : Memory} (a : Dword),
    (∀ k < n, m'.read (a + BitVec.ofNat 32 k).toNat = m.read (a + BitVec.ofNat 32 k).toNat) →
      m'.loadLE a n = m.loadLE a n := by
  induction n with
  | zero => intros; rfl
  | succ n ih =>
    intro m m' a h
    have h0 : m'.read a.toNat = m.read a.toNat := by simpa using h 0 (by omega)
    have ht : m'.loadLE (a + 1) n = m.loadLE (a + 1) n := ih (a + 1) fun k hk => by
      have := h (k + 1) (by omega)
      rwa [show a + BitVec.ofNat 32 (k + 1) = a + 1 + BitVec.ofNat 32 k by
        rw [BitVec.add_assoc]; congr 1; simp [BitVec.ofNat_add, BitVec.add_comm]] at this
    rw [Memory.loadLE, Memory.loadLE, h0, ht]

/-- A doubleword loaded where it was stored is the doubleword stored. -/
theorem load_store_dword (m : Memory) (a v : Dword) : (m.storeLE a 4 v).loadLE a 4 = v := by
  have h : ∀ k < 4, (m.storeLE a 4 v).read (a + BitVec.ofNat 32 k).toNat = (v >>> (8 * k)).setWidth 8 :=
    fun k hk => read_storeLE_byte 4 (by omega) m a v k hk
  have h0 := h 0 (by omega)
  have h1 := h 1 (by omega)
  have h2 := h 2 (by omega)
  have h3 := h 3 (by omega)
  simp only [Memory.loadLE, BitVec.add_assoc] at *
  rw [show a + BitVec.ofNat 32 0 = a by simp] at h0
  rw [show (1 : Dword) + (1 + 1) = BitVec.ofNat 32 3 from rfl, show (1 : Dword) + 1 = BitVec.ofNat 32 2 from rfl,
    show (1 : Dword) = BitVec.ofNat 32 1 from rfl, h0, h1, h2, h3]
  apply BitVec.eq_of_getLsbD_eq
  intro i hi
  by_cases h8 : i < 8
  · simp [h8, hi]
  · by_cases h16 : i < 16
    · simp [h8, hi, show i - 8 < 8 by omega, show 8 + (i - 8) = i by omega, show i - 8 < 32 by omega]
    · by_cases h24 : i < 24
      · simp [h8, hi, show ¬ i - 8 < 8 by omega, show i - 8 - 8 < 8 by omega, show i - 8 < 32 by omega,
          show i - 8 - 8 < 32 by omega, show 16 + (i - 8 - 8) = i by omega]
      · simp [h8, hi, show ¬ i - 8 < 8 by omega, show ¬ i - 8 - 8 < 8 by omega, show i - 8 < 32 by omega,
          show i - 8 - 8 < 32 by omega, show i - 8 - 8 - 8 < 32 by omega, show i - 8 - 8 - 8 < 8 by omega,
          show 24 + (i - 8 - 8 - 8) = i by omega]

/-- A word loaded where it was stored is the low word of the value stored, zero-extended. -/
theorem load_store_word (m : Memory) (a v : Dword) : (m.storeLE a 2 v).loadLE a 2 = low16 v := by
  have h : ∀ k < 2, (m.storeLE a 2 v).read (a + BitVec.ofNat 32 k).toNat = (v >>> (8 * k)).setWidth 8 :=
    fun k hk => read_storeLE_byte 2 (by omega) m a v k hk
  have h0 := h 0 (by omega)
  have h1 := h 1 (by omega)
  simp only [Memory.loadLE] at *
  rw [show a + BitVec.ofNat 32 0 = a by simp] at h0
  rw [show (1 : Dword) = BitVec.ofNat 32 1 from rfl, h0, h1]
  apply BitVec.eq_of_getLsbD_eq
  intro i hi
  by_cases h8 : i < 8
  · simp [low16, h8, hi, show i < 16 by omega]
  · by_cases h16 : i < 16
    · simp [low16, h8, hi, h16, show i - 8 < 8 by omega, show 8 + (i - 8) = i by omega, show i - 8 < 32 by omega]
    · simp [low16, h8, hi, h16, show ¬ i - 8 < 8 by omega]

/-- One item of an operand size loaded where it was stored. -/
theorem load_store_item (sz : OpSize) (m : Memory) (a v : Dword) :
    (m.storeLE a (itemBytes sz) v).loadLE a (itemBytes sz) = truncSize sz v := by
  cases sz
  · exact load_store_word m a v
  · exact load_store_dword m a v

end Sys2Proof.Laws
end

