-- ==== Sys2Proof/Laws/State.lean ====
section
/-! SUPPORT. One lemma per field per named update of State: what the update gives, and what it leaves. -/

namespace Sys2Proof.Laws

open Sys2Proof Sys2Proof.Machine

@[simp] theorem setStackPtr_eip (v : Dword) (s : State) : (setStackPtr v s).eip = s.eip := rfl
@[simp] theorem setStackPtr_pcNext (v : Dword) (s : State) : (setStackPtr v s).pcNext = s.pcNext := rfl
@[simp] theorem setStackPtr_eflags (v : Dword) (s : State) : (setStackPtr v s).eflags = s.eflags := rfl
@[simp] theorem setStackPtr_cs (v : Dword) (s : State) : (setStackPtr v s).cs = s.cs := rfl
@[simp] theorem setStackPtr_ss (v : Dword) (s : State) : (setStackPtr v s).ss = s.ss := rfl
@[simp] theorem setStackPtr_ds (v : Dword) (s : State) : (setStackPtr v s).ds = s.ds := rfl
@[simp] theorem setStackPtr_es (v : Dword) (s : State) : (setStackPtr v s).es = s.es := rfl
@[simp] theorem setStackPtr_fs (v : Dword) (s : State) : (setStackPtr v s).fs = s.fs := rfl
@[simp] theorem setStackPtr_gs (v : Dword) (s : State) : (setStackPtr v s).gs = s.gs := rfl
@[simp] theorem setStackPtr_cpl (v : Dword) (s : State) : (setStackPtr v s).cpl = s.cpl := rfl
@[simp] theorem setStackPtr_mode (v : Dword) (s : State) : (setStackPtr v s).mode = s.mode := rfl
@[simp] theorem setStackPtr_gdt (v : Dword) (s : State) : (setStackPtr v s).gdt = s.gdt := rfl
@[simp] theorem setStackPtr_idt (v : Dword) (s : State) : (setStackPtr v s).idt = s.idt := rfl
@[simp] theorem setStackPtr_tss0 (v : Dword) (s : State) : (setStackPtr v s).tss0 = s.tss0 := rfl
@[simp] theorem setStackPtr_tss1 (v : Dword) (s : State) : (setStackPtr v s).tss1 = s.tss1 := rfl
@[simp] theorem setStackPtr_tss2 (v : Dword) (s : State) : (setStackPtr v s).tss2 = s.tss2 := rfl
@[simp] theorem setStackPtr_segTraps (v : Dword) (s : State) : (setStackPtr v s).segTraps = s.segTraps := rfl
@[simp] theorem setStackPtr_params (v : Dword) (s : State) : (setStackPtr v s).params = s.params := rfl
@[simp] theorem setStackPtr_mem (v : Dword) (s : State) : (setStackPtr v s).mem = s.mem := rfl
@[simp] theorem setStackPtr_written (v : Dword) (s : State) : (setStackPtr v s).written = s.written := rfl
@[simp] theorem setStackPtr_pendingNMI (v : Dword) (s : State) : (setStackPtr v s).pendingNMI = s.pendingNMI := rfl
@[simp] theorem setStackPtr_pendingINTR (v : Dword) (s : State) : (setStackPtr v s).pendingINTR = s.pendingINTR := rfl
@[simp] theorem setStackPtr_pendingSMI (v : Dword) (s : State) : (setStackPtr v s).pendingSMI = s.pendingSMI := rfl
@[simp] theorem setStackPtr_pendingMC (v : Dword) (s : State) : (setStackPtr v s).pendingMC = s.pendingMC := rfl
@[simp] theorem setStackPtr_waitingINTR (v : Dword) (s : State) : (setStackPtr v s).waitingINTR = s.waitingINTR := rfl
@[simp] theorem setStackPtr_ext (v : Dword) (s : State) : (setStackPtr v s).ext = s.ext := rfl
@[simp] theorem setStackPtr_intShadow (v : Dword) (s : State) : (setStackPtr v s).intShadow = s.intShadow := rfl
@[simp] theorem setStackPtr_shutdown (v : Dword) (s : State) : (setStackPtr v s).shutdown = s.shutdown := rfl
@[simp] theorem setStackPtr_freeIx (v : Dword) (s : State) : (setStackPtr v s).freeIx = s.freeIx := rfl

@[simp] theorem release_eip (k : Dword) (s : State) : (release k s).eip = s.eip := rfl
@[simp] theorem release_pcNext (k : Dword) (s : State) : (release k s).pcNext = s.pcNext := rfl
@[simp] theorem release_eflags (k : Dword) (s : State) : (release k s).eflags = s.eflags := rfl
@[simp] theorem release_cs (k : Dword) (s : State) : (release k s).cs = s.cs := rfl
@[simp] theorem release_ss (k : Dword) (s : State) : (release k s).ss = s.ss := rfl
@[simp] theorem release_ds (k : Dword) (s : State) : (release k s).ds = s.ds := rfl
@[simp] theorem release_es (k : Dword) (s : State) : (release k s).es = s.es := rfl
@[simp] theorem release_fs (k : Dword) (s : State) : (release k s).fs = s.fs := rfl
@[simp] theorem release_gs (k : Dword) (s : State) : (release k s).gs = s.gs := rfl
@[simp] theorem release_cpl (k : Dword) (s : State) : (release k s).cpl = s.cpl := rfl
@[simp] theorem release_mode (k : Dword) (s : State) : (release k s).mode = s.mode := rfl
@[simp] theorem release_gdt (k : Dword) (s : State) : (release k s).gdt = s.gdt := rfl
@[simp] theorem release_idt (k : Dword) (s : State) : (release k s).idt = s.idt := rfl
@[simp] theorem release_tss0 (k : Dword) (s : State) : (release k s).tss0 = s.tss0 := rfl
@[simp] theorem release_tss1 (k : Dword) (s : State) : (release k s).tss1 = s.tss1 := rfl
@[simp] theorem release_tss2 (k : Dword) (s : State) : (release k s).tss2 = s.tss2 := rfl
@[simp] theorem release_segTraps (k : Dword) (s : State) : (release k s).segTraps = s.segTraps := rfl
@[simp] theorem release_params (k : Dword) (s : State) : (release k s).params = s.params := rfl
@[simp] theorem release_mem (k : Dword) (s : State) : (release k s).mem = s.mem := rfl
@[simp] theorem release_written (k : Dword) (s : State) : (release k s).written = s.written := rfl
@[simp] theorem release_pendingNMI (k : Dword) (s : State) : (release k s).pendingNMI = s.pendingNMI := rfl
@[simp] theorem release_pendingINTR (k : Dword) (s : State) : (release k s).pendingINTR = s.pendingINTR := rfl
@[simp] theorem release_pendingSMI (k : Dword) (s : State) : (release k s).pendingSMI = s.pendingSMI := rfl
@[simp] theorem release_pendingMC (k : Dword) (s : State) : (release k s).pendingMC = s.pendingMC := rfl
@[simp] theorem release_waitingINTR (k : Dword) (s : State) : (release k s).waitingINTR = s.waitingINTR := rfl
@[simp] theorem release_ext (k : Dword) (s : State) : (release k s).ext = s.ext := rfl
@[simp] theorem release_intShadow (k : Dword) (s : State) : (release k s).intShadow = s.intShadow := rfl
@[simp] theorem release_shutdown (k : Dword) (s : State) : (release k s).shutdown = s.shutdown := rfl
@[simp] theorem release_freeIx (k : Dword) (s : State) : (release k s).freeIx = s.freeIx := rfl

@[simp] theorem writeReg_eip (sz : OpSize) (r : Reg) (v : Dword) (s : State) : (writeReg sz r v s).eip = s.eip := rfl
@[simp] theorem writeReg_pcNext (sz : OpSize) (r : Reg) (v : Dword) (s : State) : (writeReg sz r v s).pcNext = s.pcNext := rfl
@[simp] theorem writeReg_eflags (sz : OpSize) (r : Reg) (v : Dword) (s : State) : (writeReg sz r v s).eflags = s.eflags := rfl
@[simp] theorem writeReg_cs (sz : OpSize) (r : Reg) (v : Dword) (s : State) : (writeReg sz r v s).cs = s.cs := rfl
@[simp] theorem writeReg_ss (sz : OpSize) (r : Reg) (v : Dword) (s : State) : (writeReg sz r v s).ss = s.ss := rfl
@[simp] theorem writeReg_ds (sz : OpSize) (r : Reg) (v : Dword) (s : State) : (writeReg sz r v s).ds = s.ds := rfl
@[simp] theorem writeReg_es (sz : OpSize) (r : Reg) (v : Dword) (s : State) : (writeReg sz r v s).es = s.es := rfl
@[simp] theorem writeReg_fs (sz : OpSize) (r : Reg) (v : Dword) (s : State) : (writeReg sz r v s).fs = s.fs := rfl
@[simp] theorem writeReg_gs (sz : OpSize) (r : Reg) (v : Dword) (s : State) : (writeReg sz r v s).gs = s.gs := rfl
@[simp] theorem writeReg_cpl (sz : OpSize) (r : Reg) (v : Dword) (s : State) : (writeReg sz r v s).cpl = s.cpl := rfl
@[simp] theorem writeReg_mode (sz : OpSize) (r : Reg) (v : Dword) (s : State) : (writeReg sz r v s).mode = s.mode := rfl
@[simp] theorem writeReg_gdt (sz : OpSize) (r : Reg) (v : Dword) (s : State) : (writeReg sz r v s).gdt = s.gdt := rfl
@[simp] theorem writeReg_idt (sz : OpSize) (r : Reg) (v : Dword) (s : State) : (writeReg sz r v s).idt = s.idt := rfl
@[simp] theorem writeReg_tss0 (sz : OpSize) (r : Reg) (v : Dword) (s : State) : (writeReg sz r v s).tss0 = s.tss0 := rfl
@[simp] theorem writeReg_tss1 (sz : OpSize) (r : Reg) (v : Dword) (s : State) : (writeReg sz r v s).tss1 = s.tss1 := rfl
@[simp] theorem writeReg_tss2 (sz : OpSize) (r : Reg) (v : Dword) (s : State) : (writeReg sz r v s).tss2 = s.tss2 := rfl
@[simp] theorem writeReg_segTraps (sz : OpSize) (r : Reg) (v : Dword) (s : State) : (writeReg sz r v s).segTraps = s.segTraps := rfl
@[simp] theorem writeReg_params (sz : OpSize) (r : Reg) (v : Dword) (s : State) : (writeReg sz r v s).params = s.params := rfl
@[simp] theorem writeReg_mem (sz : OpSize) (r : Reg) (v : Dword) (s : State) : (writeReg sz r v s).mem = s.mem := rfl
@[simp] theorem writeReg_written (sz : OpSize) (r : Reg) (v : Dword) (s : State) : (writeReg sz r v s).written = s.written := rfl
@[simp] theorem writeReg_pendingNMI (sz : OpSize) (r : Reg) (v : Dword) (s : State) : (writeReg sz r v s).pendingNMI = s.pendingNMI := rfl
@[simp] theorem writeReg_pendingINTR (sz : OpSize) (r : Reg) (v : Dword) (s : State) : (writeReg sz r v s).pendingINTR = s.pendingINTR := rfl
@[simp] theorem writeReg_pendingSMI (sz : OpSize) (r : Reg) (v : Dword) (s : State) : (writeReg sz r v s).pendingSMI = s.pendingSMI := rfl
@[simp] theorem writeReg_pendingMC (sz : OpSize) (r : Reg) (v : Dword) (s : State) : (writeReg sz r v s).pendingMC = s.pendingMC := rfl
@[simp] theorem writeReg_waitingINTR (sz : OpSize) (r : Reg) (v : Dword) (s : State) : (writeReg sz r v s).waitingINTR = s.waitingINTR := rfl
@[simp] theorem writeReg_ext (sz : OpSize) (r : Reg) (v : Dword) (s : State) : (writeReg sz r v s).ext = s.ext := rfl
@[simp] theorem writeReg_intShadow (sz : OpSize) (r : Reg) (v : Dword) (s : State) : (writeReg sz r v s).intShadow = s.intShadow := rfl
@[simp] theorem writeReg_shutdown (sz : OpSize) (r : Reg) (v : Dword) (s : State) : (writeReg sz r v s).shutdown = s.shutdown := rfl
@[simp] theorem writeReg_freeIx (sz : OpSize) (r : Reg) (v : Dword) (s : State) : (writeReg sz r v s).freeIx = s.freeIx := rfl

@[simp] theorem setFrame_eip (sz : OpSize) (v : Dword) (s : State) : (setFrame sz v s).eip = s.eip := rfl
@[simp] theorem setFrame_pcNext (sz : OpSize) (v : Dword) (s : State) : (setFrame sz v s).pcNext = s.pcNext := rfl
@[simp] theorem setFrame_eflags (sz : OpSize) (v : Dword) (s : State) : (setFrame sz v s).eflags = s.eflags := rfl
@[simp] theorem setFrame_cs (sz : OpSize) (v : Dword) (s : State) : (setFrame sz v s).cs = s.cs := rfl
@[simp] theorem setFrame_ss (sz : OpSize) (v : Dword) (s : State) : (setFrame sz v s).ss = s.ss := rfl
@[simp] theorem setFrame_ds (sz : OpSize) (v : Dword) (s : State) : (setFrame sz v s).ds = s.ds := rfl
@[simp] theorem setFrame_es (sz : OpSize) (v : Dword) (s : State) : (setFrame sz v s).es = s.es := rfl
@[simp] theorem setFrame_fs (sz : OpSize) (v : Dword) (s : State) : (setFrame sz v s).fs = s.fs := rfl
@[simp] theorem setFrame_gs (sz : OpSize) (v : Dword) (s : State) : (setFrame sz v s).gs = s.gs := rfl
@[simp] theorem setFrame_cpl (sz : OpSize) (v : Dword) (s : State) : (setFrame sz v s).cpl = s.cpl := rfl
@[simp] theorem setFrame_mode (sz : OpSize) (v : Dword) (s : State) : (setFrame sz v s).mode = s.mode := rfl
@[simp] theorem setFrame_gdt (sz : OpSize) (v : Dword) (s : State) : (setFrame sz v s).gdt = s.gdt := rfl
@[simp] theorem setFrame_idt (sz : OpSize) (v : Dword) (s : State) : (setFrame sz v s).idt = s.idt := rfl
@[simp] theorem setFrame_tss0 (sz : OpSize) (v : Dword) (s : State) : (setFrame sz v s).tss0 = s.tss0 := rfl
@[simp] theorem setFrame_tss1 (sz : OpSize) (v : Dword) (s : State) : (setFrame sz v s).tss1 = s.tss1 := rfl
@[simp] theorem setFrame_tss2 (sz : OpSize) (v : Dword) (s : State) : (setFrame sz v s).tss2 = s.tss2 := rfl
@[simp] theorem setFrame_segTraps (sz : OpSize) (v : Dword) (s : State) : (setFrame sz v s).segTraps = s.segTraps := rfl
@[simp] theorem setFrame_params (sz : OpSize) (v : Dword) (s : State) : (setFrame sz v s).params = s.params := rfl
@[simp] theorem setFrame_mem (sz : OpSize) (v : Dword) (s : State) : (setFrame sz v s).mem = s.mem := rfl
@[simp] theorem setFrame_written (sz : OpSize) (v : Dword) (s : State) : (setFrame sz v s).written = s.written := rfl
@[simp] theorem setFrame_pendingNMI (sz : OpSize) (v : Dword) (s : State) : (setFrame sz v s).pendingNMI = s.pendingNMI := rfl
@[simp] theorem setFrame_pendingINTR (sz : OpSize) (v : Dword) (s : State) : (setFrame sz v s).pendingINTR = s.pendingINTR := rfl
@[simp] theorem setFrame_pendingSMI (sz : OpSize) (v : Dword) (s : State) : (setFrame sz v s).pendingSMI = s.pendingSMI := rfl
@[simp] theorem setFrame_pendingMC (sz : OpSize) (v : Dword) (s : State) : (setFrame sz v s).pendingMC = s.pendingMC := rfl
@[simp] theorem setFrame_waitingINTR (sz : OpSize) (v : Dword) (s : State) : (setFrame sz v s).waitingINTR = s.waitingINTR := rfl
@[simp] theorem setFrame_ext (sz : OpSize) (v : Dword) (s : State) : (setFrame sz v s).ext = s.ext := rfl
@[simp] theorem setFrame_intShadow (sz : OpSize) (v : Dword) (s : State) : (setFrame sz v s).intShadow = s.intShadow := rfl
@[simp] theorem setFrame_shutdown (sz : OpSize) (v : Dword) (s : State) : (setFrame sz v s).shutdown = s.shutdown := rfl
@[simp] theorem setFrame_freeIx (sz : OpSize) (v : Dword) (s : State) : (setFrame sz v s).freeIx = s.freeIx := rfl

@[simp] theorem storeAt_regs (s : State) (lin : Dword) (n : Nat) (v : Dword) : (storeAt s lin n v).regs = s.regs := rfl
@[simp] theorem storeAt_eip (s : State) (lin : Dword) (n : Nat) (v : Dword) : (storeAt s lin n v).eip = s.eip := rfl
@[simp] theorem storeAt_pcNext (s : State) (lin : Dword) (n : Nat) (v : Dword) : (storeAt s lin n v).pcNext = s.pcNext := rfl
@[simp] theorem storeAt_eflags (s : State) (lin : Dword) (n : Nat) (v : Dword) : (storeAt s lin n v).eflags = s.eflags := rfl
@[simp] theorem storeAt_cs (s : State) (lin : Dword) (n : Nat) (v : Dword) : (storeAt s lin n v).cs = s.cs := rfl
@[simp] theorem storeAt_ss (s : State) (lin : Dword) (n : Nat) (v : Dword) : (storeAt s lin n v).ss = s.ss := rfl
@[simp] theorem storeAt_ds (s : State) (lin : Dword) (n : Nat) (v : Dword) : (storeAt s lin n v).ds = s.ds := rfl
@[simp] theorem storeAt_es (s : State) (lin : Dword) (n : Nat) (v : Dword) : (storeAt s lin n v).es = s.es := rfl
@[simp] theorem storeAt_fs (s : State) (lin : Dword) (n : Nat) (v : Dword) : (storeAt s lin n v).fs = s.fs := rfl
@[simp] theorem storeAt_gs (s : State) (lin : Dword) (n : Nat) (v : Dword) : (storeAt s lin n v).gs = s.gs := rfl
@[simp] theorem storeAt_cpl (s : State) (lin : Dword) (n : Nat) (v : Dword) : (storeAt s lin n v).cpl = s.cpl := rfl
@[simp] theorem storeAt_mode (s : State) (lin : Dword) (n : Nat) (v : Dword) : (storeAt s lin n v).mode = s.mode := rfl
@[simp] theorem storeAt_gdt (s : State) (lin : Dword) (n : Nat) (v : Dword) : (storeAt s lin n v).gdt = s.gdt := rfl
@[simp] theorem storeAt_idt (s : State) (lin : Dword) (n : Nat) (v : Dword) : (storeAt s lin n v).idt = s.idt := rfl
@[simp] theorem storeAt_tss0 (s : State) (lin : Dword) (n : Nat) (v : Dword) : (storeAt s lin n v).tss0 = s.tss0 := rfl
@[simp] theorem storeAt_tss1 (s : State) (lin : Dword) (n : Nat) (v : Dword) : (storeAt s lin n v).tss1 = s.tss1 := rfl
@[simp] theorem storeAt_tss2 (s : State) (lin : Dword) (n : Nat) (v : Dword) : (storeAt s lin n v).tss2 = s.tss2 := rfl
@[simp] theorem storeAt_segTraps (s : State) (lin : Dword) (n : Nat) (v : Dword) : (storeAt s lin n v).segTraps = s.segTraps := rfl
@[simp] theorem storeAt_params (s : State) (lin : Dword) (n : Nat) (v : Dword) : (storeAt s lin n v).params = s.params := rfl
@[simp] theorem storeAt_pendingNMI (s : State) (lin : Dword) (n : Nat) (v : Dword) : (storeAt s lin n v).pendingNMI = s.pendingNMI := rfl
@[simp] theorem storeAt_pendingINTR (s : State) (lin : Dword) (n : Nat) (v : Dword) : (storeAt s lin n v).pendingINTR = s.pendingINTR := rfl
@[simp] theorem storeAt_pendingSMI (s : State) (lin : Dword) (n : Nat) (v : Dword) : (storeAt s lin n v).pendingSMI = s.pendingSMI := rfl
@[simp] theorem storeAt_pendingMC (s : State) (lin : Dword) (n : Nat) (v : Dword) : (storeAt s lin n v).pendingMC = s.pendingMC := rfl
@[simp] theorem storeAt_waitingINTR (s : State) (lin : Dword) (n : Nat) (v : Dword) : (storeAt s lin n v).waitingINTR = s.waitingINTR := rfl
@[simp] theorem storeAt_ext (s : State) (lin : Dword) (n : Nat) (v : Dword) : (storeAt s lin n v).ext = s.ext := rfl
@[simp] theorem storeAt_intShadow (s : State) (lin : Dword) (n : Nat) (v : Dword) : (storeAt s lin n v).intShadow = s.intShadow := rfl
@[simp] theorem storeAt_shutdown (s : State) (lin : Dword) (n : Nat) (v : Dword) : (storeAt s lin n v).shutdown = s.shutdown := rfl
@[simp] theorem storeAt_freeIx (s : State) (lin : Dword) (n : Nat) (v : Dword) : (storeAt s lin n v).freeIx = s.freeIx := rfl

@[simp] theorem advance_regs (s : State) : (advance s).regs = s.regs := rfl
@[simp] theorem advance_pcNext (s : State) : (advance s).pcNext = s.pcNext := rfl
@[simp] theorem advance_eflags (s : State) : (advance s).eflags = s.eflags := rfl
@[simp] theorem advance_cs (s : State) : (advance s).cs = s.cs := rfl
@[simp] theorem advance_ss (s : State) : (advance s).ss = s.ss := rfl
@[simp] theorem advance_ds (s : State) : (advance s).ds = s.ds := rfl
@[simp] theorem advance_es (s : State) : (advance s).es = s.es := rfl
@[simp] theorem advance_fs (s : State) : (advance s).fs = s.fs := rfl
@[simp] theorem advance_gs (s : State) : (advance s).gs = s.gs := rfl
@[simp] theorem advance_cpl (s : State) : (advance s).cpl = s.cpl := rfl
@[simp] theorem advance_mode (s : State) : (advance s).mode = s.mode := rfl
@[simp] theorem advance_gdt (s : State) : (advance s).gdt = s.gdt := rfl
@[simp] theorem advance_idt (s : State) : (advance s).idt = s.idt := rfl
@[simp] theorem advance_tss0 (s : State) : (advance s).tss0 = s.tss0 := rfl
@[simp] theorem advance_tss1 (s : State) : (advance s).tss1 = s.tss1 := rfl
@[simp] theorem advance_tss2 (s : State) : (advance s).tss2 = s.tss2 := rfl
@[simp] theorem advance_segTraps (s : State) : (advance s).segTraps = s.segTraps := rfl
@[simp] theorem advance_params (s : State) : (advance s).params = s.params := rfl
@[simp] theorem advance_mem (s : State) : (advance s).mem = s.mem := rfl
@[simp] theorem advance_written (s : State) : (advance s).written = s.written := rfl
@[simp] theorem advance_pendingNMI (s : State) : (advance s).pendingNMI = s.pendingNMI := rfl
@[simp] theorem advance_pendingINTR (s : State) : (advance s).pendingINTR = s.pendingINTR := rfl
@[simp] theorem advance_pendingSMI (s : State) : (advance s).pendingSMI = s.pendingSMI := rfl
@[simp] theorem advance_pendingMC (s : State) : (advance s).pendingMC = s.pendingMC := rfl
@[simp] theorem advance_waitingINTR (s : State) : (advance s).waitingINTR = s.waitingINTR := rfl
@[simp] theorem advance_ext (s : State) : (advance s).ext = s.ext := rfl
@[simp] theorem advance_intShadow (s : State) : (advance s).intShadow = s.intShadow := rfl
@[simp] theorem advance_shutdown (s : State) : (advance s).shutdown = s.shutdown := rfl
@[simp] theorem advance_freeIx (s : State) : (advance s).freeIx = s.freeIx := rfl

@[simp] theorem storeAt_mem (s : State) (lin : Dword) (n : Nat) (v : Dword) :
    (storeAt s lin n v).mem = s.mem.storeLE lin n v := rfl
@[simp] theorem storeAt_written (s : State) (lin : Dword) (n : Nat) (v : Dword) :
    (storeAt s lin n v).written = markWritten s.written lin n := rfl
@[simp] theorem advance_eip (s : State) : (advance s).eip = s.pcNext := rfl
@[simp] theorem setFrame_regs (sz : OpSize) (v : Dword) (s : State) : (setFrame sz v s).regs =
    { s.regs with ebp := if wideStack s then writeSize sz s.regs.ebp v else setLow16 s.regs.ebp v } := rfl
@[simp] theorem setStackPtr_regs (v : Dword) (s : State) : (setStackPtr v s).regs =
    { s.regs with esp := if wideStack s then v else setLow16 s.regs.esp v } := rfl
@[simp] theorem writeReg_regs (sz : OpSize) (r : Reg) (v : Dword) (s : State) :
    (writeReg sz r v s).regs = s.regs.set r (writeSize sz (s.regs.get r) v) := rfl

/-- Reading the register just written gives the value (10_state R20: none is hardwired). -/
@[simp] theorem get_set_same (r : Reg) (v : Dword) (g : Regs) : (g.set r v).get r = v := by
  cases r <;> rfl

/-- Writing one register leaves every other (10_state R20: no banks). -/
theorem get_set_ne {r q : Reg} (h : q ≠ r) (v : Dword) (g : Regs) : (g.set r v).get q = g.get q := by
  cases r <;> cases q <;> first | rfl | exact absurd rfl h

/-- The bits of a 16-bit write: the low word is new, the rest old (10_state R23). -/
theorem getLsbD_setLow16 (old v : Dword) (i : Nat) :
    (setLow16 old v).getLsbD i = if i < 16 then v.getLsbD i else old.getLsbD i := by
  show BitVec.getLsbD (w := 16 + 16) _ i = _
  unfold setLow16
  rw [BitVec.getLsbD_append]
  by_cases h : i < 16
  · simp [h]
  · by_cases h2 : i < 32
    · simp [h, show i - 16 < 16 by omega, show 16 + (i - 16) = i by omega]
    · simp [h, show ¬ i - 16 < 16 by omega, BitVec.getLsbD_of_ge old i (by omega)]

theorem getLsbD_low16 (v : Dword) (i : Nat) : (low16 v).getLsbD i = (decide (i < 16) && v.getLsbD i) := by
  unfold low16
  rw [BitVec.getLsbD_setWidth, BitVec.getLsbD_setWidth]
  by_cases h : i < 16
  · simp [h, show i < 32 by omega]
  · simp [h]

/-- A 16-bit write replaces the low word. -/
@[simp] theorem low16_setLow16 (old v : Dword) : low16 (setLow16 old v) = low16 v := by
  apply BitVec.eq_of_getLsbD_eq
  intro i _
  rw [getLsbD_low16, getLsbD_low16, getLsbD_setLow16]
  by_cases h : i < 16 <;> simp only [h, if_true, decide_false, Bool.false_and]

/-- A 16-bit write leaves bits 31:16 (10_state R23). -/
@[simp] theorem high_setLow16 (old v : Dword) : (setLow16 old v).extractLsb' 16 16 = old.extractLsb' 16 16 := by
  apply BitVec.eq_of_getLsbD_eq
  intro i hi
  rw [BitVec.getLsbD_extractLsb', BitVec.getLsbD_extractLsb', getLsbD_setLow16, if_neg (by omega)]

@[simp] theorem low16_low16 (v : Dword) : low16 (low16 v) = low16 v := by
  apply BitVec.eq_of_getLsbD_eq
  intro i _
  rw [getLsbD_low16, getLsbD_low16, ← Bool.and_assoc, Bool.and_self]

@[simp] theorem setLow16_low16 (old v : Dword) : setLow16 old (low16 v) = setLow16 old v := by
  apply BitVec.eq_of_getLsbD_eq
  intro i _
  rw [getLsbD_setLow16, getLsbD_setLow16, getLsbD_low16]
  by_cases h : i < 16 <;> simp only [h, if_true, if_false, decide_true, Bool.true_and]

@[simp] theorem setLow16_setLow16 (old v w : Dword) : setLow16 (setLow16 old v) w = setLow16 old w := by
  apply BitVec.eq_of_getLsbD_eq
  intro i _
  rw [getLsbD_setLow16, getLsbD_setLow16, getLsbD_setLow16]
  by_cases h : i < 16 <;> simp only [h, if_true, if_false]

/-- A 16-bit write of the low word already there changes nothing. -/
@[simp] theorem setLow16_self (old : Dword) : setLow16 old old = old := by
  apply BitVec.eq_of_getLsbD_eq
  intro i _
  rw [getLsbD_setLow16, ite_self]

@[simp] theorem wideStack_setStackPtr (v : Dword) (s : State) : wideStack (setStackPtr v s) = wideStack s := rfl
@[simp] theorem wideStack_storeAt (s : State) (lin : Dword) (n : Nat) (v : Dword) :
    wideStack (storeAt s lin n v) = wideStack s := rfl
@[simp] theorem wideStack_advance (s : State) : wideStack (advance s) = wideStack s := rfl
@[simp] theorem wideStack_writeReg (sz : OpSize) (r : Reg) (v : Dword) (s : State) :
    wideStack (writeReg sz r v s) = wideStack s := rfl
@[simp] theorem wideStack_setFrame (sz : OpSize) (v : Dword) (s : State) :
    wideStack (setFrame sz v s) = wideStack s := rfl

/-- The stack pointer reads back as it was set, in the width of the stack (20_memory R64). -/
@[simp] theorem stackPtr_setStackPtr (v : Dword) (s : State) : stackPtr (setStackPtr v s) = wrapStack s v := by
  unfold stackPtr wrapStack
  rw [wideStack_setStackPtr, setStackPtr_regs]
  cases wideStack s <;> simp

/-- A 16-bit stack pointer leaves ESP[31:16] (20_memory R64). -/
theorem setStackPtr_keeps_high (v : Dword) (s : State) (h : wideStack s = false) :
    (setStackPtr v s).regs.esp.extractLsb' 16 16 = s.regs.esp.extractLsb' 16 16 := by
  simp [h]

end Sys2Proof.Laws
end

