-- ==== Sys2Proof/Laws/Ops.lean ====
section
/-! SUPPORT. What the stack operations can do, said once: where a push, a pop or a run of pushes succeeds
and what it leaves. -/

namespace Sys2Proof.Laws

open Sys2Proof Sys2Proof.Machine Sys2Proof.Safety

/-! ## Offsets -/

theorem low16_toNat (v : Dword) : (low16 v).toNat = v.toNat % 2 ^ 16 := by
  have := v.isLt
  simp only [low16, BitVec.toNat_setWidth]
  omega

theorem low16_add_low16 (a b : Dword) : low16 (low16 a + b) = low16 (a + b) := by
  apply BitVec.eq_of_toNat_eq
  rw [low16_toNat, low16_toNat, BitVec.toNat_add, BitVec.toNat_add, low16_toNat]
  omega

theorem wrapStack_add (s : State) (a b : Dword) : wrapStack s (wrapStack s a + b) = wrapStack s (a + b) := by
  unfold wrapStack
  cases wideStack s
  · simpa using low16_add_low16 a b
  · rfl

@[simp] theorem wrapStack_wrapStack (s : State) (a : Dword) : wrapStack s (wrapStack s a) = wrapStack s a := by
  unfold wrapStack
  cases wideStack s <;> simp

/-- The stack pointer plus `d`, in the width of the stack. -/
theorem wrapStack_stackPtr (s : State) (d : Dword) :
    wrapStack s (stackPtr s + d) = wrapStack s (s.regs.esp + d) := wrapStack_add s _ d

/-- Stack-pointer arithmetic depends on SS alone. -/
theorem wrapStack_congr {s t : State} (h : t.ss = s.ss) (v : Dword) : wrapStack t v = wrapStack s v := by
  unfold wrapStack wideStack; rw [h]

/-- Setting the stack pointer to its old value plus `d` moves ESP by `d`. -/
theorem setStackPtr_move (s : State) (d : Dword) :
    setStackPtr (wrapStack s (stackPtr s + d)) s = { s with regs := movedRegs d s } := by
  rw [wrapStack_stackPtr]
  unfold setStackPtr movedRegs movedEsp wrapStack
  cases wideStack s <;> simp

theorem release_eq (s : State) (d : Dword) : release d s = { s with regs := movedRegs d s } :=
  setStackPtr_move s d

/-- Two moves are one. -/
theorem movedEsp_movedEsp {s t : State} (a b : Dword) (hss : t.ss = s.ss) (hr : t.regs.esp = movedEsp a s) :
    movedEsp b t = movedEsp (a + b) s := by
  have hw : wideStack t = wideStack s := by unfold wideStack; rw [hss]
  unfold movedEsp at *
  rw [hw, hr]
  cases wideStack s
  · simp only [Bool.false_eq_true, if_false, setLow16_setLow16]
    apply BitVec.eq_of_getLsbD_eq
    intro i hi
    rw [getLsbD_setLow16, getLsbD_setLow16]
    by_cases h : i < 16
    · have h1 := congrArg (·.getLsbD i) (low16_add_low16 (setLow16 s.regs.esp (s.regs.esp + a)) b)
      have h2 := congrArg (·.getLsbD i) (low16_add_low16 (s.regs.esp + a) b)
      simp only [getLsbD_low16, low16_setLow16, h, decide_true, Bool.true_and] at h1 h2
      rw [← BitVec.add_assoc, if_pos h, if_pos h, ← h1, h2]
    · rw [if_neg h, if_neg h]
  · simp [BitVec.add_assoc]

/-- Two moves of the register file are one. -/
theorem movedRegs_movedRegs {s t : State} (a b : Dword) (hss : t.ss = s.ss) (hr : t.regs = movedRegs a s) :
    movedRegs b t = movedRegs (a + b) s := by
  have h := movedEsp_movedEsp a b hss (show t.regs.esp = movedEsp a s by rw [hr]; rfl)
  show ({ t.regs with esp := movedEsp b t } : Regs) = _
  rw [h, hr]
  rfl

/-- A release after a move of the pointer is one move. -/
theorem release_moved (s : State) (a b : Dword) :
    release b { s with regs := movedRegs a s } = { s with regs := movedRegs (a + b) s } := by
  rw [release_eq, movedRegs_movedRegs (s := s) (t := { s with regs := movedRegs a s }) a b rfl rfl]

/-- The stack pointer after ESP was moved. -/
theorem stackPtr_moved {s t : State} {d : Dword} (hss : t.ss = s.ss) (hr : t.regs.esp = movedEsp d s) :
    stackPtr t = wrapStack s (stackPtr s + d) := by
  rw [wrapStack_stackPtr]
  unfold stackPtr
  rw [wrapStack_congr hss, hr]
  unfold movedEsp wrapStack
  cases wideStack s <;> simp

@[simp] theorem movedEsp_zero (s : State) : movedEsp 0#32 s = s.regs.esp := by
  unfold movedEsp
  cases wideStack s <;> simp

/-- Push `j + 1` after one push is push `j` of the state it leaves. -/
theorem pushOffset_succ {s t : State} (n j : Nat) (hss : t.ss = s.ss)
    (hsp : stackPtr t = pushOffset n 0 s) : pushOffset n j t = pushOffset n (j + 1) s := by
  unfold pushOffset at *
  rw [wrapStack_congr hss, hsp, BitVec.sub_eq_add_neg, wrapStack_add, BitVec.sub_eq_add_neg, BitVec.add_assoc,
    BitVec.sub_eq_add_neg]
  congr 2
  rw [← BitVec.sub_eq_add_neg, ← BitVec.neg_add, ← BitVec.ofNat_add]
  congr 2
  simp only [Nat.mul_add, Nat.mul_zero]
  omega

theorem stackPtr_lt (s : State) : (stackPtr s).toNat < (if wideStack s then 2 ^ 32 else 2 ^ 16) := by
  unfold stackPtr wrapStack
  cases wideStack s
  · simp only [Bool.false_eq_true, if_false, low16_toNat]; omega
  · simpa using s.regs.esp.isLt

/-- A pushed item's offset as a number. -/
theorem pushOffset_toNat (n j : Nat) (s : State) (h : n * (j + 1) ≤ 2 ^ 16) :
    (pushOffset n j s).toNat =
      ((stackPtr s).toNat + (if wideStack s then 2 ^ 32 else 2 ^ 16) - n * (j + 1)) %
        (if wideStack s then 2 ^ 32 else 2 ^ 16) := by
  have hsp := stackPtr_lt s
  unfold pushOffset wrapStack
  generalize n * (j + 1) = A at *
  cases hw : wideStack s <;>
    simp only [hw, Bool.false_eq_true, if_false, if_true, low16_toNat, BitVec.toNat_sub, BitVec.toNat_ofNat] at * <;>
    omega

/-! ## Translation -/

/-- A translation depends on the segment register and on segTraps, params, EFLAGS and CPL alone. -/
theorem translate_congr {s t : State} (h1 : t.segTraps = s.segTraps) (h0 : t.params = s.params)
    (h2 : t.eflags = s.eflags) (h3 : t.cpl = s.cpl) (isSS : Bool) (r : SegReg) (narrow : Bool) (off : Dword)
    (len : Nat) (k : AccessKind) :
    translate t isSS r narrow off len k = translate s isSS r narrow off len k := by
  have : SegTrap.hits t = SegTrap.hits s := by
    funext lin len k x; unfold SegTrap.hits; rw [h2, h3]
  unfold Machine.translate segVerdict
  rw [this, h1, h0]

theorem stackSlot_congr {s t : State} (h1 : t.segTraps = s.segTraps) (h0 : t.params = s.params)
    (h2 : t.eflags = s.eflags) (h3 : t.cpl = s.cpl) (h4 : t.ss = s.ss) (off : Dword) (n : Nat) (k : AccessKind) :
    stackSlot t off n k = stackSlot s off n k := by
  unfold stackSlot
  rw [translate_congr h1 h0 h2 h3, h4, show wideStack t = wideStack s by unfold wideStack; rw [h4]]

/-- A translation: refused past the top, else what `P_SEG` answers. -/
theorem translate_eq (s : State) (isSS : Bool) (r : SegReg) (narrow : Bool) (off : Dword) (len : Nat)
    (k : AccessKind) :
    translate s isSS r narrow off len k =
      if pastTop narrow off len = true then .error (.refuse .offsetSpaceTop) else segVerdict s isSS r off len k := rfl

/-- `P_SEG` where the run lists no verdict: what allows an access puts it at the base plus the offset. -/
theorem segVerdict_default {s : State} {isSS : Bool} {r : SegReg} {off : Dword} {len : Nat} {k : AccessKind}
    {lin : Dword} (hv : s.params.segVerdict.lookup ⟨r.sel, off, len, k⟩ = none)
    (h : segVerdict s isSS r off len k = .ok lin) :
    lin = segBase r + off ∧ checkSegment isSS r off len k = .ok () ∧
      s.segTraps.find? (SegTrap.hits s (segBase r + off) len k) = none := by
  unfold segVerdict at h
  rw [hv] at h
  cases hc : checkSegment isSS r off len k with
  | error e => rw [hc] at h; cases h
  | ok u =>
    rw [hc] at h
    cases hf : s.segTraps.find? (SegTrap.hits s (segBase r + off) len k) with
    | some t => simp only [bind, Except.bind, hf] at h; cases h
    | none => simp only [bind, Except.bind, hf] at h; cases h; exact ⟨rfl, rfl, rfl⟩

theorem pastTop_false {narrow : Bool} {off : Dword} {len : Nat} :
    pastTop narrow off len = false ↔ off.toNat + len ≤ 2 ^ 32 ∧ (narrow = true → off.toNat + len ≤ 2 ^ 16) := by
  unfold pastTop
  cases narrow <;> simp

/-- A translated access lies inside the offset space, where `P_SEG` puts it. -/
theorem translate_ok {s : State} {isSS : Bool} {r : SegReg} {narrow : Bool} {off : Dword} {len : Nat}
    {k : AccessKind} {lin : Dword} (h : translate s isSS r narrow off len k = .ok lin) :
    off.toNat + len ≤ 2 ^ 32 ∧ (narrow = true → off.toNat + len ≤ 2 ^ 16) ∧
      segVerdict s isSS r off len k = .ok lin := by
  rw [translate_eq] at h
  cases hp : pastTop narrow off len with
  | true => rw [hp] at h; cases h
  | false =>
    rw [hp] at h
    obtain ⟨h1, h2⟩ := pastTop_false.1 hp
    exact ⟨h1, h2, h⟩

/-- A translated access where the run lists no verdicts is at base plus offset. -/
theorem translate_base {s : State} {isSS : Bool} {r : SegReg} {narrow : Bool} {off : Dword} {len : Nat}
    {k : AccessKind} {lin : Dword} (hv : s.params.segVerdict = [])
    (h : translate s isSS r narrow off len k = .ok lin) : lin = segBase r + off :=
  (segVerdict_default (by rw [hv]; rfl) (translate_ok h).2.2).1

/-- Two pushed items of one run do not overlap, where the run lists no verdicts of `P_SEG`. -/
theorem pushed_disjoint {n m i j : Nat} {s : State} {a b : Dword} {k : AccessKind} (hv : s.params.segVerdict = [])
    (hm : n * m ≤ 2 ^ 16) (hi : i < m) (hj : j < m) (hij : i ≠ j)
    (ha : stackSlot s (pushOffset n i s) n k = .ok a) (hb : stackSlot s (pushOffset n j s) n k = .ok b) :
    Apart n b a := by
  obtain ⟨hl1, hw1, -⟩ := translate_ok ha
  obtain ⟨hl2, hw2, -⟩ := translate_ok hb
  obtain rfl := translate_base hv ha
  obtain rfl := translate_base hv hb
  intro p hp q hq he
  have he' := BitVec.eq_of_toNat_eq he
  rw [BitVec.add_assoc, BitVec.add_assoc, BitVec.add_right_inj] at he'
  have hpn : (n * (i + 1)) ≤ 2 ^ 16 := Nat.le_trans (Nat.mul_le_mul_left n hi) hm
  have hqn : (n * (j + 1)) ≤ 2 ^ 16 := Nat.le_trans (Nat.mul_le_mul_left n hj) hm
  have key : ∀ x y : Nat, x < n → y < n → n * (i + 1) + y ≠ n * (j + 1) + x := by
    intro x y hx hy h
    rcases Nat.lt_or_gt_of_ne hij with hlt | hlt
    · have : n * (i + 1) + n ≤ n * (j + 1) := by
        have := Nat.mul_le_mul_left n (show i + 1 + 1 ≤ j + 1 by omega)
        rw [Nat.mul_add n (i + 1) 1] at this; omega
      omega
    · have : n * (j + 1) + n ≤ n * (i + 1) := by
        have := Nat.mul_le_mul_left n (show j + 1 + 1 ≤ i + 1 by omega)
        rw [Nat.mul_add n (j + 1) 1] at this; omega
      omega
  have hk := key p q hp hq
  have he2 := congrArg (·.toNat) he'
  simp only [BitVec.toNat_add, BitVec.toNat_ofNat] at he2
  have hsp := stackPtr_lt s
  have hA := Nat.le_mul_of_pos_right n (show 0 < i + 1 by omega)
  have hB := Nat.le_mul_of_pos_right n (show 0 < j + 1 by omega)
  have h1 := pushOffset_toNat n i s hpn
  have h2 := pushOffset_toNat n j s hqn
  generalize (pushOffset n i s).toNat = x at *
  generalize (pushOffset n j s).toNat = y at *
  generalize n * (i + 1) = A at *
  generalize n * (j + 1) = B at *
  generalize (stackPtr s).toNat = z at *
  have hn16 : n ≤ 2 ^ 16 := Nat.le_trans (Nat.le_mul_of_pos_right n (by omega : 0 < m)) hm
  rw [Nat.mod_eq_of_lt (show p < 2 ^ 32 by omega), Nat.mod_eq_of_lt (show q < 2 ^ 32 by omega),
    Nat.mod_eq_of_lt (show x + p < 2 ^ 32 by omega), Nat.mod_eq_of_lt (show y + q < 2 ^ 32 by omega)] at he2
  cases hwide : wideStack s <;>
    simp only [hwide, Bool.false_eq_true, if_false, if_true] at h1 h2 hsp <;>
    by_cases hza : A ≤ z <;> by_cases hzb : B ≤ z <;> omega

/-- Where the run lists no verdicts of `P_SEG`, the slots of a run of pushes lie apart. -/
theorem slots_apart {n count i j : Nat} {slot : Nat → Dword} {s : State} (hv : s.params.segVerdict = [])
    (hlen : n * count ≤ 2 ^ 16) (hc : CanPush n count slot s) (hi : i < count) (hj : j < count) (hij : i ≠ j) :
    Apart n (slot j) (slot i) := pushed_disjoint hv hlen hi hj hij (hc i hi) (hc j hj)

/-- An item no later one touches is apart from every later one. -/
theorem untouched_apart {n count j k : Nat} {slot : Nat → Dword} {s : State} (h : Untouched n count j slot s)
    (hlen : n * count ≤ 2 ^ 16) (hc : CanPush n count slot s) (hjk : j < k) (hk : k < count) :
    Apart n (slot k) (slot j) :=
  h.elim (fun hv => slots_apart hv hlen hc (by omega) hk (by omega)) fun h => h k hjk hk

/-- What no later item touches, none of the later run touches either. -/
theorem untouched_next {n count j : Nat} {slot : Nat → Dword} {s t : State}
    (h : Untouched n (count + 1) (j + 1) slot s) (hp : t.params = s.params) :
    Untouched n count j (fun k => slot (k + 1)) t :=
  h.imp (fun hv => by rw [hp]; exact hv) fun h k hjk hk => h (k + 1) (by omega) (by omega)

/-- What was pushed depends on memory before and after, and on the run's `P_SEG`, alone. -/
theorem pushedAt_congr {sz : OpSize} {vs : List Dword} {slot : Nat → Dword} {s t s' t' : State}
    (h : PushedAt sz vs slot s t) (hs : s'.mem = s.mem) (hp : s'.params = s.params) (ht : t'.mem = t.mem) :
    PushedAt sz vs slot s' t' := by
  unfold PushedAt Untouched at *
  rw [hs, hp, ht]
  exact h

/-! ## Pushes -/

theorem wrap_sub (s : State) (n : Nat) :
    wrapStack s (stackPtr s - BitVec.ofNat 32 n) = wrapStack s (stackPtr s + -BitVec.ofNat 32 n) := by
  rw [BitVec.sub_eq_add_neg]

/-- A push: the item stored in its slot and the pointer moved, or the slot's trouble with nothing changed. -/
theorem push_eq (n : Nat) (v : Dword) (s : State) :
    push n v s = match stackSlot s (pushOffset n 0 s) n .stackWrite with
      | .ok lin => .ok { s with regs := movedRegs (-BitVec.ofNat 32 n) s, mem := s.mem.storeLE lin n v,
                                written := markWritten s.written lin n }
      | .error e => .error ⟨e, s⟩ := by
  have ho : pushOffset n 0 s = wrapStack s (stackPtr s - BitVec.ofNat 32 n) := by
    unfold pushOffset; simp
  rw [ho]
  unfold push
  cases h : stackSlot s (wrapStack s (stackPtr s - BitVec.ofNat 32 n)) n .stackWrite with
  | error e => simp [h, attempt, bind, Except.bind]
  | ok lin =>
    simp only [h, attempt, bind, Except.bind]
    have h2 := setStackPtr_move (storeAt s lin n v) (-BitVec.ofNat 32 n)
    rw [wrapStack_congr (show (storeAt s lin n v).ss = s.ss from rfl),
      show stackPtr (storeAt s lin n v) = stackPtr s from rfl, ← wrap_sub] at h2
    rw [h2]
    rfl

/-- What a run of stack operations may have done to memory: its canonical form and the record's order kept. -/
structure Grown (s t : State) : Prop where
  mem : s.mem.wf = true → t.mem.wf = true
  written : s.written.Pairwise (· < ·) → t.written.Pairwise (· < ·)

theorem Grown.refl (s : State) : Grown s s := ⟨id, id⟩

theorem Grown.trans {s t u : State} (h : Grown s t) (g : Grown t u) : Grown s u :=
  ⟨g.mem ∘ h.mem, g.written ∘ h.written⟩

theorem Grown.of_eq {s t : State} (hm : t.mem = s.mem) (hw : t.written = s.written) : Grown s t :=
  ⟨fun h => hm ▸ h, fun h => hw ▸ h⟩

theorem Grown.storeAt (s : State) (lin : Dword) (n : Nat) (v : Dword) : Grown s (storeAt s lin n v) :=
  ⟨storeLE_wf n lin v, markWritten_sorted n lin⟩

/-- Push `j + 1` after one push stores where push `j` of the state it leaves does. -/
theorem pushSlot_next {n : Nat} {s t : State} (h1 : t.segTraps = s.segTraps) (h0 : t.params = s.params)
    (h2 : t.eflags = s.eflags) (h3 : t.cpl = s.cpl) (h4 : t.ss = s.ss) (h5 : t.regs.esp = movedEsp (-BitVec.ofNat 32 n) s) (j : Nat) :
    stackSlot t (pushOffset n j t) n .stackWrite = stackSlot s (pushOffset n (j + 1) s) n .stackWrite := by
  rw [stackSlot_congr h1 h0 h2 h3 h4, pushOffset_succ n j h4]
  rw [stackPtr_moved h4 h5, ← wrap_sub]
  unfold pushOffset
  simp

/-- A run of pushes: where every slot can be stored, it succeeds, moves the pointer by all of them, leaves
each item in its slot and every other byte as it was. -/
theorem pushAll_ok (sz : OpSize) (vs : List Dword) : ∀ (slot : Nat → Dword) (s : State),
    itemBytes sz * vs.length ≤ 2 ^ 16 → CanPush (itemBytes sz) vs.length slot s →
    ∃ t, pushAll (itemBytes sz) vs s = .ok t ∧ PushedAt sz vs slot s t ∧
      t = { s with regs := movedRegs (-BitVec.ofNat 32 (itemBytes sz * vs.length)) s,
                   mem := t.mem, written := t.written } ∧ Grown s t := by
  induction vs with
  | nil =>
    intro slot s _ _
    refine ⟨s, rfl, ⟨fun j v h _ => by simp at h, fun a _ => rfl⟩, ?_, Grown.refl s⟩
    simp [movedRegs]
  | cons v vs ih =>
    intro slot s hlen hcan
    have hn : 0 < itemBytes sz := by cases sz <;> decide
    have h0 := hcan 0 (by simp)
    generalize hs1 : ({ s with regs := movedRegs (-BitVec.ofNat 32 (itemBytes sz)) s,
                               mem := s.mem.storeLE (slot 0) (itemBytes sz) v,
                               written := markWritten s.written (slot 0) (itemBytes sz) } : State) = s1
    have hpush : push (itemBytes sz) v s = .ok s1 := by rw [push_eq, h0, ← hs1]
    have hss : s1.ss = s.ss := by rw [← hs1]
    have hslot : ∀ j, stackSlot s1 (pushOffset (itemBytes sz) j s1) (itemBytes sz) .stackWrite =
        stackSlot s (pushOffset (itemBytes sz) (j + 1) s) (itemBytes sz) .stackWrite := fun j => by
      refine pushSlot_next ?_ ?_ ?_ ?_ hss ?_ j <;> (subst hs1; rfl)
    have hlen' : itemBytes sz * vs.length ≤ 2 ^ 16 := by
      refine Nat.le_trans (Nat.mul_le_mul_left _ ?_) hlen; simp
    obtain ⟨t, ht, ⟨hv, ho⟩, hkeep, hg⟩ := ih (fun j => slot (j + 1)) s1 hlen' (fun j hj => by
      rw [hslot]; exact hcan (j + 1) (by simpa using hj))
    have hother : ∀ a, (∀ j < vs.length, Outside (slot (j + 1)) (itemBytes sz) a) →
        t.mem.read a = (s.mem.storeLE (slot 0) (itemBytes sz) v).read a := fun a ha => by
      rw [ho a ha, ← hs1]
    refine ⟨t, ?_, ⟨?_, ?_⟩, ?_, ?_⟩
    · rw [pushAll, hpush]; exact ht
    · intro j w hj hun
      cases j with
      | zero =>
        simp only [List.getElem?_cons_zero, Option.some.injEq] at hj
        subst hj
        rw [← load_store_item sz s.mem (slot 0) v]
        apply loadLE_congr
        intro k hk
        apply hother
        intro j hj
        exact untouched_apart hun hlen hcan (by omega) (by simpa using hj) k hk
      | succ j => exact hv j w (by simpa using hj) (untouched_next hun (by rw [← hs1]))
    · intro a ha
      rw [hother a (fun j hj => ha (j + 1) (by simpa using hj))]
      exact read_storeLE_outside _ _ _ _ _ (ha 0 (by simp))
    · have hregs : movedRegs (-BitVec.ofNat 32 (itemBytes sz * vs.length)) s1 =
          movedRegs (-BitVec.ofNat 32 (itemBytes sz * (v :: vs).length)) s := by
        unfold movedRegs
        rw [movedEsp_movedEsp (s := s) (-BitVec.ofNat 32 (itemBytes sz)) _ hss (by rw [← hs1]; rfl)]
        rw [← hs1]
        unfold movedRegs
        simp only [List.length_cons, Nat.mul_succ, BitVec.ofNat_add, BitVec.neg_add]
        congr 2
        rw [BitVec.add_comm, BitVec.sub_eq_add_neg]
      rw [hregs] at hkeep
      rw [hkeep, ← hs1]
    · refine Grown.trans ?_ hg
      rw [← hs1]
      exact ⟨storeLE_wf _ _ _, markWritten_sorted _ _⟩

/-! ## What an operation can have done -/

/-- Only general registers and memory may differ, memory by stores. -/
structure Moved (s t : State) : Prop where
  keeps : t = { s with regs := t.regs, mem := t.mem, written := t.written }
  grown : Grown s t

theorem Moved.refl (s : State) : Moved s s := ⟨rfl, Grown.refl s⟩

theorem Moved.trans {s t u : State} (h : Moved s t) (g : Moved t u) : Moved s u :=
  ⟨by rw [g.keeps, h.keeps], h.grown.trans g.grown⟩

/-- `x` is an outcome of an operation that began in `s`: an answer `t` is `Good`, and the state reached by an
abandoned one differs from `s` in general registers and memory. -/
def Outcomes {α : Type} (x : Except Stop α) (good : α → Prop) (s : State) : Prop :=
  match x with
  | .ok a => good a
  | .error p => Grown s p.reached

theorem Outcomes.bind {α β : Type} {x : Except Stop α} {f : α → Except Stop β} {good : α → Prop}
    {good' : β → Prop} {s : State} (hx : Outcomes x good s) (hf : ∀ a, good a → Outcomes (f a) good' s) :
    Outcomes (x >>= f) good' s := by
  cases x with
  | ok a => exact hf a hx
  | error e => exact hx

theorem Outcomes.mono {α : Type} {x : Except Stop α} {good good' : α → Prop} {s t : State}
    (hx : Outcomes x good t) (hs : Grown s t) (h : ∀ a, good a → good' a) : Outcomes x good' s := by
  cases x with
  | ok a => exact h a hx
  | error e => exact hs.trans hx

theorem Outcomes.ok {α : Type} {good : α → Prop} {s : State} {a : α} (h : good a) : Outcomes (.ok a) good s := h

/-- The same outcome told from an earlier state. -/
theorem Outcomes.rebase {α : Type} {x : Except Stop α} {good : α → Prop} {s t : State} (hs : Grown s t)
    (hx : Outcomes x good t) : Outcomes x good s := hx.mono hs fun _ h => h

/-- An answer with the equation it comes from. -/
theorem Outcomes.self {α : Type} {x : Except Stop α} {good : α → Prop} {s : State} (h : Outcomes x good s) :
    Outcomes x (fun a => good a ∧ x = .ok a) s := by
  cases x with
  | ok a => exact ⟨h, rfl⟩
  | error e => exact h

theorem attempt_outcomes {α : Type} (s : State) (x : Except Trouble α) :
    Outcomes (attempt s x) (fun a => x = .ok a) s := by
  cases x with
  | ok a => rfl
  | error e => exact Grown.refl s

theorem push_outcomes (n : Nat) (v : Dword) (s : State) : Outcomes (push n v s) (Moved s) s := by
  rw [push_eq]
  cases stackSlot s (pushOffset n 0 s) n .stackWrite with
  | error e => exact Grown.refl s
  | ok lin => exact ⟨rfl, ⟨storeLE_wf _ _ _, markWritten_sorted _ _⟩⟩

theorem pushAll_outcomes (n : Nat) (vs : List Dword) : ∀ s : State, Outcomes (pushAll n vs s) (Moved s) s := by
  induction vs with
  | nil => intro s; exact Moved.refl s
  | cons v vs ih =>
    intro s
    exact (push_outcomes n v s).bind fun t ht => (ih t).mono ht.grown fun u hu => ht.trans hu

theorem peek_outcomes (n : Nat) (off : Dword) (s : State) :
    Outcomes (peek n off s) (fun v => ∃ lin, stackSlot s off n .stackRead = .ok lin ∧ v = s.mem.loadLE lin n) s :=
  (attempt_outcomes s _).bind fun lin h => ⟨lin, h, rfl⟩

theorem pop_outcomes (n : Nat) (s : State) :
    Outcomes (pop n s) (fun r => r.2 = { s with regs := movedRegs (BitVec.ofNat 32 n) s }) s :=
  (peek_outcomes n _ s).bind fun _ _ => setStackPtr_move s _

theorem Moved.regs (s : State) (g : Regs) : Moved s { s with regs := g } :=
  ⟨rfl, Grown.of_eq rfl rfl⟩

theorem Moved.setStackPtr (v : Dword) (s : State) : Moved s (setStackPtr v s) :=
  ⟨rfl, Grown.of_eq rfl rfl⟩

theorem Moved.writeReg (sz : OpSize) (r : Reg) (v : Dword) (s : State) : Moved s (writeReg sz r v s) :=
  ⟨rfl, Grown.of_eq rfl rfl⟩

theorem Moved.setFrame (sz : OpSize) (v : Dword) (s : State) : Moved s (setFrame sz v s) :=
  ⟨rfl, Grown.of_eq rfl rfl⟩

/-- Where every slot of a run of pushes was stored. -/
theorem pushAll_canPush (sz : OpSize) (vs : List Dword) : ∀ {s t : State},
    pushAll (itemBytes sz) vs s = .ok t → ∃ slot, CanPush (itemBytes sz) vs.length slot s := by
  induction vs with
  | nil => intro s t _; exact ⟨fun _ => 0, fun j hj => absurd hj (by simp)⟩
  | cons v vs ih =>
    intro s t h
    rw [pushAll, push_eq] at h
    cases h0 : stackSlot s (pushOffset (itemBytes sz) 0 s) (itemBytes sz) .stackWrite with
    | error e => rw [h0] at h; cases h
    | ok lin =>
      rw [h0] at h
      simp only [bind, Except.bind] at h
      obtain ⟨slot, hs⟩ := ih h
      refine ⟨fun j => match j with
        | 0 => lin
        | j + 1 => slot j, fun j hj => ?_⟩
      cases j with
      | zero => exact h0
      | succ j =>
        refine Eq.trans (pushSlot_next ?_ ?_ ?_ ?_ ?_ ?_ j).symm (hs j (by simpa using hj)) <;> rfl

/-- A run of pushes in two parts. -/
theorem pushAll_append (n : Nat) (a b : List Dword) : ∀ s : State,
    pushAll n (a ++ b) s = (pushAll n a s) >>= pushAll n b := by
  induction a with
  | nil => intro s; rfl
  | cons v a ih =>
    intro s
    rw [List.cons_append, pushAll, pushAll]
    cases push n v s with
    | error e => rfl
    | ok t => exact ih t

/-- A run of pushes whose push `j` raises: the pushes before it are stored. -/
theorem pushAll_fails (sz : OpSize) (vs : List Dword) {j : Nat} {slot : Nat → Dword} {e : Exc} {s : State}
    (hlen : itemBytes sz * vs.length ≤ 2 ^ 16) (h : PushFails (itemBytes sz) vs.length j slot e s) :
    ∃ p, pushAll (itemBytes sz) vs s = .error ⟨.exc e, p⟩ ∧ PushedAt sz (vs.take j) slot s p ∧ Grown s p := by
  obtain ⟨hj, hc, he⟩ := h
  have hl : (vs.take j).length = j := by rw [List.length_take]; omega
  obtain ⟨p, hp, hat, hk, hg⟩ := pushAll_ok sz (vs.take j) slot s
    (Nat.le_trans (Nat.mul_le_mul_left _ (by omega)) hlen) (by rw [hl]; exact hc)
  refine ⟨p, ?_, hat, hg⟩
  obtain ⟨v, rest, hd⟩ : ∃ v rest, vs.drop j = v :: rest := by
    cases hv : vs.drop j with
    | nil => have := congrArg List.length hv; rw [List.length_drop] at this; simp at this; omega
    | cons v rest => exact ⟨v, rest, rfl⟩
  rw [hl] at hk
  have hss : p.ss = s.ss := by rw [hk]
  have hslot : stackSlot p (pushOffset (itemBytes sz) 0 p) (itemBytes sz) .stackWrite = .error (.exc e) := by
    have ho : pushOffset (itemBytes sz) 0 p = pushOffset (itemBytes sz) j s := by
      unfold pushOffset
      rw [wrapStack_congr hss, stackPtr_moved hss (d := -BitVec.ofNat 32 (itemBytes sz * j)) (by rw [hk]; rfl),
        BitVec.sub_eq_add_neg, wrapStack_add, BitVec.sub_eq_add_neg, BitVec.add_assoc, ← BitVec.sub_eq_add_neg,
        ← BitVec.neg_add, ← BitVec.ofNat_add]
      simp only [Nat.mul_add, Nat.zero_add]
    rw [ho, stackSlot_congr (s := s) (by rw [hk]) (by rw [hk]) (by rw [hk]) (by rw [hk]) hss, he]
  rw [show vs = vs.take j ++ vs.drop j from (List.take_append_drop j vs).symm, hd, pushAll_append, hp]
  show (push (itemBytes sz) v p >>= pushAll (itemBytes sz) rest) = _
  rw [push_eq, hslot]
  rfl

/-! ## Memory operands -/

theorem readMemOp_outcomes (n : Nat) (m : MemOp) (disp : Dword) (s : State) :
    Outcomes (readMemOp n m disp s)
      (fun v => ∃ lin, operandSlot s m disp n .dataRead = .ok lin ∧ v = s.mem.loadLE lin n) s :=
  (attempt_outcomes s _).bind fun lin h => ⟨lin, h, rfl⟩

theorem readRMOp_outcomes (sz : OpSize) (rm : RM) (s : State) :
    Outcomes (readRMOp sz rm s) (fun v => OperandValue sz rm v s) s := by
  cases rm with
  | reg r => exact rfl
  | mem m => exact readMemOp_outcomes _ m 0 s

/-- A readable operand is read. -/
theorem readRMOp_ok {sz : OpSize} {rm : RM} {v : Dword} {s : State} (h : OperandValue sz rm v s) :
    readRMOp sz rm s = .ok v := by
  cases rm with
  | reg r => rw [show v = truncSize sz (s.regs.get r) from h]; rfl
  | mem m =>
    obtain ⟨lin, h1, rfl⟩ := h
    simp only [readRMOp, readMemOp, h1, attempt, bind, Except.bind]

theorem writeRMOp_outcomes (sz : OpSize) (rm : RM) (v : Dword) (s : State) :
    Outcomes (writeRMOp sz rm v s) (Moved s) s := by
  cases rm with
  | reg r => exact Moved.writeReg sz r v s
  | mem m => exact (attempt_outcomes s _).bind fun lin _ => ⟨rfl, Grown.storeAt s lin _ v⟩

/-! ## Runs of copies -/

theorem copyParams_outcomes (old : SegReg) (narrow : Bool) (ptr : Dword) (n : Nat) : ∀ s : State,
    Outcomes (copyParams old narrow ptr n s) (Moved s) s := by
  induction n with
  | zero => intro s; exact Moved.refl s
  | succ n ih =>
    intro s
    exact (attempt_outcomes s _).bind fun lin _ => (push_outcomes 4 _ s).bind fun t ht =>
      (ih t).mono ht.grown fun u hu => ht.trans hu

theorem copyDisplay_outcomes (sz : OpSize) (n : Nat) : ∀ (x : Dword) (s : State),
    Outcomes (copyDisplay sz n x s) (Moved s) s := by
  induction n with
  | zero => intro _ s; exact Moved.refl s
  | succ n ih =>
    intro x s
    exact (peek_outcomes _ _ s).bind fun v _ => (push_outcomes _ v s).bind fun t ht =>
      (ih _ t).mono ht.grown fun u hu => ht.trans hu

theorem popEach_outcomes (sz : OpSize) (rs : List Reg) : ∀ s : State,
    Outcomes (popEach sz rs s) (fun t => t = { s with regs := t.regs }) s := by
  induction rs with
  | nil => intro s; exact rfl
  | cons r rs ih =>
    intro s
    have h1 : Outcomes (popInto sz r s) (fun t => t = { s with regs := t.regs }) s :=
      (pop_outcomes _ s).bind fun p hp => by
        obtain ⟨v, u⟩ := p
        simp only at hp
        subst hp
        rfl
    refine h1.bind fun t ht => (ih t).mono (by rw [ht]; exact Grown.of_eq rfl rfl) fun u hu => ?_
    rw [hu, ht]

/-! ## Copies as runs of pushes -/

/-- One push where its slot can be stored. -/
theorem push_ok {n : Nat} {s : State} {lin : Dword} (v : Dword)
    (h : stackSlot s (pushOffset n 0 s) n .stackWrite = .ok lin) :
    push n v s = .ok { s with regs := movedRegs (-BitVec.ofNat 32 n) s, mem := s.mem.storeLE lin n v,
                              written := markWritten s.written lin n } := by
  rw [push_eq, h]

/-- The slots left after one push. -/
theorem canPush_next {n count : Nat} {slot : Nat → Dword} {s t : State} (hc : CanPush n (count + 1) slot s)
    (h1 : t.segTraps = s.segTraps) (h0 : t.params = s.params) (h2 : t.eflags = s.eflags) (h3 : t.cpl = s.cpl)
    (h4 : t.ss = s.ss) (h5 : t.regs.esp = movedEsp (-BitVec.ofNat 32 n) s) : CanPush n count (fun j => slot (j + 1)) t :=
  fun j hj => (pushSlot_next h1 h0 h2 h3 h4 h5 j).trans (hc (j + 1) (by omega))

/-- A readable stack item is read. -/
theorem peek_ok {n : Nat} {off lin : Dword} {s : State} (h : stackSlot s off n .stackRead = .ok lin) :
    peek n off s = .ok (s.mem.loadLE lin n) := by
  unfold peek; rw [h]; rfl

/-- The bytes of an item that lies apart from a stored one load as before. -/
theorem loadLE_store_apart {m : Memory} {a b v : Dword} {n k : Nat}
    (h : ∀ p < k, Outside a n (b + BitVec.ofNat 32 p).toNat) :
    (m.storeLE a n v).loadLE b k = m.loadLE b k :=
  loadLE_congr k b fun p hp => read_storeLE_outside _ _ _ _ _ (h p hp)

/-- The parameter copy of a call gate as a run of pushes, where the parameters lie apart from the frame. -/
theorem copyParams_ok {old : SegReg} {narrow : Bool} {ptr : Dword} {n : Nat} {src : Nat → Dword} :
    ∀ {slot : Nat → Dword} {s : State}, CanPush 4 n slot s →
    (∀ k < n, translate s true old narrow
      (if narrow then low16 (ptr + BitVec.ofNat 32 (4 * k)) else ptr + BitVec.ofNat 32 (4 * k)) 4 .stackRead =
        .ok (src k)) →
    (∀ k < n, ∀ b < 4, ∀ j < n, Outside (slot j) 4 (src k + BitVec.ofNat 32 b).toNat) →
    copyParams old narrow ptr n s = pushAll 4 ((List.range n).reverse.map fun k => s.mem.loadLE (src k) 4) s := by
  induction n with
  | zero => intro _ _ _ _ _; rfl
  | succ n ih =>
    intro slot s hc hr ha
    rw [List.range_succ, List.reverse_append, List.map_append]
    have hp := push_ok (s.mem.loadLE (src n) 4) (hc 0 (by omega))
    generalize hs1 : ({ s with regs := movedRegs (-BitVec.ofNat 32 4) s,
                               mem := s.mem.storeLE (slot 0) 4 (s.mem.loadLE (src n) 4),
                               written := markWritten s.written (slot 0) 4 } : State) = s1 at hp
    have hc1 : CanPush 4 n (fun j => slot (j + 1)) s1 := by
      refine canPush_next hc ?_ ?_ ?_ ?_ ?_ ?_ <;> (subst hs1; rfl)
    have hload : ∀ k < n, s1.mem.loadLE (src k) 4 = s.mem.loadLE (src k) 4 := fun k hk => by
      rw [← hs1]
      exact loadLE_store_apart fun p hp' => ha k (by omega) p hp' 0 (by omega)
    have hi := ih hc1 (fun k hk => by
      rw [translate_congr (s := s) (by rw [← hs1]) (by rw [← hs1]) (by rw [← hs1]) (by rw [← hs1])]
      exact hr k (by omega)) fun k hk b hb j hj => ha k (by omega) b hb (j + 1) (by omega)
    have hread : ((attempt s (translate s true old narrow
        (if narrow then low16 (ptr + BitVec.ofNat 32 (4 * n)) else ptr + BitVec.ofNat 32 (4 * n)) 4 .stackRead)) >>=
        fun lin => push 4 (s.mem.loadLE lin 4) s >>= copyParams old narrow ptr n) =
      copyParams old narrow ptr n s1 := by
      rw [hr n (by omega)]
      show (push 4 (s.mem.loadLE (src n) 4) s >>= _) = _
      rw [hp]; rfl
    refine Eq.trans hread ?_
    rw [hi, List.map_congr_left (g := fun k => s.mem.loadLE (src k) 4) fun k hk => hload k (by simpa using hk)]
    show _ = (push 4 (s.mem.loadLE (src n) 4) s >>= pushAll 4 _)
    rw [hp]; rfl

/-- A parameter copy that succeeds is a run of pushes of some values. -/
theorem copyParams_pushes {old : SegReg} {narrow : Bool} {ptr : Dword} {n : Nat} : ∀ {s t : State},
    copyParams old narrow ptr n s = .ok t → ∃ vs, vs.length = n ∧ pushAll 4 vs s = .ok t := by
  induction n with
  | zero => intro s t h; exact ⟨[], rfl, h⟩
  | succ n ih =>
    intro s t h
    have h' : ((attempt s (translate s true old narrow
        (if narrow then low16 (ptr + BitVec.ofNat 32 (4 * n)) else ptr + BitVec.ofNat 32 (4 * n)) 4 .stackRead)) >>=
        fun lin => push 4 (s.mem.loadLE lin 4) s >>= copyParams old narrow ptr n) = .ok t := h
    cases hr : translate s true old narrow
        (if narrow then low16 (ptr + BitVec.ofNat 32 (4 * n)) else ptr + BitVec.ofNat 32 (4 * n)) 4 .stackRead with
    | error e => rw [hr] at h'; cases h'
    | ok lin =>
      rw [hr] at h'
      have h2 : (push 4 (s.mem.loadLE lin 4) s >>= copyParams old narrow ptr n) = .ok t := h'
      cases hp : push 4 (s.mem.loadLE lin 4) s with
      | error e => rw [hp] at h2; cases h2
      | ok u =>
        rw [hp] at h2
        obtain ⟨vs, hl, hv⟩ := ih h2
        refine ⟨s.mem.loadLE lin 4 :: vs, by simp [hl], ?_⟩
        show (push 4 _ s >>= pushAll 4 vs) = _
        rw [hp]; exact hv

/-- The display copy of ENTER as a run of pushes, where its items can be read and pushed; of the items read
before it, where they lie apart from those pushed. -/
theorem copyDisplay_pushes {sz : OpSize} {n : Nat} :
    ∀ {src : Nat → Dword} {x : Dword} {slot : Nat → Dword} {s : State},
    CanPush (itemBytes sz) n slot s →
    (∀ k < n, stackSlot s (wrapStack s (x - BitVec.ofNat 32 (itemBytes sz * (k + 1)))) (itemBytes sz) .stackRead =
      .ok (src k)) →
    ∃ vs, vs.length = n ∧ copyDisplay sz n x s = pushAll (itemBytes sz) vs s ∧
      ((∀ k < n, ∀ b < itemBytes sz, ∀ j < n, Outside (slot j) (itemBytes sz) (src k + BitVec.ofNat 32 b).toNat) →
        vs = (List.range n).map fun k => s.mem.loadLE (src k) (itemBytes sz)) := by
  induction n with
  | zero => intro _ _ _ _ _ _; exact ⟨[], rfl, rfl, fun _ => rfl⟩
  | succ n ih =>
    intro src x slot s hc hr
    have hr0 := hr 0 (by omega)
    simp only [Nat.zero_add, Nat.mul_one] at hr0
    have hp := push_ok (s.mem.loadLE (src 0) (itemBytes sz)) (hc 0 (by omega))
    generalize hs1 : ({ s with regs := movedRegs (-BitVec.ofNat 32 (itemBytes sz)) s,
                               mem := s.mem.storeLE (slot 0) (itemBytes sz) (s.mem.loadLE (src 0) (itemBytes sz)),
                               written := markWritten s.written (slot 0) (itemBytes sz) } : State) = s1 at hp
    have hss : s1.ss = s.ss := by rw [← hs1]
    have hc1 : CanPush (itemBytes sz) n (fun j => slot (j + 1)) s1 := by
      refine canPush_next hc ?_ ?_ ?_ ?_ hss ?_ <;> (subst hs1; rfl)
    have hr1 : ∀ k < n, stackSlot s1 (wrapStack s1 (wrapStack s (x - BitVec.ofNat 32 (itemBytes sz)) -
        BitVec.ofNat 32 (itemBytes sz * (k + 1)))) (itemBytes sz) .stackRead = .ok (src (k + 1)) := fun k hk => by
      rw [stackSlot_congr (s := s) (by rw [← hs1]) (by rw [← hs1]) (by rw [← hs1]) (by rw [← hs1]) hss, wrapStack_congr hss,
        BitVec.sub_eq_add_neg, wrapStack_add, ← hr (k + 1) (by omega)]
      congr 2
      rw [BitVec.sub_eq_add_neg, BitVec.sub_eq_add_neg, BitVec.add_assoc, ← BitVec.sub_eq_add_neg (-_),
        ← BitVec.neg_add, ← BitVec.ofNat_add]
      congr 3
      simp only [Nat.mul_add, Nat.mul_one]
      omega
    obtain ⟨vs, hl, hv, ha⟩ := ih (src := fun k => src (k + 1)) hc1 hr1
    refine ⟨s.mem.loadLE (src 0) (itemBytes sz) :: vs, by simp [hl], ?_, fun h => ?_⟩
    · show (peek (itemBytes sz) (wrapStack s (x - BitVec.ofNat 32 (itemBytes sz))) s >>= fun v =>
        push (itemBytes sz) v s >>= copyDisplay sz n (wrapStack s (x - BitVec.ofNat 32 (itemBytes sz)))) =
        (push (itemBytes sz) _ s >>= pushAll (itemBytes sz) vs)
      rw [peek_ok hr0, hp]
      show (push (itemBytes sz) (s.mem.loadLE (src 0) (itemBytes sz)) s >>= _) = _
      rw [hp]
      exact hv
    · rw [List.range_succ_eq_map, List.map_cons, List.map_map,
        ha fun k hk b hb j hj => h (k + 1) (by omega) b hb (j + 1) (by omega)]
      congr 1
      refine List.map_congr_left fun k hk => ?_
      rw [← hs1]
      exact loadLE_store_apart fun p hp' => h (k + 1) (by have := List.mem_range.1 hk; omega) p hp' 0 (by omega)

/-- ENTER as the pushes, then the frame and the storage. -/
theorem enterFrame_eq (sz : OpSize) (storage : Word) (level : Nat) (s : State) :
    enterFrame sz storage level s = (push (itemBytes sz) (truncSize sz s.regs.ebp) s >>= fun s1 =>
      (if level = 0 then .ok s1
        else copyDisplay sz (level - 1) (wrapStack s s.regs.ebp) s1 >>=
          push (itemBytes sz) (truncSize sz (stackPtr s1))) >>= fun s2 =>
      .ok (advance (setStackPtr (wrapStack (setFrame sz (stackPtr s1) s2)
        (stackPtr (setFrame sz (stackPtr s1) s2) - storage.setWidth 32)) (setFrame sz (stackPtr s1) s2)))) := by
  unfold enterFrame
  cases push (itemBytes sz) (truncSize sz s.regs.ebp) s with
  | error e => rfl
  | ok s1 =>
    simp only [bind, Except.bind]
    by_cases h : level = 0
    · simp only [h, if_true]
    · simp only [h, if_false]
      cases copyDisplay sz (level - 1) (wrapStack s s.regs.ebp) s1 <;> rfl

/-! ## Selectors and gates -/

theorem gdtLookup_ok {s : State} {sel : Word} {d : Descriptor} (h : gdtLookup s sel = .ok d) :
    descriptorOf s sel = some d ∧ d.present = true := by
  unfold gdtLookup at h
  cases hd : descriptorOf s sel with
  | none => rw [hd] at h; cases h
  | some x =>
    rw [hd] at h
    simp only at h
    split at h
    · rename_i hp; cases h; exact ⟨rfl, hp⟩
    · cases h

theorem codeSegment_ok {s : State} {sel : Word} {d : SegDesc} (h : codeSegment s sel = .ok d) :
    gdtLookup s sel = .ok (.code d) ∧ d.present = true := by
  unfold codeSegment at h
  cases hd : gdtLookup s sel with
  | error e => rw [hd] at h; cases h
  | ok x =>
    rw [hd] at h
    cases x <;> simp only [bind, Except.bind] at h <;> cases h
    exact ⟨rfl, (gdtLookup_ok hd).2⟩

theorem returnSegment_ok {s : State} {sel : Word} {d : SegDesc} (h : returnSegment s sel = .ok d) :
    codeSegment s sel = .ok d ∧ d.present = true ∧ gateAllows s (.ret d sel s.cpl) = true := by
  unfold returnSegment at h
  cases hd : codeSegment s sel with
  | error e => rw [hd] at h; cases h
  | ok x =>
    rw [hd] at h
    simp only [bind, Except.bind] at h
    split at h
    · rename_i hp; cases h; exact ⟨rfl, (codeSegment_ok hd).2, hp⟩
    · cases h

/-- Where no answer is listed, `P_GATECHECK` is its default. -/
theorem gateAllows_default {s : State} {q : GateQuery} (h : s.params.gateCheck.lookup q = none) :
    gateAllows s q = defaultGateCheck q := by
  unfold gateAllows; rw [h]; rfl

theorem stackSegment_ok {s : State} {bad : Dword → Exc} {level : BitVec 2} {sel : Word} {d : SegDesc}
    (h : stackSegment s bad level sel = .ok d) :
    descriptorOf s sel = some (.data d) ∧ d.present = true ∧ d.writable = true ∧ d.dpl = level ∧ rpl sel = level := by
  unfold stackSegment at h
  split at h
  · rename_i x hx
    split at h
    · rename_i hc
      split at h
      · rename_i hp
        cases h
        simp only [Bool.and_eq_true, beq_iff_eq] at hc
        exact ⟨hx, hp, hc.1.1, hc.1.2, hc.2⟩
      · cases h
    · cases h
  all_goals cases h

theorem idtGate_ok {s : State} {v : Byte} {g : IntGate} (h : idtGate s v = .ok g) :
    s.idt.lookup v = some (.gate g) ∧ g.access.present = true := by
  unfold idtGate at h
  split at h
  · cases h
  · rename_i x hx
    split at h
    · rename_i hp; cases h; exact ⟨hx, hp⟩
    · cases h
  · split at h <;> cases h

theorem handlerGate_ok {ev : Event} {s : State} {g : IntGate} {c : SegDesc} (h : handlerGate ev s = .ok (g, c)) :
    idtGate s ev.vector = .ok g ∧ codeSegment s g.selector = .ok c ∧ c.dpl ≤ s.cpl ∧
      (ev.kind = .software → gateAllows s (.softint g ev.vector s.cpl) = true) := by
  unfold handlerGate at h
  cases hg : idtGate s ev.vector with
  | error e => rw [hg] at h; cases h
  | ok x =>
    rw [hg] at h
    simp only [bind, Except.bind] at h
    split at h
    · cases h
    · rename_i hk
      cases hc : codeSegment s x.selector with
      | error e => rw [hc] at h; cases h
      | ok y =>
        rw [hc] at h
        simp only at h
        split at h
        · cases h
        · rename_i hd
          simp only [Except.ok.injEq, Prod.mk.injEq] at h
          obtain ⟨rfl, rfl⟩ := h
          exact ⟨rfl, hc, BitVec.not_lt.1 hd, fun hs => by simpa using fun hn => hk ⟨hs, hn⟩⟩

/-- A stack switch: the new level's stack segment, and pushes on it. -/
theorem switchStack_outcomes (level : BitVec 2) (s : State) :
    Outcomes (switchStack level s)
      (fun t => ∃ d, stackSegment s .ts level (tssStack s level).ss = .ok d ∧
        Moved ({ s with ss := ⟨(tssStack s level).ss, some d⟩,
                          regs := { s.regs with esp := (tssStack s level).esp }, cpl := level }) t) s :=
  (attempt_outcomes s _).bind fun d hd =>
    (pushAll_outcomes 4 _ _).mono (Grown.of_eq rfl rfl) fun _ ht => ⟨d, hd, ht⟩

end Sys2Proof.Laws
end

