-- ==== Sys2Proof/Laws/Entry.lean ====
section
/-! SUPPORT. What taking an exception or interrupt can do: an entry succeeds exactly where a handler stands
ready, and `deliver` answers a next state through one entry or into shutdown. -/

namespace Sys2Proof.Laws

open Sys2Proof Sys2Proof.Machine Sys2Proof.Safety

/-! ## Entry in protected mode -/

theorem switchStack_eq (level : BitVec 2) (s : State) :
    switchStack level s = (attempt s (stackSegment s .ts level (tssStack s level).ss)) >>= fun d =>
      pushAll 4 [s.ss.sel.setWidth 32, s.regs.esp]
        { s with ss := ⟨(tssStack s level).ss, some d⟩,
                 regs := { s.regs with esp := (tssStack s level).esp }, cpl := level } := rfl

/-- The pushes of an entry as one run on the stack the handler uses. -/
theorem entry_pushes {s : State} {c d : SegDesc} (rest : List Dword)
    (hd : c.dpl ≠ s.cpl → stackSegment s .ts c.dpl (tssStack s c.dpl).ss = .ok d) :
    ((if c.dpl = s.cpl then .ok s else switchStack c.dpl s) >>= pushAll 4 rest) =
      pushAll 4 ((if c.dpl = s.cpl then [] else [s.ss.sel.setWidth 32, s.regs.esp]) ++ rest)
        (entryStack c.dpl d s) := by
  unfold entryStack
  by_cases h : c.dpl = s.cpl
  · simp only [h, if_true]; rfl
  · simp only [h, if_false]
    rw [pushAll_append, switchStack_eq, hd h]
    rfl

theorem enterProtected_eq (ev : Event) (s : State) :
    enterProtected ev s = (do
      let r ← attempt s (handlerGate ev s)
      let s2 ← (if r.2.dpl = s.cpl then .ok s else switchStack r.2.dpl s) >>=
        pushAll 4 ([s.eflags, s.cs.sel.setWidth 32, savedEip ev.kind s] ++ (ev.pushed s).toList)
      .ok { s2 with
        cs := ⟨withRpl r.1.selector r.2.dpl, some r.2⟩
        eip := r.1.offset
        cpl := r.2.dpl
        eflags := match r.1.kind with
          | .interrupt => clearIF s.eflags
          | .trap => s.eflags }) := by
  unfold enterProtected
  cases handlerGate ev s with
  | error e => rfl
  | ok r =>
    obtain ⟨g, c⟩ := r
    simp only [attempt, bind, Except.bind]
    by_cases h : c.dpl = s.cpl
    · simp only [h, if_true] <;> rfl
    · simp only [h, if_false]
      cases switchStack c.dpl s <;> rfl

theorem entryItems_length (level : BitVec 2) (ev : Event) (s : State) : (entryItems level ev s).length ≤ 6 := by
  unfold entryItems
  by_cases h : level = s.cpl <;> cases ev.pushed s <;> simp [h]

theorem entryItems_eq (level : BitVec 2) (ev : Event) (s : State) :
    entryItems level ev s = (if level = s.cpl then [] else [s.ss.sel.setWidth 32, s.regs.esp]) ++
      ([s.eflags, s.cs.sel.setWidth 32, savedEip ev.kind s] ++ (ev.pushed s).toList) := by
  unfold entryItems; rw [List.append_assoc]

/-- Where a handler stands ready the entry succeeds, and leaves what `Entered` says. -/
theorem enterProtected_ok {ev : Event} {g : IntGate} {c d : SegDesc} {slot : Nat → Dword} {s : State}
    (h : HandlerReady ev g c d slot s) :
    ∃ t, enterProtected ev s = .ok t ∧ Entered ev g c d slot s t ∧ Grown s t := by
  obtain ⟨_, hg, hd, hp⟩ := h
  have hlen := entryItems_length c.dpl ev s
  obtain ⟨u, hu, hat, hk, hgr⟩ := pushAll_ok .w32 (entryItems c.dpl ev s) slot (entryStack c.dpl d s)
    (by simp only [itemBytes]; omega) hp
  refine ⟨{ u with
    cs := ⟨withRpl g.selector c.dpl, some c⟩
    eip := g.offset
    cpl := c.dpl
    eflags := match g.kind with
      | .interrupt => clearIF s.eflags
      | .trap => s.eflags }, ?_, ⟨?_, ?_⟩, ?_⟩
  · rw [enterProtected_eq, hg]
    simp only [attempt, bind, Except.bind]
    have := entry_pushes ([s.eflags, s.cs.sel.setWidth 32, savedEip ev.kind s] ++ (ev.pushed s).toList) hd
    rw [← entryItems_eq] at this
    simp only [bind, Except.bind] at this
    rw [this, show pushAll 4 = pushAll (itemBytes .w32) from rfl, hu]
  · exact pushedAt_congr hat (by unfold entryStack; split <;> rfl) (by unfold entryStack; split <;> rfl) rfl
  · have hu' := hk
    unfold entryStack at hu' ⊢
    by_cases hl : c.dpl = s.cpl
    · simp only [hl, if_true] at hu' ⊢
      rw [hu']
      cases g.kind <;> simp [itemBytes]
    · simp only [hl, if_false] at hu' ⊢
      rw [hu']
      cases g.kind <;> simp [itemBytes]
  · have hm : Grown s (entryStack c.dpl d s) := by
      unfold entryStack; split <;> exact Grown.of_eq rfl rfl
    exact ⟨fun h => (hm.trans hgr).mem h, fun h => (hm.trans hgr).written h⟩

/-- An entry that succeeded found its handler ready. -/
theorem enterProtected_ready {ev : Event} {s t : State} (hm : s.mode = .protectedMode)
    (h : enterProtected ev s = .ok t) :
    ∃ g c d slot, HandlerReady ev g c d slot s ∧ Entered ev g c d slot s t ∧ Grown s t := by
  have h0 := h
  rw [enterProtected_eq] at h
  cases hg : handlerGate ev s with
  | error e => rw [hg] at h; cases h
  | ok r =>
    obtain ⟨g, c⟩ := r
    rw [hg] at h
    simp only [attempt, bind, Except.bind] at h
    have key : ∀ d, (c.dpl ≠ s.cpl → stackSegment s .ts c.dpl (tssStack s c.dpl).ss = .ok d) →
        ∃ g c d slot, HandlerReady ev g c d slot s ∧ Entered ev g c d slot s t ∧ Grown s t := by
      intro d hd
      have hp := entry_pushes ([s.eflags, s.cs.sel.setWidth 32, savedEip ev.kind s] ++ (ev.pushed s).toList) hd
      rw [← entryItems_eq] at hp
      simp only [bind, Except.bind] at hp
      rw [hp] at h
      cases hu : pushAll 4 (entryItems c.dpl ev s) (entryStack c.dpl d s) with
      | error e => rw [hu] at h; cases h
      | ok u =>
        obtain ⟨slot, hs⟩ := pushAll_canPush .w32 _ hu
        have hr : HandlerReady ev g c d slot s := ⟨hm, hg, hd, hs⟩
        obtain ⟨t', ht', he⟩ := enterProtected_ok hr
        rw [h0] at ht'
        cases ht'
        exact ⟨g, c, d, slot, hr, he⟩
    by_cases hl : c.dpl = s.cpl
    · exact key c fun hne => absurd hl hne
    · cases hd : stackSegment s .ts c.dpl (tssStack s c.dpl).ss with
      | ok d => exact key d fun _ => hd
      | error e =>
        simp only [hl, if_false] at h
        rw [switchStack_eq, hd] at h
        cases h

theorem enterProtected_outcomes (ev : Event) (s : State) : Outcomes (enterProtected ev s) (Grown s) s := by
  rw [enterProtected_eq]
  refine (attempt_outcomes s _).bind fun r _ => ?_
  refine Outcomes.bind (good := Grown s) (Outcomes.bind (good := Grown s) ?_ fun u hu => ?_) fun u hu =>
    hu.trans (Grown.of_eq rfl rfl)
  · split
    · exact Grown.refl s
    · refine (switchStack_outcomes _ s).mono (Grown.refl s) ?_
      rintro t ⟨d, -, ht⟩
      exact ⟨fun h => ht.grown.mem h, fun h => ht.grown.written h⟩
  · exact (pushAll_outcomes 4 _ u).mono hu fun t ht => hu.trans ht.grown

/-! ## Entry in real-address mode -/

theorem realItems_length (ev : Event) (s : State) : (realItems ev s).length ≤ 4 := by
  unfold realItems
  cases ev.pushed s <;> simp

theorem enterReal_eq (ev : Event) (s : State) :
    enterReal ev s = pushAll 2 (realItems ev s) s >>= fun s1 => .ok { s1 with
      cs := realSegment ((s1.mem.loadLE (4 * ev.vector.setWidth 32 + 2) 2).setWidth 16) s.cs
      eip := s1.mem.loadLE (4 * ev.vector.setWidth 32) 2
      eflags := clearIFTF s.eflags } := rfl

theorem enterReal_ok {ev : Event} {slot : Nat → Dword} {s : State} (hp : CanPush 2 (realItems ev s).length slot s) :
    ∃ t, enterReal ev s = .ok t ∧ EnteredReal ev slot s t ∧ Grown s t := by
  obtain ⟨u, hu, hat, hk, hgr⟩ := pushAll_ok .w16 (realItems ev s) slot s
    (by have := realItems_length ev s; simp only [itemBytes]; omega) hp
  refine ⟨{ u with
      cs := realSegment ((u.mem.loadLE (4 * ev.vector.setWidth 32 + 2) 2).setWidth 16) s.cs
      eip := u.mem.loadLE (4 * ev.vector.setWidth 32) 2
      eflags := clearIFTF s.eflags }, ?_, ⟨hat, ?_⟩, ?_⟩
  · rw [enterReal_eq, show pushAll 2 = pushAll (itemBytes .w16) from rfl, hu]
    rfl
  · show ({ u with cs := _, eip := _, eflags := _ } : State) = _
    rw [hk]
    rfl
  · exact ⟨hgr.mem, hgr.written⟩

theorem enterReal_ready {ev : Event} {s t : State} (h : enterReal ev s = .ok t) :
    ∃ slot, CanPush 2 (realItems ev s).length slot s ∧ EnteredReal ev slot s t ∧ Grown s t := by
  have h0 := h
  rw [enterReal_eq] at h
  cases hu : pushAll 2 (realItems ev s) s with
  | error e => rw [hu] at h; cases h
  | ok u =>
    obtain ⟨slot, hs⟩ := pushAll_canPush .w16 _ hu
    obtain ⟨t', ht', he⟩ := enterReal_ok (ev := ev) hs
    rw [h0] at ht'
    cases ht'
    exact ⟨slot, hs, he⟩

theorem enterReal_outcomes (ev : Event) (s : State) : Outcomes (enterReal ev s) (Grown s) s :=
  (pushAll_outcomes 2 _ s).bind fun _ hu => ⟨hu.grown.mem, hu.grown.written⟩

/-! ## Delivery -/

theorem markExt_outcomes {k : EventKind} {r : Except Stop State} {good : State → Prop} {s : State}
    (h : Outcomes r good s) : Outcomes (markExt k r) good s := by
  cases r with
  | ok t => exact h
  | error e =>
    obtain ⟨why, p⟩ := e
    cases why <;> exact h

theorem markExt_ok {k : EventKind} {r : Except Stop State} {t : State} : markExt k r = .ok t ↔ r = .ok t := by
  cases r with
  | ok u => exact Iff.rfl
  | error e =>
    obtain ⟨why, p⟩ := e
    cases why <;> constructor <;> intro h <;> cases h

theorem enterHandler_outcomes (ev : Event) (s : State) : Outcomes (enterHandler ev s) (Grown s) s := by
  unfold enterHandler
  cases s.mode with
  | realMode => exact markExt_outcomes (enterReal_outcomes ev s)
  | protectedMode => exact markExt_outcomes (enterProtected_outcomes ev s)

/-- An abandoned rule leaves everything but memory as it was, and memory in its form. -/
theorem abandon_grown {s p : State} (h : Grown s p) : Grown s (abandon s p) := by
  unfold abandon
  split
  · exact ⟨id, h.written⟩
  · exact ⟨fun hm => partialMix_wf hm (h.mem hm), h.written⟩

theorem abandon_keeps (s p : State) :
    abandon s p = { s with mem := (abandon s p).mem, written := (abandon s p).written,
                           freeIx := (abandon s p).freeIx } := by
  unfold abandon; split <;> rfl

/-- Each byte an abandoned rule stored to is old or new (60_exceptions R295, decision D6). -/
theorem read_abandon (s p : State) (a : Nat) :
    (abandon s p).mem.read a = s.mem.read a ∨ (abandon s p).mem.read a = p.mem.read a := by
  unfold abandon
  split
  · exact .inl rfl
  · simp only [read_partialMix]
    split
    · exact .inr rfl
    · exact .inl rfl

/-- A rule that stored nothing leaves its state. -/
@[simp] theorem abandon_self (s : State) : abandon s s = s := by
  unfold abandon; rw [if_pos rfl]

/-- A rule that raised before it stored anything delivers its exception from the state as it was. -/
theorem complete_exc (s : State) (e : Exc) : complete s (.error ⟨.exc e, s⟩) = deliver e.event s := by
  show deliver e.event (abandon s s) = _
  rw [abandon_self]

/-- A run of pushes that raises part-way, on the stack of `s` or on one `v` switched to before it stored anything. -/
theorem complete_pushFails {sz : OpSize} {vs : List Dword} {j : Nat} {slot : Nat → Dword} {e : Exc}
    {s v : State} (f : State → Except Stop State) (hm : v.mem = s.mem) (hv : v.params = s.params)
    (hlen : itemBytes sz * vs.length ≤ 2 ^ 16) (h : PushFails (itemBytes sz) vs.length j slot e v) :
    ∃ u, PartlyPushed sz (vs.take j) slot s u ∧
      complete s (pushAll (itemBytes sz) vs v >>= f) = deliver e.event u := by
  obtain ⟨p, hp, hat, -⟩ := pushAll_fails sz vs hlen h
  refine ⟨abandon s p, ⟨p, pushedAt_congr hat hm.symm hv.symm rfl, abandon_keeps s p, read_abandon s p⟩, ?_⟩
  rw [hp]; rfl

/-- A state an event may be taken in, in a delivery that began in `s`: only memory, the record of stored
bytes and the free-value counter may differ. -/
structure Restarted (s t : State) : Prop where
  keeps : t = { s with mem := t.mem, written := t.written, freeIx := t.freeIx }
  grown : Grown s t

theorem Restarted.refl (s : State) : Restarted s s := ⟨rfl, Grown.refl s⟩

theorem Restarted.abandon {s t p : State} (h : Restarted s t) (hp : Grown t p) : Restarted s (abandon t p) :=
  ⟨by rw [abandon_keeps, h.keeps], h.grown.trans (abandon_grown hp)⟩

/-- A delivery that answers: one entry from a restarted state, or shutdown. -/
theorem deliverFrom_next {n : Nat} : ∀ {ev : Event} {s t : State}, deliverFrom n ev s = .next t →
    ∃ ev' u, Restarted s u ∧ (enterHandler ev' u = .ok t ∨ t = { u with shutdown := true }) := by
  induction n with
  | zero => intro ev s t h; cases h
  | succ n ih =>
    intro ev s t h
    rw [deliverFrom] at h
    have ho := enterHandler_outcomes ev s
    cases hr : enterHandler ev s with
    | ok u => rw [hr] at h; cases h; exact ⟨ev, s, Restarted.refl s, .inl hr⟩
    | error e =>
      obtain ⟨why, p⟩ := e
      rw [hr] at h ho
      have hp : Grown s p := ho
      have hres : Restarted s (Sys2Proof.Machine.abandon s p) := (Restarted.refl s).abandon hp
      cases why with
      | refuse r => cases h
      | exc e =>
        simp only at h
        split at h
        · obtain ⟨ev', u, hu, h'⟩ := ih h
          exact ⟨ev', u, ⟨by rw [hu.keeps, hres.keeps], hres.grown.trans hu.grown⟩, h'⟩
        · obtain ⟨ev', u, hu, h'⟩ := ih h
          exact ⟨ev', u, ⟨by rw [hu.keeps, hres.keeps], hres.grown.trans hu.grown⟩, h'⟩
        · cases h; exact ⟨ev, _, hres, .inr rfl⟩

theorem deliver_next {ev : Event} {s t : State} (h : deliver ev s = .next t) :
    ∃ ev' u, Restarted s u ∧ (enterHandler ev' u = .ok t ∨ t = { u with shutdown := true }) :=
  deliverFrom_next h

/-- An event whose entry succeeds is delivered by it. -/
theorem deliver_of_entry {ev : Event} {s t : State} (h : enterHandler ev s = .ok t) : deliver ev s = .next t := by
  unfold deliver
  rw [deliverFrom, h]

theorem deliver_ready {ev : Event} {g : IntGate} {c d : SegDesc} {slot : Nat → Dword} {s : State}
    (h : HandlerReady ev g c d slot s) : ∃ t, deliver ev s = .next t ∧ Entered ev g c d slot s t := by
  obtain ⟨t, ht, he, -⟩ := enterProtected_ok h
  refine ⟨t, deliver_of_entry ?_, he⟩
  unfold enterHandler
  rw [h.1]
  exact markExt_ok.2 ht

theorem deliver_real {ev : Event} {slot : Nat → Dword} {s : State} (hm : s.mode = .realMode)
    (hp : CanPush 2 (realItems ev s).length slot s) : ∃ t, deliver ev s = .next t ∧ EnteredReal ev slot s t := by
  obtain ⟨t, ht, he, -⟩ := enterReal_ok (ev := ev) hp
  refine ⟨t, deliver_of_entry ?_, he⟩
  unfold enterHandler
  rw [hm]
  exact markExt_ok.2 ht

/-- An exception raised while an event is delivered is delivered as the event asks (60_exceptions R294), from the
state the failed entry leaves. -/
theorem deliverFrom_nested {n : Nat} {ev : Event} {e : Exc} {p s : State}
    (h : enterHandler ev s = .error ⟨.exc e, p⟩) :
    deliverFrom (n + 1) ev s = match escalate ev e.vector with
      | .serial => deliverFrom n e.event (abandon s p)
      | .double => deliverFrom n Exc.df.event (abandon s p)
      | .shutdown => .next { abandon s p with shutdown := true } := by
  rw [deliverFrom]
  simp only [h] <;> cases escalate ev e.vector <;> rfl

/-- An instruction that answers: its own effect, or an exception it raised taken or ended in shutdown. -/
theorem complete_next {s t : State} {r : Except Stop State} {good : State → Prop} (ho : Outcomes r good s)
    (h : complete s r = .next t) :
    (r = .ok t ∧ good t) ∨
      ∃ ev u, Restarted s u ∧ (enterHandler ev u = .ok t ∨ t = { u with shutdown := true }) := by
  unfold complete at h
  cases r with
  | ok u => cases h; exact .inl ⟨rfl, ho⟩
  | error e =>
    obtain ⟨why, p⟩ := e
    cases why with
    | refuse x => cases h
    | exc e =>
      obtain ⟨ev, u, hu, h'⟩ := deliver_next h
      have hres : Restarted s (Sys2Proof.Machine.abandon s p) := (Restarted.refl s).abandon ho
      exact .inr ⟨ev, u, ⟨by rw [hu.keeps, hres.keeps], hres.grown.trans hu.grown⟩, h'⟩

/-- How an event that began in `s` ended: in a handler of its own or of an exception raised on the way, entered
from a state that differs from `s` in memory alone, or in shutdown. -/
inductive Delivered (s t : State) : Prop where
  | entered (ev : Event) (u : State) (g : IntGate) (c d : SegDesc) (slot : Nat → Dword) (hu : Restarted s u)
      (hr : HandlerReady ev g c d slot u) (he : Entered ev g c d slot u t) (hg : Grown u t)
  | enteredReal (ev : Event) (u : State) (slot : Nat → Dword) (hu : Restarted s u) (hm : u.mode = .realMode)
      (hp : CanPush 2 (realItems ev u).length slot u) (he : EnteredReal ev slot u t) (hg : Grown u t)
  | shutdown (u : State) (hu : Restarted s u) (h : t = { u with shutdown := true })

theorem Delivered.of_entry {s t : State}
    (h : ∃ ev u, Restarted s u ∧ (enterHandler ev u = .ok t ∨ t = { u with shutdown := true })) :
    Delivered s t := by
  obtain ⟨ev, u, hu, h | h⟩ := h
  · unfold enterHandler at h
    split at h
    · rename_i hm
      obtain ⟨slot, hp, he, hg⟩ := enterReal_ready (markExt_ok.1 h)
      exact .enteredReal ev u slot hu hm hp he hg
    · rename_i hm
      obtain ⟨g, c, d, slot, hr, he, hg⟩ := enterProtected_ready hm (markExt_ok.1 h)
      exact .entered ev u g c d slot hu hr he hg
  · exact .shutdown u hu h

theorem deliver_cases {ev : Event} {s t : State} (h : deliver ev s = .next t) : Delivered s t :=
  .of_entry (deliver_next h)

end Sys2Proof.Laws
end

