-- ==== Sys2Proof/Laws/Exec.lean ====
section
/-! SUPPORT. What an instruction can do, said once: one inversion lemma for each control transfer and one for
`exec`, from which the invariants follow. -/

namespace Sys2Proof.Laws

open Sys2Proof Sys2Proof.Machine Sys2Proof.Safety

/-- Of two different levels one is below the other. -/
theorem level_lt {a b : BitVec 2} (h : ¬ a < b) (hne : a ≠ b) : b < a := by bv_omega

/-! ## Calls -/

/-- What a far CALL that answers has done to CS, SS and CPL; general registers, EIP and memory aside. -/
inductive Called (s t : State) : Prop where
  | real (hm : s.mode = .realMode) (sel : Word)
      (h : t = { s with regs := t.regs, eip := t.eip, mem := t.mem, written := t.written,
                        cs := realSegment sel s.cs })
  | direct (hm : s.mode = .protectedMode) (sel : Word) (d : SegDesc)
      (hd : gdtLookup s sel = .ok (.code d)) (hl : d.dpl = s.cpl)
      (h : t = { s with regs := t.regs, eip := t.eip, mem := t.mem, written := t.written,
                        cs := ⟨withRpl sel s.cpl, some d⟩ })
  | gateSame (hm : s.mode = .protectedMode) (gsel : Word) (g : CallGate) (c : SegDesc)
      (hg : gdtLookup s gsel = .ok (.callGate g)) (hk : gateAllows s (.call g gsel s.cpl) = true)
      (hc : codeSegment s g.selector = .ok c) (hl : c.dpl = s.cpl)
      (h : t = { s with regs := t.regs, eip := t.eip, mem := t.mem, written := t.written,
                        cs := ⟨withRpl g.selector c.dpl, some c⟩ })
  | gateInward (hm : s.mode = .protectedMode) (gsel : Word) (g : CallGate) (c d : SegDesc)
      (hg : gdtLookup s gsel = .ok (.callGate g)) (hk : gateAllows s (.call g gsel s.cpl) = true)
      (hc : codeSegment s g.selector = .ok c) (hl : c.dpl < s.cpl)
      (hd : stackSegment s .ts c.dpl (tssStack s c.dpl).ss = .ok d) (slot : Nat → Dword) (rest : List Dword)
      (hp : CanPush 4 (2 + rest.length) slot (entryStack c.dpl d s))
      (hat : PushedAt .w32 ([s.ss.sel.setWidth 32, s.regs.esp] ++ rest) slot s t)
      (h : t = { s with regs := t.regs, eip := t.eip, mem := t.mem, written := t.written, cpl := c.dpl,
                        cs := ⟨withRpl g.selector c.dpl, some c⟩, ss := ⟨(tssStack s c.dpl).ss, some d⟩ })

/-- The three runs of pushes of a call to a more privileged level are one run on the new stack. -/
theorem gate_pushes {s t u v : State} {c d : SegDesc} {n : BitVec 5} {old : SegReg} {narrow : Bool}
    {ptr a b : Dword} (hl : c.dpl ≠ s.cpl) (hd : stackSegment s .ts c.dpl (tssStack s c.dpl).ss = .ok d)
    (ht : switchStack c.dpl s = .ok t) (hu : copyParams old narrow ptr n.toNat t = .ok u)
    (hv : pushAll 4 [a, b] u = .ok v) :
    ∃ slot rest, CanPush 4 (2 + List.length rest) slot (entryStack c.dpl d s) ∧
      PushedAt .w32 ([s.ss.sel.setWidth 32, s.regs.esp] ++ rest) slot s v := by
  obtain ⟨vs, hlen, hvs⟩ := copyParams_pushes hu
  have he : pushAll (itemBytes .w32) ([s.ss.sel.setWidth 32, s.regs.esp] ++ (vs ++ [a, b])) (entryStack c.dpl d s) =
      .ok v := by
    rw [switchStack_eq, hd] at ht
    unfold entryStack
    rw [pushAll_append, if_neg hl]
    change (pushAll 4 _ _ >>= fun x => pushAll 4 (vs ++ [a, b]) x) = _
    rw [show pushAll 4 [s.ss.sel.setWidth 32, s.regs.esp] _ = .ok t from ht]
    change pushAll 4 (vs ++ [a, b]) t = _
    rw [pushAll_append, hvs]
    exact hv
  obtain ⟨slot, hs⟩ := pushAll_canPush .w32 _ he
  have hn := n.isLt
  obtain ⟨v', hv', hat, -⟩ := pushAll_ok .w32 _ slot _ (by simp [itemBytes, hlen]; omega) hs
  rw [he] at hv'
  cases hv'
  refine ⟨slot, vs ++ [a, b], fun j hj => hs j (by simp at hj ⊢; omega),
    pushedAt_congr hat (by unfold entryStack; split <;> rfl) (by unfold entryStack; split <;> rfl) rfl⟩

theorem gateCall_outcomes (gsel : Word) (g : CallGate) (s : State) (hm : s.mode = .protectedMode)
    (hg : gdtLookup s gsel = .ok (.callGate g)) :
    Outcomes (gateCall g gsel s) (fun t => Called s t ∧ Grown s t) s := by
  unfold gateCall
  split
  · exact Grown.refl s
  · rename_i hk
    refine (attempt_outcomes s _).bind fun c hc => ?_
    split
    · exact Grown.refl s
    · rename_i hlt
      by_cases hl : c.dpl = s.cpl
      · simp only [hl, if_true]
        refine (pushAll_outcomes 4 _ s).bind fun t ht =>
          ⟨.gateSame hm gsel g c hg (by simpa using hk) hc hl ?_, ⟨ht.grown.mem, ht.grown.written⟩⟩
        rw [ht.keeps, hl]
      · simp only [hl, if_false]
        refine (switchStack_outcomes c.dpl s).self.bind fun t ht => ?_
        obtain ⟨⟨d, hd, ht⟩, het⟩ := ht
        have hgt : Grown s t := ⟨fun h => ht.grown.mem h, fun h => ht.grown.written h⟩
        refine ((copyParams_outcomes s.ss _ _ _ t).self.mono hgt
          fun u hu => And.intro (ht.trans hu.1) hu.2).bind fun u hu => ?_
        obtain ⟨hu, heu⟩ := hu
        have hgu : Grown s u := ⟨fun h => hu.grown.mem h, fun h => hu.grown.written h⟩
        refine ((pushAll_outcomes 4 _ u).self.mono hgu fun v hv =>
          And.intro (hu.trans hv.1) hv.2).bind fun v hv => ?_
        obtain ⟨hv, hev⟩ := hv
        obtain ⟨slot, rest, hp, hat⟩ := gate_pushes hl hd het heu hev
        refine ⟨.gateInward hm gsel g c d hg (by simpa using hk) hc ?_ hd slot rest hp hat ?_,
          ⟨fun h => hv.grown.mem h, fun h => hv.grown.written h⟩⟩
        · exact level_lt hlt (fun e => hl e.symm)
        · rw [hv.keeps]

theorem farCall_outcomes (sz : OpSize) (sel : Word) (off : Dword) (s : State) :
    Outcomes (farCall sz sel off s) (fun t => Called s t ∧ Grown s t) s := by
  unfold farCall
  cases hm : s.mode with
  | realMode =>
    refine (pushAll_outcomes _ _ s).bind fun t ht =>
      ⟨.real hm sel ?_, ⟨fun h => ht.grown.mem h, fun h => ht.grown.written h⟩⟩
    rw [ht.keeps]
  | protectedMode =>
    refine (attempt_outcomes s _).bind fun d hd => ?_
    cases d with
    | code d =>
      simp only
      split
      · exact Grown.refl s
      · rename_i hl
        refine (pushAll_outcomes _ _ s).bind fun t ht =>
          ⟨.direct hm sel d hd (Classical.not_not.1 hl) ?_, ⟨fun h => ht.grown.mem h, fun h => ht.grown.written h⟩⟩
        rw [ht.keeps]
    | callGate g => exact gateCall_outcomes sel g s hm hd
    | data d => exact Grown.refl s
    | taskGate a => exact Grown.refl s
    | tss a => exact Grown.refl s

/-! ## Returns -/

/-- What a far return or an IRET that answers has done to CS, SS, the data segment registers and CPL; general
registers and EIP aside. `flags` is EFLAGS after it. -/
inductive Returned (s : State) (flags : Dword) (t : State) : Prop where
  | real (hm : s.mode = .realMode) (sel : Word)
      (h : t = { s with regs := t.regs, eip := t.eip, eflags := flags, cs := realSegment sel s.cs })
  | same (hm : s.mode = .protectedMode) (sel : Word) (d : SegDesc) (hd : codeSegment s sel = .ok d)
      (hl : rpl sel = s.cpl)
      (h : t = { s with regs := t.regs, eip := t.eip, eflags := flags, cs := ⟨sel, some d⟩ })
  | outward (hm : s.mode = .protectedMode) (sel : Word) (d : SegDesc) (ssSel : Word) (sd : SegDesc)
      (hd : returnSegment s sel = .ok d) (hl : s.cpl < rpl sel)
      (hs : stackSegment s .gp (rpl sel) ssSel = .ok sd)
      (h : t = { s with
        regs := t.regs, eip := t.eip, eflags := flags, cs := ⟨sel, some d⟩, cpl := rpl sel, ss := ⟨ssSel, some sd⟩
        ds := nullAbove (rpl sel) s.ds, es := nullAbove (rpl sel) s.es
        fs := nullAbove (rpl sel) s.fs, gs := nullAbove (rpl sel) s.gs })

theorem outerReturn_outcomes (sz : OpSize) (q eip : Dword) (sel : Word) (s : State)
    (hm : s.mode = .protectedMode) (hl : s.cpl < rpl sel) :
    Outcomes (outerReturn sz q eip sel s) (Returned s s.eflags) s := by
  unfold outerReturn
  refine (attempt_outcomes s _).bind fun d hd => ?_
  refine (peek_outcomes _ _ s).bind fun esp _ => ?_
  refine (peek_outcomes _ _ s).bind fun item _ => ?_
  refine (attempt_outcomes s _).bind fun sd hs => ?_
  exact .outward hm sel d _ sd hd hl hs rfl

theorem farReturn_outcomes (sz : OpSize) (k : Dword) (s : State) :
    Outcomes (farReturn sz k s) (Returned s s.eflags) s := by
  unfold farReturn
  refine (peek_outcomes _ _ s).bind fun eip _ => ?_
  refine (peek_outcomes _ _ s).bind fun item _ => ?_
  split
  · rename_i hm
    exact .real hm (item.setWidth 16) rfl
  · rename_i hm
    dsimp only
    split
    · exact Grown.refl s
    · rename_i hnl
      split
      · rename_i hl
        refine (attempt_outcomes s _).bind fun d hd => ?_
        exact .same hm (item.setWidth 16) d hd hl rfl
      · rename_i hne
        have hlt : s.cpl < rpl (item.setWidth 16) :=
          level_lt hnl hne
        refine (outerReturn_outcomes sz _ eip _ s hm hlt).bind fun t ht => ?_
        cases ht with
        | real hm' => rw [hm] at hm'; cases hm'
        | same _ sel d hd hl h =>
          refine .same hm sel d hd hl ?_
          show release k t = _
          rw [h]; rfl
        | outward _ sel d ssSel sd hd hl hs h =>
          refine .outward hm sel d ssSel sd hd hl hs ?_
          show release k t = _
          rw [h]; rfl

theorem interruptReturn_outcomes (sz : OpSize) (s : State) :
    Outcomes (interruptReturn sz s)
      (fun t => ∃ image, Returned s (flagsAfterIret sz s image) t) s := by
  unfold interruptReturn
  refine (peek_outcomes _ _ s).bind fun eip _ => ?_
  refine (peek_outcomes _ _ s).bind fun item _ => ?_
  refine (peek_outcomes _ _ s).bind fun image _ => ?_
  split
  · rename_i hm
    exact ⟨image, .real hm (item.setWidth 16) rfl⟩
  · rename_i hm
    dsimp only
    split
    · exact Grown.refl s
    split
    · exact Grown.refl s
    split
    · exact Grown.refl s
    · rename_i hnl
      split
      · rename_i hl
        refine (attempt_outcomes s _).bind fun d hd => ?_
        exact ⟨image, .same hm (item.setWidth 16) d hd hl rfl⟩
      · rename_i hne
        have hlt : s.cpl < rpl (item.setWidth 16) :=
          level_lt hnl hne
        refine (outerReturn_outcomes sz _ eip _ s hm hlt).bind fun t ht => ⟨image, ?_⟩
        cases ht with
        | real hm' => rw [hm] at hm'; cases hm'
        | same _ sel d hd hl h =>
          refine .same hm sel d hd hl ?_
          show ({ t with eflags := _, regs := _ } : State) = _
          rw [h]
        | outward _ sel d ssSel sd hd hl hs h =>
          refine .outward hm sel d ssSel sd hd hl hs ?_
          show ({ t with eflags := _, regs := _ } : State) = _
          rw [h]

/-! ## Segment loads -/

theorem loadStackSeg_ok {s : State} {sel : Word} {r : SegReg} (h : loadStackSeg s sel = .ok r) :
    StackSegLoaded s sel r := by
  unfold loadStackSeg at h
  unfold StackSegLoaded
  cases hm : s.mode with
  | realMode => rw [hm] at h; cases h; rfl
  | protectedMode =>
    rw [hm] at h
    cases hd : stackSegment s .gp s.cpl sel with
    | error e => rw [hd] at h; cases h
    | ok d =>
      rw [hd] at h
      cases h
      obtain ⟨h1, h2, h3, h4, h5⟩ := stackSegment_ok hd
      exact ⟨d, h1, h3, h4, h5, h2, rfl⟩

/-! ## Every instruction -/

/-- What the effect of an instruction's own can be, an event taken instead aside. -/
inductive OwnEffect (i : Instr) (s t : State) : Prop where
  /-- General registers, EIP and memory. -/
  | plain (h : t = { s with regs := t.regs, eip := t.eip, mem := t.mem, written := t.written })
  /-- POPF. -/
  | popf (v : Dword) (hi : i = .popf)
      (h : t = { s with regs := t.regs, eip := t.eip, eflags := flagsAfterPopf s v })
  /-- POPFD. -/
  | popfd (v : Dword) (hi : i = .popfd)
      (h : t = { s with regs := t.regs, eip := t.eip, eflags := flagsAfterPopfd s v })
  /-- POP of a data segment register. -/
  | dataSeg (h : t = { s with regs := t.regs, eip := t.eip, ds := t.ds, es := t.es, fs := t.fs, gs := t.gs })
  /-- POP SS. -/
  | stackSeg (sel : Word) (r : SegReg) (hi : ∃ sz, i = .popSs sz) (hr : StackSegLoaded s sel r)
      (h : t = { s with regs := t.regs, eip := t.eip, ss := r, intShadow := true })
  /-- A far CALL. -/
  | call (h : Called s t)
  /-- A far return. -/
  | far (hi : returnsOutward i = true) (h : Returned s s.eflags t)
  /-- IRET or IRETD. -/
  | iret (sz : OpSize) (image : Dword) (hi : i = .iret ∨ i = .iretd)
      (h : Returned s (flagsAfterIret sz s image) t)

/-- An event taken, or shutdown, in a state that differs from `s` in memory alone. -/
def TookEvent (s t : State) : Prop :=
  ∃ ev u, Restarted s u ∧ (enterHandler ev u = .ok t ∨ t = { u with shutdown := true })

theorem OwnEffect.ofMoved {i : Instr} {s t : State} (h : Moved s t) (e : Dword) :
    OwnEffect i s { t with eip := e } ∧ Grown s { t with eip := e } :=
  ⟨.plain (by rw [h.keeps]), ⟨h.grown.mem, h.grown.written⟩⟩

theorem pushItem_outcomes (i : Instr) (sz : OpSize) (v : Dword) (s : State) :
    Outcomes (pushItem sz v s) (fun t => OwnEffect i s t ∧ Grown s t) s :=
  (push_outcomes _ v s).bind fun t ht => OwnEffect.ofMoved ht t.pcNext

theorem nearCall_outcomes (i : Instr) (sz : OpSize) (target : Dword) (s : State) :
    Outcomes (nearCall sz target s) (fun t => OwnEffect i s t ∧ Grown s t) s :=
  (attempt_outcomes s _).bind fun x _ => (push_outcomes _ _ s).bind fun _ ht => OwnEffect.ofMoved ht x

theorem nearReturn_outcomes (i : Instr) (sz : OpSize) (k : Dword) (s : State) :
    Outcomes (nearReturn sz k s) (fun t => OwnEffect i s t ∧ Grown s t) s := by
  refine (pop_outcomes _ s).bind fun r hr => ?_
  obtain ⟨v, u⟩ := r
  simp only at hr
  subst hr
  exact (attempt_outcomes s _).bind fun x _ => ⟨.plain rfl, Grown.of_eq rfl rfl⟩

theorem popAll_outcomes (i : Instr) (sz : OpSize) (s : State) :
    Outcomes (popAll sz s) (fun t => OwnEffect i s t ∧ Grown s t) s := by
  refine (popEach_outcomes sz _ s).bind fun t ht => ?_
  refine ((popEach_outcomes sz _ _).mono (t := release (BitVec.ofNat 32 (itemBytes sz)) t) ?_ fun u hu => hu).bind
    fun u hu => ⟨.plain ?_, ?_⟩
  · rw [release_eq, ht]; exact Grown.of_eq rfl rfl
  · show advance u = _
    rw [hu, release_eq, ht]
    rfl
  · show Grown s (advance u)
    rw [hu, release_eq, ht]; exact Grown.of_eq rfl rfl

theorem popDataSeg_outcomes (sz : OpSize) (r : SegReg) (s : State) :
    Outcomes (popDataSeg sz r s) (fun p => p.2 = { s with regs := p.2.regs, eip := p.2.eip }) s := by
  show Outcomes (pop (itemBytes sz) s >>= fun p =>
    attempt p.2 (loadDataSeg p.2 r (p.1.setWidth 16)) >>= fun r' => .ok (r', advance p.2)) _ s
  refine (pop_outcomes _ s).bind fun p hp => ?_
  have hs : Moved s p.2 := by rw [hp]; exact Moved.regs s _
  refine (Outcomes.rebase hs.grown (attempt_outcomes _ _)).bind fun r' _ => Outcomes.ok ?_
  show advance p.2 = _
  rw [hp]; rfl

theorem enterFrame_outcomes (i : Instr) (sz : OpSize) (storage : Word) (level : Nat) (s : State) :
    Outcomes (enterFrame sz storage level s) (fun t => OwnEffect i s t ∧ Grown s t) s := by
  refine (push_outcomes _ _ s).bind fun s1 h1 => ?_
  have hb : ∀ s2, Moved s s2 → Outcomes (.ok (advance (setStackPtr
      (wrapStack (setFrame sz (stackPtr s1) s2)
        (stackPtr (setFrame sz (stackPtr s1) s2) - storage.setWidth 32)) (setFrame sz (stackPtr s1) s2))))
      (fun t => OwnEffect i s t ∧ Grown s t) s := fun s2 h2 =>
    OwnEffect.ofMoved ((h2.trans (Moved.setFrame sz _ s2)).trans (Moved.setStackPtr _ _)) _
  by_cases hl : level = 0
  · simp only [hl, if_true]
    exact hb s1 h1
  · simp only [hl, if_false]
    refine ((copyDisplay_outcomes sz _ _ s1).mono h1.grown fun t ht => h1.trans ht).bind fun t ht => ?_
    exact ((push_outcomes _ _ t).mono ht.grown fun u hu => ht.trans hu).bind fun u hu => hb u hu

theorem complete_cases {i : Instr} {s t : State} {r : Except Stop State}
    (ho : Outcomes r (fun t => OwnEffect i s t ∧ Grown s t) s) (h : complete s r = .next t) :
    (OwnEffect i s t ∧ Grown s t) ∨ TookEvent s t :=
  (complete_next ho h).imp And.right id

theorem popR_outcomes (i : Instr) (sz : OpSize) (r : Reg) (s : State) :
    Outcomes (pop (itemBytes sz) s >>= fun p => .ok (advance (writeReg sz r p.1 p.2)))
      (fun t => OwnEffect i s t ∧ Grown s t) s := by
  refine (pop_outcomes _ s).bind fun p hp => Outcomes.ok ⟨.plain ?_, ?_⟩
  · rw [hp]; rfl
  · rw [hp]; exact Grown.of_eq rfl rfl

theorem popRM_outcomes (i : Instr) (sz : OpSize) (rm : RM) (s : State) :
    Outcomes (pop (itemBytes sz) s >>= fun p => writeRMOp sz rm p.1 p.2 >>= fun t => .ok (advance t))
      (fun t => OwnEffect i s t ∧ Grown s t) s := by
  refine (pop_outcomes _ s).bind fun p hp => ?_
  have hs : Moved s p.2 := by rw [hp]; exact Moved.regs s _
  refine (Outcomes.rebase hs.grown (writeRMOp_outcomes sz rm p.1 p.2)).bind fun t ht => Outcomes.ok ?_
  exact OwnEffect.ofMoved (hs.trans ht) _

theorem popSs_outcomes (sz : OpSize) (s : State) :
    Outcomes (pop (itemBytes sz) s >>= fun p => attempt p.2 (loadStackSeg p.2 (p.1.setWidth 16)) >>= fun r =>
      .ok (advance { p.2 with ss := r, intShadow := true }))
      (fun t => OwnEffect (.popSs sz) s t ∧ Grown s t) s := by
  refine (pop_outcomes _ s).bind fun p hp => ?_
  have hs : Moved s p.2 := by rw [hp]; exact Moved.regs s _
  refine (Outcomes.rebase hs.grown (attempt_outcomes _ _)).bind fun r hr => Outcomes.ok ?_
  refine ⟨.stackSeg (p.1.setWidth 16) r ⟨sz, rfl⟩ (loadStackSeg_ok (s := s) ?_) ?_, ?_⟩
  · rw [← hr, hp]; rfl
  · rw [hp]; rfl
  · rw [hp]; exact Grown.of_eq rfl rfl

theorem popFlags_outcomes {i : Instr} (n : Nat) (f : Dword → Dword) (s : State)
    (hi : ∀ v g, OwnEffect i s (advance { s with regs := g, eflags := f v })) :
    Outcomes (pop n s >>= fun p => .ok (advance { p.2 with eflags := f p.1 }))
      (fun t => OwnEffect i s t ∧ Grown s t) s := by
  refine (pop_outcomes _ s).bind fun p hp => Outcomes.ok ⟨?_, ?_⟩
  · rw [hp]; exact hi p.1 _
  · rw [hp]; exact Grown.of_eq rfl rfl

/-- What an instruction that answers a next state has done: an effect of its own, or an event taken. -/
theorem exec_next {i : Instr} {s t : State} (h : exec i s = .next t) :
    (OwnEffect i s t ∧ Grown s t) ∨ TookEvent s t := by
  have hpush : ∀ sz v, complete s (pushItem sz v s) = .next t → (OwnEffect i s t ∧ Grown s t) ∨ TookEvent s t :=
    fun sz v h => complete_cases (pushItem_outcomes i sz v s) h
  have hseg : ∀ sz r (f : SegReg × State → State),
      (∀ p : SegReg × State, p.2 = { s with regs := p.2.regs, eip := p.2.eip } → f p =
        { s with regs := (f p).regs, eip := (f p).eip, ds := (f p).ds, es := (f p).es, fs := (f p).fs,
                 gs := (f p).gs }) →
      complete s (popDataSeg sz r s >>= fun p => .ok (f p)) = .next t →
        (OwnEffect i s t ∧ Grown s t) ∨ TookEvent s t := fun sz r f hf h =>
    complete_cases ((popDataSeg_outcomes sz r s).bind (good' := fun t => OwnEffect i s t ∧ Grown s t) fun p hp =>
      Outcomes.ok ⟨.dataSeg (hf p hp), by rw [hf p hp]; exact Grown.of_eq rfl rfl⟩) h
  have hdel : ∀ ev, deliver ev s = .next t → (OwnEffect i s t ∧ Grown s t) ∨ TookEvent s t :=
    fun ev h => by
      obtain ⟨ev', u, hu⟩ := deliver_next h
      exact .inr ⟨ev', u, hu⟩
  cases i with
  | pushR sz r => exact hpush _ _ h
  | pushRM sz rm =>
    exact complete_cases ((readRMOp_outcomes sz rm s).bind fun v _ => pushItem_outcomes _ sz v s) h
  | pushImm8 sz imm => exact hpush _ _ h
  | pushImm sz imm => exact hpush _ _ h
  | pushEs sz => exact hpush _ _ h
  | pushCs sz => exact hpush _ _ h
  | pushSs sz => exact hpush _ _ h
  | pushDs sz => exact hpush _ _ h
  | pushFs sz => exact hpush _ _ h
  | pushGs sz => exact hpush _ _ h
  | popR sz r => exact complete_cases (popR_outcomes _ sz r s) h
  | popRM sz rm => exact complete_cases (popRM_outcomes _ sz rm s) h
  | popEs sz => exact hseg sz s.es (fun p => { p.2 with es := p.1 }) (fun p hp => by simp only; rw [hp]) h
  | popDs sz => exact hseg sz s.ds (fun p => { p.2 with ds := p.1 }) (fun p hp => by simp only; rw [hp]) h
  | popFs sz => exact hseg sz s.fs (fun p => { p.2 with fs := p.1 }) (fun p hp => by simp only; rw [hp]) h
  | popGs sz => exact hseg sz s.gs (fun p => { p.2 with gs := p.1 }) (fun p hp => by simp only; rw [hp]) h
  | popSs sz => exact complete_cases (popSs_outcomes sz s) h
  | pusha =>
    exact complete_cases ((pushAll_outcomes 2 _ s).bind fun t ht => Outcomes.ok (OwnEffect.ofMoved ht t.pcNext)) h
  | pushad =>
    exact complete_cases ((pushAll_outcomes 4 _ s).bind fun t ht => Outcomes.ok (OwnEffect.ofMoved ht t.pcNext)) h
  | popa => exact complete_cases (popAll_outcomes _ _ s) h
  | popad => exact complete_cases (popAll_outcomes _ _ s) h
  | pushf => exact hpush _ _ h
  | pushfd => exact hpush _ _ h
  | popf => exact complete_cases (popFlags_outcomes 2 _ s fun v _ => .popf v rfl rfl) h
  | popfd => exact complete_cases (popFlags_outcomes 4 _ s fun v _ => .popfd v rfl rfl) h
  | callRel sz rel => exact complete_cases (nearCall_outcomes _ _ _ s) h
  | callRM sz rm =>
    exact complete_cases ((readRMOp_outcomes sz rm s).bind fun v _ => nearCall_outcomes _ sz v s) h
  | callPtr sz sel off =>
    exact complete_cases ((farCall_outcomes _ _ _ s).mono (Grown.refl s) fun _ ht => ⟨.call ht.1, ht.2⟩) h
  | callMem sz m =>
    refine complete_cases ((readMemOp_outcomes _ m _ s).bind fun off _ => (readMemOp_outcomes 2 m _ s).bind
      fun sel _ => (farCall_outcomes _ _ _ s).mono (Grown.refl s) fun _ ht => ⟨.call ht.1, ht.2⟩) h
  | ret sz => exact complete_cases (nearReturn_outcomes _ _ _ s) h
  | retImm sz k => exact complete_cases (nearReturn_outcomes _ _ _ s) h
  | retf sz =>
    refine complete_cases ((farReturn_outcomes _ _ s).mono (Grown.refl s) fun t ht => ⟨.far rfl ht, ?_⟩) h
    cases ht <;> rename_i h <;> rw [h] <;> exact Grown.of_eq rfl rfl
  | retfImm sz k =>
    refine complete_cases ((farReturn_outcomes _ _ s).mono (Grown.refl s) fun t ht => ⟨.far rfl ht, ?_⟩) h
    cases ht <;> rename_i h <;> rw [h] <;> exact Grown.of_eq rfl rfl
  | enter sz storage level => exact complete_cases (enterFrame_outcomes _ _ _ _ s) h
  | leave sz =>
    refine complete_cases ?_ h
    exact (peek_outcomes _ _ s).bind fun v _ => Outcomes.ok ⟨.plain rfl, Grown.of_eq rfl rfl⟩
  | int3 => exact hdel _ h
  | intImm n => exact hdel _ h
  | into =>
    change (if flagOF s.eflags then deliver (softwareEvent 4) s else .next (advance s)) = .next t at h
    split at h
    · exact hdel _ h
    · cases h; exact .inl ⟨.plain rfl, Grown.of_eq rfl rfl⟩
  | iret =>
    refine complete_cases ((interruptReturn_outcomes _ s).mono (Grown.refl s) fun t ht => ?_) h
    obtain ⟨image, ht⟩ := ht
    refine ⟨.iret _ image (.inl rfl) ht, ?_⟩
    cases ht <;> rename_i h <;> rw [h] <;> exact Grown.of_eq rfl rfl
  | iretd =>
    refine complete_cases ((interruptReturn_outcomes _ s).mono (Grown.refl s) fun t ht => ?_) h
    obtain ⟨image, ht⟩ := ht
    refine ⟨.iret _ image (.inr rfl) ht, ?_⟩
    cases ht <;> rename_i h <;> rw [h] <;> exact Grown.of_eq rfl rfl
  | bound sz r m =>
    refine complete_cases ((readMemOp_outcomes _ m _ s).bind fun lo _ => (readMemOp_outcomes _ m _ s).bind
      fun hi _ => ?_) h
    simp only
    split
    · exact Grown.refl s
    · exact ⟨.plain rfl, Grown.of_eq rfl rfl⟩
  | ud2 => exact complete_cases (r := .error ⟨.exc .ud, s⟩) (Grown.refl s) h

/-- An instruction that answers: its own effect, or an event delivered instead. -/
theorem exec_cases {i : Instr} {s t : State} (h : exec i s = .next t) :
    (OwnEffect i s t ∧ Grown s t) ∨ Delivered s t :=
  (exec_next h).imp id .of_entry

end Sys2Proof.Laws
end

