-- ==== Sys2Proof/Laws/PerInstr.lean ====
section
/-! SUPPORT. One lemma per instruction: how many bytes its encoding takes (30_encoding R90). -/

namespace Sys2Proof.Laws

open Sys2Proof

theorem swapByte_length (d : Bool) (b : Byte) (sz : OpSize) : (swapByte d b sz).length ≤ 1 := by
  unfold swapByte; split <;> simp

theorem sizedBytes_length (sz : OpSize) (v : Dword) : (sizedBytes sz v).length ≤ 4 := by
  cases sz <;> simp [sizedBytes, dwordBytes]

theorem addrBytes_length (reg : BitVec 3) (a : MemAddr) :
    1 ≤ (addrBytes reg a).length ∧ (addrBytes reg a).length ≤ 6 := by
  cases a with
  | a32 b i disp =>
    rcases b with _ | b <;> rcases i with _ | ⟨i, sc⟩ <;> first
      | (simp [addrBytes, dwordBytes]; done)
      | (cases b <;> simp [addrBytes, dwordBytes])
  | a16 f disp => cases f <;> simp [addrBytes, wordBytes]

theorem rmBytes_length (reg : BitVec 3) (rm : RM) : 1 ≤ (rmBytes reg rm).length ∧ (rmBytes reg rm).length ≤ 6 := by
  cases rm with
  | reg r => simp [rmBytes]
  | mem m => exact addrBytes_length reg m.addr

theorem modifierBytes_length (d : Bool) (i : Instr) : (modifierBytes d i).length ≤ 3 := by
  have key : ∀ x y : List Byte, x.length ≤ 1 → y.length ≤ 2 → (x ++ y).length ≤ 3 := fun x y hx hy => by
    rw [List.length_append]; omega
  unfold modifierBytes
  refine key _ _ ?_ ?_
  · split
    · exact swapByte_length _ _ _
    · exact Nat.zero_le _
  · split
    · rename_i m _
      rw [List.length_append]
      have h := swapByte_length d 0x67 m.addr.addrSize
      have h2 : (m.seg.elim [] fun g => [g.overrideByte]).length ≤ 1 := by
        cases m.seg
        · exact Nat.zero_le _
        · exact Nat.le_refl _
      exact Nat.add_le_add h h2
    · exact Nat.zero_le _

/-- The encoding of an instruction is its modifiers and 1 to 8 bytes from the opcode on. -/
theorem encode_length {i : Instr} (h1 : 1 ≤ (opcodeBytes i).length) (h2 : (opcodeBytes i).length ≤ 8) (d : Bool) :
    1 ≤ (encode d i).length ∧ (encode d i).length ≤ Config.maxInstrLength := by
  have := modifierBytes_length d i
  unfold encode Config.maxInstrLength
  rw [List.length_append]
  omega

namespace EncodingSize

/-- An instruction takes at least one byte and at most 15 (30_encoding R90). -/
def Statement (i : Instr) : Prop := ∀ d, 1 ≤ (encode d i).length ∧ (encode d i).length ≤ Config.maxInstrLength

theorem pushR (sz : OpSize) (r : Reg) : Statement (.pushR sz r) :=
  encode_length (by simp [opcodeBytes]) (by simp [opcodeBytes])

theorem pushRM (sz : OpSize) (rm : RM) : Statement (.pushRM sz rm) :=
  encode_length (by simp [opcodeBytes]) (by have := rmBytes_length 6 rm; simp only [opcodeBytes, List.length_cons]; omega)

theorem pushImm8 (sz : OpSize) (imm : Byte) : Statement (.pushImm8 sz imm) :=
  encode_length (by simp [opcodeBytes]) (by simp [opcodeBytes])

theorem pushImm (sz : OpSize) (imm : Dword) : Statement (.pushImm sz imm) :=
  encode_length (by simp [opcodeBytes]) (by have := sizedBytes_length sz imm; simp only [opcodeBytes, List.length_cons]; omega)

theorem pushEs (sz : OpSize) : Statement (.pushEs sz) :=
  encode_length (by simp [opcodeBytes]) (by simp [opcodeBytes])

theorem pushCs (sz : OpSize) : Statement (.pushCs sz) :=
  encode_length (by simp [opcodeBytes]) (by simp [opcodeBytes])

theorem pushSs (sz : OpSize) : Statement (.pushSs sz) :=
  encode_length (by simp [opcodeBytes]) (by simp [opcodeBytes])

theorem pushDs (sz : OpSize) : Statement (.pushDs sz) :=
  encode_length (by simp [opcodeBytes]) (by simp [opcodeBytes])

theorem pushFs (sz : OpSize) : Statement (.pushFs sz) :=
  encode_length (by simp [opcodeBytes]) (by simp [opcodeBytes])

theorem pushGs (sz : OpSize) : Statement (.pushGs sz) :=
  encode_length (by simp [opcodeBytes]) (by simp [opcodeBytes])

theorem popR (sz : OpSize) (r : Reg) : Statement (.popR sz r) :=
  encode_length (by simp [opcodeBytes]) (by simp [opcodeBytes])

theorem popRM (sz : OpSize) (rm : RM) : Statement (.popRM sz rm) :=
  encode_length (by simp [opcodeBytes]) (by have := rmBytes_length 0 rm; simp only [opcodeBytes, List.length_cons]; omega)

theorem popEs (sz : OpSize) : Statement (.popEs sz) :=
  encode_length (by simp [opcodeBytes]) (by simp [opcodeBytes])

theorem popSs (sz : OpSize) : Statement (.popSs sz) :=
  encode_length (by simp [opcodeBytes]) (by simp [opcodeBytes])

theorem popDs (sz : OpSize) : Statement (.popDs sz) :=
  encode_length (by simp [opcodeBytes]) (by simp [opcodeBytes])

theorem popFs (sz : OpSize) : Statement (.popFs sz) :=
  encode_length (by simp [opcodeBytes]) (by simp [opcodeBytes])

theorem popGs (sz : OpSize) : Statement (.popGs sz) :=
  encode_length (by simp [opcodeBytes]) (by simp [opcodeBytes])

theorem pusha : Statement .pusha :=
  encode_length (by simp [opcodeBytes]) (by simp [opcodeBytes])

theorem pushad : Statement .pushad :=
  encode_length (by simp [opcodeBytes]) (by simp [opcodeBytes])

theorem popa : Statement .popa :=
  encode_length (by simp [opcodeBytes]) (by simp [opcodeBytes])

theorem popad : Statement .popad :=
  encode_length (by simp [opcodeBytes]) (by simp [opcodeBytes])

theorem pushf : Statement .pushf :=
  encode_length (by simp [opcodeBytes]) (by simp [opcodeBytes])

theorem pushfd : Statement .pushfd :=
  encode_length (by simp [opcodeBytes]) (by simp [opcodeBytes])

theorem popf : Statement .popf :=
  encode_length (by simp [opcodeBytes]) (by simp [opcodeBytes])

theorem popfd : Statement .popfd :=
  encode_length (by simp [opcodeBytes]) (by simp [opcodeBytes])

theorem callRel (sz : OpSize) (rel : Dword) : Statement (.callRel sz rel) :=
  encode_length (by simp [opcodeBytes]) (by have := sizedBytes_length sz rel; simp only [opcodeBytes, List.length_cons]; omega)

theorem callRM (sz : OpSize) (rm : RM) : Statement (.callRM sz rm) :=
  encode_length (by simp [opcodeBytes]) (by have := rmBytes_length 2 rm; simp only [opcodeBytes, List.length_cons]; omega)

theorem callPtr (sz : OpSize) (sel : Word) (off : Dword) : Statement (.callPtr sz sel off) :=
  encode_length (by simp [opcodeBytes]) (by have := sizedBytes_length sz off; simp only [opcodeBytes, wordBytes, List.length_cons, List.length_append, List.length_nil]; omega)

theorem callMem (sz : OpSize) (m : MemOp) : Statement (.callMem sz m) :=
  encode_length (by simp [opcodeBytes]) (by have := addrBytes_length 3 m.addr; simp only [opcodeBytes, List.length_cons]; omega)

theorem ret (sz : OpSize) : Statement (.ret sz) :=
  encode_length (by simp [opcodeBytes]) (by simp [opcodeBytes])

theorem retImm (sz : OpSize) (k : Word) : Statement (.retImm sz k) :=
  encode_length (by simp [opcodeBytes]) (by simp [opcodeBytes, wordBytes])

theorem retf (sz : OpSize) : Statement (.retf sz) :=
  encode_length (by simp [opcodeBytes]) (by simp [opcodeBytes])

theorem retfImm (sz : OpSize) (k : Word) : Statement (.retfImm sz k) :=
  encode_length (by simp [opcodeBytes]) (by simp [opcodeBytes, wordBytes])

theorem enter (sz : OpSize) (st : Word) (lv : Byte) : Statement (.enter sz st lv) :=
  encode_length (by simp [opcodeBytes]) (by simp [opcodeBytes, wordBytes])

theorem leave (sz : OpSize) : Statement (.leave sz) :=
  encode_length (by simp [opcodeBytes]) (by simp [opcodeBytes])

theorem int3 : Statement .int3 :=
  encode_length (by simp [opcodeBytes]) (by simp [opcodeBytes])

theorem intImm (n : Byte) : Statement (.intImm n) :=
  encode_length (by simp [opcodeBytes]) (by simp [opcodeBytes])

theorem into : Statement .into :=
  encode_length (by simp [opcodeBytes]) (by simp [opcodeBytes])

theorem iret : Statement .iret :=
  encode_length (by simp [opcodeBytes]) (by simp [opcodeBytes])

theorem iretd : Statement .iretd :=
  encode_length (by simp [opcodeBytes]) (by simp [opcodeBytes])

theorem bound (sz : OpSize) (r : Reg) (m : MemOp) : Statement (.bound sz r m) :=
  encode_length (by simp [opcodeBytes]) (by have := addrBytes_length r.number m.addr; simp only [opcodeBytes, List.length_cons]; omega)

theorem ud2 : Statement .ud2 :=
  encode_length (by simp [opcodeBytes]) (by simp [opcodeBytes])

end EncodingSize

end Sys2Proof.Laws
end

