-- ==== Sys2Proof/Laws/Step.lean ====
section
/-! SUPPORT. What a step can do, said once: the state its boundary leaves, then an instruction or an event. -/

namespace Sys2Proof.Laws

open Sys2Proof Sys2Proof.Machine Sys2Proof.Safety

/-- `u` is `s` but for the pending events, the environment's inputs and the POP SS shadow. -/
def Latched (s u : State) : Prop :=
  u = { s with pendingNMI := u.pendingNMI, pendingINTR := u.pendingINTR, pendingSMI := u.pendingSMI,
               pendingMC := u.pendingMC, waitingINTR := u.waitingINTR, ext := u.ext, intShadow := u.intShadow }

theorem askEnvironment_latched (s : State) : Latched s (askEnvironment s) := rfl

/-- An environment that presents nothing changes nothing, where no vector waits behind none. -/
theorem askEnvironment_nil {s : State} (h : s.ext = []) (hw : s.waitingINTR = []) : askEnvironment s = s := by
  obtain ⟨⟩ := s
  subst h hw
  rename_i p _ _ _ _ _
  cases p <;> simp [askEnvironment, latchINTR]

theorem atFetch_latched {s u : State} (h : AtFetch s u) : Latched s u := by
  unfold AtFetch at h
  obtain ⟨-, h⟩ := h
  split at h
  · rw [h]; exact rfl
  · rw [h.2]; exact askEnvironment_latched s

theorem dueEvent_latched {s u : State} {ev : Event} (h : dueEvent s = .event ev u) : Latched s u := by
  unfold dueEvent at h
  split at h
  · cases h
  split at h
  · cases h; exact rfl
  split at h
  · cases h; exact rfl
  split at h
  · cases h
  split at h
  · cases h
  split at h
  · cases h; exact rfl
  · cases h

/-- A step that answers: the instruction at CS:EIP run, or an event delivered, from a state that differs from `s`
in what a boundary may change alone. -/
inductive Stepped (s t : State) : Prop where
  | ran (u : State) (i : Instr) (len : Nat) (hu : AtFetch s u)
      (hd : decode (codeD u) (fetchWindow u).1 = .ok (i, len))
      (h : exec i { u with pcNext := u.eip + BitVec.ofNat 32 len } = .next t)
  | took (u : State) (ev : Event) (hu : Latched s u) (h : deliver ev u = .next t)

theorem raise_next {u t : State} {x : Trouble} (h : raise u x = .next t) :
    ∃ e : Exc, deliver e.event u = .next t := by
  cases x with
  | refuse r => cases h
  | exc e =>
    refine ⟨e, ?_⟩
    have h' : deliver e.event (abandon u u) = .next t := h
    rwa [abandon_self] at h'

theorem fetchDecode_next {s u t : State} (hu : AtFetch s u)
    (h : (match fetchDecode u with
      | .run i s' => exec i s'
      | .done o => o) = .next t) : Stepped s t := by
  unfold fetchDecode at h
  cases hd : decode (codeD u) (fetchWindow u).1 with
  | ok r =>
    obtain ⟨i, len⟩ := r
    rw [hd] at h
    exact .ran u i len hu hd h
  | error e =>
    rw [hd] at h
    obtain ⟨x, hx⟩ := raise_next h
    exact .took u x.event (atFetch_latched hu) hx

theorem step_next {s t : State} (h : step s = .next t) : Stepped s t := by
  unfold step boundary at h
  by_cases h1 : s.shutdown = true
  · rw [if_pos h1] at h; cases h
  rw [if_neg h1] at h
  by_cases h2 : s.intShadow = true
  · rw [if_pos h2] at h
    exact fetchDecode_next (u := { s with intShadow := false })
      ⟨by simpa using h1, by rw [if_pos h2]⟩ h
  rw [if_neg h2] at h
  have ha := askEnvironment_latched s
  cases hd : dueEvent (askEnvironment s) with
  | refused r => rw [hd] at h; cases h
  | none => rw [hd] at h; exact fetchDecode_next ⟨by simpa using h1, by rw [if_neg h2]; exact ⟨hd, rfl⟩⟩ h
  | event ev v =>
    rw [hd] at h
    have hv := dueEvent_latched hd
    refine .took v ev ?_ h
    unfold Latched at *
    rw [hv, ha]

end Sys2Proof.Laws
end

