-- ==== Sys2Proof/Tests/Slice0.lean ====
section
/-! SUPPORT. Tests. Expected values come from the encodings of 30_encoding, the examples in the rules and the
vectors of 95_test_vectors (named V-…); then a witness for the hypotheses of each obligation. -/

namespace Sys2Proof.Tests

open Sys2Proof Sys2Proof.Machine Sys2Proof.Safety

/-! ## Well-formedness: each check refuses an ill-formed term -/

theorem test_wf_index_esp : (Instr.pushRM .w32 (.mem ⟨none, .a32 none (some (.esp, 0)) 0⟩)).wf = false := by decide
theorem test_wf_pop_index_esp : (Instr.popRM .w32 (.mem ⟨none, .a32 none (some (.esp, 0)) 0⟩)).wf = false := by decide
theorem test_wf_call_index_esp : (Instr.callRM .w32 (.mem ⟨none, .a32 none (some (.esp, 0)) 0⟩)).wf = false := by decide
theorem test_wf_farcall_index_esp : (Instr.callMem .w32 ⟨none, .a32 none (some (.esp, 0)) 0⟩).wf = false := by decide
theorem test_wf_bound_index_esp : (Instr.bound .w32 .eax ⟨none, .a32 none (some (.esp, 0)) 0⟩).wf = false := by decide
theorem test_wf_imm16 : (Instr.pushImm .w16 0x10000).wf = false ∧ (Instr.pushImm .w16 0xFFFF).wf = true := by decide
theorem test_wf_ptr16 : (Instr.callPtr .w16 8 0x10000).wf = false ∧ (Instr.callPtr .w32 8 0x10000).wf = true := by decide
theorem test_wf_rel16 : (Instr.callRel .w16 0x8000).wf = false ∧ (Instr.callRel .w16 0xFFFF8000).wf = true := by decide

/-! ## Decoding: words written out from 30_encoding R91 to R106 -/

theorem test_decode_push_reg : decode true [0x50] = .ok (.pushR .w32 .eax, 1) ∧
    decode false [0x57] = .ok (.pushR .w16 .edi, 1) ∧ decode true [0x66, 0x51] = .ok (.pushR .w16 .ecx, 2) :=
  ⟨rfl, rfl, rfl⟩
theorem test_decode_pop_reg : decode true [0x5B] = .ok (.popR .w32 .ebx, 1) ∧
    decode false [0x5D] = .ok (.popR .w16 .ebp, 1) ∧ decode false [0x66, 0x5E] = .ok (.popR .w32 .esi, 2) :=
  ⟨rfl, rfl, rfl⟩
theorem test_decode_push_imm : decode true [0x6A, 0x80] = .ok (.pushImm8 .w32 0x80, 2) ∧
    decode true [0x68, 0x78, 0x56, 0x34, 0x12] = .ok (.pushImm .w32 0x12345678, 5) ∧
    decode false [0x68, 0x34, 0x12] = .ok (.pushImm .w16 0x1234, 3) := ⟨rfl, rfl, rfl⟩
theorem test_decode_push_seg : decode true [0x06] = .ok (.pushEs .w32, 1) ∧
    decode true [0x0E] = .ok (.pushCs .w32, 1) ∧ decode true [0x16] = .ok (.pushSs .w32, 1) ∧
    decode true [0x1E] = .ok (.pushDs .w32, 1) ∧ decode true [0x0F, 0xA0] = .ok (.pushFs .w32, 2) ∧
    decode false [0x0F, 0xA8] = .ok (.pushGs .w16, 2) := ⟨rfl, rfl, rfl, rfl, rfl, rfl⟩
theorem test_decode_pop_seg : decode true [0x07] = .ok (.popEs .w32, 1) ∧
    decode true [0x17] = .ok (.popSs .w32, 1) ∧ decode true [0x1F] = .ok (.popDs .w32, 1) ∧
    decode true [0x0F, 0xA1] = .ok (.popFs .w32, 2) ∧ decode false [0x0F, 0xA9] = .ok (.popGs .w16, 2) :=
  ⟨rfl, rfl, rfl, rfl, rfl⟩
theorem test_decode_all_regs : decode true [0x60] = .ok (.pushad, 1) ∧ decode true [0x66, 0x60] = .ok (.pusha, 2) ∧
    decode true [0x61] = .ok (.popad, 1) ∧ decode false [0x61] = .ok (.popa, 1) := ⟨rfl, rfl, rfl, rfl⟩
theorem test_decode_flags : decode true [0x9C] = .ok (.pushfd, 1) ∧ decode true [0x66, 0x9C] = .ok (.pushf, 2) ∧
    decode false [0x66, 0x9D] = .ok (.popfd, 2) ∧ decode false [0x9D] = .ok (.popf, 1) := ⟨rfl, rfl, rfl, rfl⟩
theorem test_decode_near : decode true [0xE8, 0xF9, 0xFF, 0xFF, 0xFF] = .ok (.callRel .w32 (-7), 5) ∧
    decode false [0xE8, 0xF9, 0xFF] = .ok (.callRel .w16 (-7), 3) ∧
    decode true [0xFF, 0xD0] = .ok (.callRM .w32 (.reg .eax), 2) ∧ decode true [0xC3] = .ok (.ret .w32, 1) ∧
    decode true [0xC2, 0x04, 0x00] = .ok (.retImm .w32 4, 3) := ⟨rfl, rfl, rfl, rfl, rfl⟩
theorem test_decode_far : decode true [0x9A, 0x10, 0x40, 0, 0, 8, 0] = .ok (.callPtr .w32 8 0x4010, 7) ∧
    decode false [0x9A, 0x10, 0x40, 8, 0] = .ok (.callPtr .w16 8 0x4010, 5) ∧
    decode true [0xFF, 0x1B] = .ok (.callMem .w32 ⟨none, .a32 (some .ebx) none 0⟩, 2) ∧
    decode true [0xCB] = .ok (.retf .w32, 1) ∧ decode true [0xCA, 8, 0] = .ok (.retfImm .w32 8, 3) :=
  ⟨rfl, rfl, rfl, rfl, rfl⟩
theorem test_decode_frames : decode true [0xC8, 0x00, 0x08, 0x03] = .ok (.enter .w32 2048 3, 4) ∧
    decode false [0xC9] = .ok (.leave .w16, 1) := ⟨rfl, rfl⟩
theorem test_decode_events : decode true [0xCC] = .ok (.int3, 1) ∧ decode true [0xCD, 0x40] = .ok (.intImm 0x40, 2) ∧
    decode true [0xCE] = .ok (.into, 1) ∧ decode true [0xCF] = .ok (.iretd, 1) ∧ decode false [0xCF] = .ok (.iret, 1) ∧
    decode true [0x62, 0x03] = .ok (.bound .w32 .eax ⟨none, .a32 (some .ebx) none 0⟩, 2) ∧
    decode true [0x0F, 0x0B] = .ok (.ud2, 2) := ⟨rfl, rfl, rfl, rfl, rfl, rfl, rfl⟩
/-- R97 to R101: mod 0 with rm 5, mod 1, mod 2, SIB with and without base and index, an override. -/
theorem test_decode_addr32 :
    decode true [0xFF, 0x35, 0x10, 0, 0, 0] = .ok (.pushRM .w32 (.mem ⟨none, .a32 none none 0x10⟩), 6) ∧
    decode true [0xFF, 0x75, 0xFC] = .ok (.pushRM .w32 (.mem ⟨none, .a32 (some .ebp) none (-4)⟩), 3) ∧
    decode true [0xFF, 0xB4, 0x8B, 1, 0, 0, 0] =
      .ok (.pushRM .w32 (.mem ⟨none, .a32 (some .ebx) (some (.ecx, 2)) 1⟩), 7) ∧
    decode true [0x64, 0x8F, 0x04, 0xC5, 0, 1, 0, 0] =
      .ok (.popRM .w32 (.mem ⟨some .fs, .a32 none (some (.eax, 3)) 0x100⟩), 8) ∧
    decode true [0x8F, 0x04, 0x24] = .ok (.popRM .w32 (.mem ⟨none, .a32 (some .esp) none 0⟩), 3) :=
  ⟨rfl, rfl, rfl, rfl, rfl⟩
/-- R100: 16-bit forms, by the D flag and by 67H. -/
theorem test_decode_addr16 :
    decode false [0xFF, 0x36, 0x34, 0x12] = .ok (.pushRM .w16 (.mem ⟨none, .a16 .none 0x1234⟩), 4) ∧
    decode false [0x8F, 0x46, 0xFE] = .ok (.popRM .w16 (.mem ⟨none, .a16 .bp (-2)⟩), 3) ∧
    decode true [0x67, 0xFF, 0x90, 0x10, 0x00] = .ok (.callRM .w32 (.mem ⟨none, .a16 .bxsi 0x10⟩), 5) :=
  ⟨rfl, rfl, rfl⟩
/-- R121: the reserved forms, and R93, R120: what is refused. -/
theorem test_decode_reserved : decode true [0x8F, 0x08] = .error .undefinedForm ∧
    decode true [0xFF, 0xF8] = .error .undefinedForm ∧ decode true [0xFF, 0xDB] = .error .undefinedForm ∧
    decode true [0x62, 0xC3] = .error .undefinedForm ∧ decode true [0xFF, 0xC0] = .error (.noRow 0xFF) ∧
    decode true [0xF0, 0x50] = .error .lockOrRep ∧ decode true [0x90] = .error (.noRow 0x90) ∧
    decode true [0x6A] = .error .truncated := ⟨rfl, rfl, rfl, rfl, rfl, rfl, rfl, rfl⟩
/-- The numbering of table words: FFH with reg 6, and 0FH A0H, as 16-bit units. -/
theorem test_table_words : decodeTableWord 16 0xFF30 = some (.pushRM .w16 (.mem ⟨none, .a16 .bxsi 0⟩)) ∧
    decodeTableWord 16 0x0FA0 = some (.pushFs .w16) ∧ decodeTableWord 8 0xC3 = some (.ret .w16) := ⟨rfl, rfl, rfl⟩

/-! ## One step of each instruction -/

def flat (dpl : BitVec 2) : SegDesc := ⟨0, 0xFFFFFFFF, true, dpl, true, true⟩

/-- 95's common conditions, keyed by selector / 4: 08 and 18 (1B) code, 10 and 20 (23) data, 30 the call gate of
V-GC1; 28 and 40 data not present and not writable, 38 a task gate, 48 a gate to the level 3 code, 50 a gate of
level 0, 58 a TSS, 60 and 70 gates to 68, code not present, and to the data segment 10, 78 data of 2 KiB. -/
def tables : List (BitVec 14 × Descriptor) :=
  [(2, .code (flat 0)), (4, .data (flat 0)), (6, .code (flat 3)), (8, .data (flat 3)),
    (10, .data { flat 0 with present := false }), (12, .callGate ⟨⟨3, true⟩, 8, 0x5000, 2⟩),
    (14, .taskGate ⟨3, true⟩), (16, .data { flat 0 with writable := false }),
    (18, .callGate ⟨⟨3, true⟩, 0x18, 0x5000, 0⟩), (20, .callGate ⟨⟨0, true⟩, 8, 0x5000, 0⟩), (22, .tss ⟨0, true⟩),
    (24, .callGate ⟨⟨3, true⟩, 0x68, 0x5000, 0⟩), (26, .code { flat 0 with present := false }),
    (28, .callGate ⟨⟨3, true⟩, 0x10, 0x5000, 0⟩), (30, .data { flat 0 with limit := 0x7FF })]

def at0 (eip esp : Dword) : State :=
  { State.reset with
    mode := .protectedMode, eip := eip, pcNext := eip, regs := { State.reset.regs with esp := esp, ebx := 0x2000 }
    cs := ⟨8, some (flat 0)⟩, ss := ⟨0x10, some (flat 0)⟩, ds := ⟨0x10, some (flat 0)⟩, gdt := tables }

/-- The level 3 program of V-GC1 and V-IN13. -/
def at3 (eip esp : Dword) : State :=
  { at0 eip esp with
    cs := ⟨0x1B, some (flat 3)⟩, ss := ⟨0x23, some (flat 3)⟩, ds := ⟨0x23, some (flat 3)⟩, cpl := 3
    es := ⟨0x23, some (flat 3)⟩, fs := ⟨0x23, some (flat 3)⟩, gs := ⟨0x23, some (flat 3)⟩
    tss0 := ⟨0x10, 0x9000⟩, eflags := 0x202 }

def setMem (a v : Dword) (s : State) : State := { s with mem := s.mem.storeLE a 4 v }
def setRegs (f : Regs → Regs) (s : State) : State := { s with regs := f s.regs }
def gate (v : Byte) (k : GateKind) (off : Dword) (s : State) : State :=
  { s with idt := (v, .gate ⟨k, ⟨3, true⟩, 8, off⟩) :: s.idt }
def run (bs : List Byte) (s : State) : Host.Outcome State Fault Refusal := step (placeInstruction bs s)
/-- The step answers a next state that passes the test. -/
def after (o : Host.Outcome State Fault Refusal) (p : State → Bool) : Bool :=
  match o with
  | .next t => p t
  | .fault _ | .refused _ => false
def refusedAs (o : Host.Outcome State Fault Refusal) (r : Refusal) : Bool :=
  match o with
  | .refused x => x == r
  | .next _ | .fault _ => false
/-- The doublewords at these addresses, then EIP and ESP. -/
def holds (cells : List (Dword × Dword)) (eip esp : Dword) (t : State) : Bool :=
  cells.all (fun c => t.mem.loadLE c.1 4 == c.2) && t.eip == eip && t.regs.esp == esp
/-- The state a step leaves, for a test that goes on from it. -/
def stateAfter (o : Host.Outcome State Fault Refusal) : State :=
  match o with
  | .next t => t
  | .fault _ | .refused _ => State.reset

def base : State := at0 0x4000 0x1000
/-- The doubleword `v` on top of the stack at FFCH. -/
def topped (v : Dword) : State := setMem 0xFFC v (at0 0x4000 0xFFC)

/-- V-PU2. -/
theorem test_push_esp : after (run [0x54] base) (holds [(0xFFC, 0x1000)] 0x4001 0xFFC) := by decide
/-- V-PU9: a 16-bit stack pointer wraps and leaves ESP[31:16]. -/
theorem test_push_wraps_sp :
    after (run [0x50] { at0 0x4000 0x12340000 with ss := ⟨0x10, some { flat 0 with big := false }⟩ })
      (holds [(0xFFFC, 0)] 0x4001 0x1234FFFC) := by decide
/-- V-PU5. -/
theorem test_push_mem : after (run [0xFF, 0x73, 0x10] (setMem 0x2010 0xCAFEBABE base))
    (holds [(0xFFC, 0xCAFEBABE)] 0x4003 0xFFC) := by decide
/-- V-PU6. -/
theorem test_push_imm8 : after (run [0x6A, 0x80] base) (holds [(0xFFC, 0xFFFFFF80)] 0x4002 0xFFC) := by decide
/-- V-PU7. -/
theorem test_push_imm : after (run [0x68, 0x78, 0x56, 0x34, 0x12] base)
    (holds [(0xFFC, 0x12345678)] 0x4005 0xFFC) := by decide
theorem test_push_es : after (run [0x06] { base with es := ⟨0x18, none⟩ })
    (holds [(0xFFC, 0x18)] 0x4001 0xFFC) := by decide
theorem test_push_cs : after (run [0x0E] base) (holds [(0xFFC, 8)] 0x4001 0xFFC) := by decide
/-- V-PU8. -/
theorem test_push_ss : after (run [0x16] base) (holds [(0xFFC, 0x10)] 0x4001 0xFFC) := by decide
theorem test_push_ds : after (run [0x1E] { base with ds := ⟨0x23, none⟩ })
    (holds [(0xFFC, 0x23)] 0x4001 0xFFC) := by decide
theorem test_push_fs : after (run [0x0F, 0xA0] { base with fs := ⟨0x23, none⟩ })
    (holds [(0xFFC, 0x23)] 0x4002 0xFFC) := by decide
theorem test_push_gs : after (run [0x0F, 0xA8] { base with gs := ⟨0x23, none⟩ })
    (holds [(0xFFC, 0x23)] 0x4002 0xFFC) := by decide
/-- V-PO1. -/
theorem test_pop_ebx : after (run [0x5B] (topped 0x11223344))
    (fun t => holds [] 0x4001 0x1000 t && t.regs.ebx == 0x11223344) := by decide
/-- V-PO2. -/
theorem test_pop_esp : after (run [0x5C] (topped 0x3000)) (holds [] 0x4001 0x3000) := by decide
/-- V-PO3. -/
theorem test_pop_mem : after (run [0x8F, 0x03] (topped 7)) (holds [(0x2000, 7)] 0x4002 0x1000) := by decide
/-- V-PO4. -/
theorem test_pop_mem_esp : after (run [0x8F, 0x04, 0x24] (topped 7))
    (holds [(0x1000, 7)] 0x4003 0x1000) := by decide
/-- V-PO5. -/
theorem test_pop_ss : after (run [0x17] { topped 0x18 with gdt := [(6, .data (flat 0))] })
    (fun t => holds [] 0x4001 0x1000 t && t.ss.sel == 0x18 && t.intShadow) := by decide
theorem test_pop_es : after (run [0x07] (topped 0xABCD0023))
    (fun t => holds [] 0x4001 0x1000 t && t.es == ⟨0x23, some (flat 3)⟩) := by decide
theorem test_pop_ds_null : after (run [0x1F] (topped 3))
    (fun t => holds [] 0x4001 0x1000 t && t.ds == ⟨3, none⟩) := by decide
theorem test_pop_fs : after (run [0x0F, 0xA1] (topped 0x10))
    (fun t => holds [] 0x4002 0x1000 t && t.fs == ⟨0x10, some (flat 0)⟩) := by decide
theorem test_pop_gs : after (run [0x0F, 0xA9] (topped 0x10))
    (fun t => holds [] 0x4002 0x1000 t && t.gs == ⟨0x10, some (flat 0)⟩) := by decide
/-- The registers of V-PA1. -/
def eight : Regs := ⟨1, 2, 3, 4, 0x1000, 5, 6, 7⟩
/-- V-PA1. -/
theorem test_pushad : after (run [0x60] { base with regs := eight })
    (holds [(0xFFC, 1), (0xFF8, 2), (0xFF4, 3), (0xFF0, 4), (0xFEC, 0x1000), (0xFE8, 5), (0xFE4, 6), (0xFE0, 7)]
      0x4001 0xFE0) := by decide
/-- V-PA3: the saved-ESP slot is not loaded, ESI is. -/
theorem test_popad :
    after (run [0x61] { setMem 0xFEC 0xDEADBEEF (stateAfter (run [0x60] { base with regs := eight })) with
      regs := ⟨0, 0, 0, 0, 0xFE0, 0, 0, 0⟩ }) (fun t => t.regs == eight) := by decide
/-- V-PA4. -/
theorem test_pusha : after (run [0x66, 0x60] (setRegs ({ · with eax := 0xAAAA0001 }) base))
    (fun t => t.regs.esp == 0xFF0 && t.mem.loadLE 0xFFE 2 == 1 && t.mem.loadLE 0xFF6 2 == 0x1000) := by decide
theorem test_popa : after (run [0x66, 0x61] (setMem 0xFFC 0x00020001 { at0 0x4000 0xFFC with
      regs := ⟨0, 0, 0, 0, 0xFFC, 0, 0xBBBB0000, 0xAAAA0000⟩ }))
    (fun t => t.regs.edi == 0xAAAA0001 && t.regs.esi == 0xBBBB0002 && t.regs.esp == 0x100C) := by decide
/-- V-FL1. -/
theorem test_pushfd : after (run [0x9C] { base with eflags := 0xA02 })
    (holds [(0xFFC, 0xA02)] 0x4001 0xFFC) := by decide
/-- V-FL2. -/
theorem test_pushf : after (run [0x66, 0x9C] { base with eflags := 0xA02 })
    (fun t => t.regs.esp == 0xFFE && t.mem.loadLE 0xFFE 2 == 0xA02) := by decide
/-- V-FL4: IF does not change at CPL 3 with IOPL 0. -/
theorem test_popfd_user : after (run [0x9D] (setMem 0xFFC 0x202 { at3 0x4000 0xFFC with eflags := 0x2 }))
    (fun t => t.eflags == 0x2 && t.regs.esp == 0x1000) := by decide
/-- V-FL5: reserved bits stay, VM, VIF and VIP stay, RF is 0. -/
theorem test_popfd_all_ones : after (run [0x9D] (topped 0xFFFFFFFF))
    (fun t => t.eflags == 0x247FD7) := by decide
theorem test_popf : after (run [0x66, 0x9D] (topped 0xFFFF0203))
    (fun t => t.eflags == 0x203 && t.regs.esp == 0xFFE) := by decide
/-- V-CR1. -/
theorem test_call_forward : after (run [0xE8, 2, 0, 0, 0] { base with eip := 0x1002 })
    (holds [(0xFFC, 0x1007)] 0x1009 0xFFC) := by decide
/-- V-CR2. -/
theorem test_call_backward : after (run [0xE8, 0xF9, 0xFF, 0xFF, 0xFF] { base with eip := 0x1002 })
    (holds [(0xFFC, 0x1007)] 0x1000 0xFFC) := by decide
/-- V-CR5. -/
theorem test_call_reg : after (run [0xFF, 0xD0] (setRegs ({ · with eax := 0x3000 }) { base with eip := 0x1000 }))
    (holds [(0xFFC, 0x1002)] 0x3000 0xFFC) := by decide
/-- V-CR3. -/
theorem test_ret_imm : after (run [0xC2, 4, 0] (setMem 0xFF8 0x1007 (at0 0x4000 0xFF8)))
    (holds [] 0x1007 0x1000) := by decide
/-- V-CR4. -/
theorem test_ret : after (run [0xC3] (topped 0x1007)) (holds [] 0x1007 0x1000) := by decide
/-- V-FC1. -/
theorem test_far_call : after (run [0x9A, 0x10, 0x40, 0, 0, 8, 0] base)
    (holds [(0xFFC, 8), (0xFF8, 0x4007)] 0x4010 0xFF8) := by decide
/-- V-GC1. -/
theorem test_gate_call :
    after (run [0x9A, 0, 0, 0, 0, 0x30, 0] (setMem 0x2004 0xAAAAAAAA (setMem 0x2000 0xBBBBBBBB (at3 0x4000 0x2000))))
      (fun t => holds [(0x8FFC, 0x23), (0x8FF8, 0x2000), (0x8FF4, 0xAAAAAAAA), (0x8FF0, 0xBBBBBBBB), (0x8FEC, 0x1B),
        (0x8FE8, 0x4007)] 0x5000 0x8FE8 t && t.cs.sel == 8 && t.ss.sel == 0x10 && t.cpl == 0) := by decide
/-- V-FC4. -/
theorem test_far_call_mem : after (run [0xFF, 0x1B] (setMem 0x2000 0x4010 (setMem 0x2004 8 base)))
    (holds [(0xFFC, 8), (0xFF8, 0x4002)] 0x4010 0xFF8) := by decide
/-- V-FC2. -/
theorem test_far_ret : after (run [0xCB] (setMem 0xFF8 0x4007 (setMem 0xFFC 8 (at0 0x4010 0xFF8))))
    (fun t => holds [] 0x4007 0x1000 t && t.cs.sel == 8) := by decide
/-- The frame of V-GC1, below level 0 code at 5000H. -/
def inner : State :=
  setMem 0x8FE8 0x4007 (setMem 0x8FEC 0x1B (setMem 0x8FF8 0x2000 (setMem 0x8FFC 0x23
    { at0 0x5000 0x8FE8 with ds := ⟨0x23, some (flat 3)⟩ })))
/-- V-GC2: 8 bytes are released from both stacks; a level 0 ES is loaded with the null selector (93 K9). -/
theorem test_far_ret_outward : after (run [0xCA, 8, 0] { inner with es := ⟨0x10, some (flat 0)⟩ })
    (fun t => holds [] 0x4007 0x2008 t && t.cs.sel == 0x1B && t.ss.sel == 0x23 && t.cpl == 3 &&
      t.ds.sel == 0x23 && t.es == ⟨0, none⟩) := by decide
/-- V-FC7: #GP(0008) to a more privileged level, through vector 13. -/
theorem test_far_ret_inward :
    after (run [0xCB] (setMem 0x2004 8 (gate 13 .interrupt 0x6000 (at3 0x4000 0x2000))))
      (holds [(0x8FE8, 8), (0x8FEC, 0x4000), (0x8FF0, 0x1B)] 0x6000 0x8FE8) := by decide
/-- S1, V-EN4. -/
theorem test_enter_nested :
    after (run [0xC8, 0, 8, 3] (setMem 0x1001C 0xAAAA0000 (setMem 0x10018 0xBBBB0000
        (setRegs ({ · with ebp := 0x10020 }) (at0 0x4000 0x10000)))))
      (fun t => holds [(0xFFFC, 0x10020), (0xFFF8, 0xAAAA0000), (0xFFF4, 0xBBBB0000), (0xFFF0, 0xFFFC)]
        0x4004 0xF7F0 t && t.regs.ebp == 0xFFFC) := by decide
/-- V-EN6: LEVEL 32 is 0; V-EN1's end. -/
theorem test_enter_level_32 : after (run [0xC8, 8, 0, 0x20] (setRegs ({ · with ebp := 0x2000 }) base))
    (fun t => holds [(0xFFC, 0x2000)] 0x4004 0xFF4 t && t.regs.ebp == 0xFFC) := by decide
/-- V-LV1. -/
theorem test_leave : after (run [0xC9] (setMem 0xFB4 0xFCC (setRegs ({ · with ebp := 0xFB4 }) (at0 0x4000 0xFA4))))
    (fun t => holds [] 0x4001 0xFB8 t && t.regs.ebp == 0xFCC) := by decide
/-- V-IN2: a trap gate leaves IF. -/
theorem test_int3 : after (run [0xCC] (gate 3 .trap 0x3200 { at0 0x3000 0x1000 with eflags := 0x202 }))
    (fun t => holds [(0xFFC, 0x202), (0xFF8, 8), (0xFF4, 0x3001)] 0x3200 0xFF4 t && t.eflags == 0x202) := by
  decide
/-- V-IN1. -/
theorem test_int : after (run [0xCD, 0x40] (gate 0x40 .interrupt 0x3100 { at0 0x3000 0x1000 with eflags := 0x202 }))
    (fun t => holds [(0xFFC, 0x202), (0xFF8, 8), (0xFF4, 0x3002)] 0x3100 0xFF4 t && t.eflags == 2) := by
  decide
/-- V-EV9: no entry for 40H is #GP(0202H) at the instruction. -/
theorem test_int_no_entry : after (run [0xCD, 0x40] (gate 13 .interrupt 0x6000 (at0 0x3000 0x1000)))
    (holds [(0xFF0, 0x202), (0xFF4, 0x3000)] 0x6000 0xFF0) := by decide
/-- V-IN3. -/
theorem test_into : after (run [0xCE] (gate 4 .interrupt 0x3010 { at0 0x3000 0x1000 with eflags := 0xA02 }))
    (fun t => holds [(0xFFC, 0xA02), (0xFF8, 8), (0xFF4, 0x3001)] 0x3010 0xFF4 t && t.eflags == 0x802) := by
  decide
/-- V-IN13: an inner handler, then V-IR2 back. -/
def insideHandler : State := stateAfter (run [0xCD, 0x40] (gate 0x40 .interrupt 0x6000 (at3 0x4000 0x2000)))
/-- V-IR2. -/
theorem test_iretd_outward : after (run [0xCF] insideHandler)
    (fun t => holds [] 0x4002 0x2000 t && t.cs.sel == 0x1B && t.cpl == 3 && t.eflags == 0x202 && t.ss.sel == 0x23) := by
  decide
/-- V-IR1. -/
theorem test_iretd : after (run [0xCF] (setMem 0xFF4 0x3001 (setMem 0xFF8 8 (setMem 0xFFC 0xA02 (at0 0x3010 0xFF4)))))
    (fun t => holds [] 0x3001 0x1000 t && t.eflags == 0xA02) := by decide
/-- Real-address mode with SS at 0 and CS at 2000H. -/
def real (sp : Dword) : State :=
  { State.reset with cs := realSegment 0x2000 State.reset.cs, eip := 0x104, eflags := 0xA02
                     regs := { State.reset.regs with esp := sp } }
/-- V-IR3. -/
theorem test_iret_real : after (run [0xCF] (setMem 0xFFA 0x20000105 (setMem 0xFFE 0x202 (real 0xFFA))))
    (fun t => holds [] 0x105 0x1000 t && t.cs.sel == 0x2000 && t.eflags == 0x202) := by decide
/-- V-IR4. -/
theorem test_iret_task : refusedAs (run [0x66, 0xCF] { base with eflags := 0x4002 }) .taskReturn := by decide
/-- V-EV6. -/
theorem test_into_real : after (run [0xCE] (setMem 0x10 0x40000300 (real 0x1000)))
    (fun t => t.mem.loadLE 0xFFE 2 == 0xA02 && t.mem.loadLE 0xFFC 2 == 0x2000 && t.mem.loadLE 0xFFA 2 == 0x105 &&
      holds [] 0x300 0xFFA t && t.cs.sel == 0x4000 && flagIF t.eflags == false) := by decide
/-- V-IN6 and V-IN7's bounds 0 to 9 at DS:2000. -/
def bounds (eax : Dword) : State :=
  setMem 0x2004 9 (setRegs ({ · with eax := eax }) (gate 5 .trap 0x3300 (at0 0x3000 0x1000)))
/-- V-IN6. -/
theorem test_bound_in : after (run [0x62, 0x03] (bounds 9)) (holds [] 0x3002 0x1000) := by decide
/-- V-IN8: the comparison is signed. -/
theorem test_bound_out : after (run [0x62, 0x03] (bounds 0xFFFFFFFF))
    (holds [(0xFF4, 0x3000)] 0x3300 0xFF4) := by decide
/-- V-IN10. -/
theorem test_ud2 : after (run [0x0F, 0x0B] (gate 6 .trap 0x3300 (at0 0x3000 0x1000)))
    (holds [(0xFF4, 0x3000)] 0x3300 0xFF4) := by decide
/-- V-EV7, V-EV8: a double fault, and shutdown. -/
theorem test_double_fault : after (run [0x9A, 0x10, 0x40, 0, 0, 8, 0] (gate 8 .interrupt 0x7200 (at3 0x4000 0x2000)))
    (holds [(0x8FE8, 0), (0x8FEC, 0x4000)] 0x7200 0x8FE8) := by decide
theorem test_shutdown : after (run [0x9A, 0x10, 0x40, 0, 0, 8, 0] (at3 0x4000 0x2000)) (·.shutdown) := by
  decide
/-- The environment's next presentation: V-EV2's INTR, V-EV4's NMI. -/
def offered (e : ExtInput) (fl : Dword) : State :=
  { gate 2 .interrupt 0x7100 (gate 0x21 .interrupt 0x7000 base) with eflags := fl, ext := [e] }
/-- V-EV2. -/
theorem test_intr : after (step (offered ⟨false, some 0x21, false, false⟩ 0x202))
    (fun t => holds [(0xFFC, 0x202), (0xFF8, 8), (0xFF4, 0x4000)] 0x7000 0xFF4 t && t.eflags == 2) := by
  decide
/-- V-EV4. -/
theorem test_nmi : after (step (offered ⟨true, none, false, false⟩ 2))
    (holds [(0xFFC, 2), (0xFF8, 8), (0xFF4, 0x4000)] 0x7100 0xFF4) := by decide

/-- 93 U5, R273: a machine check is an abort with no code, taken with IF clear; the NMI beside it waits. -/
theorem test_machine_check : after (step { gate 18 .interrupt 0x7400 (offered ⟨true, none, false, true⟩ 2) with
      eflags := 2 })
    (fun t => holds [(0xFFC, 2), (0xFF8, 8), (0xFF4, 0x4000)] 0x7400 0xFF4 t && t.pendingNMI && !t.pendingMC) := by
  decide

/-- R46, R293: an NMI is taken at its boundary although two INTR vectors wait (log 15). -/
theorem test_nmi_not_held : after (step { offered ⟨true, none, false, false⟩ 2 with
      pendingINTR := some 0x21, waitingINTR := [0x22] })
    (fun t => t.eip == 0x7100 && t.pendingINTR == some 0x21 && t.waitingINTR == [0x22]) := by decide
/-- R34: CALL 001BH at level 3 leaves CS[1:0] = CPL, and so does CALL 0018H. -/
theorem test_far_call_rpl : after (run [0x9A, 0x10, 0x40, 0, 0, 0x18, 0] (at3 0x4000 0x2000))
    (fun t => t.cs.sel == 0x1B && t.eip == 0x4010) := by decide
/-- R77, D9: a word pushed at SP = 1 of the 16-bit stack after reset is refused, its limit FFFFH or not. -/
theorem test_top_before_limit : refusedAs (run [0x50] (setRegs ({ · with esp := 1 }) State.reset)) .offsetSpaceTop := by
  decide
/-- R315: a run's own `P_FLAGMASK`, `P_ERRCODE`, `P_SEG` and `P_GATECHECK`. -/
theorem test_params_mask : after (run [0x9D] { topped 0xFFFFFFFF with
      params := { State.reset.params with flagMask := [(⟨.popfd, 0, 2⟩, 1)] } }) (fun t => t.eflags == 3) := by decide
theorem test_params_code : after (run [0x0F, 0x0B] { gate 6 .trap 0x3300 (at0 0x3000 0x1000) with
      params := { State.reset.params with errCode := [(⟨.protectedMode, 6, .fault⟩, .value 7)] } })
    (holds [(0xFF0, 7), (0xFF4, 0x3000)] 0x3300 0xFF0) := by decide
theorem test_params_seg : after (run [0xFF, 0x33] { gate 14 .trap 0x3300 (at0 0x3000 0x1000) with
      params := { State.reset.params with segVerdict := [(⟨0x10, 0x2000, 4, .dataRead⟩, .raises (.pf 4))] } })
    (holds [(0xFF0, 4), (0xFF4, 0x3000)] 0x3300 0xFF0) := by decide
/-- R75: a run's own `P_SEG` may put an access at any linear address. -/
theorem test_params_linear : after (run [0x53] { base with params := { State.reset.params with
      segVerdict := [(⟨0x10, 0xFFC, 4, .stackWrite⟩, .linear 0x5FFC)] } })
    (holds [(0x5FFC, 0x2000), (0xFFC, 0)] 0x4001 0xFFC) := by decide
/-- R143: a mask the run supplies is merged alone, bit 16 as it says; the default clears RF. -/
theorem test_popfd_rf : flagsAfterPopfd { base with eflags := 0x10002 } 2 = 2 ∧
    flagsAfterPopfd { base with
      eflags := 0x10002, params := { base.params with flagMask := [(⟨.popfd, 0, 0x10002⟩, 1)] } } 3 = 0x10003 := by decide
theorem test_params_gate : after (run [0xCD, 0x40] { gate 13 .trap 0x3300 (gate 0x40 .trap 0x3100 base) with
      params := { State.reset.params with
        gateCheck := [(.softint ⟨.trap, ⟨3, true⟩, 8, 0x3100⟩ 0x40 0, false)] } })
    (holds [(0xFF0, 0x202)] 0x3300 0xFF0) := by decide

/-! ## Witnesses: for each obligation a state and operands that meet its hypotheses, each clause at a boundary -/

def gives {α : Type} [DecidableEq α] (x : Except Trouble α) (v : α) : Bool :=
  match x with
  | .ok a => a == v
  | .error _ => false

theorem gives_ok {α : Type} [DecidableEq α] {x : Except Trouble α} {v : α} (h : gives x v = true) : x = .ok v := by
  cases x with
  | ok a => rw [show a = v by simpa [gives] using h]
  | error e => cases h

theorem canPush_of {n count : Nat} {slot : Nat → Dword} {s : State}
    (h : (List.range count).all (fun j => gives (stackSlot s (pushOffset n j s) n .stackWrite) (slot j)) = true) :
    CanPush n count slot s :=
  fun j hj => gives_ok (List.all_eq_true.mp h j (List.mem_range.mpr hj))

theorem canPop_of {n lo hi : Nat} {slot : Nat → Dword} {s : State}
    (h : (List.range hi).all (fun j => gives (stackSlot s (popOffset n j s) n .stackRead) (slot j)) = true) :
    CanPop n lo hi slot s :=
  fun j _ hj => gives_ok (List.all_eq_true.mp h j (List.mem_range.mpr hj))

theorem next_of {o : Host.Outcome State Fault Refusal} (h : after o (fun _ => true) = true) :
    o = .next (stateAfter o) := by
  cases o with
  | next t => rfl
  | fault f => cases h
  | refused r => cases h

theorem atFetch_of {s : State} (h1 : s.shutdown = false) (h2 : s.intShadow = false)
    (h3 : dueEvent (askEnvironment s) = .none) : AtFetch s (askEnvironment s) := by
  unfold AtFetch; rw [if_neg (by rw [h2]; decide)]; exact ⟨h1, h3, rfl⟩

/-- Slots of `n` bytes going down from `a`, and going up. -/
def down (a : Dword) (n : Nat) : Nat → Dword := fun j => a - BitVec.ofNat 32 (n * j)
def up (a : Dword) (n : Nat) : Nat → Dword := fun j => a + BitVec.ofNat 32 (n * j)

/-- The instruction bytes at 4000H of the level 0 program. -/
def fetching (bs : List Byte) : State := placeInstruction bs base
theorem fetching_at (bs : List Byte) (h : (fetching bs).shutdown = false ∧ (fetching bs).intShadow = false ∧
    (fetching bs).ext = [] ∧ (fetching bs).waitingINTR = [] ∧ dueEvent (fetching bs) = .none) :
    AtFetch (fetching bs) (fetching bs) := by
  have e : askEnvironment (fetching bs) = fetching bs := Laws.askEnvironment_nil h.2.2.1 h.2.2.2.1
  have := atFetch_of h.1 h.2.1 (by rw [e]; exact h.2.2.2.2)
  rwa [e] at this

/-- SS ends at 7FFH, so that a stack access at FFCH or 1000H raises #SS(0). -/
def shortStack (s : State) : State := { s with ss := ⟨0x10, some { flat 0 with limit := 0x7FF }⟩ }
/-- The operand [EBX + disp]. -/
def atEbx (disp : Dword) : MemOp := ⟨none, .a32 (some .ebx) none disp⟩
/-- An operand through ES, which `noEs` leaves without a record. -/
def viaEs : MemOp := ⟨some .es, .a32 none none 0⟩
def noEs (s : State) : State := { s with es := ⟨0, none⟩ }

theorem witness_DecodeEncode :
    (Instr.pushRM .w16 (.mem ⟨some .gs, .a32 (some .edi) (some (.ebp, 3)) 0xFFFFFFFF⟩)).wf = true := rfl
theorem witness_DecodeSound : decode true [0x6A, 0x80, 0x90] = .ok (.pushImm8 .w32 0x80, 2) := rfl

theorem witness_ReservedForms_8F :
    AtFetch (fetching [0x66, 0x8F, 0x08]) (fetching [0x66, 0x8F, 0x08]) ∧
    (fetchWindow (fetching [0x66, 0x8F, 0x08])).1 = [0x66] ++ 0x8F :: 0x08 :: List.replicate 12 0 ∧
    AtFetch (fetching [0x8F, 0x38]) (fetching [0x8F, 0x38]) ∧
    (fetchWindow (fetching [0x8F, 0x38])).1 = [] ++ 0x8F :: 0x38 :: List.replicate 13 0 ∧
    (0x08 : Byte).extractLsb' 3 3 ≠ 0#3 ∧ (0x38 : Byte).extractLsb' 3 3 ≠ 0#3 :=
  ⟨fetching_at _ (by decide), by decide, fetching_at _ (by decide), by decide,
    by decide, by decide⟩
theorem witness_ReservedForms_FF7 :
    AtFetch (fetching [0x2E, 0xFF, 0x38]) (fetching [0x2E, 0xFF, 0x38]) ∧
    (fetchWindow (fetching [0x2E, 0xFF, 0x38])).1 = [0x2E] ++ 0xFF :: 0x38 :: List.replicate 12 0 ∧
    (0x38 : Byte).extractLsb' 3 3 = 7#3 :=
  ⟨fetching_at _ (by decide), by decide, by decide⟩
theorem witness_ReservedForms_FF3 :
    AtFetch (fetching [0xFF, 0xD8]) (fetching [0xFF, 0xD8]) ∧
    (fetchWindow (fetching [0xFF, 0xD8])).1 = [] ++ 0xFF :: 0xD8 :: List.replicate 13 0 ∧
    (0xD8 : Byte).extractLsb' 3 3 = 3#3 ∧ (0xD8 : Byte).extractLsb' 6 2 = 3#2 :=
  ⟨fetching_at _ (by decide), by decide, by decide, by decide⟩
theorem witness_ReservedForms_62 :
    AtFetch (fetching [0x62, 0xC0]) (fetching [0x62, 0xC0]) ∧
    (fetchWindow (fetching [0x62, 0xC0])).1 = [] ++ 0x62 :: 0xC0 :: List.replicate 13 0 ∧
    (0xC0 : Byte).extractLsb' 6 2 = 3#2 :=
  ⟨fetching_at _ (by decide), by decide, by decide⟩
theorem witness_ReservedForms_refused :
    AtFetch (fetching [0xFF, 0x28]) (fetching [0xFF, 0x28]) ∧
    (fetchWindow (fetching [0xFF, 0x28])).1 = [] ++ 0xFF :: 0x28 :: List.replicate 13 0 ∧
    (0x28 : Byte).extractLsb' 3 3 ∈ [0#3, 1#3, 4#3, 5#3] ∧
    AtFetch (fetching [0x67, 0xF0]) (fetching [0x67, 0xF0]) ∧
    (fetchWindow (fetching [0x67, 0xF0])).1 = [0x67] ++ 0xF0 :: List.replicate 13 0 :=
  ⟨fetching_at _ (by decide), by decide, by decide, fetching_at _ (by decide), by decide⟩

theorem witness_StepRunsDecoded : AtFetch (fetching [0x50]) (fetching [0x50]) ∧
    decode (codeD (fetching [0x50])) (fetchWindow (fetching [0x50])).1 = .ok (.pushR .w32 .eax, 1) :=
  ⟨fetching_at _ (by decide), by rfl⟩
theorem witness_StepRunsEncoded : AtFetch (fetching [0x50]) (fetching [0x50]) ∧
    (Instr.pushR .w32 .eax).wf = true ∧
    (∀ k b, (encode (codeD (fetching [0x50])) (.pushR .w32 .eax))[k]? = some b → fetchByte (fetching [0x50]) k = .ok b) := by
  refine ⟨fetching_at _ (by decide), rfl, fun k b h => ?_⟩
  have h : ([0x50] : List Byte)[k]? = some b := h
  match k with
  | 0 => cases h; exact gives_ok (by decide)
  | k + 1 => cases h
theorem witness_EventRecognition_nmi :
    (offered ⟨true, some 32, false, false⟩ 2).shutdown = false ∧ (offered ⟨true, some 32, false, false⟩ 2).intShadow = false ∧
    (askEnvironment (offered ⟨true, some 32, false, false⟩ 2)).pendingSMI = false ∧
    (askEnvironment (offered ⟨true, some 32, false, false⟩ 2)).pendingMC = false ∧
    (askEnvironment (offered ⟨true, some 32, false, false⟩ 2)).pendingNMI = true := by decide
theorem witness_EventRecognition_machineCheck :
    (offered ⟨true, some 32, false, true⟩ 2).shutdown = false ∧
    (offered ⟨true, some 32, false, true⟩ 2).intShadow = false ∧
    (askEnvironment (offered ⟨true, some 32, false, true⟩ 2)).pendingSMI = false ∧
    (askEnvironment (offered ⟨true, some 32, false, true⟩ 2)).pendingMC = true := by decide
theorem witness_EventRecognition_intr :
    (offered ⟨false, some 32, false, false⟩ 0x202).shutdown = false ∧
    (offered ⟨false, some 32, false, false⟩ 0x202).intShadow = false ∧
    (askEnvironment (offered ⟨false, some 32, false, false⟩ 0x202)).pendingSMI = false ∧
    (askEnvironment (offered ⟨false, some 32, false, false⟩ 0x202)).pendingMC = false ∧
    (askEnvironment (offered ⟨false, some 32, false, false⟩ 0x202)).pendingNMI = false ∧
    (askEnvironment (offered ⟨false, some 32, false, false⟩ 0x202)).pendingINTR = some 32 ∧
    flagIF (askEnvironment (offered ⟨false, some 32, false, false⟩ 0x202)).eflags = true := by decide
/-- The state of V-EV3 with PUSH EAX at 4000H, and the INTR of vector 255 that waits. -/
def masked : State := { fetching [0x50] with ext := [⟨false, some 255, false, false⟩] }
theorem witness_EventRecognition_masked :
    (masked.shutdown = false ∧ masked.intShadow = false ∧ (askEnvironment masked).pendingSMI = false ∧
      (askEnvironment masked).pendingMC = false ∧
      (askEnvironment masked).pendingNMI = false ∧ (askEnvironment masked).pendingINTR = some 255 ∧
      flagIF (askEnvironment masked).eflags = false ∧ masked.pendingINTR = none ∧
      masked.ext = [⟨false, some 255, false, false⟩]) ∧
    decode (codeD (askEnvironment masked)) (fetchWindow (askEnvironment masked)).1 = .ok (.pushR .w32 .eax, 1) :=
  ⟨by decide, by rfl⟩
/-- A vector below 32, and the three ways a presented vector is latched. -/
theorem witness_EventRecognition_vector :
    (offered ⟨false, some 31, false, false⟩ 0x202).shutdown = false ∧
    (offered ⟨false, some 31, false, false⟩ 0x202).intShadow = false ∧
    (askEnvironment (offered ⟨false, some 31, false, false⟩ 0x202)).pendingSMI = false ∧
    (askEnvironment (offered ⟨false, some 31, false, false⟩ 0x202)).pendingMC = false ∧
    (askEnvironment (offered ⟨false, some 31, false, false⟩ 0x202)).pendingNMI = false ∧
    (askEnvironment (offered ⟨false, some 31, false, false⟩ 0x202)).pendingINTR = some 31 ∧ (31 : Byte) < 32 := by decide
theorem witness_EventRecognition_latch :
    (masked.ext = ⟨false, some 255, false, false⟩ :: [] ∧ masked.pendingINTR = none ∧ masked.waitingINTR = []) ∧
    ({ masked with waitingINTR := [0x40] }.pendingINTR = none ∧
      { masked with waitingINTR := [0x40] }.waitingINTR = 0x40 :: []) ∧
    { masked with pendingINTR := some 0x40 }.pendingINTR = some 0x40 ∧
    (base.ext = [] ∧ base.waitingINTR = []) := by decide
theorem witness_SmiRefused : (offered ⟨false, none, true, false⟩ 2).shutdown = false ∧
    (offered ⟨false, none, true, false⟩ 2).intShadow = false ∧
    (offered ⟨false, none, true, false⟩ 2).ext = [⟨false, none, true, false⟩] := by decide
/-- Directly after POP SS, with an NMI in the environment. -/
def shadowed : State := { fetching [0x50] with intShadow := true, ext := [⟨true, none, false, false⟩] }
theorem witness_PopSsShadow : shadowed.shutdown = false ∧ shadowed.intShadow = true ∧
    decode (codeD shadowed) (fetchWindow { shadowed with intShadow := false }).1 = .ok (.pushR .w32 .eax, 1) :=
  ⟨rfl, rfl, by rfl⟩
/-- PUSH imm8 whose immediate at 4001H the run has stored. -/
def stored : State := { fetching [0x6A, 0x80] with written := [0x4001] }
theorem witness_SelfModifyingCodeRefused : AtFetch stored stored ∧ [(0x6A : Byte)].length < Config.maxInstrLength ∧
    (∀ k b, [(0x6A : Byte)][k]? = some b → fetchByte stored k = .ok b) ∧
    decode (codeD stored) [0x6A] = .error .truncated ∧ fetchSlot stored 1 = .ok 0x4001 ∧
    (0x4001 : Dword).toNat ∈ stored.written := by
  refine ⟨atFetch_of (s := stored) rfl rfl rfl, by decide, fun k b h => ?_, rfl, gives_ok (by decide), by decide⟩
  match k with
  | 0 => cases h; exact gives_ok (by decide)
  | k + 1 => cases h
theorem witness_ModeFixed : step (fetching [0x50]) = .next (stateAfter (step (fetching [0x50]))) :=
  next_of (by decide)
theorem witness_StepKeepsInv : Inv (fetching [0x50]) ∧
    step (fetching [0x50]) = .next (stateAfter (step (fetching [0x50]))) :=
  ⟨⟨by decide, by decide, by decide, by decide, by decide, by decide, by decide⟩, next_of (by decide)⟩
theorem witness_LittleEndian : (4 ≤ 4) ∧ Outside 0xFFFFFFFD 4 1 ∧ ¬ Outside 0xFFFFFFFD 4 0 := by
  unfold Outside; decide
theorem witness_OffsetSpaceTop_above : 2 ^ 32 < (0xFFFFFFFD : Dword).toNat + 4 ∧
    2 ^ 16 < (0xFFFF : Dword).toNat + 2 := by decide
theorem witness_OffsetSpaceTop_below : (0xFFFFFFFC : Dword).toNat + 4 ≤ 2 ^ 32 ∧ (0xFFFE : Dword).toNat + 2 ≤ 2 ^ 16 ∧
    Flat base.ss ∧ base.segTraps = [] ∧ base.params.segVerdict = [] :=
  ⟨by decide, by decide, ⟨flat 0, rfl, rfl, rfl, rfl, rfl⟩, rfl, rfl⟩
/-- A segment of 4 KiB at 10000H. -/
def page : SegDesc := { flat 0 with base := 0x10000, limit := 0xFFF }
/-- The run's own verdicts on the doubleword at SS:FFC, and none on the one at SS:FF8. -/
def verdicts : State :=
  { base with params := { base.params with
      segVerdict := [(⟨0x10, 0xFFC, 4, .stackWrite⟩, .raises (.pf 2)), (⟨0x10, 0xFFC, 4, .stackRead⟩, .linear 0x5FFC)] } }
theorem witness_SegmentChecks_verdict :
    verdicts.params.segVerdict.lookup ⟨verdicts.ss.sel, 0xFFC, 4, .stackWrite⟩ = some (.raises (.pf 2)) ∧
    verdicts.params.segVerdict.lookup ⟨verdicts.ss.sel, 0xFFC, 4, .stackRead⟩ = some (.linear 0x5FFC) ∧
    verdicts.params.segVerdict.lookup ⟨verdicts.ss.sel, 0xFF8, 4, .stackWrite⟩ = none := by decide
theorem witness_SegmentChecks_fails : (noEs base).es.desc = none ∧ { page with present := false }.present = false ∧
    (AccessKind.stackWrite.isWrite = true ∧ { page with writable := false }.writable = false ∧ page.present = true) ∧
    page.limit.toNat < (0xFFD : Dword).toNat + 4 - 1 ∧
    base.params.segVerdict.lookup ⟨0x10, 0xFFD, 4, .stackWrite⟩ = none := by decide
/-- The level 3 program with AC set, and a paging or an alignment clause on the last word of the page, behind one on
reads. -/
def onReads : SegTrap := ⟨some .stackRead, 0, 0xFFFFFFFF, .pageFault 0⟩
def trapped (e : TrapExc) : State :=
  { at3 0x4000 0x2000 with eflags := 0x40202, segTraps := [onReads, ⟨none, 0x10FFE, 0x10FFF, e⟩] }
theorem witness_SegmentChecks_clauses : page.present = true ∧ page.writable = true ∧
    (0xFFC : Dword).toNat + 4 - 1 ≤ page.limit.toNat ∧
    (trapped (.pageFault 2)).segTraps = [onReads] ++ ⟨none, 0x10FFE, 0x10FFF, .pageFault 2⟩ :: [] ∧
    (∀ x ∈ [onReads], x.kind ≠ none ∧ x.kind ≠ some .stackWrite) ∧
    ((0x10FFE : Dword) ≤ page.base + 0xFFC + BitVec.ofNat 32 3 ∧
      page.base + 0xFFC + BitVec.ofNat 32 3 ≤ (0x10FFF : Dword)) ∧
    ((trapped .alignment).segTraps = [onReads] ++ ⟨none, 0x10FFE, 0x10FFF, .alignment⟩ :: [] ∧
      AccessKind.stackWrite ≠ .fetch ∧ flagAC (trapped .alignment).eflags = true ∧ (trapped .alignment).cpl = 3 ∧
      (0xFFD : Dword).toNat + 2 - 1 ≤ page.limit.toNat ∧ (page.base + 0xFFD).toNat % 2 ≠ 0 ∧
      (0x10FFE : Dword) ≤ page.base + 0xFFD + BitVec.ofNat 32 1 ∧
      page.base + 0xFFD + BitVec.ofNat 32 1 ≤ (0x10FFF : Dword)) ∧
    base.segTraps = [] := by decide
theorem witness_MisalignedPush : Flat base.ss ∧ wideStack base = true ∧ base.segTraps = [] ∧
    base.params.segVerdict = [] ∧ 4 ≤ (at0 0x4000 0x1001).regs.esp.toNat ∧ (at0 0x4000 0).regs.esp = 0 ∧
    4 ≤ (at0 0x4000 4).regs.esp.toNat :=
  ⟨⟨flat 0, rfl, rfl, rfl, rfl, rfl⟩, rfl, rfl, rfl, by decide, rfl, by decide⟩
/-- A 16-bit stack whose SP is 0. -/
def narrow : State := { at0 0x4000 0x12340000 with ss := ⟨0x10, some { flat 0 with big := false }⟩ }
theorem witness_StackPointerArithmetic : (∃ t, push 4 1 base = .ok t) ∧ (∃ v t, pop 4 base = .ok (v, t)) ∧
    wideStack base = true ∧ (∃ t, push 4 1 narrow = .ok t) ∧ (∃ v t, pop 2 narrow = .ok (v, t)) ∧
    wideStack narrow = false := ⟨⟨_, rfl⟩, ⟨_, _, rfl⟩, rfl, ⟨_, rfl⟩, ⟨_, _, rfl⟩, rfl⟩

theorem witness_PushValue : pushValue (.pushSs .w32) base = some (.w32, 0x10) ∧
    stackSlot base (pushOffset 4 0 base) 4 .stackWrite = .ok 0xFFC ∧
    pushValue .pushf (shortStack base) = some (.w16, 2) ∧
    stackSlot (shortStack base) (pushOffset 2 0 (shortStack base)) 2 .stackWrite = .error (.exc (.ss 0)) :=
  ⟨rfl, rfl, rfl, rfl⟩
theorem witness_PushOperand : OperandValue .w32 (.mem (atEbx 0x10)) 0 base ∧ OperandValue .w16 (.reg .ebx) 0x2000 base ∧
    stackSlot base (pushOffset 4 0 base) 4 .stackWrite = .ok 0xFFC ∧
    operandSlot (noEs base) viaEs 0 4 .dataRead = .error (.exc (.gp 0)) ∧
    OperandValue .w32 (.reg .ebx) 0x2000 (shortStack base) ∧
    stackSlot (shortStack base) (pushOffset 4 0 (shortStack base)) 4 .stackWrite = .error (.exc (.ss 0)) :=
  ⟨Exists.intro 0x2010 ⟨rfl, rfl⟩, rfl, rfl, rfl, rfl, rfl⟩
theorem witness_PopRegister : stackSlot (topped 7) (stackPtr (topped 7)) 4 .stackRead = .ok 0xFFC ∧
    stackSlot (shortStack base) (stackPtr (shortStack base)) 4 .stackRead = .error (.exc (.ss 0)) := ⟨rfl, rfl⟩
theorem witness_PopOperand : stackSlot (topped 7) (stackPtr (topped 7)) 4 .stackRead = .ok 0xFFC ∧
    operandSlot { topped 7 with regs := movedRegs 4 (topped 7) } ⟨none, .a32 (some .esp) none 0⟩ 0 4 .dataWrite =
      .ok 0x1000 ∧
    stackSlot (noEs (topped 7)) (stackPtr (noEs (topped 7))) 4 .stackRead = .ok 0xFFC ∧
    operandSlot { noEs (topped 7) with regs := movedRegs 4 (noEs (topped 7)) } viaEs 0 4 .dataWrite =
      .error (.exc (.gp 0)) := ⟨rfl, rfl, rfl, rfl⟩
theorem witness_PopDataSegment : stackSlot (topped 0x23) (stackPtr (topped 0x23)) 4 .stackRead = .ok 0xFFC ∧
    (0x23 : Word) = ((topped 0x23).mem.loadLE 0xFFC 4).setWidth 16 ∧
    SegLoaded (topped 0x23) (topped 0x23).fs 0x23 ⟨0x23, some (flat 3)⟩ ∧
    SegLoaded (topped 3) (topped 3).es 3 ⟨3, none⟩ ∧ SegLoaded (real 0xFFC) (real 0xFFC).ds 5 (realSegment 5 (real 0xFFC).ds) :=
  ⟨rfl, by decide, Or.inr ⟨rfl, flat 3, Or.inl rfl, by decide, by decide, rfl⟩, Or.inl ⟨rfl, rfl⟩, rfl⟩
theorem witness_PopStackSegment : stackSlot (topped 0x10) (stackPtr (topped 0x10)) 4 .stackRead = .ok 0xFFC ∧
    StackSegLoaded (topped 0x10) (((topped 0x10).mem.loadLE 0xFFC 4).setWidth 16) ⟨0x10, some (flat 0)⟩ :=
  ⟨rfl, Exists.intro (flat 0) (by
    rw [show (((topped 0x10).mem.loadLE 0xFFC 4).setWidth 16 : Word) = 0x10 by decide]
    exact ⟨rfl, rfl, rfl, rfl, rfl, rfl⟩)⟩
theorem witness_PopSegmentChecks : Instr.popFs .w32 ∈ [.popEs .w32, .popDs .w32, .popFs .w32, .popGs .w32, .popSs .w32] ∧
    (topped 0x28).mode = .protectedMode ∧
    stackSlot (topped 0x28) (stackPtr (topped 0x28)) 4 .stackRead = .ok 0xFFC ∧
    (0x28 : Word) = ((topped 0x28).mem.loadLE 0xFFC 4).setWidth 16 ∧ isNull 0x28 = false ∧ isNull 4 = false ∧
    gdtLookup (topped 0x28) 0x28 = .error (.exc (.np 0x28)) ∧ gdtLookup (topped 4) 4 = .error (.exc (.gp 4)) ∧
    stackSegment (topped 0x28) .gp 0 0x28 = .error (.exc (.ss 0x28)) ∧
    stackSegment (topped 0x40) .gp 0 0x40 = .error (.exc (.gp 0x40)) ∧
    gdtLookup (topped 0x30) 0x30 = .ok (.callGate ⟨⟨3, true⟩, 8, 0x5000, 2⟩) ∧
    gdtLookup (topped 0x38) 0x38 = .ok (.taskGate ⟨3, true⟩) ∧ gdtLookup (topped 0x58) 0x58 = .ok (.tss ⟨0, true⟩) ∧
    stackSlot (shortStack base) (stackPtr (shortStack base)) 4 .stackRead = .error (.exc (.ss 0)) :=
  ⟨by decide, rfl, rfl, by decide, rfl, rfl, rfl, rfl, rfl, rfl, rfl, rfl, rfl, rfl⟩
theorem witness_PopSegmentChecks_privilege : (setMem 0x2000 0x10 (at3 0x4000 0x2000)).mode = .protectedMode ∧
    stackSlot (setMem 0x2000 0x10 (at3 0x4000 0x2000)) (stackPtr (setMem 0x2000 0x10 (at3 0x4000 0x2000))) 4
      .stackRead = .ok 0x2000 ∧
    (0x10 : Word) = ((setMem 0x2000 0x10 (at3 0x4000 0x2000)).mem.loadLE 0x2000 4).setWidth 16 ∧
    gdtLookup (setMem 0x2000 0x10 (at3 0x4000 0x2000)) 0x10 = .ok (.data (flat 0)) ∧
    (flat 0).dpl < (setMem 0x2000 0x10 (at3 0x4000 0x2000)).cpl := ⟨rfl, rfl, by decide, rfl, by decide⟩
theorem witness_PushAllRegisters : CanPush 4 8 (down 0xFFC 4) base ∧ CanPush 2 8 (down 0xFFE 2) base :=
  ⟨canPush_of (by decide), canPush_of (by decide)⟩
/-- A stack that ends at 7FFH with ESP near 0: from 8, the third slot is at FFFFFFFCH. -/
def shallow (esp : Dword) : State := shortStack (at0 0x4000 esp)
theorem pushFails_of {n count j : Nat} {slot : Nat → Dword} {e : Exc} {s : State} (hj : j < count)
    (h : (List.range j).all (fun j => gives (stackSlot s (pushOffset n j s) n .stackWrite) (slot j)) = true)
    (he : stackSlot s (pushOffset n j s) n .stackWrite = .error (.exc e)) : PushFails n count j slot e s :=
  ⟨hj, canPush_of h, he⟩
theorem witness_PushAllRegisters_raises : PushFails 4 8 0 (down 0 4) (.ss 0) (shallow 0) ∧
    PushFails 4 8 2 (down 4 4) (.ss 0) (shallow 8) ∧ PushFails 4 8 7 (down 24 4) (.ss 0) (shallow 28) :=
  ⟨pushFails_of (by decide) (by decide) rfl, pushFails_of (by decide) (by decide) rfl,
    pushFails_of (by decide) (by decide) rfl⟩
theorem witness_PopAllRegisters : CanPop 4 0 3 (up 0x1000 4) base ∧ CanPop 4 4 8 (up 0x1000 4) base ∧
    CanPop 2 0 3 (up 0x1000 2) base ∧ CanPop 2 4 8 (up 0x1000 2) base :=
  ⟨canPop_of (by decide), canPop_of (by decide), canPop_of (by decide), canPop_of (by decide)⟩
/-- POPAD at 7E4H of a stack that ends at 7FFH: item 7 is past the limit. -/
def highStack : State := { at0 0x4000 0x7E4 with ss := ⟨0x10, some { flat 0 with limit := 0x7FF }⟩ }
theorem witness_PopAllRegisters_raises : CanPop 4 0 7 (up 0x7E4 4) highStack ∧
    stackSlot highStack (popOffset 4 7 highStack) 4 .stackRead = .error (.exc (.ss 0)) ∧
    stackSlot (shortStack base) (popOffset 4 0 (shortStack base)) 4 .stackRead = .error (.exc (.ss 0)) :=
  ⟨canPop_of (by decide), rfl, rfl⟩
theorem witness_PushaPopa : CanPush 4 8 (down 0xFFC 4) base ∧ AllUntouched 4 8 (down 0xFFC 4) base ∧
    (∀ k < 8, stackSlot base (pushOffset 4 k base) 4 .stackRead = .ok (down 0xFFC 4 k)) :=
  ⟨canPush_of (by decide), fun _ _ => .inl rfl, canPush_of (s := base) (by decide)⟩
theorem witness_PopFlags : stackSlot (topped 2) (stackPtr (topped 2)) 2 .stackRead = .ok 0xFFC ∧
    stackSlot (topped 2) (stackPtr (topped 2)) 4 .stackRead = .ok 0xFFC ∧
    stackSlot (shortStack base) (stackPtr (shortStack base)) 2 .stackRead = .error (.exc (.ss 0)) ∧
    stackSlot (shortStack base) (stackPtr (shortStack base)) 4 .stackRead = .error (.exc (.ss 0)) := ⟨rfl, rfl, rfl, rfl⟩
/-- A run whose masks admit everything. -/
def allMasks : State :=
  { base with params := { base.params with
      flagMask := [(⟨.popf, 0, 2⟩, 0xFFFFFFFF), (⟨.popfd, 0, 2⟩, 0xFFFFFFFF), (⟨.iret, 0, 2⟩, 0xFFFFFFFF)] } }
theorem witness_FlagMasks : (0 < 32) ∧ (31 < 32) ∧ base.params.flagMask = [] ∧
    allMasks.params.flagMask.lookup ⟨.popf, allMasks.cpl, allMasks.eflags⟩ = some 0xFFFFFFFF ∧
    allMasks.params.flagMask.lookup ⟨.popfd, allMasks.cpl, allMasks.eflags⟩ = some 0xFFFFFFFF ∧
    allMasks.params.flagMask.lookup ⟨.iret, allMasks.cpl, allMasks.eflags⟩ = some 0xFFFFFFFF := by decide
theorem witness_FlagsUnchanged : exec (.intImm 0x40) (gate 0x40 .interrupt 0x3100 base) =
      .next (stateAfter (exec (.intImm 0x40) (gate 0x40 .interrupt 0x3100 base))) ∧
    writesFlags (.intImm 0x40) = false := ⟨next_of (by decide), rfl⟩

/-! ### CALL and RET -/

theorem witness_NearCall : NearTarget (.callRel .w32 (-7)) .w32 0x3FF9 base ∧
    NearTarget (.callRM .w16 (.reg .ebx)) .w16 0x2000 base ∧ codeLimit base = some 0xFFFFFFFF ∧
    (0x3FF9 : Dword) ≤ 0xFFFFFFFF ∧ stackSlot base (pushOffset 4 0 base) 4 .stackWrite = .ok 0xFFC ∧
    stackSlot (shortStack base) (pushOffset 4 0 (shortStack base)) 4 .stackWrite = .error (.exc (.ss 0)) ∧
    operandSlot (noEs base) viaEs 0 4 .dataRead = .error (.exc (.gp 0)) :=
  ⟨And.intro rfl rfl, And.intro rfl rfl, rfl, by decide, rfl, rfl, rfl⟩
/-- A code segment that ends just before the target. -/
def shortCode (s : State) : State := { s with cs := ⟨8, some { flat 0 with limit := 0x1FFF }⟩ }
theorem witness_NearCall_limit : NearTarget (.callRM .w32 (.reg .ebx)) .w32 0x2000 (shortCode base) ∧
    codeLimit (shortCode base) = some 0x1FFF ∧ (0x1FFF : Dword) < 0x2000 := ⟨And.intro rfl rfl, rfl, by decide⟩
theorem witness_NearReturn : nearReturnForm (.retImm .w32 4) = some (.w32, 4) ∧
    codeLimit (shortCode (topped 0x1FFF)) = some 0x1FFF ∧
    stackSlot (shortCode (topped 0x1FFF)) (stackPtr (shortCode (topped 0x1FFF))) 4 .stackRead = .ok 0xFFC ∧
    (shortCode (topped 0x1FFF)).mem.loadLE 0xFFC 4 ≤ 0x1FFF ∧
    (0x1FFF : Dword) < (shortCode (topped 0x2000)).mem.loadLE 0xFFC 4 ∧
    stackSlot (shortStack base) (stackPtr (shortStack base)) 4 .stackRead = .error (.exc (.ss 0)) :=
  ⟨rfl, rfl, rfl, by decide, by decide, rfl⟩
theorem witness_CallThenRet : NearTarget (.callRM .w32 (.reg .ebx)) .w32 0x2000 base ∧
    codeLimit base = some 0xFFFFFFFF ∧ (0x2000 : Dword) ≤ 0xFFFFFFFF ∧ truncSize .w32 base.pcNext ≤ 0xFFFFFFFF ∧
    stackSlot base (pushOffset 4 0 base) 4 .stackWrite = .ok 0xFFC ∧
    stackSlot base (pushOffset 4 0 base) 4 .stackRead = .ok 0xFFC := ⟨And.intro rfl rfl, rfl, by decide, by decide, rfl, rfl⟩
/-- The six bytes of V-FC4 at DS:2000. -/
def pointer : State := setMem 0x2000 0x4010 (setMem 0x2004 8 base)
theorem witness_FarCallDirect : FarTarget (.callMem .w32 (atEbx 0)) .w32 8 0x4010 pointer ∧
    FarTarget (.callPtr .w16 8 0x4010) .w16 8 0x4010 pointer ∧ pointer.mode = .protectedMode ∧
    gdtLookup pointer 8 = .ok (.code (flat 0)) ∧ (flat 0).dpl = pointer.cpl ∧ CanPush 4 2 (down 0xFFC 4) pointer ∧
    CanPush 2 2 (down 0xFFE 2) pointer :=
  ⟨And.intro rfl ⟨0x2000, 0x2004, rfl, rfl, by decide, by decide⟩, And.intro rfl ⟨rfl, rfl⟩, rfl, rfl, rfl,
    canPush_of (by decide), canPush_of (by decide)⟩
/-- The push of CS, then the push of EIP, that raises. -/
theorem witness_FarCallDirect_raises : FarTarget (.callPtr .w32 8 0x4010) .w32 8 0x4010 (shallow 4) ∧
    (shallow 4).mode = .protectedMode ∧ gdtLookup (shallow 4) 8 = .ok (.code (flat 0)) ∧
    (flat 0).dpl = (shallow 4).cpl ∧ PushFails 4 2 1 (down 0 4) (.ss 0) (shallow 4) ∧
    PushFails 4 2 0 (down 0 4) (.ss 0) (shallow 0) :=
  ⟨And.intro rfl ⟨rfl, rfl⟩, rfl, rfl, rfl, pushFails_of (by decide) (by decide) rfl,
    pushFails_of (by decide) (by decide) rfl⟩
/-- Real-address mode with a stack that ends at 7FFH. -/
def realShort (sp : Dword) : State := { real sp with ss := ⟨0, some { flat 0 with limit := 0x7FF, big := false }⟩ }
theorem witness_FarCallReal : FarTarget (.callPtr .w16 0x4000 0x10) .w16 0x4000 0x10 (real 0x1000) ∧
    (real 0x1000).mode = .realMode ∧ CanPush 2 2 (down 0xFFE 2) (real 0x1000) ∧
    FarTarget (.callPtr .w16 0x4000 0x10) .w16 0x4000 0x10 (realShort 2) ∧ (realShort 2).mode = .realMode ∧
    PushFails 2 2 1 (down 0 2) (.ss 0) (realShort 2) ∧ PushFails 2 2 0 (down 0 2) (.ss 0) (realShort 0) :=
  ⟨And.intro rfl ⟨rfl, rfl⟩, rfl, canPush_of (by decide), And.intro rfl ⟨rfl, rfl⟩, rfl,
    pushFails_of (by decide) (by decide) rfl, pushFails_of (by decide) (by decide) rfl⟩
/-- Every clause of FarCallChecks at level 0 or 3, with the selector that meets it. -/
theorem witness_FarCallChecks : FarTarget (.callPtr .w32 0x28 0) .w32 0x28 0 base ∧ base.mode = .protectedMode ∧
    gdtLookup base 0x28 = .error (.exc (.np 0x28)) ∧ gdtLookup base 0 = .error (.exc (.gp 0)) ∧
    (gdtLookup base 0x18 = .ok (.code (flat 3)) ∧ (flat 3).dpl ≠ base.cpl) ∧
    gdtLookup base 0x10 = .ok (.data (flat 0)) ∧
    gdtLookup base 0x38 = .ok (.taskGate ⟨3, true⟩) ∧ gdtLookup base 0x58 = .ok (.tss ⟨0, true⟩) :=
  ⟨And.intro rfl ⟨rfl, rfl⟩, rfl, rfl, rfl, ⟨rfl, by decide⟩, rfl, rfl, rfl⟩
/-- A gate whose level is below the selector's RPL, gates to a segment not present, to a data segment and to a less
privileged one. -/
theorem witness_FarCallChecks_gate :
    (gdtLookup base 0x51 = .ok (.callGate ⟨⟨0, true⟩, 8, 0x5000, 0⟩) ∧
      gateAllows base (.call ⟨⟨0, true⟩, 8, 0x5000, 0⟩ 0x51 base.cpl) = false) ∧
    (gdtLookup base 0x60 = .ok (.callGate ⟨⟨3, true⟩, 0x68, 0x5000, 0⟩) ∧
      gateAllows base (.call ⟨⟨3, true⟩, 0x68, 0x5000, 0⟩ 0x60 base.cpl) = true ∧
      codeSegment base 0x68 = .error (.exc (.np 0x68))) ∧
    (gdtLookup base 0x70 = .ok (.callGate ⟨⟨3, true⟩, 0x10, 0x5000, 0⟩) ∧
      gateAllows base (.call ⟨⟨3, true⟩, 0x10, 0x5000, 0⟩ 0x70 base.cpl) = true ∧
      codeSegment base 0x10 = .error (.exc (.gp 0x10))) ∧
    (gdtLookup base 0x48 = .ok (.callGate ⟨⟨3, true⟩, 0x18, 0x5000, 0⟩) ∧
      gateAllows base (.call ⟨⟨3, true⟩, 0x18, 0x5000, 0⟩ 0x48 base.cpl) = true ∧
      codeSegment base 0x18 = .ok (flat 3) ∧ base.cpl < (flat 3).dpl) :=
  ⟨⟨rfl, rfl⟩, ⟨rfl, rfl, rfl⟩, ⟨rfl, rfl, rfl⟩, ⟨rfl, rfl, rfl, by decide⟩⟩
/-- DS ends after the doubleword at 2000H. -/
def shortData (s : State) : State := { s with ds := ⟨0x10, some { flat 0 with limit := 0x2003 }⟩ }
theorem witness_FarCallChecks_lookup : PairReadFails 4 2 viaEs (.gp 0) (noEs base) ∧
    PairReadFails 4 2 (atEbx 0) (.gp 0) (shortData base) ∧ descriptorOf base 0 = none ∧
    (descriptorOf base 0x68 = some (.code { flat 0 with present := false }) ∧
      (Descriptor.code { flat 0 with present := false }).present = false) ∧
    (descriptorOf base 0x10 = some (.data (flat 0)) ∧ (Descriptor.data (flat 0)).present = true ∧
      ∀ d, Descriptor.data (flat 0) ≠ .code d) ∧
    (descriptorOf base 8 = some (.code (flat 0)) ∧ (flat 0).present = true) ∧ base.params.gateCheck = [] :=
  ⟨Or.inl rfl, Or.inr ⟨⟨0x2000, rfl⟩, rfl⟩, rfl, ⟨rfl, rfl⟩, ⟨rfl, rfl, fun _ h => by cases h⟩, ⟨rfl, rfl⟩, rfl⟩
theorem witness_GateCallSameLevel : FarTarget (.callPtr .w32 0x30 0) .w32 0x30 0 base ∧ base.mode = .protectedMode ∧
    gdtLookup base 0x30 = .ok (.callGate ⟨⟨3, true⟩, 8, 0x5000, 2⟩) ∧
    gateAllows base (.call ⟨⟨3, true⟩, 8, 0x5000, 2⟩ 0x30 base.cpl) = true ∧
    codeSegment base 8 = .ok (flat 0) ∧ (flat 0).dpl = base.cpl ∧ CanPush 4 2 (down 0xFFC 4) base ∧
    gdtLookup (shallow 4) 0x30 = .ok (.callGate ⟨⟨3, true⟩, 8, 0x5000, 2⟩) ∧
    PushFails 4 2 1 (down 0 4) (.ss 0) (shallow 4) :=
  ⟨And.intro rfl ⟨rfl, rfl⟩, rfl, rfl, rfl, rfl, rfl, canPush_of (by decide), rfl,
    pushFails_of (by decide) (by decide) rfl⟩
/-- V-GC1. -/
theorem witness_GateCallInward : FarTarget (.callPtr .w32 0x33 0) .w32 0x33 0 (at3 0x4000 0x2000) ∧
    (at3 0x4000 0x2000).mode = .protectedMode ∧
    gdtLookup (at3 0x4000 0x2000) 0x33 = .ok (.callGate ⟨⟨3, true⟩, 8, 0x5000, 2⟩) ∧
    gateAllows (at3 0x4000 0x2000) (.call ⟨⟨3, true⟩, 8, 0x5000, 2⟩ 0x33 3) = true ∧
    codeSegment (at3 0x4000 0x2000) 8 = .ok (flat 0) ∧
    (flat 0).dpl < (at3 0x4000 0x2000).cpl ∧
    stackSegment (at3 0x4000 0x2000) .ts 0 (tssStack (at3 0x4000 0x2000) 0).ss = .ok (flat 0) ∧
    CanPush 4 (4 + (2 : BitVec 5).toNat) (down 0x8FFC 4) (entryStack 0 (flat 0) (at3 0x4000 0x2000)) ∧
    (∀ k < (2 : BitVec 5).toNat, translate (entryStack 0 (flat 0) (at3 0x4000 0x2000)) true (at3 0x4000 0x2000).ss
      (!wideStack (at3 0x4000 0x2000)) (wrapStack (at3 0x4000 0x2000)
        (stackPtr (at3 0x4000 0x2000) + BitVec.ofNat 32 (4 * k))) 4 .stackRead = .ok (up 0x2000 4 k)) ∧
    (∀ k < (2 : BitVec 5).toNat, ∀ b < 4, ∀ j < 4 + (2 : BitVec 5).toNat,
      Outside (down 0x8FFC 4 j) 4 (up 0x2000 4 k + BitVec.ofNat 32 b).toNat) := by
  refine ⟨And.intro rfl ⟨rfl, rfl⟩, rfl, rfl, rfl, rfl, by decide, rfl,
    canPush_of (by decide), fun k hk => ?_, by unfold Outside; decide⟩
  match k, hk with
  | 0, _ => exact gives_ok (by decide)
  | 1, _ => exact gives_ok (by decide)
  | k + 2, h => exact absurd h (by simp)
def soft : Event := ⟨0x40, .software, none⟩
/-- The level 3 program of V-IN13 with a TSS stack of ESP 4, which is fit where `ss` is 78H. -/
def badTss (ss : Word) : State := { gate 0x40 .interrupt 0x6000 (at3 0x4000 0x2000) with tss0 := ⟨ss, 4⟩ }
theorem witness_StackSwitchChecks_segment : descriptorOf base 0 = none ∧
    (descriptorOf base 8 = some (.code (flat 0)) ∧ ∀ d, Descriptor.code (flat 0) ≠ .data d) ∧
    (descriptorOf base 0x58 = some (.tss ⟨0, true⟩) ∧ ∀ d, Descriptor.tss ⟨0, true⟩ ≠ .data d) ∧
    (descriptorOf base 0x40 = some (.data { flat 0 with writable := false }) ∧
      { flat 0 with writable := false }.writable = false) ∧
    (descriptorOf base 0x28 = some (.data { flat 0 with present := false }) ∧ rpl 0x28 = 0 ∧
      { flat 0 with present := false }.present = false) :=
  ⟨rfl, ⟨rfl, fun _ h => by cases h⟩, ⟨rfl, fun _ h => by cases h⟩, ⟨rfl, rfl⟩, ⟨rfl, rfl, rfl⟩⟩
theorem witness_StackSwitchChecks_call :
    FarTarget (.callPtr .w32 0x33 0) .w32 0x33 0 (badTss 0x23) ∧ (badTss 0x23).mode = .protectedMode ∧
    gdtLookup (badTss 0x23) 0x33 = .ok (.callGate ⟨⟨3, true⟩, 8, 0x5000, 2⟩) ∧
    gateAllows (badTss 0x23) (.call ⟨⟨3, true⟩, 8, 0x5000, 2⟩ 0x33 (badTss 0x23).cpl) = true ∧
    codeSegment (badTss 0x23) 8 = .ok (flat 0) ∧ (flat 0).dpl < (badTss 0x23).cpl ∧
    stackSegment (badTss 0x23) .ts 0 (tssStack (badTss 0x23) 0).ss = .error (.exc (.ts 0x20)) ∧
    stackSegment (badTss 0x28) .ts 0 (tssStack (badTss 0x28) 0).ss = .error (.exc (.ss 0x28)) ∧
    stackSegment (badTss 0x78) .ts 0 (tssStack (badTss 0x78) 0).ss = .ok { flat 0 with limit := 0x7FF } ∧
    PushFails 4 2 1 (down 0 4) (.ss 0) (entryStack 0 { flat 0 with limit := 0x7FF } (badTss 0x78)) :=
  ⟨And.intro rfl ⟨rfl, rfl⟩, rfl, rfl, rfl, rfl, by decide, rfl, rfl, rfl, pushFails_of (by decide) (by decide) rfl⟩
theorem witness_StackSwitchChecks_event :
    handlerGate soft (badTss 0x78) = .ok (⟨.interrupt, ⟨3, true⟩, 8, 0x6000⟩, flat 0) ∧
    (flat 0).dpl ≠ (badTss 0x78).cpl ∧
    handlerGate soft (badTss 8) = .ok (⟨.interrupt, ⟨3, true⟩, 8, 0x6000⟩, flat 0) ∧
    stackSegment (badTss 8) .ts 0 (tssStack (badTss 8) 0).ss = .error (.exc (.ts 8)) :=
  ⟨gives_ok (by decide), by decide, gives_ok (by decide), rfl⟩
/-- A far return frame: EIP 4007, then the selector. -/
def farFrame (sel : Dword) : State := setMem 0xFF8 0x4007 (setMem 0xFFC sel (at0 0x4010 0xFF8))
theorem witness_FarReturnSameLevel : farReturnForm (.retfImm .w32 8) = some (.w32, 8) ∧
    CanPop 4 0 2 (up 0xFF8 4) (farFrame 8) ∧ (farFrame 8).mode = .protectedMode ∧
    ((farFrame 8).mem.loadLE (up 0xFF8 4 1) 4).setWidth 16 = (8 : Word) ∧ rpl 8 = (farFrame 8).cpl ∧
    codeSegment (farFrame 8) 8 = .ok (flat 0) ∧
    CanPop 2 0 2 (up 0xFFC 2) (real 0xFFC) ∧ (real 0xFFC).mode = .realMode :=
  ⟨rfl, canPop_of (by decide), rfl, by decide, rfl, rfl, canPop_of (by decide), rfl⟩
theorem popFails_of {n hi j : Nat} {slot : Nat → Dword} {e : Exc} {s : State} (hj : j < hi)
    (h : (List.range j).all (fun j => gives (stackSlot s (popOffset n j s) n .stackRead) (slot j)) = true)
    (he : stackSlot s (popOffset n j s) n .stackRead = .error (.exc e)) : PopFails n hi j slot e s :=
  ⟨hj, canPop_of h, he⟩
/-- R169: a return to the same level asks no `P_GATECHECK`, so level 3 code named with RPL 0 is returned to. -/
theorem test_same_level_no_check : after (run [0xCB] (farFrame 0x18)) (fun t => t.cs.sel == 0x18 && t.eip == 0x4007) := by
  decide
/-- A selector with no record; the second item past the limit, then the first. -/
theorem witness_FarReturnSameLevel_stops : ((farFrame 0).mem.loadLE (up 0xFF8 4 1) 4).setWidth 16 = (0 : Word) ∧
    codeSegment (farFrame 0) 0 = .error (.exc (.gp 0)) ∧
    PopFails 4 2 1 (up 0x7FC 4) (.ss 0) (shallow 0x7FC) ∧ PopFails 4 2 0 (up 0 4) (.ss 0) (shallow 0x800) :=
  ⟨by decide, rfl, popFails_of (by decide) (by decide) rfl, popFails_of (by decide) (by decide) rfl⟩
/-- V-FC7's start. -/
theorem witness_FarReturnSameLevel_inward : CanPop 4 0 2 (up 0x2000 4) (setMem 0x2004 8 (at3 0x4000 0x2000)) ∧
    (setMem 0x2004 8 (at3 0x4000 0x2000)).mode = .protectedMode ∧
    rpl (((setMem 0x2004 8 (at3 0x4000 0x2000)).mem.loadLE (up 0x2000 4 1) 4).setWidth 16) <
      (setMem 0x2004 8 (at3 0x4000 0x2000)).cpl := ⟨canPop_of (by decide), rfl, by decide⟩
/-- V-GC2's start: ESP and SS above the 8 released bytes. -/
theorem witness_FarReturnOutward : farReturnForm (.retfImm .w32 8) = some (.w32, 8) ∧ inner.mode = .protectedMode ∧
    CanPop 4 0 2 (up 0x8FE8 4) inner ∧ (inner.mem.loadLE (up 0x8FE8 4 1) 4).setWidth 16 = (0x1B : Word) ∧
    inner.cpl < rpl 0x1B ∧ codeSegment inner 0x1B = .ok (flat 3) ∧
    inner.params.gateCheck = [] ∧ gateAllows inner (.ret (flat 3) 0x1B inner.cpl) = true ∧
    stackSlot inner (wrapStack inner (stackPtr inner + BitVec.ofNat 32 (2 * 4) + 8)) 4 .stackRead = .ok 0x8FF8 ∧
    stackSlot inner (wrapStack inner (stackPtr inner + BitVec.ofNat 32 (2 * 4) + 8 + BitVec.ofNat 32 4)) 4 .stackRead =
      .ok 0x8FFC ∧
    (inner.mem.loadLE 0x8FFC 4).setWidth 16 = (0x23 : Word) ∧ stackSegment inner .gp (rpl 0x1B) 0x23 = .ok (flat 3) :=
  ⟨rfl, rfl, canPop_of (by decide), by decide, by decide, rfl, rfl, rfl, rfl, rfl, by decide, rfl⟩
/-- The frame of V-GC1 with another selector, another outer SS, or a stack segment that ends within the outer items. -/
def innerSel (v : Dword) : State := setMem 0x8FEC v inner
def innerEnds (limit : Dword) : State := { inner with ss := ⟨0x10, some { flat 0 with limit := limit }⟩ }
theorem witness_FarReturnOutward_stops :
    (((innerSel 0x13).mem.loadLE (up 0x8FE8 4 1) 4).setWidth 16 = (0x13 : Word) ∧ inner.cpl < rpl 0x13 ∧
      codeSegment (innerSel 0x13) 0x13 = .error (.exc (.gp 0x10))) ∧
    (((innerSel 0x0B).mem.loadLE (up 0x8FE8 4 1) 4).setWidth 16 = (0x0B : Word) ∧ inner.cpl < rpl 0x0B ∧
      codeSegment (innerSel 0x0B) 0x0B = .ok (flat 0) ∧ gateAllows (innerSel 0x0B) (.ret (flat 0) 0x0B 0) = false) ∧
    stackSlot (innerEnds 0x8FFA) (wrapStack (innerEnds 0x8FFA) (stackPtr (innerEnds 0x8FFA) + BitVec.ofNat 32 (2 * 4) +
      8)) 4 .stackRead = .error (.exc (.ss 0)) ∧
    stackSlot (innerEnds 0x8FFB) (wrapStack (innerEnds 0x8FFB) (stackPtr (innerEnds 0x8FFB) + BitVec.ofNat 32 (2 * 4) +
      8)) 4 .stackRead = .ok 0x8FF8 ∧
    stackSlot (innerEnds 0x8FFB) (wrapStack (innerEnds 0x8FFB) (stackPtr (innerEnds 0x8FFB) + BitVec.ofNat 32 (2 * 4) +
      8 + BitVec.ofNat 32 4)) 4 .stackRead = .error (.exc (.ss 0)) ∧
    (((setMem 0x8FFC 0x13 inner).mem.loadLE 0x8FFC 4).setWidth 16 = (0x13 : Word) ∧
      stackSegment (setMem 0x8FFC 0x13 inner) .gp (rpl 0x1B) 0x13 = .error (.exc (.gp 0x10))) :=
  ⟨⟨by decide, by decide, rfl⟩, ⟨by decide, by decide, rfl, rfl⟩, rfl, rfl, rfl, ⟨by decide, rfl⟩⟩
/-! ### ENTER and LEAVE -/

theorem witness_EnterNonNested : (0x20 : Byte).toNat % 32 = 0 ∧
    stackSlot base (pushOffset 4 0 base) 4 .stackWrite = .ok 0xFFC ∧
    stackSlot narrow (pushOffset 2 0 narrow) 2 .stackWrite = .ok 0xFFFE ∧
    stackSlot (shallow 0) (pushOffset 4 0 (shallow 0)) 4 .stackWrite = .error (.exc (.ss 0)) := ⟨rfl, rfl, rfl, rfl⟩
/-- S1's start. -/
def display : State := setRegs ({ · with ebp := 0x10020 }) (at0 0x4000 0x10000)
theorem witness_EnterNested : 0 < (3 : Byte).toNat % 32 ∧ CanPush 4 (3 + 1) (down 0xFFFC 4) display ∧
    (∀ k < 3 - 1, stackSlot display (wrapStack display (display.regs.ebp - BitVec.ofNat 32 (4 * (k + 1)))) 4
      .stackRead = .ok (down 0x1001C 4 k)) ∧
    (∀ k < 3 - 1, ∀ b < 4, ∀ j < 3 + 1, Outside (down 0xFFFC 4 j) 4 (down 0x1001C 4 k + BitVec.ofNat 32 b).toNat) := by
  refine ⟨by decide, canPush_of (by decide), fun k hk => ?_, by unfold Outside; decide⟩
  match k, hk with
  | 0, _ => exact gives_ok (by decide)
  | 1, _ => exact gives_ok (by decide)
  | k + 2, h => exact absurd h (by omega)
/-- Level 1 copies no frame pointer; level 31 is the highest. -/
theorem witness_EnterNested_ends : 0 < (1 : Byte).toNat % 32 ∧ CanPush 4 (1 + 1) (down 0xFFFC 4) display ∧
    (0xFF : Byte).toNat % 32 = 31 ∧ CanPush 4 (31 + 1) (down 0xFFFC 4) display :=
  ⟨by decide, canPush_of (by decide), rfl, canPush_of (by decide)⟩
theorem witness_Leave : stackSlot display (wrapStack display display.regs.ebp) 4 .stackRead = .ok 0x10020 ∧
    stackSlot (shortStack display) (wrapStack (shortStack display) (shortStack display).regs.ebp) 4 .stackRead =
      .error (.exc (.ss 0)) := ⟨rfl, rfl⟩
theorem witness_EnterThenLeave : CanPush 4 (0 + 1) (down 0xFFFC 4) display ∧
    stackSlot display (pushOffset 4 0 display) 4 .stackRead = .ok 0xFFFC ∧
    wideStack narrow = false ∧ CanPush 2 (0 + 1) (down 0xFFFE 2) narrow ∧
    stackSlot narrow (pushOffset 2 0 narrow) 2 .stackRead = .ok 0xFFFE ∧
    Untouched 4 (0 + 1) 0 (down 0xFFFC 4) display ∧ Untouched 2 (0 + 1) 0 (down 0xFFFE 2) narrow :=
  ⟨canPush_of (by decide), rfl, rfl, canPush_of (by decide), rfl, .inl rfl, .inl rfl⟩

/-! ### Exceptions and interrupts -/

/-- A level 0 program with handlers for 40H and for the faults 6, 8 and 13. -/
def handled : State := gate 0x40 .interrupt 0x3100 (gate 5 .trap 0x3300 (gate 13 .interrupt 0x6000 base))
theorem ready_same : HandlerReady soft ⟨.interrupt, ⟨3, true⟩, 8, 0x3100⟩ (flat 0) (flat 0) (down 0xFFC 4) handled :=
  ⟨rfl, gives_ok (by decide), fun h => absurd rfl h, canPush_of (by decide)⟩
/-- V-IN13: with a stack switch. -/
def crossing : State := gate 0x40 .interrupt 0x6000 (at3 0x4000 0x2000)
theorem ready_inward :
    HandlerReady soft ⟨.interrupt, ⟨3, true⟩, 8, 0x6000⟩ (flat 0) (flat 0) (down 0x8FFC 4) crossing :=
  ⟨rfl, gives_ok (by decide), fun _ => gives_ok (by decide), canPush_of (by decide)⟩
theorem witness_ProtectedEntry :
    HandlerReady soft ⟨.interrupt, ⟨3, true⟩, 8, 0x3100⟩ (flat 0) (flat 0) (down 0xFFC 4) handled ∧
    HandlerReady soft ⟨.interrupt, ⟨3, true⟩, 8, 0x6000⟩ (flat 0) (flat 0) (down 0x8FFC 4) crossing ∧
    HandlerReady (Exc.gp 0x30).event ⟨.interrupt, ⟨3, true⟩, 8, 0x6000⟩ (flat 0) (flat 0) (down 0xFFC 4) handled :=
  ⟨ready_same, ready_inward,
    ⟨rfl, gives_ok (by decide), fun h => absurd rfl h, canPush_of (by decide)⟩⟩
theorem witness_RealEntry : (real 0x1000).mode = .realMode ∧ (real 0x1000).params.errCode = [] ∧
    CanPush 2 (realItems soft (real 0x1000)).length (down 0xFFE 2) (real 0x1000) :=
  ⟨rfl, rfl, canPush_of (by decide)⟩
theorem witness_CallsItsHandler : CallsHandler (.intImm 0x40) soft handled ∧ handled.params.errCode = [] ∧
    handled.params.savedEip = [] ∧
    CallsHandler .into ⟨4, .software, none⟩ (real 0x1000) ∧
    CanPush 2 (realItems ⟨4, .software, none⟩ (real 0x1000)).length (down 0xFFE 2) (real 0x1000) ∧
    CallsHandler .int3 ⟨3, .software, none⟩ handled ∧ CallsHandler .ud2 ⟨6, .fault, none⟩ handled ∧
    CallsHandler (.bound .w32 .eax (atEbx 0)) ⟨5, .fault, none⟩ (bounds 10) ∧
    CallsHandler (.bound .w32 .eax (atEbx 0)) ⟨5, .fault, none⟩ (bounds 0xFFFFFFFF) := by
  refine ⟨rfl, rfl, rfl, And.intro rfl rfl, canPush_of (by decide), rfl, rfl,
    And.intro rfl ⟨0x2000, 0x2004, rfl, rfl, Or.inr ?_⟩,
    And.intro rfl ⟨0x2000, 0x2004, rfl, rfl, Or.inl ?_⟩⟩ <;> decide
/-- 60_exceptions R287, 00_scope R5: the default saves the faulting instruction's address; a run's own answer stands. -/
theorem test_savedEip : savedEip .fault { base with pcNext := 0x4002 } = 0x4000 ∧
    savedEip .fault { base with pcNext := 0x4002, params.savedEip := [(.fault, .next)] } = 0x4002 := by decide
/-- The index on each bound. -/
theorem witness_NoHandlerCalled : flagOF base.eflags = false ∧
    operandSlot (bounds 0) (atEbx 0) 0 4 .dataRead = .ok 0x2000 ∧
    operandSlot (bounds 0) (atEbx 0) 4 4 .dataRead = .ok 0x2004 ∧
    signedSize .w32 ((bounds 0).mem.loadLE 0x2000 4) ≤ signedSize .w32 ((bounds 0).regs.get .eax) ∧
    signedSize .w32 ((bounds 0).regs.get .eax) ≤ signedSize .w32 ((bounds 0).mem.loadLE 0x2004 4) ∧
    signedSize .w32 ((bounds 9).regs.get .eax) = signedSize .w32 ((bounds 9).mem.loadLE 0x2004 4) ∧
    PairReadFails 4 4 viaEs (.gp 0) (noEs base) ∧ PairReadFails 4 4 (atEbx 0) (.gp 0) (shortData base) :=
  ⟨rfl, rfl, rfl, by decide, by decide, by decide, Or.inl rfl, Or.inr ⟨⟨0x2000, rfl⟩, rfl⟩⟩
/-- One entry for each clause of EntryChecks, seen from level 3. -/
def entries : State :=
  { at3 0x4000 0x2000 with
    idt := [(1, .gate ⟨.trap, ⟨3, false⟩, 8, 0⟩), (2, .gate ⟨.trap, ⟨2, true⟩, 8, 0⟩),
      (3, .gate ⟨.trap, ⟨3, true⟩, 0x20, 0⟩), (4, .gate ⟨.trap, ⟨3, true⟩, 8, 0⟩), (5, .task ⟨3, true⟩)] }
theorem witness_EntryChecks : entries.idt.lookup 0 = none ∧ entries.params.gateCheck = [] ∧
    (entries.idt.lookup 1 = some (.gate ⟨.trap, ⟨3, false⟩, 8, 0⟩)) ∧
    (entries.idt.lookup 2 = some (.gate ⟨.trap, ⟨2, true⟩, 8, 0⟩) ∧
      gateAllows entries (.softint ⟨.trap, ⟨2, true⟩, 8, 0⟩ 2 entries.cpl) = false) ∧
    (entries.idt.lookup 3 = some (.gate ⟨.trap, ⟨3, true⟩, 0x20, 0⟩) ∧
      gateAllows entries (.softint ⟨.trap, ⟨3, true⟩, 0x20, 0⟩ 3 entries.cpl) = true ∧
      codeSegment entries 0x20 = .error (.exc (.gp 0x20))) ∧
    (entries.idt.lookup 4 = some (.gate ⟨.trap, ⟨3, true⟩, 8, 0⟩) ∧ codeSegment entries 8 = .ok (flat 0)) ∧
    entries.idt.lookup 5 = some (.task ⟨3, true⟩) ∧ entries.mode = .protectedMode :=
  ⟨rfl, rfl, rfl, ⟨rfl, rfl⟩, ⟨rfl, rfl, rfl⟩, ⟨rfl, rfl⟩, rfl, rfl⟩
/-- Only a #GP handler: an INT 41H, an #UD and an NMI are delivered as #GP. -/
def onlyGp : State := gate 13 .interrupt 0x6000 base
def gpGate : IntGate := ⟨.interrupt, ⟨3, true⟩, 8, 0x6000⟩
theorem witness_NestedDelivery_serial :
    enterHandler ⟨0x41, .software, none⟩ onlyGp = .error ⟨.exc (.gp 0x20A), onlyGp⟩ ∧
    raisedByProcessor .software = false ∧
    HandlerReady (Exc.gp 0x20A).event gpGate (flat 0) (flat 0) (down 0xFFC 4) (abandon onlyGp onlyGp) ∧
    enterHandler Exc.ud.event onlyGp = .error ⟨.exc (.gp 0x33), onlyGp⟩ ∧
    (Exc.ud.event.vector ≠ 8 ∧ ¬ DoubleFaults Exc.ud.event.vector (Exc.gp 0x33).vector) := by
  refine ⟨rfl, rfl, ⟨rfl, gives_ok (by decide), fun h => absurd rfl h, canPush_of (by decide)⟩, rfl, ?_⟩
  unfold DoubleFaults; decide
/-- Only a double-fault handler. -/
def onlyDf : State := gate 8 .interrupt 0x7200 base
theorem witness_NestedDelivery_double :
    enterHandler (Exc.gp 0x30).event onlyDf = .error ⟨.exc (.gp 0x6B), onlyDf⟩ ∧
    raisedByProcessor (Exc.gp 0x30).event.kind = true ∧ DoubleFaults (Exc.gp 0x30).event.vector (Exc.gp 0x6B).vector ∧
    enterHandler (Exc.pf 2).event onlyDf = .error ⟨.exc (.gp 0x73), onlyDf⟩ ∧
    DoubleFaults (Exc.pf 2).event.vector (Exc.gp 0x73).vector ∧
    HandlerReady ⟨8, .abort, some 0⟩ ⟨.interrupt, ⟨3, true⟩, 8, 0x7200⟩ (flat 0) (flat 0) (down 0xFFC 4)
      (abandon onlyDf onlyDf) := by
  refine ⟨rfl, rfl, ?_, rfl, ?_,
    ⟨rfl, gives_ok (by decide), fun h => absurd rfl h, canPush_of (by decide)⟩⟩ <;>
  · unfold DoubleFaults; decide
theorem witness_NestedDelivery_shutdown :
    enterHandler Exc.df.event base = .error ⟨.exc (.gp 0x43), base⟩ ∧
    raisedByProcessor Exc.df.event.kind = true ∧ Exc.df.event.vector = 8 := ⟨rfl, rfl, rfl⟩
/-- Real-address mode with room for three words, and a run whose `P_ERRCODE` makes an INT 40H and a #GP push four. -/
def crowded : State :=
  { realShort 6 with params := { base.params with
      errCode := [(⟨.realMode, 0x40, .software⟩, .value 0), (⟨.realMode, 13, .fault⟩, .raised)] } }
def reached (x : Except Stop State) : State :=
  match x with
  | .ok t => t
  | .error p => p.reached
theorem witness_NestedDelivery_real :
    enterHandler soft crowded = .error ⟨.exc (.ss 0), reached (enterHandler soft crowded)⟩ ∧
    (abandon crowded (reached (enterHandler soft crowded))).ss = crowded.ss ∧
    enterHandler (Exc.gp 0).event crowded = .error ⟨.exc (.ss 1), reached (enterHandler (Exc.gp 0).event crowded)⟩ ∧
    DoubleFaults (Exc.gp 0).event.vector (Exc.ss 1).vector ∧ crowded.mode = .realMode := by
  refine ⟨rfl, ?_, rfl, ?_, rfl⟩
  · rw [Laws.abandon_keeps]
  · unfold DoubleFaults; decide
theorem witness_NestedDelivery_real_room (p : State) :
    CanPush 2 (realItems (Exc.ss 0).event (abandon crowded p)).length (down 4 2) (abandon crowded p) ∧
    CanPush 2 (realItems ⟨8, .abort, some 0⟩ (abandon crowded p)).length (down 4 2) (abandon crowded p) := by
  rw [Laws.abandon_keeps]
  have h : CanPush 2 3 (down 4 2) crowded := canPush_of (by decide)
  exact ⟨h, h⟩
theorem witness_Shutdown : base.mode = .protectedMode ∧
    (∀ e ∈ [Exc.ts 0x20, Exc.gp 0], e.kind = .fault ∧ e.vector ∈ [10, 11, 12, 13] ∧
      base.idt.lookup e.vector = none) ∧ base.idt.lookup 8 = none ∧
    { base with shutdown := true }.shutdown = true := by decide
theorem witness_AbandonedInstruction : base.mem.wf = true ∧ (storeAt base 0xFFC 4 0x01020304).mem.wf = true ∧
    (storeAt base 0xFFC 4 0).mem = base.mem := by decide
/-- A frame of EIP, CS and EFLAGS at FF4H. -/
def irFrame (sel fl : Dword) : State := setMem 0xFF4 0x3001 (setMem 0xFF8 sel (setMem 0xFFC fl (at0 0x3010 0xFF4)))
theorem witness_InterruptReturnSameLevel : interruptReturnForm .iretd = some .w32 ∧
    CanPop 4 0 3 (up 0xFF4 4) (irFrame 8 0xA02) ∧ (irFrame 8 0xA02).mode = .protectedMode ∧
    flagNT (irFrame 8 0xA02).eflags = false ∧ flagVM ((irFrame 8 0xA02).mem.loadLE (up 0xFF4 4 2) 4) = false ∧
    ((irFrame 8 0xA02).mem.loadLE (up 0xFF4 4 1) 4).setWidth 16 = (8 : Word) ∧ rpl 8 = (irFrame 8 0xA02).cpl ∧
    codeSegment (irFrame 8 0xA02) 8 = .ok (flat 0) ∧
    interruptReturnForm .iret = some .w16 ∧ CanPop 2 0 3 (up 0xFFA 2) (real 0xFFA) ∧ (real 0xFFA).mode = .realMode :=
  ⟨rfl, canPop_of (by decide), rfl, rfl, by decide, by decide, rfl, rfl, rfl,
    canPop_of (by decide), rfl⟩
theorem witness_InterruptReturnStops : CanPop 4 0 3 (up 0xFF4 4) (irFrame 8 0x20002) ∧
    flagNT { irFrame 8 2 with eflags := 0x4002 }.eflags = true ∧
    CanPop 4 0 3 (up 0xFF4 4) { irFrame 8 2 with eflags := 0x4002 } ∧
    (flagNT (irFrame 8 0x20002).eflags = false ∧ flagVM ((irFrame 8 0x20002).mem.loadLE (up 0xFF4 4 2) 4) = true ∧
      (irFrame 8 0x20002).cpl = 0) ∧
    CanPop 4 0 3 (up 0x2000 4) (setMem 0x2004 8 (at3 0x4000 0x2000)) ∧
    rpl (((setMem 0x2004 8 (at3 0x4000 0x2000)).mem.loadLE (up 0x2000 4 1) 4).setWidth 16) < 3 :=
  ⟨canPop_of (by decide), rfl, canPop_of (by decide), by decide, canPop_of (by decide),
    by decide⟩
/-- The last and the first item that cannot be read, a selector with no record, level 0 code named with RPL 3. -/
theorem witness_InterruptReturnStops_raises : PopFails 4 3 2 (up 0x7F8 4) (.ss 0) (shallow 0x7F8) ∧
    PopFails 4 3 0 (up 0 4) (.ss 0) (shallow 0x800) ∧
    (((irFrame 0 2).mem.loadLE (up 0xFF4 4 1) 4).setWidth 16 = (0 : Word) ∧
      codeSegment (irFrame 0 2) 0 = .error (.exc (.gp 0))) ∧
    (((irFrame 0x0B 2).mem.loadLE (up 0xFF4 4 1) 4).setWidth 16 = (0x0B : Word) ∧ (irFrame 0x0B 2).cpl < rpl 0x0B ∧
      codeSegment (irFrame 0x0B 2) 0x0B = .ok (flat 0) ∧ gateAllows (irFrame 0x0B 2) (.ret (flat 0) 0x0B 0) = false) :=
  ⟨popFails_of (by decide) (by decide) rfl, popFails_of (by decide) (by decide) rfl, ⟨by decide, rfl⟩,
    ⟨by decide, by decide, rfl, rfl⟩⟩
/-- The five items of a return to level 3. -/
theorem witness_InterruptReturnOutward : insideHandler.mode = .protectedMode ∧ flagNT insideHandler.eflags = false ∧
    CanPop 4 0 5 (up 0x8FEC 4) insideHandler ∧ flagVM (insideHandler.mem.loadLE (up 0x8FEC 4 2) 4) = false ∧
    (insideHandler.mem.loadLE (up 0x8FEC 4 1) 4).setWidth 16 = (0x1B : Word) ∧
    (insideHandler.mem.loadLE (up 0x8FEC 4 4) 4).setWidth 16 = (0x23 : Word) ∧ insideHandler.cpl < rpl 0x1B ∧
    codeSegment insideHandler 0x1B = .ok (flat 3) ∧ gateAllows insideHandler (.ret (flat 3) 0x1B 0) = true ∧
    stackSegment insideHandler .gp (rpl 0x1B) 0x23 = .ok (flat 3) :=
  ⟨by decide, by decide, canPop_of (by decide), by decide, by decide,
    by decide, by decide, gives_ok (by decide), by decide, gives_ok (by decide)⟩
/-- The outer SS past the limit, and an outer SS of level 0. -/
theorem witness_InterruptReturnOutward_stops :
    stackSlot { insideHandler with ss := ⟨0x10, some { flat 0 with limit := 0x8FFB }⟩ } 0x8FFC 4 .stackRead =
      .error (.exc (.ss 0)) ∧
    PopFails 4 5 4 (up 0x8FEC 4) (.ss 0) { insideHandler with ss := ⟨0x10, some { flat 0 with limit := 0x8FFB }⟩ } ∧
    stackSegment (setMem 0x8FFC 0x10 insideHandler) .gp (rpl 0x1B) 0x10 = .error (.exc (.gp 0x10)) :=
  ⟨rfl, popFails_of (by decide) (by decide) rfl, rfl⟩
def answer (x : Except Stop State) : State :=
  match x with
  | .ok t => t
  | .error p => p.reached
theorem answer_of {x : Except Stop State} {t : State} (h : x = .ok t) : t = answer x := by rw [h]; rfl
/-- V-IN13 and V-IR2: the handler's state, entered with a stack switch. -/
theorem witness_HandlerReturnRestores : ∃ t,
    HandlerReady soft ⟨.interrupt, ⟨3, true⟩, 8, 0x6000⟩ (flat 0) (flat 0) (down 0x8FFC 4) crossing ∧
    Entered soft ⟨.interrupt, ⟨3, true⟩, 8, 0x6000⟩ (flat 0) (flat 0) (down 0x8FFC 4) crossing t ∧
    (flat 0).dpl = 0 ∧ soft.pushed crossing = none ∧ crossing.params.flagMask = [] ∧ flagNT crossing.eflags = false ∧ flagVM crossing.eflags = false ∧
    crossing.cs.desc = some (flat 3) ∧ codeSegment crossing crossing.cs.sel = .ok (flat 3) ∧
    (crossing.cpl ≠ 0 → gateAllows crossing (.ret (flat 3) crossing.cs.sel 0) = true) ∧ rpl crossing.cs.sel = crossing.cpl ∧
    crossing.ss.desc = some (flat 3) ∧
    stackSegment crossing .gp crossing.cpl crossing.ss.sel = .ok (flat 3) ∧
    (∀ r ∈ [crossing.ds, crossing.es, crossing.fs, crossing.gs], ∀ x, r.desc = some x → crossing.cpl ≤ x.dpl) ∧
    AllUntouched 4 (entryItems (flat 0).dpl soft crossing).length (down 0x8FFC 4) crossing ∧
    CanPop 4 0 (entryItems (flat 0).dpl soft crossing).length
      (fun j => down 0x8FFC 4 ((entryItems (flat 0).dpl soft crossing).length - 1 - j)) t := by
  obtain ⟨t, ht, he, _⟩ := Laws.enterProtected_ok ready_inward
  refine ⟨t, ready_inward, he, rfl, rfl, rfl, rfl, rfl, rfl, rfl, fun _ => rfl, rfl, rfl, rfl, fun r hr x hx => ?_,
    fun _ _ => .inl rfl, ?_⟩
  · have : r = ⟨0x23, some (flat 3)⟩ := by
      simp only [List.mem_cons, List.not_mem_nil, or_false] at hr
      rcases hr with h | h | h | h <;> exact h
    rw [this] at hx; cases hx; decide
  · rw [answer_of ht]; exact canPop_of (by decide)
/-- V-GC2's RETF 8, V-IN13's INT 40H, and an NMI that takes the level 3 program to its level 0 handler. -/
theorem witness_PrivilegeChanges : (∃ t, run [0xCA, 8, 0] inner = .next t ∧ inner.cpl < t.cpl) ∧
    (∃ t, run [0xCD, 0x40] crossing = .next t ∧ t.cpl < crossing.cpl) ∧
    (∃ t, step { gate 2 .interrupt 0x7100 (at3 0x4000 0x2000) with ext := [⟨true, none, false, false⟩] } = .next t ∧
      t.cpl < 3) ∧
    (∃ t, run [0xCE] (real 0x1000) = .next t ∧ (real 0x1000).mode = .realMode) :=
  ⟨⟨_, next_of (by decide), by decide⟩, ⟨_, next_of (by decide), by decide⟩, ⟨_, next_of (by decide), by decide⟩,
    ⟨_, next_of (by decide), rfl⟩⟩

/-! ### Bytes that spell no instruction -/

theorem witness_DecodeStops_noRow : AtFetch (fetching [0x66, 0x90]) (fetching [0x66, 0x90]) ∧
    (fetchWindow (fetching [0x66, 0x90])).1 = [0x66] ++ 0x90 :: List.replicate 13 0 ∧
    (0x90 : Byte) ∉ beforeOpcode ∧ (0x90 : Byte) ∉ firstBytes ∧
    AtFetch (fetching [0x2E, 0x0F, 0x05]) (fetching [0x2E, 0x0F, 0x05]) ∧
    (fetchWindow (fetching [0x2E, 0x0F, 0x05])).1 = [0x2E] ++ 0x0F :: 0x05 :: List.replicate 12 0 ∧
    (0x05 : Byte) ∉ ([0x0B, 0xA0, 0xA1, 0xA8, 0xA9] : List Byte) :=
  ⟨fetching_at _ (by decide), by decide, by decide, by decide, fetching_at _ (by decide), by decide, by decide⟩
theorem witness_DecodeStops_rep : AtFetch (fetching [0x67, 0xF3, 0x50]) (fetching [0x67, 0xF3, 0x50]) ∧
    (fetchWindow (fetching [0x67, 0xF3, 0x50])).1 = [0x67] ++ 0xF3 :: 0x50 :: List.replicate 12 0 ∧
    (0xF3 : Byte) ∈ ([0xF0, 0xF2, 0xF3] : List Byte) :=
  ⟨fetching_at _ (by decide), by decide, by decide⟩
/-- Fifteen operand-size bytes; fourteen of them and an opcode that wants a ModRM byte. -/
theorem witness_DecodeStops_long :
    AtFetch (fetching (List.replicate 15 0x66)) (fetching (List.replicate 15 0x66)) ∧
    (fetchWindow (fetching (List.replicate 15 0x66))).1 = List.replicate 15 0x66 ∧
    AtFetch (fetching (List.replicate 14 0x66 ++ [0xFF])) (fetching (List.replicate 14 0x66 ++ [0xFF])) ∧
    (fetchWindow (fetching (List.replicate 14 0x66 ++ [0xFF]))).1.length = 15 ∧
    decode (codeD (fetching (List.replicate 14 0x66 ++ [0xFF])))
      (fetchWindow (fetching (List.replicate 14 0x66 ++ [0xFF]))).1 = .error .truncated :=
  ⟨fetching_at _ (by decide), by decide, fetching_at _ (by decide), by decide, by rfl⟩
/-- PUSH imm8 whose immediate is past the code segment's limit. -/
def cut : State := { fetching [0x6A] with cs := ⟨8, some { flat 0 with limit := 0x4000 }⟩ }
theorem witness_DecodeStops_fetch : AtFetch cut cut ∧ [(0x6A : Byte)].length < 15 ∧
    (∀ k b, [(0x6A : Byte)][k]? = some b → fetchByte cut k = .ok b) ∧
    decode (codeD cut) [0x6A] = .error .truncated ∧ fetchSlot cut 1 = .error (.exc (.gp 0)) := by
  refine ⟨atFetch_of (s := cut) rfl rfl rfl, by decide, fun k b h => ?_, rfl, rfl⟩
  match k with
  | 0 => cases h; exact gives_ok (by decide)
  | k + 1 => cases h
end Sys2Proof.Tests
end

section
/-! What every step keeps (10_state): the mode and the tables a run starts with, and the machine's invariant. -/

namespace Sys2Proof.Proofs

open Sys2Proof Sys2Proof.Machine Sys2Proof.Safety Sys2Proof.Laws

/-! ## The mode, the tables and the supplied functions -/

/-- The mode, the tables and the functions the run's start supplied (10_state R35, R41 to R43). -/
def tables (s : State) : Mode × List (Byte × IdtEntry) × List (BitVec 14 × Descriptor) × TssStack × TssStack ×
    TssStack × List SegTrap × Params :=
  (s.mode, s.idt, s.gdt, s.tss0, s.tss1, s.tss2, s.segTraps, s.params)

theorem tables_eq_iff (s t : State) : tables t = tables s ↔
    t.mode = s.mode ∧ t.idt = s.idt ∧ t.gdt = s.gdt ∧ t.tss0 = s.tss0 ∧ t.tss1 = s.tss1 ∧ t.tss2 = s.tss2 ∧
      t.segTraps = s.segTraps ∧ t.params = s.params := by
  simp only [tables, Prod.mk.injEq]

theorem tables_latched {s u : State} (h : Latched s u) : tables u = tables s := by rw [h]; rfl

theorem tables_restarted {s u : State} (h : Restarted s u) : tables u = tables s := by rw [h.keeps]; rfl

theorem tables_entered {ev : Event} {g : IntGate} {c d : SegDesc} {slot : Nat → Dword} {s t : State}
    (h : Entered ev g c d slot s t) : tables t = tables s := by rw [h.2]; rfl

theorem tables_enteredReal {ev : Event} {slot : Nat → Dword} {s t : State} (h : EnteredReal ev slot s t) :
    tables t = tables s := by rw [h.2]; rfl

/-- Taking an event leaves the tables, whatever was raised on the way. -/
theorem tables_delivered {s t : State} (h : Delivered s t) : tables t = tables s := by
  cases h with
  | entered ev u g c d slot hu _ he _ => exact (tables_entered he).trans (tables_restarted hu)
  | enteredReal ev u slot hu _ _ he _ => exact (tables_enteredReal he).trans (tables_restarted hu)
  | shutdown u hu h =>
    subst h
    show tables u = tables s
    exact tables_restarted hu

theorem tables_called {s t : State} (h : Called s t) : tables t = tables s := by
  cases h with
  | real _ _ h | direct _ _ _ _ _ h | gateSame _ _ _ _ _ _ _ _ h | gateInward _ _ _ _ _ _ _ _ _ _ _ _ _ _ h =>
    rw [h]; rfl

theorem tables_returned {s t : State} {flags : Dword} (h : Returned s flags t) : tables t = tables s := by
  cases h with
  | real _ _ h | same _ _ _ _ _ h | outward _ _ _ _ _ _ _ _ h => rw [h]; rfl

/-- No instruction's own effect reaches the tables. -/
theorem tables_ownEffect {i : Instr} {s t : State} (h : OwnEffect i s t) : tables t = tables s := by
  cases h with
  | call h => exact tables_called h
  | far _ h | iret _ _ _ h => exact tables_returned h
  | plain h | popf _ _ h | popfd _ _ h | dataSeg h | stackSeg _ _ _ _ h => rw [h]; rfl

theorem tables_exec {i : Instr} {s t : State} (h : exec i s = .next t) : tables t = tables s :=
  (exec_cases h).elim (fun own => tables_ownEffect own.1) tables_delivered

theorem tables_step {s t : State} (h : step s = .next t) : tables t = tables s := by
  cases step_next h with
  | ran u i len hu _ h =>
    have latched : tables u = tables s := tables_latched (atFetch_latched hu)
    exact (tables_exec h).trans latched
  | took u ev hu h => exact (tables_delivered (deliver_cases h)).trans (tables_latched hu)

/-- Settles O11: by `tables_step`, over the ways a step can answer (`step_next`). -/
theorem modeFixed : Obligations.ModeFixed := fun s t h => (tables_eq_iff s t).1 (tables_step h)

/-! ## The reserved bits of EFLAGS (10_state R30) -/

theorem reservedFlagsFixed_iff (e : Dword) : reservedFlagsFixed e = true ↔ e &&& neverMasked = 2#32 := by
  unfold reservedFlagsFixed neverMasked
  exact beq_iff_eq

/-- Clearing bits that are not reserved. -/
theorem reservedFlagsFixed_and {e c : Dword} (hc : c &&& neverMasked = neverMasked)
    (h : reservedFlagsFixed e = true) : reservedFlagsFixed (e &&& c) = true := by
  rw [reservedFlagsFixed_iff] at h ⊢
  rw [BitVec.and_assoc, hc, h]

/-- A merge under a mask that admits no reserved bit: each reserved bit comes from the old value. -/
theorem reservedFlagsFixed_mergeFlags {m e : Dword} (v : Dword) (hm : m &&& neverMasked = 0#32)
    (h : reservedFlagsFixed e = true) : reservedFlagsFixed (mergeFlags m e v) = true := by
  rw [reservedFlagsFixed_iff] at h ⊢
  rw [← h]
  apply BitVec.eq_of_getLsbD_eq
  intro i hi
  have hbit := congrArg (·.getLsbD i) hm
  simp only [BitVec.getLsbD_and, BitVec.getLsbD_zero] at hbit
  unfold mergeFlags
  simp only [BitVec.getLsbD_and, BitVec.getLsbD_or, BitVec.getLsbD_not, hi, decide_true, Bool.true_and]
  cases hr : neverMasked.getLsbD i with
  | false => simp
  | true => simp [show m.getLsbD i = false by simpa [hr] using hbit]

theorem flagMask_reserved (i : FlagInstr) (s : State) : flagMask i s &&& neverMasked = 0#32 := by
  unfold flagMask
  rw [BitVec.and_assoc, show ~~~neverMasked &&& neverMasked = 0#32 by decide, BitVec.and_zero]

theorem flagMask_low_reserved (i : FlagInstr) (s : State) : (flagMask i s &&& 0xFFFF) &&& neverMasked = 0#32 := by
  rw [BitVec.and_assoc, BitVec.and_comm 0xFFFF, ← BitVec.and_assoc, flagMask_reserved, BitVec.zero_and]

theorem reservedFlagsFixed_popf {s : State} (v : Dword) (h : reservedFlagsFixed s.eflags = true) :
    reservedFlagsFixed (flagsAfterPopf s v) = true :=
  reservedFlagsFixed_mergeFlags v (flagMask_low_reserved .popf s) h

theorem reservedFlagsFixed_popfd {s : State} (v : Dword) (h : reservedFlagsFixed s.eflags = true) :
    reservedFlagsFixed (flagsAfterPopfd s v) = true := by
  have merged := reservedFlagsFixed_mergeFlags v (flagMask_reserved .popfd s) h
  unfold flagsAfterPopfd
  split
  · exact reservedFlagsFixed_and (by decide) merged
  · exact merged

theorem reservedFlagsFixed_iret {s : State} (sz : OpSize) (v : Dword) (h : reservedFlagsFixed s.eflags = true) :
    reservedFlagsFixed (flagsAfterIret sz s v) = true := by
  cases sz with
  | w16 => exact reservedFlagsFixed_mergeFlags v (flagMask_low_reserved .iret s) h
  | w32 => exact reservedFlagsFixed_mergeFlags v (flagMask_reserved .iret s) h

theorem reservedFlagsFixed_clearIF {e : Dword} (h : reservedFlagsFixed e = true) :
    reservedFlagsFixed (clearIF e) = true := reservedFlagsFixed_and (by decide) h

theorem reservedFlagsFixed_clearIFTF {e : Dword} (h : reservedFlagsFixed e = true) :
    reservedFlagsFixed (clearIFTF e) = true := reservedFlagsFixed_and (by decide) h

/-! ## The privilege level and its segments (10_state R34) -/

@[simp] theorem rpl_withRpl (sel : Word) (level : BitVec 2) : rpl (withRpl sel level) = level := by
  unfold rpl withRpl
  exact BitVec.setWidth_append_eq_right

/-- The part of `Inv` about the mode, CPL, CS and SS: level 0 in real-address mode; in protected mode CS and SS
loaded with segments that fit the level. -/
inductive LevelFits : Mode → BitVec 2 → SegReg → SegReg → Prop where
  | real (cs ss : SegReg) : LevelFits .realMode 0 cs ss
  | prot {level : BitVec 2} {cs ss : SegReg} (hl : rpl cs.sel = level) (hc : loadedPresent cs = true)
      (hs : loadedAt level ss = true) (hw : loadedWritable ss = true) : LevelFits .protectedMode level cs ss

theorem inv_iff (s : State) : Inv s ↔ s.mem.wf = true ∧ s.written.Pairwise (· < ·) ∧
    reservedFlagsFixed s.eflags = true ∧ LevelFits s.mode s.cpl s.cs s.ss := by
  constructor
  · rintro ⟨hmem, hwritten, hflags, hreal, hlevel, hcode, hstack⟩
    refine ⟨hmem, hwritten, hflags, ?_⟩
    cases hm : s.mode with
    | realMode => rw [hreal hm]; exact .real _ _
    | protectedMode => exact .prot (hlevel hm) (hcode hm) (hstack hm).1 (hstack hm).2
  · rintro ⟨hmem, hwritten, hflags, hfit⟩
    generalize hm : s.mode = m at hfit
    generalize hp : s.cpl = level at hfit
    cases hfit with
    | real => exact ⟨hmem, hwritten, hflags, fun _ => hp, by simp [hm], by simp [hm], by simp [hm]⟩
    | prot hl hc hs hw =>
      subst hp
      exact ⟨hmem, hwritten, hflags, by simp [hm], fun _ => hl, fun _ => hc, fun _ => ⟨hs, hw⟩⟩

theorem levelFits_of_inv {s : State} (h : Inv s) : LevelFits s.mode s.cpl s.cs s.ss := by
  obtain ⟨-, -, -, hfit⟩ := (inv_iff s).1 h
  exact hfit

/-- In real-address mode any CS and SS will do. -/
theorem levelFits_of_real {s : State} (h : Inv s) (hm : s.mode = .realMode) (cs ss : SegReg) :
    LevelFits s.mode s.cpl cs ss := by
  rw [hm, h.real hm]; exact .real cs ss

/-- A present code segment loaded at the current level. -/
theorem levelFits_loadCode {s : State} (h : Inv s) (hm : s.mode = .protectedMode) {sel : Word} {d : SegDesc}
    (hl : rpl sel = s.cpl) (hd : d.present = true) : LevelFits s.mode s.cpl ⟨sel, some d⟩ s.ss := by
  obtain ⟨hs, hw⟩ := h.stack hm
  rw [hm]; exact .prot hl hd hs hw

/-- A present writable stack segment of the level passes for SS. -/
theorem levelFits_loadStack {s : State} (hm : s.mode = .protectedMode) {level : BitVec 2} {cs : SegReg} {sel : Word}
    {d : SegDesc} (hl : rpl cs.sel = level) (hc : loadedPresent cs = true) (hp : d.present = true)
    (hw : d.writable = true) (hd : d.dpl = level) : LevelFits s.mode level cs ⟨sel, some d⟩ := by
  rw [hm]; exact .prot hl hc (by simp [loadedAt, hp, hd]) hw

/-- A change of level: CS and SS loaded together, SS with what `stackSegment` admits for the new level. -/
theorem levelFits_switch {s : State} (hm : s.mode = .protectedMode) {bad : Dword → Exc} {level : BitVec 2}
    {sel ssSel : Word} {c d : SegDesc} (hl : rpl sel = level) (hc : c.present = true)
    (hs : stackSegment s bad level ssSel = .ok d) : LevelFits s.mode level ⟨sel, some c⟩ ⟨ssSel, some d⟩ := by
  obtain ⟨-, hp, hw, hd, -⟩ := stackSegment_ok hs
  exact levelFits_loadStack hm hl hc hp hw hd

/-! ## The invariant -/

/-- What is left to show of a state whose memory has grown by stores alone. -/
theorem inv_of_grown {s t : State} (h : Inv s) (hg : Grown s t) (hf : reservedFlagsFixed t.eflags = true)
    (hl : LevelFits t.mode t.cpl t.cs t.ss) : Inv t :=
  (inv_iff t).2 ⟨hg.mem h.mem, hg.written h.written, hf, hl⟩

/-- The fields beside memory that `Inv` speaks of. -/
def control (s : State) : Dword × Mode × BitVec 2 × SegReg × SegReg := (s.eflags, s.mode, s.cpl, s.cs, s.ss)

theorem inv_of_control {s t : State} (h : Inv s) (hg : Grown s t) (hc : control t = control s) : Inv t := by
  simp only [control, Prod.mk.injEq] at hc
  obtain ⟨hflags, hmode, hcpl, hcs, hss⟩ := hc
  refine inv_of_grown h hg ?_ ?_
  · rw [hflags]; exact h.flags
  · rw [hmode, hcpl, hcs, hss]; exact levelFits_of_inv h

theorem inv_latched {s u : State} (h : Inv s) (hu : Latched s u) : Inv u :=
  inv_of_control h (Grown.of_eq (by rw [hu]) (by rw [hu])) (by rw [hu]; rfl)

theorem inv_restarted {s u : State} (h : Inv s) (hu : Restarted s u) : Inv u :=
  inv_of_control h hu.grown (by rw [hu.keeps]; rfl)

/-- Entry to a ready handler: its level is in CS[1:0], and a stack of that level was there or was checked
(60_exceptions R283 to R285). -/
theorem inv_entered {ev : Event} {g : IntGate} {c d : SegDesc} {slot : Nat → Dword} {s t : State} (h : Inv s)
    (hr : HandlerReady ev g c d slot s) (he : Entered ev g c d slot s t) (hg : Grown s t) : Inv t := by
  obtain ⟨hm, hgate, hstack, -⟩ := hr
  obtain ⟨-, hcode, -, -⟩ := handlerGate_ok hgate
  obtain ⟨-, hpresent⟩ := codeSegment_ok hcode
  obtain ⟨-, ht⟩ := he
  refine inv_of_grown h hg ?_ ?_ <;> rw [ht]
  · show reservedFlagsFixed (if g.kind = .interrupt then clearIF s.eflags else s.eflags) = true
    split
    · exact reservedFlagsFixed_clearIF h.flags
    · exact h.flags
  · show LevelFits s.mode c.dpl ⟨withRpl g.selector c.dpl, some c⟩ (entryStack c.dpl d s).ss
    unfold entryStack
    by_cases hl : c.dpl = s.cpl
    · rw [if_pos hl, hl]
      exact levelFits_loadCode h hm (rpl_withRpl _ _) hpresent
    · rw [if_neg hl]
      exact levelFits_switch hm (rpl_withRpl _ _) hpresent (hstack hl)

/-- Entry in real-address mode keeps level 0 (60_exceptions R288). -/
theorem inv_enteredReal {ev : Event} {slot : Nat → Dword} {s t : State} (h : Inv s) (hm : s.mode = .realMode)
    (he : EnteredReal ev slot s t) (hg : Grown s t) : Inv t := by
  obtain ⟨-, ht⟩ := he
  refine inv_of_grown h hg ?_ ?_ <;> rw [ht]
  · exact reservedFlagsFixed_clearIFTF h.flags
  · exact levelFits_of_real h hm _ _

theorem inv_delivered {s t : State} (h : Inv s) (hd : Delivered s t) : Inv t := by
  cases hd with
  | entered ev u g c d slot hu hr he hg => exact inv_entered (inv_restarted h hu) hr he hg
  | enteredReal ev u slot hu hm _ he hg => exact inv_enteredReal (inv_restarted h hu) hm he hg
  | shutdown u hu ht =>
    subst ht
    exact inv_of_control (inv_restarted h hu) (Grown.of_eq rfl rfl) rfl

theorem eflags_called {s t : State} (h : Called s t) : t.eflags = s.eflags := by
  cases h with
  | real _ _ h | direct _ _ _ _ _ h | gateSame _ _ _ _ _ _ _ _ h | gateInward _ _ _ _ _ _ _ _ _ _ _ _ _ _ h =>
    rw [h]

/-- A far CALL leaves CPL in CS[1:0] and, where it switches stacks, SS of the new level (41_call_ret R166 to R173). -/
theorem levelFits_called {s t : State} (h : Inv s) (hc : Called s t) : LevelFits t.mode t.cpl t.cs t.ss := by
  cases hc with
  | real hm sel ht => rw [ht]; exact levelFits_of_real h hm _ _
  | direct hm sel d hd _ ht =>
    rw [ht]; exact levelFits_loadCode h hm (rpl_withRpl _ _) (gdtLookup_ok hd).2
  | gateSame hm gsel g c _ _ hcode hl ht =>
    rw [ht]; exact levelFits_loadCode h hm (by rw [rpl_withRpl, hl]) (codeSegment_ok hcode).2
  | gateInward hm gsel g c d _ _ hcode _ hd slot rest _ _ ht =>
    rw [ht]; exact levelFits_switch hm (rpl_withRpl _ _) (codeSegment_ok hcode).2 hd

theorem eflags_returned {s t : State} {flags : Dword} (h : Returned s flags t) : t.eflags = flags := by
  cases h with
  | real _ _ h | same _ _ _ _ _ h | outward _ _ _ _ _ _ _ _ h => rw [h]

/-- A far return or an IRET goes to the level its CS names (41_call_ret R169, R174, 42_int R194 to R196). -/
theorem levelFits_returned {s t : State} {flags : Dword} (h : Inv s) (hr : Returned s flags t) :
    LevelFits t.mode t.cpl t.cs t.ss := by
  cases hr with
  | real hm sel ht => rw [ht]; exact levelFits_of_real h hm _ _
  | same hm sel d hd hl ht => rw [ht]; exact levelFits_loadCode h hm hl (codeSegment_ok hd).2
  | outward hm sel d ssSel sd hd _ hs ht =>
    obtain ⟨-, hpresent, -⟩ := returnSegment_ok hd
    rw [ht]; exact levelFits_switch hm rfl hpresent hs

/-- POP SS loads a present writable segment of the current level (40_stack R137). -/
theorem levelFits_stackSegLoaded {s : State} (h : Inv s) {sel : Word} {r : SegReg} (hr : StackSegLoaded s sel r) :
    LevelFits s.mode s.cpl s.cs r := by
  unfold StackSegLoaded at hr
  cases hm : s.mode with
  | realMode => rw [← hm]; exact levelFits_of_real h hm _ _
  | protectedMode =>
    rw [hm] at hr
    obtain ⟨d, -, hw, hd, -, hp, rfl⟩ := hr
    rw [← hm]; exact levelFits_loadStack hm (h.level hm) (h.code hm) hp hw hd

/-- Every instruction's own effect keeps the invariant. -/
theorem inv_ownEffect {i : Instr} {s t : State} (h : Inv s) (ho : OwnEffect i s t) (hg : Grown s t) : Inv t := by
  have fits := levelFits_of_inv h
  cases ho with
  | plain ht | dataSeg ht => exact inv_of_control h hg (by rw [ht]; rfl)
  | popf v _ ht =>
    refine inv_of_grown h hg ?_ ?_ <;> rw [ht]
    · exact reservedFlagsFixed_popf v h.flags
    · exact fits
  | popfd v _ ht =>
    refine inv_of_grown h hg ?_ ?_ <;> rw [ht]
    · exact reservedFlagsFixed_popfd v h.flags
    · exact fits
  | stackSeg sel r _ hr ht =>
    refine inv_of_grown h hg ?_ ?_ <;> rw [ht]
    · exact h.flags
    · exact levelFits_stackSegLoaded h hr
  | call hc => exact inv_of_grown h hg (by rw [eflags_called hc]; exact h.flags) (levelFits_called h hc)
  | far _ hr => exact inv_of_grown h hg (by rw [eflags_returned hr]; exact h.flags) (levelFits_returned h hr)
  | iret sz image _ hr =>
    exact inv_of_grown h hg (by rw [eflags_returned hr]; exact reservedFlagsFixed_iret sz image h.flags)
      (levelFits_returned h hr)

theorem inv_exec {i : Instr} {s t : State} (h : Inv s) (he : exec i s = .next t) : Inv t :=
  (exec_cases he).elim (fun own => inv_ownEffect h own.1 own.2) (inv_delivered h)

/-- Settles O12: a boundary keeps the invariant, and so does the instruction it runs or the event it delivers. -/
theorem stepKeepsInv : Obligations.StepKeepsInv := by
  intro s t h hstep
  cases step_next hstep with
  | ran u i len hu _ he =>
    have placed : Inv { u with pcNext := u.eip + BitVec.ofNat 32 len } :=
      inv_of_control (inv_latched h (atFetch_latched hu)) (Grown.of_eq rfl rfl) rfl
    exact inv_exec placed he
  | took u ev hu hd => exact inv_delivered (inv_latched h hu) (deliver_cases hd)

end Sys2Proof.Proofs
end

section
/-! The stack pointer's arithmetic (20_memory R64) and the verdicts of translation (20_memory R68, R75, R76). -/

namespace Sys2Proof.Proofs

open Sys2Proof Sys2Proof.Machine Sys2Proof.Safety Sys2Proof.Laws

/-! ## The stack pointer (20_memory R64) -/

theorem stackPtr_wide {s : State} (h : wideStack s = true) : stackPtr s = s.regs.esp := by
  unfold stackPtr wrapStack
  rw [h, if_pos rfl]

theorem stackPtr_narrow {s : State} (h : wideStack s = false) :
    stackPtr s = (s.regs.esp.setWidth 16).setWidth 32 := by
  simp only [stackPtr, wrapStack, h, Bool.false_eq_true, if_false, low16]

theorem movedEsp_wide {s : State} (h : wideStack s = true) (d : Dword) : movedEsp d s = s.regs.esp + d := by
  unfold movedEsp
  rw [h, if_pos rfl]

theorem movedEsp_narrow {s : State} (h : wideStack s = false) (d : Dword) :
    movedEsp d s = setLow16 s.regs.esp (s.regs.esp + d) := by
  simp only [movedEsp, h, Bool.false_eq_true, if_false]

/-- The low word of a 16-bit write is the low word written. -/
theorem setWidth_setLow16 (old v : Dword) : (setLow16 old v).setWidth 16 = v.setWidth 16 := by
  unfold setLow16
  exact BitVec.setWidth_append_eq_right

/-- On a 16-bit stack SP moves modulo 2^16. -/
theorem sp_movedEsp_narrow {s : State} (h : wideStack s = false) (d : Dword) :
    (movedEsp d s).setWidth 16 = s.regs.esp.setWidth 16 + d.setWidth 16 := by
  rw [movedEsp_narrow h, setWidth_setLow16, BitVec.setWidth_add _ _ (by decide)]

/-- On a 16-bit stack ESP[31:16] stays. -/
theorem high_movedEsp_narrow {s : State} (h : wideStack s = false) (d : Dword) :
    (movedEsp d s).extractLsb' 16 16 = s.regs.esp.extractLsb' 16 16 := by
  rw [movedEsp_narrow h, high_setLow16]

theorem esp_of_push {n : Nat} {v : Dword} {s t : State} (h : push n v s = .ok t) :
    t.regs.esp = movedEsp (-BitVec.ofNat 32 n) s := by
  rw [push_eq] at h
  cases hslot : stackSlot s (pushOffset n 0 s) n .stackWrite with
  | error e => rw [hslot] at h; cases h
  | ok lin => rw [hslot] at h; cases h; rfl

theorem esp_of_pop {n : Nat} {v : Dword} {s t : State} (h : pop n s = .ok (v, t)) :
    t.regs.esp = movedEsp (BitVec.ofNat 32 n) s := by
  have moved : t = { s with regs := movedRegs (BitVec.ofNat 32 n) s } := by
    have outcome := pop_outcomes n s
    rwa [h] at outcome
  rw [moved]; rfl

theorem esp_release (d : Dword) (s : State) : (release d s).regs.esp = movedEsp d s := by
  rw [release_eq]; rfl

/-- Settles O18: each of the three moves ESP by `movedEsp`, which the width of the stack spells out. -/
theorem stackPointerArithmetic : Obligations.StackPointerArithmetic := by
  intro s t d hop
  have moved : t.regs.esp = movedEsp d s := by
    rcases hop with ⟨n, v, rfl, h⟩ | ⟨n, v, rfl, h⟩ | rfl
    · exact esp_of_push h
    · exact esp_of_pop h
    · exact esp_release d s
  rw [moved]
  exact ⟨fun wide => ⟨stackPtr_wide wide, movedEsp_wide wide d⟩,
    fun narrow => ⟨stackPtr_narrow narrow, sp_movedEsp_narrow narrow d, high_movedEsp_narrow narrow d⟩⟩

/-! ## Translation below the top (20_memory R75) -/

theorem translate_belowTop {s : State} {isSS : Bool} {r : SegReg} {narrow : Bool} {off : Dword} {len : Nat}
    {k : AccessKind} (h : off.toNat + len ≤ 2 ^ 32) (hn : narrow = true → off.toNat + len ≤ 2 ^ 16) :
    translate s isSS r narrow off len k = segVerdict s isSS r off len k := by
  rw [translate_eq, pastTop_false.2 ⟨h, hn⟩]; rfl

section Verdict

variable {s : State} {isSS : Bool} {r : SegReg} {off : Dword} {len : Nat} {k : AccessKind}

theorem segVerdict_raises {e : Exc} (h : s.params.segVerdict.lookup ⟨r.sel, off, len, k⟩ = some (.raises e)) :
    segVerdict s isSS r off len k = .error (.exc e) := by
  unfold segVerdict; rw [h]

theorem segVerdict_linear {lin : Dword}
    (h : s.params.segVerdict.lookup ⟨r.sel, off, len, k⟩ = some (.linear lin)) :
    segVerdict s isSS r off len k = .ok lin := by
  unfold segVerdict; rw [h]

theorem segVerdict_checkFails {e : Trouble} (h : s.params.segVerdict.lookup ⟨r.sel, off, len, k⟩ = none)
    (hc : checkSegment isSS r off len k = .error e) : segVerdict s isSS r off len k = .error e := by
  unfold segVerdict; rw [h, hc]; rfl

theorem segVerdict_trapped {x : SegTrap} (h : s.params.segVerdict.lookup ⟨r.sel, off, len, k⟩ = none)
    (hc : checkSegment isSS r off len k = .ok ())
    (hx : s.segTraps.find? (SegTrap.hits s (segBase r + off) len k) = some x) :
    segVerdict s isSS r off len k = .error (.exc x.exc.exc) := by
  unfold segVerdict; simp only [h, hc, hx, bind, Except.bind]

theorem segVerdict_untrapped (h : s.params.segVerdict.lookup ⟨r.sel, off, len, k⟩ = none)
    (hc : checkSegment isSS r off len k = .ok ())
    (hx : s.segTraps.find? (SegTrap.hits s (segBase r + off) len k) = none) :
    segVerdict s isSS r off len k = .ok (segBase r + off) := by
  unfold segVerdict; simp only [h, hc, hx, bind, Except.bind]

/-! ## The segment checks (20_memory R76) -/

theorem checkSegment_unloaded (h : r.desc = none) : checkSegment isSS r off len k = .error (segFault isSS 0) := by
  unfold checkSegment; rw [h]

variable {d : SegDesc}

theorem checkSegment_absent (h : r.desc = some d) (hp : d.present = false) :
    checkSegment isSS r off len k = .error (.exc (if isSS then .ss (selCode r.sel) else .np (selCode r.sel))) := by
  simp only [checkSegment, h, hp, if_true]

theorem checkSegment_unwritable (h : r.desc = some d) (hp : d.present = true) (hk : k.isWrite = true)
    (hw : d.writable = false) : checkSegment isSS r off len k = .error (segFault isSS 0) := by
  simp [checkSegment, h, hp, hk, hw]

/-- A segment that takes the access's writes passes the permission check. -/
theorem writeRefused_false (hw : k.isWrite = true → d.writable = true) : (k.isWrite && !d.writable) = false := by
  cases hk : k.isWrite with
  | false => rfl
  | true => rw [hw hk]; rfl

theorem checkSegment_beyond (h : r.desc = some d) (hp : d.present = true)
    (hw : k.isWrite = true → d.writable = true) (hl : d.limit.toNat < off.toNat + len - 1) :
    checkSegment isSS r off len k = .error (segFault isSS 0) := by
  simp [checkSegment, h, hp, writeRefused_false hw, hl]

theorem checkSegment_passes (h : r.desc = some d) (hp : d.present = true)
    (hw : k.isWrite = true → d.writable = true) (hl : off.toNat + len - 1 ≤ d.limit.toNat) :
    checkSegment isSS r off len k = .ok () := by
  simp [checkSegment, h, hp, writeRefused_false hw, Nat.not_lt.2 hl]

end Verdict

/-! ## The clauses of segTraps (20_memory R68, R76) -/

section Clauses

variable {s : State} {lin : Dword} {len : Nat} {k : AccessKind}

/-- A byte of the access lies in the clause's range. -/
def InRange (lin : Dword) (len : Nat) (x : SegTrap) : Prop :=
  ∃ j < len, x.lo ≤ lin + BitVec.ofNat 32 j ∧ lin + BitVec.ofNat 32 j ≤ x.hi

/-- The access is one an alignment clause raises for: a misaligned data reference at CPL 3 with AC set. -/
def AlignmentFaults (s : State) (lin : Dword) (len : Nat) (k : AccessKind) : Prop :=
  k ≠ .fetch ∧ flagAC s.eflags = true ∧ s.cpl = 3 ∧ lin.toNat % len ≠ 0

/-- A clause raises for an access of its kind with a byte in its range; an alignment clause only where the access
faults for its alignment. -/
theorem hits_iff (s : State) (lin : Dword) (len : Nat) (k : AccessKind) (x : SegTrap) :
    SegTrap.hits s lin len k x = true ↔
      (x.kind = none ∨ x.kind = some k) ∧ InRange lin len x ∧ (x.exc = .alignment → AlignmentFaults s lin len k) := by
  unfold SegTrap.hits InRange AlignmentFaults
  rw [Bool.and_eq_true, Bool.and_eq_true, and_assoc]
  refine and_congr (by simp) (and_congr (by simp) ?_)
  cases x.exc with
  | pageFault c => simp
  | alignment => simp [and_assoc]

/-- Why a clause raises nothing, as O16 says it: it is for another kind of access, no byte lies in its range, or it
is an alignment clause and the access is a fetch, is not checked or is aligned. -/
def Misses (s : State) (lin : Dword) (len : Nat) (k : AccessKind) (x : SegTrap) : Prop :=
  (x.kind ≠ none ∧ x.kind ≠ some k) ∨
  (∀ j < len, ¬ (x.lo ≤ lin + BitVec.ofNat 32 j ∧ lin + BitVec.ofNat 32 j ≤ x.hi)) ∨
  (x.exc = .alignment ∧ (k = .fetch ∨ flagAC s.eflags = false ∨ s.cpl ≠ 3 ∨ lin.toNat % len = 0))

theorem not_hits_of_misses {x : SegTrap} (h : Misses s lin len k x) : ¬ SegTrap.hits s lin len k x = true := by
  rw [hits_iff]
  rintro ⟨hkind, ⟨j, hj, hin⟩, hfault⟩
  rcases h with ⟨hnone, hsome⟩ | hout | ⟨hexc, hno⟩
  · exact hkind.elim hnone hsome
  · exact hout j hj hin
  · obtain ⟨hfetch, hac, hcpl, hmod⟩ := hfault hexc
    rcases hno with h | h | h | h
    · exact hfetch h
    · rw [hac] at h; cases h
    · exact h hcpl
    · exact hmod h

theorem find?_hits_none (h : ∀ x ∈ s.segTraps, Misses s lin len k x) :
    s.segTraps.find? (SegTrap.hits s lin len k) = none :=
  List.find?_eq_none.2 fun x hx => not_hits_of_misses (h x hx)

/-- The first clause that hits is the one found, behind any number that miss. -/
theorem find?_hits_first {before rest : List SegTrap} {x : SegTrap} (hs : s.segTraps = before ++ x :: rest)
    (hbefore : ∀ y ∈ before, Misses s lin len k y) (hx : SegTrap.hits s lin len k x = true) :
    s.segTraps.find? (SegTrap.hits s lin len k) = some x := by
  refine List.find?_eq_some_iff_append.2 ⟨hx, before, rest, hs, fun y hy => ?_⟩
  rw [Bool.not_eq_true', Bool.eq_false_iff]
  exact not_hits_of_misses (hbefore y hy)

end Clauses

/-- Settles O16: below the top a translation is `segVerdict`'s answer: the verdict listed, else the first segment
check that fails, else the first clause that hits, else base plus offset. -/
theorem segmentChecks : Obligations.SegmentChecks := by
  intro s isSS r narrow off len k htop hnarrow
  rw [translate_belowTop htop hnarrow]
  refine ⟨fun e => segVerdict_raises, fun lin => segVerdict_linear, fun hq => ⟨fun hd => ?_, fun d hd => ?_⟩⟩
  · exact segVerdict_checkFails hq (checkSegment_unloaded hd)
  refine ⟨fun hp => ?_, fun hp hk hw => ?_, fun hp hw hl => ?_, fun hp hw hl => ?_⟩
  · exact segVerdict_checkFails hq (checkSegment_absent hd hp)
  · exact segVerdict_checkFails hq (checkSegment_unwritable hd hp hk hw)
  · exact segVerdict_checkFails hq (checkSegment_beyond hd hp hw hl)
  · have passes : checkSegment isSS r off len k = .ok () := checkSegment_passes hd hp hw hl
    have hbase : segBase r = d.base := by unfold segBase; rw [hd]
    rw [← hbase]
    refine ⟨fun before c lo hi kind rest j hs hbefore hkind hj hlo hhi => ?_,
      fun before lo hi kind rest j hs hbefore hkind hj hlo hhi hfetch hac hcpl hmod => ?_, fun hmiss => ?_⟩
    · have hit : SegTrap.hits s (segBase r + off) len k ⟨kind, lo, hi, .pageFault c⟩ = true :=
        (hits_iff ..).2 ⟨hkind, ⟨j, hj, hlo, hhi⟩, fun h => nomatch h⟩
      exact segVerdict_trapped hq passes (find?_hits_first hs hbefore hit)
    · have hit : SegTrap.hits s (segBase r + off) len k ⟨kind, lo, hi, .alignment⟩ = true :=
        (hits_iff ..).2 ⟨hkind, ⟨j, hj, hlo, hhi⟩, fun _ => ⟨hfetch, hac, hcpl, hmod⟩⟩
      exact segVerdict_trapped hq passes (find?_hits_first hs hbefore hit)
    · exact segVerdict_untrapped hq passes (find?_hits_none hmiss)

end Sys2Proof.Proofs
end

section
/-! Bytes that spell no instruction (30_encoding R90, R93, R120, R121): what the decoder answers for them and what
the step makes of its answer. -/

namespace Sys2Proof.Proofs

open Sys2Proof Sys2Proof.Machine Sys2Proof.Safety Sys2Proof.Laws

/-! ## The bytes before the opcode (30_encoding R93) -/

/-- The operand-size, address-size and segment-override bytes: those of R93 but for LOCK, REPNE and REP. -/
def overrideBytes : List Byte := [0x66, 0x67, 0x26, 0x2E, 0x36, 0x3E, 0x64, 0x65]

/-- The decoder matches a byte by its number. -/
theorem toNat_notMem {b : Byte} {l : List Byte} (h : b ∉ l) : b.toNat ∉ l.map BitVec.toNat := fun hm =>
  have ⟨_, ha, hab⟩ := List.mem_map.1 hm
  h (BitVec.eq_of_toNat_eq hab ▸ ha)

theorem toNat_ne {b : Byte} {l : List Byte} (h : b ∉ l) {n : Nat} (hn : n ∈ l.map BitVec.toNat) : b.toNat ≠ n :=
  fun heq => toNat_notMem h (heq ▸ hn)

/-- An override byte is consumed, whatever follows. -/
theorem readModifiers_override {b : Byte} (h : b ∈ overrideBytes) (m : Modifiers) :
    ∃ m', ∀ t, readModifiers m (b :: t) = readModifiers m' t := by
  simp only [overrideBytes, List.mem_cons, List.not_mem_nil, or_false] at h
  rcases h with rfl | rfl | rfl | rfl | rfl | rfl | rfl | rfl <;> exact ⟨_, fun _ => rfl⟩

theorem readModifiers_overrides {mods : List Byte} (h : ∀ b ∈ mods, b ∈ overrideBytes) (m : Modifiers) :
    ∃ m', ∀ t, readModifiers m (mods ++ t) = readModifiers m' t := by
  induction mods generalizing m with
  | nil => exact ⟨m, fun _ => rfl⟩
  | cons b mods ih =>
    obtain ⟨hb, hmods⟩ := List.forall_mem_cons.1 h
    obtain ⟨m₁, first⟩ := readModifiers_override hb m
    obtain ⟨m₂, others⟩ := ih hmods m₁
    exact ⟨m₂, fun t => (first _).trans (others t)⟩

theorem readModifiers_lockOrRep {b : Byte} (h : b ∈ [0xF0, 0xF2, 0xF3]) (m : Modifiers) (t : List Byte) :
    readModifiers m (b :: t) = .error .lockOrRep := by
  simp only [List.mem_cons, List.not_mem_nil, or_false] at h
  rcases h with rfl | rfl | rfl <;> rfl

/-- The bytes of R93 end at the first byte that is none of them. -/
theorem readModifiers_opcode {b : Byte} (h : b ∉ beforeOpcode) (m : Modifiers) (t : List Byte) :
    readModifiers m (b :: t) = .ok (m, b :: t) := by
  unfold readModifiers
  split
  any_goals exact absurd ‹b.toNat = _› (toNat_ne h (by decide))
  rfl

/-! ## The opcode (30_encoding R106, R120, R121) -/

section Opcode

variable {sz asz : OpSize} {seg : Option SegName} {b modrm : Byte} {t : List Byte}

/-- The opcodes of PUSH r and POP r, 50H to 5FH, are first bytes of rows. -/
theorem registerOpcode_mem : ∀ n < 96, 80 ≤ n → n ∈ firstBytes.map BitVec.toNat := by decide

/-- A first byte of no row of R106. -/
theorem decodeOpcode_noRow (h : b ∉ firstBytes) : decodeOpcode sz asz seg (b :: t) = .error (.noRow b) := by
  have noRegister : ¬ (80 ≤ b.toNat ∧ b.toNat < 96) := fun ⟨low, high⟩ =>
    toNat_notMem h (registerOpcode_mem _ high low)
  have noPush : b.toNat / 8 ≠ 10 := by omega
  have noPop : b.toNat / 8 ≠ 11 := by omega
  simp only [decodeOpcode, readByte, bind, Except.bind]
  split
  any_goals exact absurd ‹b.toNat = _› (toNat_ne h (by decide))
  rw [if_neg noPush, if_neg noPop]

theorem decodeOpcode_0F : decodeOpcode sz asz seg (0x0F :: t) = decodeTwoByte sz t := rfl

theorem decodeOpcode_62 : decodeOpcode sz asz seg (0x62 :: t) = decodeBound sz asz seg t := rfl

theorem decodeOpcode_8F : decodeOpcode sz asz seg (0x8F :: t) = decodeGroup8F sz asz seg t := rfl

theorem decodeOpcode_FF : decodeOpcode sz asz seg (0xFF :: t) = decodeGroupFF sz asz seg t := rfl

/-- After 0FH a second byte of no row of R106. -/
theorem decodeTwoByte_noRow (h : b ∉ [0x0B, 0xA0, 0xA1, 0xA8, 0xA9]) :
    decodeTwoByte sz (b :: t) = .error (.noRow 0x0F) := by
  simp only [decodeTwoByte, readByte, bind, Except.bind]
  split
  any_goals exact absurd ‹b.toNat = _› (toNat_ne h (by decide))
  rfl

/-- With mod = 3 there is no memory operand. -/
theorem readMemOnly_register (h : modrm.extractLsb' 6 2 = 3#2) :
    readMemOnly asz seg modrm t = .error .undefinedForm := by
  simp only [readMemOnly, readRM, h, if_true, bind, Except.bind]

theorem decodeGroup8F_reserved (h : modrm.extractLsb' 3 3 ≠ 0#3) :
    decodeGroup8F sz asz seg (modrm :: t) = .error .undefinedForm := by
  simp only [decodeGroup8F, readByte, bind, Except.bind, h, if_false]

theorem decodeGroupFF_7 (h : modrm.extractLsb' 3 3 = 7#3) :
    decodeGroupFF sz asz seg (modrm :: t) = .error .undefinedForm := by
  simp only [decodeGroupFF, readByte, bind, Except.bind, h]; rfl

theorem decodeGroupFF_3_register (h : modrm.extractLsb' 3 3 = 3#3) (hmod : modrm.extractLsb' 6 2 = 3#2) :
    decodeGroupFF sz asz seg (modrm :: t) = .error .undefinedForm := by
  simp only [decodeGroupFF, readByte, bind, Except.bind, h, readMemOnly_register hmod]; rfl

/-- FF /0, /1, /4 and /5 are instructions out of scope. -/
theorem decodeGroupFF_noRow (h : modrm.extractLsb' 3 3 ∈ [0#3, 1#3, 4#3, 5#3]) :
    decodeGroupFF sz asz seg (modrm :: t) = .error (.noRow 0xFF) := by
  simp only [decodeGroupFF, readByte, bind, Except.bind]
  simp only [List.mem_cons, List.not_mem_nil, or_false] at h
  rcases h with h | h | h | h <;> rw [h] <;> rfl

theorem decodeBound_register (h : modrm.extractLsb' 6 2 = 3#2) :
    decodeBound sz asz seg (modrm :: t) = .error .undefinedForm := by
  simp only [decodeBound, readByte, readMemOnly_register h, bind, Except.bind]

end Opcode

/-! ## The decoder's stops (30_encoding R92) -/

section Decode

variable {d : Bool} {mods t : List Byte} {b : Byte}

theorem decode_modifiersError {bs : List Byte} {e : DecodeStop}
    (h : readModifiers ⟨false, false, none⟩ bs = .error e) : decode d bs = .error e := by
  simp only [decode, h, bind, Except.bind]

/-- Override bytes do not keep the opcode from stopping the decoder. -/
theorem decode_opcodeError (hmods : ∀ b ∈ mods, b ∈ overrideBytes) (hb : b ∉ beforeOpcode) {e : DecodeStop}
    (h : ∀ sz asz seg, decodeOpcode sz asz seg (b :: t) = .error e) : decode d (mods ++ b :: t) = .error e := by
  obtain ⟨m, read⟩ := readModifiers_overrides hmods ⟨false, false, none⟩
  simp only [decode, read, readModifiers_opcode hb, h, bind, Except.bind]

theorem decode_lockOrRep (hmods : ∀ b ∈ mods, b ∈ overrideBytes) (hb : b ∈ [0xF0, 0xF2, 0xF3]) :
    decode d (mods ++ b :: t) = .error .lockOrRep := by
  obtain ⟨m, read⟩ := readModifiers_overrides hmods ⟨false, false, none⟩
  exact decode_modifiersError ((read _).trans (readModifiers_lockOrRep hb m t))

theorem decode_overrides (hmods : ∀ b ∈ mods, b ∈ overrideBytes) : decode d mods = .error .truncated := by
  obtain ⟨m, read⟩ := readModifiers_overrides hmods ⟨false, false, none⟩
  have ended := read []
  rw [List.append_nil] at ended
  exact decode_modifiersError ended

end Decode

/-! ## The fetch (30_encoding R90, R92) -/

/-- Where all the bytes asked for were fetched, nothing kept one back. -/
theorem fetchBytes_full {s : State} {n k : Nat} (h : (fetchBytes s n k).1.length = n) :
    (fetchBytes s n k).2 = none := by
  induction n generalizing k with
  | zero => rfl
  | succ n ih =>
    unfold fetchBytes at h ⊢
    cases hb : fetchByte s k with
    | error x => rw [hb] at h; cases h
    | ok b => rw [hb] at h; exact ih (Nat.succ.inj h)

/-- The bytes fetched are those before the first that cannot be. -/
theorem fetchBytes_stops {s : State} {bs : List Byte} {n k : Nat} {x : Trouble} (hlen : bs.length < n)
    (hbytes : ∀ j b, bs[j]? = some b → fetchByte s (k + j) = .ok b)
    (hnext : fetchByte s (k + bs.length) = .error x) : fetchBytes s n k = (bs, some x) := by
  induction bs generalizing n k with
  | nil =>
    obtain ⟨n, rfl⟩ := Nat.exists_eq_succ_of_ne_zero (Nat.ne_of_gt hlen)
    have hk : fetchByte s k = .error x := hnext
    simp only [fetchBytes, hk]
  | cons b bs ih =>
    obtain ⟨n, rfl⟩ := Nat.exists_eq_succ_of_ne_zero (Nat.ne_of_gt (Nat.zero_lt_of_lt hlen))
    have hk : fetchByte s k = .ok b := hbytes 0 b rfl
    have tail : fetchBytes s n (k + 1) = (bs, some x) := by
      refine ih (Nat.lt_of_succ_lt_succ hlen) (fun j c hj => ?_) ?_
      · rw [Nat.add_right_comm]; exact hbytes (j + 1) c hj
      · rw [Nat.add_right_comm]; exact hnext
    simp only [fetchBytes, hk, tail]

theorem fetchByte_slotError {s : State} {k : Nat} {x : Trouble} (h : fetchSlot s k = .error x) :
    fetchByte s k = .error x := by
  simp only [fetchByte, h, bind, Except.bind]

/-! ## The step -/

theorem raise_exc (u : State) (e : Exc) : raise u (.exc e) = deliver e.event u :=
  complete_exc u e

theorem raise_refuse (u : State) (r : Refusal) : raise u (.refuse r) = .refused r := rfl

section Step

variable {s u : State}

/-- A boundary that takes no event goes on to fetch. -/
theorem boundary_atFetch (h : AtFetch s u) : boundary s = fetchDecode u := by
  obtain ⟨running, h⟩ := h
  unfold boundary
  rw [if_neg (ne_true_of_eq_false running)]
  split at h
  next shadow => rw [if_pos shadow, h]
  next asks =>
    obtain ⟨nothing, rfl⟩ := h
    rw [if_neg asks, nothing]

theorem step_stops (h : AtFetch s u) {bs : List Byte} {e : DecodeStop} (hw : (fetchWindow u).1 = bs)
    (hd : decode (codeD u) bs = .error e) : step s = raise u (decodeTrouble (fetchWindow u).2 e) := by
  simp only [step, boundary_atFetch h, fetchDecode, hw, hd]

theorem step_undefinedForm (h : AtFetch s u) {bs : List Byte} (hw : (fetchWindow u).1 = bs)
    (hd : decode (codeD u) bs = .error .undefinedForm) : step s = deliver Exc.ud.event u :=
  (step_stops h hw hd).trans (raise_exc u .ud)

theorem step_noRow (h : AtFetch s u) {bs : List Byte} {b : Byte} (hw : (fetchWindow u).1 = bs)
    (hd : decode (codeD u) bs = .error (.noRow b)) : step s = .refused (.opcodeOutOfScope b) :=
  (step_stops h hw hd).trans (raise_refuse u _)

theorem step_lockOrRep (h : AtFetch s u) {bs : List Byte} (hw : (fetchWindow u).1 = bs)
    (hd : decode (codeD u) bs = .error .lockOrRep) : step s = .refused .lockOrRepByte :=
  (step_stops h hw hd).trans (raise_refuse u _)

/-- 15 bytes that end no instruction are #GP(0). -/
theorem step_tooLong (h : AtFetch s u) {bs : List Byte} (hw : (fetchWindow u).1 = bs) (hlen : bs.length = 15)
    (hd : decode (codeD u) bs = .error .truncated) : step s = deliver (Exc.gp 0).event u := by
  have whole : (fetchWindow u).2 = none := fetchBytes_full (hw.symm ▸ hlen)
  rw [step_stops h hw hd, whole]
  exact raise_exc u _

/-- A byte that is needed and cannot be fetched raises its exception. -/
theorem step_fetchRaises (h : AtFetch s u) {bs : List Byte} {e : Exc} (hlen : bs.length < 15)
    (hbytes : ∀ k b, bs[k]? = some b → fetchByte u k = .ok b) (hd : decode (codeD u) bs = .error .truncated)
    (hnext : fetchSlot u bs.length = .error (.exc e)) : step s = deliver e.event u := by
  have window : fetchWindow u = (bs, some (.exc e)) := by
    refine fetchBytes_stops hlen (fun j b hj => ?_) ?_ <;> rw [Nat.zero_add]
    · exact hbytes j b hj
    · exact fetchByte_slotError hnext
  rw [step_stops h (congrArg Prod.fst window) hd, window]
  exact raise_exc u e

end Step

/-! ## The obligations -/

/-- Settles O4: each form stops the decoder at its ModRM byte, LOCK before the opcode, and the step answers by the
stop. -/
theorem reservedForms : Obligations.ReservedForms := by
  intro s u mods rest modrm h hmods
  refine ⟨fun hw hreg => step_undefinedForm h hw ?_, fun hw hreg => step_undefinedForm h hw ?_,
    fun hw hreg hmod => step_undefinedForm h hw ?_, fun hw hmod => step_undefinedForm h hw ?_,
    fun hw hreg => step_noRow h hw ?_, fun hw => step_lockOrRep h hw ?_⟩
  · exact decode_opcodeError hmods (by decide) fun _ _ _ => decodeOpcode_8F.trans (decodeGroup8F_reserved hreg)
  · exact decode_opcodeError hmods (by decide) fun _ _ _ => decodeOpcode_FF.trans (decodeGroupFF_7 hreg)
  · exact decode_opcodeError hmods (by decide) fun _ _ _ => decodeOpcode_FF.trans (decodeGroupFF_3_register hreg hmod)
  · exact decode_opcodeError hmods (by decide) fun _ _ _ => decodeOpcode_62.trans (decodeBound_register hmod)
  · exact decode_opcodeError hmods (by decide) fun _ _ _ => decodeOpcode_FF.trans (decodeGroupFF_noRow hreg)
  · exact decode_lockOrRep hmods (by decide)

/-- Settles O60: the decoder stops at the opcode, at LOCK, REPNE or REP, or where the bytes end; in the last case
the fetch says why, or that 15 bytes were not enough. -/
theorem decodeStops : Obligations.DecodeStops := by
  intro s u mods rest b h hmods
  refine ⟨fun hw hbefore hrow => step_noRow h hw ?_, fun hw hrow => step_noRow h hw ?_,
    fun hw hlock => step_lockOrRep h hw ?_, fun hw hlen => step_tooLong h hw hlen ?_, step_tooLong h rfl,
    fun bs e => step_fetchRaises h⟩
  · exact decode_opcodeError hmods hbefore fun _ _ _ => decodeOpcode_noRow hrow
  · exact decode_opcodeError hmods (by decide) fun _ _ _ => decodeOpcode_0F.trans (decodeTwoByte_noRow hrow)
  · exact decode_lockOrRep hmods hlock
  · exact decode_overrides hmods

end Sys2Proof.Proofs
end

section
/-! PUSH, POP, PUSHA, POPA (40_stack R130 to R139): the bytes that spell them, what one push or pop of an item gives,
and what a run of pops gives. -/

namespace Sys2Proof.Proofs

open Sys2Proof Sys2Proof.Machine Sys2Proof.Safety Sys2Proof.Laws

/-! ## Encodings without modifiers (30_encoding R92, R106) -/

/-- The decoder on an opcode without modifiers and its operand bytes: the sizes are those of the D flag. -/
theorem decode_unmodified {d : Bool} {b : Byte} {operand rest : List Byte} {i : Instr} (hb : b ∉ beforeOpcode)
    (h : decodeOpcode (attributeSize d false) (attributeSize d false) none (b :: (operand ++ rest)) = .ok (i, rest)) :
    decode d (b :: (operand ++ rest)) = .ok (i, operand.length + 1) := by
  have length : (b :: (operand ++ rest)).length - rest.length = operand.length + 1 := by
    rw [List.length_cons, List.length_append]; omega
  simp only [decode, readModifiers_opcode hb, bind, Except.bind, h, length]

/-- `decode_unmodified` for an instruction that is its opcode byte alone. -/
theorem decode_opcodeAlone {d : Bool} {b : Byte} {rest : List Byte} {i : Instr} (hb : b ∉ beforeOpcode)
    (h : decodeOpcode (attributeSize d false) (attributeSize d false) none (b :: rest) = .ok (i, rest)) :
    decode d (b :: rest) = .ok (i, 1) := decode_unmodified (operand := []) hb h

theorem decode_pushR (d : Bool) (r : Reg) (rest : List Byte) :
    decode d ((0x50 + r.number.setWidth 8) :: rest) = .ok (.pushR (attributeSize d false) r, 1) :=
  decode_opcodeAlone (by cases r <;> decide) (by cases r <;> rfl)

theorem decode_popR (d : Bool) (r : Reg) (rest : List Byte) :
    decode d ((0x58 + r.number.setWidth 8) :: rest) = .ok (.popR (attributeSize d false) r, 1) :=
  decode_opcodeAlone (by cases r <;> decide) (by cases r <;> rfl)

/-! ## One item -/

/-- The low `OpSize` bits taken twice are those taken once. -/
@[simp] theorem truncSize_truncSize (sz : OpSize) (v : Dword) : truncSize sz (truncSize sz v) = truncSize sz v := by
  cases sz with
  | w16 => exact low16_low16 v
  | w32 => rfl

/-- A stored item reads back as its low `OpSize` bits, and nothing outside it changes. -/
theorem storesAt_of_store {sz : OpSize} {lin v w : Dword} {s t : State} (hv : truncSize sz w = truncSize sz v)
    (hm : t.mem = s.mem.storeLE lin (itemBytes sz) w)
    (hw : t.written = markWritten s.written lin (itemBytes sz)) : StoresAt sz lin v s t := by
  unfold StoresAt
  rw [hm]
  exact ⟨(load_store_item sz s.mem lin w).trans hv, fun a => read_storeLE_outside _ _ _ _ a, hw⟩

theorem pushItem_ok {sz : OpSize} {lin : Dword} {s : State} (w : Dword)
    (h : stackSlot s (pushOffset (itemBytes sz) 0 s) (itemBytes sz) .stackWrite = .ok lin) :
    pushItem sz w s = .ok { s with
      regs := movedRegs (-BitVec.ofNat 32 (itemBytes sz)) s, eip := s.pcNext
      mem := s.mem.storeLE lin (itemBytes sz) w, written := markWritten s.written lin (itemBytes sz) } := by
  unfold pushItem
  rw [push_ok w h]
  rfl

theorem pushItem_stores {sz : OpSize} {lin v w : Dword} {s : State} (hv : truncSize sz w = truncSize sz v)
    (h : stackSlot s (pushOffset (itemBytes sz) 0 s) (itemBytes sz) .stackWrite = .ok lin) :
    ∃ t, pushItem sz w s = .ok t ∧ StoresAt sz lin v s t ∧
      t = { s with regs := movedRegs (-BitVec.ofNat 32 (itemBytes sz)) s, eip := s.pcNext,
                   mem := t.mem, written := t.written } :=
  ⟨_, pushItem_ok w h, storesAt_of_store hv rfl rfl, rfl⟩

theorem pushItem_raises {sz : OpSize} {w : Dword} {s : State} {x : Trouble}
    (h : stackSlot s (pushOffset (itemBytes sz) 0 s) (itemBytes sz) .stackWrite = .error x) :
    pushItem sz w s = .error ⟨x, s⟩ := by
  unfold pushItem
  rw [push_eq, h]
  rfl

/-- A pop: the item at the top of stack and the pointer moved past it. -/
theorem pop_ok {n : Nat} {s : State} {lin : Dword} (h : stackSlot s (stackPtr s) n .stackRead = .ok lin) :
    pop n s = .ok (s.mem.loadLE lin n, { s with regs := movedRegs (BitVec.ofNat 32 n) s }) := by
  rw [← setStackPtr_move]
  unfold pop
  rw [peek_ok h]
  rfl

theorem pop_raises {n : Nat} {s : State} {x : Trouble} (h : stackSlot s (stackPtr s) n .stackRead = .error x) :
    pop n s = .error ⟨x, s⟩ := by
  unfold pop peek
  rw [h]
  rfl

/-! ## PUSH of a value (R130, R132 to R134, R140, R141) and POP r (R135) -/

/-- Each of these forms pushes its value, or the value's low `OpSize` bits. -/
theorem exec_pushValue {i : Instr} {sz : OpSize} {v : Dword} {s : State} (h : pushValue i s = some (sz, v)) :
    ∃ w, truncSize sz w = truncSize sz v ∧ exec i s = complete s (pushItem sz w s) := by
  cases i with
  | pushR | pushImm8 | pushImm => cases h; exact ⟨_, truncSize_truncSize _ _, rfl⟩
  | pushEs | pushCs | pushSs | pushDs | pushFs | pushGs | pushfd => cases h; exact ⟨_, rfl, rfl⟩
  | pushf => cases h; exact ⟨_, truncSize_truncSize .w16 _, rfl⟩
  | _ => cases h

/-- Settles O19: each form is a push of its value (`exec_pushValue`), which stores it or raises the slot's exception
before anything is stored. -/
theorem pushValue : Obligations.PushValue := by
  refine ⟨fun d r b0 b1 b2 b3 rest => ⟨decode_pushR d r rest,
    decode_unmodified (operand := [b0]) (by decide) rfl, decode_unmodified (operand := [b0, b1]) (by decide) rfl,
    decode_unmodified (operand := [b0, b1, b2, b3]) (by decide) rfl,
    decode_opcodeAlone (by decide) rfl, decode_opcodeAlone (by decide) rfl, decode_opcodeAlone (by decide) rfl,
    decode_opcodeAlone (by decide) rfl, decode_unmodified (operand := [0xA0]) (by decide) rfl,
    decode_unmodified (operand := [0xA8]) (by decide) rfl, decode_opcodeAlone (by decide) rfl,
    decode_opcodeAlone (by decide) rfl⟩, fun i sz v s hi => ?_⟩
  obtain ⟨w, hw, run⟩ := exec_pushValue hi
  rw [run]
  refine ⟨fun lin hslot => ?_, fun e hslot => ?_⟩
  · obtain ⟨t, pushed, stores, keeps⟩ := pushItem_stores hw hslot
    exact ⟨t, by rw [pushed]; rfl, stores, keeps⟩
  · rw [pushItem_raises hslot, complete_exc]

theorem exec_popR (sz : OpSize) (r : Reg) (s : State) : exec (.popR sz r) s =
    complete s (pop (itemBytes sz) s >>= fun p => .ok (advance (writeReg sz r p.1 p.2))) := rfl

/-- Settles O21: one pop, then the register's write over the moved pointer. -/
theorem popRegister : Obligations.PopRegister := by
  refine ⟨decode_popR, fun sz r s => ⟨fun lin hslot => ?_, fun e hslot => ?_⟩⟩
  · rw [exec_popR, pop_ok hslot]
    rfl
  · rw [exec_popR, pop_raises hslot]
    exact complete_exc s e

/-! ## PUSHA and PUSHAD (R138) -/

theorem exec_pushAll {i : Instr} {sz : OpSize} (h : i = .pusha ∧ sz = .w16 ∨ i = .pushad ∧ sz = .w32) (s : State) :
    exec i s = complete s (pushAll (itemBytes sz) (pushaItems s) s >>= fun t => .ok (advance t)) := by
  rcases h with ⟨rfl, rfl⟩ | ⟨rfl, rfl⟩ <;> rfl

/-- Eight items of either size fit in a 16-bit stack. -/
theorem itemBytes_mul_eight_le (sz : OpSize) : itemBytes sz * 8 ≤ 2 ^ 16 := by
  cases sz <;> decide

/-- Settles O26: a run of eight pushes (`pushAll_ok`), or one that raises part-way (`complete_pushFails`). -/
theorem pushAllRegisters : Obligations.PushAllRegisters := by
  refine ⟨fun rest => ⟨decode_opcodeAlone (by decide) rfl, decode_opcodeAlone (by decide) rfl⟩,
    fun i sz s slot hi => ⟨fun can => ?_, fun j e fails => ?_⟩⟩
  · obtain ⟨t, pushed, stored, keeps, -⟩ := pushAll_ok sz (pushaItems s) slot s (itemBytes_mul_eight_le sz) can
    refine ⟨advance t, ?_, pushedAt_congr stored rfl rfl rfl, ?_⟩
    · rw [exec_pushAll hi, pushed]
      rfl
    · rw [keeps, Nat.mul_comm 8]
      rfl
  · rw [exec_pushAll hi]
    exact complete_pushFails _ rfl rfl (itemBytes_mul_eight_le sz) fails

/-! ## POPA and POPAD (R139) -/

/-- `s` after `j` items of `n` bytes were popped or stepped over: the other registers are those of `g`. -/
def popped (n j : Nat) (g : Regs) (s : State) : State :=
  { s with regs := { g with esp := movedEsp (BitVec.ofNat 32 (n * j)) s } }

theorem popped_zero (n : Nat) (s : State) : popped n 0 s.regs s = s := by
  unfold popped
  rw [Nat.mul_zero, movedEsp_zero]

/-- The pointer after `j` items, moved past one more. -/
theorem movedRegs_popped (n j : Nat) (g : Regs) (s : State) :
    movedRegs (BitVec.ofNat 32 n) (popped n j g s) =
      { g with esp := movedEsp (BitVec.ofNat 32 (n * (j + 1))) s } := by
  unfold movedRegs
  rw [movedEsp_movedEsp (s := s) (t := popped n j g s) (BitVec.ofNat 32 (n * j)) (BitVec.ofNat 32 n) rfl rfl,
    ← BitVec.ofNat_add]
  rfl

theorem release_popped (n j : Nat) (g : Regs) (s : State) :
    release (BitVec.ofNat 32 n) (popped n j g s) = popped n (j + 1) g s := by
  rw [release_eq, movedRegs_popped]
  rfl

/-- The top of stack after `j` items is item `j`. -/
theorem stackSlot_popped (n j : Nat) (g : Regs) (s : State) :
    stackSlot (popped n j g s) (stackPtr (popped n j g s)) n .stackRead =
      stackSlot s (popOffset n j s) n .stackRead := by
  rw [stackPtr_moved (s := s) (t := popped n j g s) (d := BitVec.ofNat 32 (n * j)) rfl rfl]
  exact stackSlot_congr rfl rfl rfl rfl rfl _ _ _

/-- Writing a register other than ESP and moving ESP commute. -/
theorem set_esp_comm {r : Reg} (h : r ≠ .esp) (f : Dword → Dword) (v : Dword) (g : Regs) :
    ({ g with esp := v } : Regs).set r (f (({ g with esp := v } : Regs).get r)) =
      { g.set r (f (g.get r)) with esp := v } := by
  cases r with
  | esp => exact absurd rfl h
  | _ => rfl

/-- Item `j` popped into a register other than ESP. -/
theorem popInto_ok {sz : OpSize} {r : Reg} {j : Nat} {lin : Dword} {s : State} (hr : r ≠ .esp)
    (h : stackSlot s (popOffset (itemBytes sz) j s) (itemBytes sz) .stackRead = .ok lin) (g : Regs) :
    popInto sz r (popped (itemBytes sz) j g s) =
      .ok (popped (itemBytes sz) (j + 1) (g.set r (writeSize sz (g.get r) (s.mem.loadLE lin (itemBytes sz)))) s) := by
  unfold popInto
  rw [pop_ok ((stackSlot_popped _ j g s).trans h), movedRegs_popped]
  simp only [bind, Except.bind, writeReg]
  rw [set_esp_comm hr (writeSize sz · _)]
  rfl

theorem popInto_raises {sz : OpSize} {j : Nat} {x : Trouble} {s : State}
    (h : stackSlot s (popOffset (itemBytes sz) j s) (itemBytes sz) .stackRead = .error x) (r : Reg) (g : Regs) :
    popInto sz r (popped (itemBytes sz) j g s) = .error ⟨x, popped (itemBytes sz) j g s⟩ := by
  unfold popInto
  rw [pop_raises ((stackSlot_popped _ j g s).trans h)]
  rfl

/-- The register file after items `j`, `j + 1`, ... are loaded into the listed registers. -/
def loadRegs (sz : OpSize) (item : Nat → Dword) : Nat → List Reg → Regs → Regs
  | _, [], g => g
  | j, r :: rs, g => loadRegs sz item (j + 1) rs (g.set r (writeSize sz (g.get r) (item j)))

/-- A run of readable pops loads the registers in order. -/
theorem popEach_ok {sz : OpSize} {slot : Nat → Dword} {s : State} {rs : List Reg} (hrs : .esp ∉ rs) {j hi : Nat}
    (hhi : j + rs.length = hi) (can : CanPop (itemBytes sz) j hi slot s) (g : Regs) :
    popEach sz rs (popped (itemBytes sz) j g s) =
      .ok (popped (itemBytes sz) hi (loadRegs sz (fun k => s.mem.loadLE (slot k) (itemBytes sz)) j rs g) s) := by
  subst hhi
  induction rs generalizing j g with
  | nil => rfl
  | cons r rs ih =>
    obtain ⟨hr, hrs⟩ := not_or.1 (mt List.mem_cons.2 hrs)
    have first := popInto_ok (Ne.symm hr) (can j (Nat.le_refl j) (by rw [List.length_cons]; omega)) g
    simp only [popEach, first, bind, Except.bind]
    rw [ih hrs _ fun k low high => can k (by omega) (by rw [List.length_cons]; omega), Nat.add_assoc,
      Nat.add_comm 1, ← List.length_cons]
    rfl

/-- A run of pops raises at its first unreadable item, with no more than registers changed. -/
theorem popEach_raises {sz : OpSize} {slot : Nat → Dword} {s : State} {x : Trouble} {rs : List Reg}
    (hrs : .esp ∉ rs) {j bad : Nat} (low : j ≤ bad) (high : bad < j + rs.length)
    (can : CanPop (itemBytes sz) j bad slot s)
    (raises : stackSlot s (popOffset (itemBytes sz) bad s) (itemBytes sz) .stackRead = .error x) (g : Regs) :
    ∃ g', popEach sz rs (popped (itemBytes sz) j g s) = .error ⟨x, popped (itemBytes sz) bad g' s⟩ := by
  induction rs generalizing j g with
  | nil => exact absurd high (by simpa using low)
  | cons r rs ih =>
    obtain ⟨hr, hrs⟩ := not_or.1 (mt List.mem_cons.2 hrs)
    rcases Nat.eq_or_lt_of_le low with rfl | later
    · exact ⟨g, by simp only [popEach, popInto_raises raises, bind, Except.bind]⟩
    · have first := popInto_ok (Ne.symm hr) (can j (Nat.le_refl j) later) g
      simp only [popEach, first, bind, Except.bind]
      exact ih hrs later (by rw [List.length_cons] at high; omega) (fun k hk => can k (Nat.le_of_succ_le hk)) _

theorem exec_popAll {i : Instr} {sz : OpSize} (h : i = .popa ∧ sz = .w16 ∨ i = .popad ∧ sz = .w32) (s : State) :
    exec i s = complete s (popAll sz s) := by
  rcases h with ⟨rfl, rfl⟩ | ⟨rfl, rfl⟩ <;> rfl

/-- A pop that raises delivers its exception from the state before the instruction: no pop stores. -/
theorem complete_popped (n j : Nat) (g : Regs) (s : State) (e : Exc) :
    complete s (.error ⟨.exc e, popped n j g s⟩) = deliver e.event s := complete_exc s e

/-- The three registers below the saved-ESP slot, as `popAll` pops them. -/
theorem popLow_ok {sz : OpSize} {slot : Nat → Dword} {s : State} (can : CanPop (itemBytes sz) 0 3 slot s) :
    popEach sz [.edi, .esi, .ebp] s = .ok (popped (itemBytes sz) 3
      (loadRegs sz (fun k => s.mem.loadLE (slot k) (itemBytes sz)) 0 [.edi, .esi, .ebp] s.regs) s) := by
  have run := popEach_ok (hi := 3) (rs := [.edi, .esi, .ebp]) (by decide) rfl can s.regs
  rwa [popped_zero] at run

/-- POPA once its first three items are read: the saved-ESP slot is stepped over, then items 4 to 7 are popped. -/
theorem popAll_high {sz : OpSize} {slot : Nat → Dword} {s : State} (can : CanPop (itemBytes sz) 0 3 slot s) :
    popAll sz s = (popEach sz [.ebx, .edx, .ecx, .eax] (popped (itemBytes sz) 4
      (loadRegs sz (fun k => s.mem.loadLE (slot k) (itemBytes sz)) 0 [.edi, .esi, .ebp] s.regs) s) >>=
        fun t => .ok (advance t)) := by
  unfold popAll
  rw [popLow_ok can]
  simp only [bind, Except.bind, release_popped]

/-- POPA raises at its first unreadable item, the saved-ESP slot not being one. -/
theorem popAll_raises {sz : OpSize} {slot : Nat → Dword} {s : State} {x : Trouble} {j : Nat} (hj : j < 8) (h3 : j ≠ 3)
    (can : ∀ k < j, k ≠ 3 → stackSlot s (popOffset (itemBytes sz) k s) (itemBytes sz) .stackRead = .ok (slot k))
    (raises : stackSlot s (popOffset (itemBytes sz) j s) (itemBytes sz) .stackRead = .error x) :
    ∃ g, popAll sz s = .error ⟨x, popped (itemBytes sz) j g s⟩ := by
  rcases Nat.lt_or_gt_of_ne h3 with low | high
  · obtain ⟨g, run⟩ := popEach_raises (rs := [.edi, .esi, .ebp]) (by decide) (Nat.zero_le j) low
      (fun k _ hk => can k hk (by omega)) raises s.regs
    rw [popped_zero] at run
    exact ⟨g, by simp only [popAll, run, bind, Except.bind]⟩
  · rw [popAll_high fun k _ hk => can k (by omega) (by omega)]
    obtain ⟨g, run⟩ := popEach_raises (rs := [.ebx, .edx, .ecx, .eax]) (by decide) high hj
      (fun k low hk => can k hk (by omega)) raises _
    exact ⟨g, by rw [run]; rfl⟩

/-- Settles O27: three pops, the step over the saved-ESP slot, four pops; a read that raises does so before anything
is stored. -/
theorem popAllRegisters : Obligations.PopAllRegisters := by
  refine ⟨fun rest => ⟨decode_opcodeAlone (by decide) rfl, decode_opcodeAlone (by decide) rfl⟩,
    fun i sz s slot hi => ⟨fun low high => ?_, fun j e hj h3 can raises => ?_⟩⟩
  · rw [exec_popAll hi, popAll_high low, popEach_ok (hi := 8) (by decide) rfl high, Nat.mul_comm 8]
    rfl
  · obtain ⟨g, run⟩ := popAll_raises hj h3 can raises
    rw [exec_popAll hi, run, complete_popped]

end Sys2Proof.Proofs
end

section
/-! The bits of EFLAGS after POPF, POPFD, IRET and IRETD (40_stack R142, R143, 42_int R194 to R196, decision D21): which
bits each mask admits, and what a merge under it gives bit by bit. -/

namespace Sys2Proof.Proofs

open Sys2Proof Sys2Proof.Machine Sys2Proof.Safety Sys2Proof.Laws

/-! ## The default masks (decision D21) -/

/-- The default mask by what it asks of the level: `io`, CPL is not above IOPL; `top`, CPL is 0. -/
def maskAt (i : FlagInstr) (io top : Bool) : Dword :=
  match i with
  | .popf | .popfd => freeFlagBits ||| (if io then 0x200 else 0) ||| (if top then 0x3000 else 0)
  | .iret => freeFlagBits ||| (if io then 0x200 else 0) ||| (if top then 0x3000 else 0) ||| 0x10000 |||
      (if top then 0x180000 else 0)

theorem defaultFlagMask_eq (q : MaskQuery) :
    defaultFlagMask q = maskAt q.instr (decide (q.cpl ≤ q.eflags.extractLsb' 12 2)) (decide (q.cpl = 0)) := by
  obtain ⟨i, cpl, e⟩ := q
  cases i <;> simp only [maskAt, decide_eq_true_eq] <;> rfl

/-- Bits 15:0, which the 16-bit forms use, are the same for the three instructions. -/
theorem maskAt_lowWord (i : FlagInstr) : ∀ io top : Bool, ∀ b < 32,
    (maskAt i io top &&& ~~~neverMasked &&& 0xFFFF).getLsbD b =
      if b ∈ [0, 2, 4, 6, 7, 8, 10, 11, 14] then true
      else if b = 9 then io else if b = 12 ∨ b = 13 then top else false := by
  cases i <;> decide

theorem maskAt_popfd : ∀ io top : Bool, ∀ b < 32,
    (maskAt .popfd io top &&& ~~~neverMasked).getLsbD b =
      if b ∈ [0, 2, 4, 6, 7, 8, 10, 11, 14, 18, 21] then true
      else if b = 9 then io else if b = 12 ∨ b = 13 then top else false := by decide

theorem maskAt_iret : ∀ io top : Bool, ∀ b < 32,
    (maskAt .iret io top &&& ~~~neverMasked).getLsbD b =
      if b ∈ [0, 2, 4, 6, 7, 8, 10, 11, 14, 16, 18, 21] then true
      else if b = 9 then io else if b = 12 ∨ b = 13 ∨ b = 19 ∨ b = 20 then top else false := by decide

theorem suppliedMask_none {s : State} (h : s.params.flagMask = []) (i : FlagInstr) : suppliedMask i s = none := by
  unfold suppliedMask
  rw [h]
  rfl

theorem flagMask_default {s : State} (h : s.params.flagMask = []) (i : FlagInstr) :
    flagMask i s =
      maskAt i (decide (s.cpl ≤ s.eflags.extractLsb' 12 2)) (decide (s.cpl = 0)) &&& ~~~neverMasked := by
  rw [flagMask, suppliedMask_none h, Option.getD_none, defaultFlagMask_eq]

/-! ## Merges, bit by bit -/

section Merge

variable {b : Nat} (hb : b < 32)
include hb

/-- A merge takes the bits its mask admits from the image and keeps the others. -/
theorem getLsbD_mergeFlags (m e v : Dword) :
    (mergeFlags m e v).getLsbD b = if m.getLsbD b = true then v.getLsbD b else e.getLsbD b := by
  simp only [mergeFlags, BitVec.getLsbD_or, BitVec.getLsbD_and, BitVec.getLsbD_not, hb, decide_true, Bool.true_and]
  cases m.getLsbD b <;> simp

/-- A merge under a mask that admits some bits always, IF under `io` and some bits under `top`. -/
theorem getLsbD_mergeFlags_level {always withTop io top : Prop} [Decidable always] [Decidable withTop] [Decidable io]
    [Decidable top] {m : Dword} (e v : Dword)
    (hm : m.getLsbD b = if always then true else if b = 9 then decide io else if withTop then decide top else false) :
    (mergeFlags m e v).getLsbD b = if always then v.getLsbD b
      else if b = 9 then (if io then v.getLsbD 9 else e.getLsbD 9)
      else if withTop then (if top then v.getLsbD b else e.getLsbD b) else e.getLsbD b := by
  rw [getLsbD_mergeFlags hb, hm]
  by_cases ha : always
  · simp only [ha, if_true]
  by_cases h9 : b = 9
  · subst h9
    simp only [ha, if_true, if_false, decide_eq_true_eq]
  by_cases ht : withTop
  · simp only [ha, h9, ht, if_true, if_false, decide_eq_true_eq]
  · simp only [ha, h9, ht, if_false, Bool.false_eq_true]

/-- The 16-bit forms load no bit above 15. -/
theorem getLsbD_and_lowWord (m : Dword) : (m &&& 0xFFFF).getLsbD b = true ↔ b < 16 ∧ m.getLsbD b = true := by
  have low : ∀ k < 32, (0xFFFF : Dword).getLsbD k = decide (k < 16) := by decide
  rw [BitVec.getLsbD_and, low b hb, Bool.and_eq_true, decide_eq_true_eq, and_comm]

theorem getLsbD_clearRF (e : Dword) : (clearRF e).getLsbD b = if b = 16 then false else e.getLsbD b := by
  have others : ∀ k < 32, (0xFFFEFFFF : Dword).getLsbD k = decide (k ≠ 16) := by decide
  rw [clearRF, BitVec.getLsbD_and, others b hb]
  by_cases h : b = 16 <;> simp [h]

/-- A supplied mask admits what it says of the bits that are not reserved (10_state R30). -/
theorem getLsbD_flagMask_supplied {s : State} {i : FlagInstr} {m : Dword} (h : suppliedMask i s = some m) :
    (flagMask i s).getLsbD b = true ↔ m.getLsbD b = true ∧ b < 22 ∧ b ∉ [1, 3, 5, 15] := by
  have admitted : ∀ k < 32, (~~~neverMasked).getLsbD k = decide (k < 22 ∧ k ∉ [1, 3, 5, 15]) := by decide
  rw [flagMask, h, Option.getD_some, BitVec.getLsbD_and, admitted b hb, Bool.and_eq_true, decide_eq_true_eq]

/-- `getLsbD_flagMask_supplied` for the 16-bit forms. -/
theorem getLsbD_flagMask_supplied_lowWord {s : State} {i : FlagInstr} {m : Dword} (h : suppliedMask i s = some m) :
    (flagMask i s &&& 0xFFFF).getLsbD b = true ↔ m.getLsbD b = true ∧ b < 16 ∧ b ∉ [1, 3, 5, 15] := by
  rw [getLsbD_and_lowWord hb, getLsbD_flagMask_supplied hb h]
  constructor
  · rintro ⟨low, hm, -, unreserved⟩
    exact ⟨hm, low, unreserved⟩
  · rintro ⟨hm, low, unreserved⟩
    exact ⟨low, hm, by omega, unreserved⟩

/-- A 16-bit form under the default mask. -/
theorem getLsbD_merge_lowWord_default {s : State} (h : s.params.flagMask = []) (i : FlagInstr) (e v : Dword) :
    (mergeFlags (flagMask i s &&& 0xFFFF) e v).getLsbD b =
      if b ∈ [0, 2, 4, 6, 7, 8, 10, 11, 14] then v.getLsbD b
      else if b = 9 then (if s.cpl ≤ s.eflags.extractLsb' 12 2 then v.getLsbD 9 else e.getLsbD 9)
      else if b = 12 ∨ b = 13 then (if s.cpl = 0 then v.getLsbD b else e.getLsbD b)
      else e.getLsbD b :=
  getLsbD_mergeFlags_level hb e v (by rw [flagMask_default h]; exact maskAt_lowWord i _ _ b hb)

/-- POPFD under the default mask: RF is cleared after the merge. -/
theorem getLsbD_flagsAfterPopfd_default {s : State} (h : s.params.flagMask = []) (v : Dword) :
    (flagsAfterPopfd s v).getLsbD b =
      if b = 16 then false else (mergeFlags (flagMask .popfd s) s.eflags v).getLsbD b := by
  rw [flagsAfterPopfd, suppliedMask_none h, getLsbD_clearRF hb]

end Merge

theorem flagsAfterPopfd_supplied {s : State} {m : Dword} (h : suppliedMask .popfd s = some m) (v : Dword) :
    flagsAfterPopfd s v = mergeFlags (flagMask .popfd s) s.eflags v := by
  rw [flagsAfterPopfd, h]

/-- Settles O30: each instruction merges the image under its mask, whose bits are those of decision D21 (`maskAt`)
or those the run supplies. -/
theorem flagMasks : Obligations.FlagMasks := by
  refine fun s v b hb => ⟨fun hd => ⟨?_, ?_, ?_, ?_⟩, fun m hm => ?_, fun m hm => ?_, fun m hm => ⟨?_, ?_⟩⟩
  · exact getLsbD_merge_lowWord_default hb hd .popf _ v
  · rw [getLsbD_flagsAfterPopfd_default hb hd, getLsbD_mergeFlags_level hb _ v
      (by rw [flagMask_default hd]; exact maskAt_popfd _ _ b hb)]
    by_cases h16 : b = 16
    · subst h16; rfl
    · simp only [h16, if_false]
  · exact (getLsbD_merge_lowWord_default hb hd .iret _ v).trans (getLsbD_merge_lowWord_default hb hd .popf _ v).symm
  · exact getLsbD_mergeFlags_level hb _ v (by rw [flagMask_default hd]; exact maskAt_iret _ _ b hb)
  · simp only [flagsAfterPopf, getLsbD_mergeFlags hb, getLsbD_flagMask_supplied_lowWord hb hm]
  · simp only [flagsAfterPopfd_supplied hm, getLsbD_mergeFlags hb, getLsbD_flagMask_supplied hb hm]
  · simp only [flagsAfterIret, getLsbD_mergeFlags hb, getLsbD_flagMask_supplied_lowWord hb hm]
  · simp only [flagsAfterIret, getLsbD_mergeFlags hb, getLsbD_flagMask_supplied hb hm]

end Sys2Proof.Proofs
end

section
/-! RET near, and RETF to the same level (41_call_ret R162, R163, R167 to R169): the items a return reads and the
branches it takes then. -/

namespace Sys2Proof.Proofs

open Sys2Proof Sys2Proof.Machine Sys2Proof.Safety Sys2Proof.Laws

/-! ## Near return (R162, R163) -/

theorem checkTarget_within {s : State} {limit target : Dword} (h : codeLimit s = some limit) (hl : target ≤ limit) :
    checkTarget s target = .ok target := by
  simp only [checkTarget, h, if_pos hl]

theorem checkTarget_beyond {s : State} {limit target : Dword} (h : codeLimit s = some limit) (hl : limit < target) :
    checkTarget s target = .error (.exc (.gp 0)) := by
  simp only [checkTarget, h, if_neg (BitVec.not_le.2 hl)]

theorem exec_nearReturn {i : Instr} {sz : OpSize} {k : Dword} (h : nearReturnForm i = some (sz, k)) (s : State) :
    exec i s = complete s (nearReturn sz k s) := by
  cases i with
  | ret | retImm => cases h; rfl
  | _ => cases h

section NearReturn

variable {sz : OpSize} {k lin : Dword} {s : State}

/-- A near return whose item can be read: the check of the item decides. -/
theorem nearReturn_read (h : stackSlot s (stackPtr s) (itemBytes sz) .stackRead = .ok lin) :
    nearReturn sz k s = attempt s (checkTarget s (s.mem.loadLE lin (itemBytes sz))) >>= fun target =>
      .ok { s with regs := movedRegs (BitVec.ofNat 32 (itemBytes sz) + k) s, eip := target } := by
  simp only [nearReturn, pop_ok h, release_moved, bind, Except.bind]

theorem nearReturn_raises {x : Trouble} (h : stackSlot s (stackPtr s) (itemBytes sz) .stackRead = .error x) :
    nearReturn sz k s = .error ⟨x, s⟩ := by
  unfold nearReturn
  rw [pop_raises h]
  rfl

end NearReturn

/-- Settles O33: one pop, the check of its item, then the release. -/
theorem nearReturn : Obligations.NearReturn := by
  refine ⟨fun d b0 b1 rest => ⟨decode_opcodeAlone (by decide) rfl,
    decode_unmodified (operand := [b0, b1]) (by decide) rfl⟩, fun i sz k limit s form hlimit => ?_⟩
  rw [exec_nearReturn form]
  refine ⟨fun lin hslot => ⟨fun within => ?_, fun beyond => ?_⟩, fun e hslot => ?_⟩
  · rw [nearReturn_read hslot, checkTarget_within hlimit within]
    rfl
  · rw [nearReturn_read hslot, checkTarget_beyond hlimit beyond]
    exact complete_exc s _
  · rw [nearReturn_raises hslot, complete_exc]

/-! ## Far return to the same level (R167 to R169) -/

theorem peek_raises {n : Nat} {off : Dword} {s : State} {x : Trouble} (h : stackSlot s off n .stackRead = .error x) :
    peek n off s = .error ⟨x, s⟩ := by
  unfold peek
  rw [h]
  rfl

@[simp] theorem popOffset_zero (n : Nat) (s : State) : popOffset n 0 s = stackPtr s := by
  simp only [popOffset, Nat.mul_zero, BitVec.add_zero, stackPtr, wrapStack_wrapStack]

@[simp] theorem popOffset_one (n : Nat) (s : State) :
    popOffset n 1 s = wrapStack s (stackPtr s + BitVec.ofNat 32 n) := by
  rw [popOffset, Nat.mul_one]

theorem exec_farReturn {i : Instr} {sz : OpSize} {k : Dword} (h : farReturnForm i = some (sz, k)) (s : State) :
    exec i s = complete s (farReturn sz k s) := by
  cases i with
  | retf | retfImm => cases h; rfl
  | _ => cases h

/-- Of the two reads of a far return the first that cannot be made stops it. -/
theorem farReturn_raises {sz : OpSize} {k : Dword} {j : Nat} {slot : Nat → Dword} {e : Exc} {s : State}
    (h : PopFails (itemBytes sz) 2 j slot e s) : farReturn sz k s = .error ⟨.exc e, s⟩ := by
  obtain ⟨hj, can, raises⟩ := h
  match j, hj with
  | 0, _ =>
    rw [popOffset_zero] at raises
    simp only [farReturn, peek_raises raises, bind, Except.bind]
  | 1, _ =>
    have first := can 0 (Nat.le_refl 0) Nat.zero_lt_one
    rw [popOffset_zero] at first
    rw [popOffset_one] at raises
    simp only [farReturn, peek_ok first, peek_raises raises, bind, Except.bind]

theorem peek_farOffset {sz : OpSize} {slot : Nat → Dword} {s : State} (can : CanPop (itemBytes sz) 0 2 slot s) :
    peek (itemBytes sz) (stackPtr s) s = .ok (s.mem.loadLE (slot 0) (itemBytes sz)) := by
  have first := can 0 (Nat.le_refl 0) (by decide)
  rw [popOffset_zero] at first
  exact peek_ok first

theorem peek_farSelector {sz : OpSize} {slot : Nat → Dword} {s : State} (can : CanPop (itemBytes sz) 0 2 slot s) :
    peek (itemBytes sz) (wrapStack s (stackPtr s + BitVec.ofNat 32 (itemBytes sz))) s =
      .ok (s.mem.loadLE (slot 1) (itemBytes sz)) := by
  have second := can 1 (Nat.zero_le 1) (by decide)
  rw [popOffset_one] at second
  exact peek_ok second

/-- The pointer set past two items and `k` bytes more, with CS and EIP loaded. -/
theorem setStackPtr_farReturn (sz : OpSize) (k eip : Dword) (cs : SegReg) (s : State) :
    setStackPtr (wrapStack s (stackPtr s + 2 * BitVec.ofNat 32 (itemBytes sz) + k)) { s with cs := cs, eip := eip } =
      { s with regs := movedRegs (BitVec.ofNat 32 (2 * itemBytes sz) + k) s, eip := eip, cs := cs } := by
  have two : 2 * BitVec.ofNat 32 (itemBytes sz) = BitVec.ofNat 32 (2 * itemBytes sz) := by cases sz <;> rfl
  rw [two, BitVec.add_assoc]
  exact congrArg (fun t : State => { t with cs := cs, eip := eip }) (setStackPtr_move s _)

/-! The branches of a far return whose offset and selector items were read. -/

section FarReturn

variable {sz : OpSize} {k eip item : Dword} {s : State} (offset : peek (itemBytes sz) (stackPtr s) s = .ok eip)
  (selector : peek (itemBytes sz) (wrapStack s (stackPtr s + BitVec.ofNat 32 (itemBytes sz))) s = .ok item)
include offset selector

theorem farReturn_real (hm : s.mode = .realMode) :
    farReturn sz k s = .ok { s with
      regs := movedRegs (BitVec.ofNat 32 (2 * itemBytes sz) + k) s, eip := eip
      cs := realSegment (item.setWidth 16) s.cs } := by
  rw [← setStackPtr_farReturn]
  simp only [farReturn, offset, selector, hm, bind, Except.bind]

theorem farReturn_inward (hm : s.mode = .protectedMode) (hl : rpl (item.setWidth 16) < s.cpl) :
    farReturn sz k s = .error ⟨.exc (.gp (selCode (item.setWidth 16))), s⟩ := by
  simp only [farReturn, offset, selector, hm, hl, if_true, bind, Except.bind]

/-- At the same level the lookup of the selector decides, and nothing is asked of `P_GATECHECK` (R169). -/
theorem farReturn_same (hm : s.mode = .protectedMode) (hl : rpl (item.setWidth 16) = s.cpl) :
    farReturn sz k s = attempt s (codeSegment s (item.setWidth 16)) >>= fun d => .ok { s with
      regs := movedRegs (BitVec.ofNat 32 (2 * itemBytes sz) + k) s, eip := eip, cs := ⟨item.setWidth 16, some d⟩ } := by
  simp only [← setStackPtr_farReturn]
  simp only [farReturn, offset, selector, hm, hl, BitVec.lt_irrefl, if_true, if_false, bind, Except.bind]

end FarReturn

/-- Settles O41: the two items are read (`peek_farOffset`, `peek_farSelector`), then the mode and the selector's level
choose the branch. -/
theorem farReturnSameLevel : Obligations.FarReturnSameLevel := by
  intro i sz k slot s form
  rw [exec_farReturn form]
  refine ⟨fun j e fails => by rw [farReturn_raises fails, complete_exc], fun can => ?_⟩
  have offset := peek_farOffset can
  have selector := peek_farSelector can
  refine ⟨fun hm => ?_, fun hm hl => ?_, fun e hm hl hlookup => ?_, fun d hm hl hlookup => ?_⟩
  · rw [farReturn_real offset selector hm]
    rfl
  · rw [farReturn_inward offset selector hm hl, complete_exc]
  · rw [farReturn_same offset selector hm hl, hlookup]
    exact complete_exc s e
  · rw [farReturn_same offset selector hm hl, hlookup]
    rfl

end Sys2Proof.Proofs
end

section
/-! Far CALL (41_call_ret R164 to R166, R171, R172): the branches of `farCall` and `gateCall`, the lookups that choose
between them, and what a direct call pushes. -/

namespace Sys2Proof.Proofs

open Sys2Proof Sys2Proof.Machine Sys2Proof.Safety Sys2Proof.Laws

/-! ## Lookups (10_state R43, 60_exceptions R266) -/

section Lookup

variable {s : State} {sel : Word} {x : Descriptor}

theorem gdtLookup_none (h : descriptorOf s sel = none) : gdtLookup s sel = .error (.exc (.gp (selCode sel))) := by
  simp only [gdtLookup, h]

theorem gdtLookup_absent (h : descriptorOf s sel = some x) (hp : x.present = false) :
    gdtLookup s sel = .error (.exc (.np (selCode sel))) := by
  simp only [gdtLookup, h, hp, Bool.false_eq_true, if_false]

theorem gdtLookup_present (h : descriptorOf s sel = some x) (hp : x.present = true) : gdtLookup s sel = .ok x := by
  simp only [gdtLookup, h, hp, if_true]

theorem codeSegment_lookupFails {e : Trouble} (h : gdtLookup s sel = .error e) : codeSegment s sel = .error e := by
  unfold codeSegment
  rw [h]
  rfl

theorem codeSegment_code {d : SegDesc} (h : gdtLookup s sel = .ok (.code d)) : codeSegment s sel = .ok d := by
  unfold codeSegment
  rw [h]
  rfl

theorem codeSegment_notCode (h : gdtLookup s sel = .ok x) (hx : ∀ d, x ≠ .code d) :
    codeSegment s sel = .error (.exc (.gp (selCode sel))) := by
  unfold codeSegment
  rw [h]
  cases x with
  | code d => exact absurd rfl (hx d)
  | data | callGate | taskGate | tss => rfl

/-- The default gate check of a call: the gate's level is below neither CPL nor the selector's RPL (log 9). -/
theorem gateAllows_call {g : CallGate} {cpl : BitVec 2} (h : s.params.gateCheck = []) :
    gateAllows s (.call g sel cpl) = true ↔ cpl ≤ g.access.dpl ∧ rpl sel ≤ g.access.dpl := by
  rw [gateAllows_default (by rw [h]; rfl), defaultGateCheck, Bool.and_eq_true, decide_eq_true_eq, decide_eq_true_eq]

end Lookup

/-! ## The far pointer (R164, R165) -/

theorem readMemOp_ok {n : Nat} {m : MemOp} {disp lin : Dword} {s : State}
    (h : operandSlot s m disp n .dataRead = .ok lin) : readMemOp n m disp s = .ok (s.mem.loadLE lin n) := by
  unfold readMemOp
  rw [h]
  rfl

theorem readMemOp_raises {n : Nat} {m : MemOp} {disp : Dword} {s : State} {x : Trouble}
    (h : operandSlot s m disp n .dataRead = .error x) : readMemOp n m disp s = .error ⟨x, s⟩ := by
  unfold readMemOp
  rw [h]
  rfl

theorem exec_callMem (sz : OpSize) (m : MemOp) (s : State) : exec (.callMem sz m) s =
    complete s (readMemOp (itemBytes sz) m 0 s >>= fun off =>
      readMemOp 2 m (BitVec.ofNat 32 (itemBytes sz)) s >>= fun sel => farCall sz (sel.setWidth 16) off s) := rfl

/-- Both forms are `farCall` of what they name. -/
theorem exec_farCall {i : Instr} {sz : OpSize} {sel : Word} {off : Dword} {s : State}
    (h : FarTarget i sz sel off s) : exec i s = complete s (farCall sz sel off s) := by
  cases i with
  | callPtr =>
    obtain ⟨rfl, rfl, rfl⟩ := h
    rfl
  | callMem =>
    obtain ⟨rfl, a, b, offset, selector, rfl, rfl⟩ := h
    rw [exec_callMem, readMemOp_ok offset, readMemOp_ok selector]
    rfl
  | _ => exact h.elim

/-- Of the two reads of a far pointer the first that cannot be made stops the CALL. -/
theorem exec_callMem_raises {sz : OpSize} {m : MemOp} {e : Exc} {s : State}
    (h : PairReadFails (itemBytes sz) 2 m e s) : exec (.callMem sz m) s = deliver e.event s := by
  rw [exec_callMem]
  rcases h with first | ⟨⟨lin, first⟩, second⟩
  · rw [readMemOp_raises first]
    exact complete_exc s e
  · rw [readMemOp_ok first, readMemOp_raises second]
    exact complete_exc s e

/-! ## The branches of a far CALL in protected mode (R166) -/

section FarCall

variable {sz : OpSize} {sel : Word} {off : Dword} {s : State} (hm : s.mode = .protectedMode)
include hm

theorem farCall_lookupFails {e : Trouble} (h : gdtLookup s sel = .error e) :
    farCall sz sel off s = .error ⟨e, s⟩ := by
  simp only [farCall, hm, h, attempt, bind, Except.bind]

theorem farCall_otherLevel {d : SegDesc} (h : gdtLookup s sel = .ok (.code d)) (hl : d.dpl ≠ s.cpl) :
    farCall sz sel off s = .error ⟨.exc (.gp (selCode sel)), s⟩ := by
  simp only [farCall, hm, h, if_pos hl, attempt, bind, Except.bind]

/-- A code segment of the caller's level: the pushes, then CS:EIP. -/
theorem farCall_direct {d : SegDesc} (h : gdtLookup s sel = .ok (.code d)) (hl : d.dpl = s.cpl) :
    farCall sz sel off s = pushAll (itemBytes sz) [s.cs.sel.setWidth 32, truncSize sz s.pcNext] s >>= fun t =>
      .ok { t with cs := ⟨withRpl sel s.cpl, some d⟩, eip := off } := by
  simp only [farCall, hm, h, if_neg (Classical.not_not.2 hl), attempt, pushFarReturn, bind, Except.bind]

theorem farCall_data {d : SegDesc} (h : gdtLookup s sel = .ok (.data d)) :
    farCall sz sel off s = .error ⟨.exc (.gp (selCode sel)), s⟩ := by
  simp only [farCall, hm, h, attempt, bind, Except.bind]

theorem farCall_task {a : AccessRights} (h : gdtLookup s sel = .ok (.taskGate a) ∨ gdtLookup s sel = .ok (.tss a)) :
    farCall sz sel off s = .error ⟨.refuse .taskSwitch, s⟩ := by
  rcases h with h | h <;> simp only [farCall, hm, h, attempt, bind, Except.bind]

theorem farCall_gate {g : CallGate} (h : gdtLookup s sel = .ok (.callGate g)) :
    farCall sz sel off s = gateCall g sel s := by
  simp only [farCall, hm, h, attempt, bind, Except.bind]

end FarCall

/-! ## The branches of a call through a gate (R172, R173) -/

section GateCall

variable {g : CallGate} {gsel : Word} {s : State}

theorem gateCall_denied (hk : gateAllows s (.call g gsel s.cpl) = false) :
    gateCall g gsel s = .error ⟨.exc (.gp (selCode gsel)), s⟩ := by
  simp only [gateCall, hk, if_true]

variable (hk : gateAllows s (.call g gsel s.cpl) = true)
include hk

theorem gateCall_targetFails {e : Trouble} (h : codeSegment s g.selector = .error e) :
    gateCall g gsel s = .error ⟨e, s⟩ := by
  simp only [gateCall, hk, h, Bool.true_eq_false, if_false, attempt, bind, Except.bind]

variable {c : SegDesc} (hc : codeSegment s g.selector = .ok c)
include hc

theorem gateCall_outward (hl : s.cpl < c.dpl) :
    gateCall g gsel s = .error ⟨.exc (.gp (selCode g.selector)), s⟩ := by
  simp only [gateCall, hk, hc, hl, Bool.true_eq_false, if_true, if_false, attempt, bind, Except.bind]

/-- To a more privileged level: the stack switch, the parameters, the return address, then CS:EIP. -/
theorem gateCall_inward (hl : c.dpl < s.cpl) :
    gateCall g gsel s = switchStack c.dpl s >>= fun v =>
      copyParams s.ss (!wideStack s) (stackPtr s) g.paramCount.toNat v >>= fun u =>
      pushAll 4 [s.cs.sel.setWidth 32, s.pcNext] u >>= fun t =>
      .ok { t with cs := ⟨withRpl g.selector c.dpl, some c⟩, eip := g.offset, cpl := c.dpl } := by
  have notOutward : ¬ s.cpl < c.dpl := BitVec.not_lt.2 (BitVec.le_of_lt hl)
  have notSame : c.dpl ≠ s.cpl := BitVec.ne_of_lt hl
  simp only [gateCall, hk, hc, notOutward, notSame, Bool.true_eq_false, if_false, attempt, bind, Except.bind]

end GateCall

/-- Settles O37: each check is one branch of `farCall` or `gateCall`, taken before anything is stored. -/
theorem farCallChecks : Obligations.FarCallChecks := by
  refine ⟨fun sz m e s => exec_callMem_raises, fun s sel => ⟨fun hd => ?_, fun x hd hp => ?_, fun x hd hp hx => ?_,
    fun d hd hp => ?_, fun g => gateAllows_call⟩, fun i sz sel off s target hm => ?_⟩
  · exact codeSegment_lookupFails (gdtLookup_none hd)
  · exact codeSegment_lookupFails (gdtLookup_absent hd hp)
  · exact codeSegment_notCode (gdtLookup_present hd hp) hx
  · exact codeSegment_code (gdtLookup_present hd hp)
  rw [exec_farCall target]
  refine ⟨fun e hd => ?_, fun d hd hl => ?_, fun d hd => ?_, fun a hd => ?_, fun g hd => ?_⟩
  · rw [farCall_lookupFails hm hd, complete_exc]
  · rw [farCall_otherLevel hm hd hl, complete_exc]
  · rw [farCall_data hm hd, complete_exc]
  · rw [farCall_task hm hd]
    rfl
  rw [farCall_gate hm hd]
  refine ⟨fun hk => ?_, fun hk => ⟨fun e hc => ?_, fun c hc hl => ?_⟩⟩
  · rw [gateCall_denied hk, complete_exc]
  · rw [gateCall_targetFails hk hc, complete_exc]
  · rw [gateCall_outward hk hc hl, complete_exc]

/-! ## What a far CALL pushes -/

/-- A run of pushes stores the low `OpSize` bits alone, so what was pushed may be told by other values of the same
low bits. -/
theorem pushedAt_truncated {sz : OpSize} {vs ws : List Dword} {slot : Nat → Dword} {s t : State}
    (hw : ws.map (truncSize sz) = vs.map (truncSize sz)) (h : PushedAt sz vs slot s t) : PushedAt sz ws slot s t := by
  have length : ws.length = vs.length := by simpa only [List.length_map] using congrArg List.length hw
  obtain ⟨stored, others⟩ := h
  refine ⟨fun j w hj untouched => ?_, fun a ha => others a (by rwa [length] at ha)⟩
  have same : (vs[j]?).map (truncSize sz) = some (truncSize sz w) := by
    rw [← List.getElem?_map, ← hw, List.getElem?_map, hj, Option.map_some]
  obtain ⟨v, hv, hvw⟩ := Option.map_eq_some_iff.1 same
  rw [← hvw]
  exact stored j v hv (by rwa [length] at untouched)

theorem partlyPushed_truncated {sz : OpSize} {vs ws : List Dword} {slot : Nat → Dword} {s u : State}
    (hw : ws.map (truncSize sz) = vs.map (truncSize sz)) (h : PartlyPushed sz vs slot s u) :
    PartlyPushed sz ws slot s u :=
  let ⟨p, stored, rest⟩ := h
  ⟨p, pushedAt_truncated hw stored, rest⟩

/-- A far CALL pushes the low `OpSize` bits of the return address (R166). -/
theorem map_truncSize_farItems (sz : OpSize) (cs eip : Dword) :
    [cs, eip].map (truncSize sz) = [cs, truncSize sz eip].map (truncSize sz) := by
  simp only [List.map_cons, List.map_nil, truncSize_truncSize]

theorem itemBytes_mul_two_le (sz : OpSize) : itemBytes sz * 2 ≤ 2 ^ 16 := by
  cases sz <;> decide

/-- Settles O35: a run of two pushes (`pushAll_ok`), or one that raises part-way (`complete_pushFails`). -/
theorem farCallDirect : Obligations.FarCallDirect := by
  intro i sz sel off d slot s target hm hd hl
  rw [exec_farCall target, farCall_direct hm hd hl]
  have items := map_truncSize_farItems sz (s.cs.sel.setWidth 32) s.pcNext
  refine ⟨fun can => ?_, fun j e fails => ?_⟩
  · obtain ⟨t, pushed, stored, keeps, -⟩ :=
      pushAll_ok sz [s.cs.sel.setWidth 32, truncSize sz s.pcNext] slot s (itemBytes_mul_two_le sz) can
    refine ⟨{ t with cs := ⟨withRpl sel s.cpl, some d⟩, eip := off }, by rw [pushed]; rfl,
      pushedAt_congr (pushedAt_truncated items stored) rfl rfl rfl, ?_⟩
    rw [keeps, Nat.mul_comm 2]
    rfl
  · obtain ⟨u, stored, run⟩ := complete_pushFails (vs := [s.cs.sel.setWidth 32, truncSize sz s.pcNext])
      (fun t => .ok { t with cs := ⟨withRpl sel s.cpl, some d⟩, eip := off }) rfl rfl (itemBytes_mul_two_le sz) fails
    refine ⟨u, partlyPushed_truncated ?_ stored, run⟩
    rw [List.map_take, items, ← List.map_take]

end Sys2Proof.Proofs
end

section
/-! The stack switch of a call through a gate (41_call_ret R172) and of an entry to a handler (60_exceptions R285):
what the checks of the TSS stack answer, and what a switch that raises leaves. -/

namespace Sys2Proof.Proofs

open Sys2Proof Sys2Proof.Machine Sys2Proof.Safety Sys2Proof.Laws

section StackSegment

variable {s : State} {bad : Dword → Exc} {level : BitVec 2} {sel : Word}

theorem stackSegment_none (h : descriptorOf s sel = none) :
    stackSegment s bad level sel = .error (.exc (bad (selCode sel))) := by
  simp only [stackSegment, h]

theorem stackSegment_notData {x : Descriptor} (h : descriptorOf s sel = some x) (hx : ∀ d, x ≠ .data d) :
    stackSegment s bad level sel = .error (.exc (bad (selCode sel))) := by
  cases x with
  | data d => exact absurd rfl (hx d)
  | code | callGate | taskGate | tss => simp only [stackSegment, h]

variable {d : SegDesc} (h : descriptorOf s sel = some (.data d))
include h

theorem stackSegment_unfit (hd : d.writable = false ∨ d.dpl ≠ level ∨ rpl sel ≠ level) :
    stackSegment s bad level sel = .error (.exc (bad (selCode sel))) := by
  have unfit : (d.writable && d.dpl == level && rpl sel == level) = false := by
    rcases hd with hw | hl | hr
    · rw [hw]; rfl
    · rw [beq_false_of_ne hl, Bool.and_false]; rfl
    · rw [beq_false_of_ne hr, Bool.and_false]
  simp only [stackSegment, h, unfit, Bool.false_eq_true, if_false]

theorem stackSegment_absent (hw : d.writable = true) (hl : d.dpl = level) (hr : rpl sel = level)
    (hp : d.present = false) : stackSegment s bad level sel = .error (.exc (.ss (selCode sel))) := by
  simp only [stackSegment, h, hw, hl, hr, hp, beq_self_eq_true, Bool.and_self, Bool.false_eq_true, if_true, if_false]

end StackSegment

section StackSwitch

variable {level : BitVec 2} {s : State}

/-- A TSS stack that fails its checks stops the switch before anything is pushed. -/
theorem switchStack_unfit {e : Trouble} (h : stackSegment s .ts level (tssStack s level).ss = .error e) :
    switchStack level s = .error ⟨e, s⟩ := by
  rw [switchStack_eq, h]
  rfl

/-- A switch to a fit TSS stack is the pushes of SS and ESP on it. -/
theorem switchStack_fit (hl : level ≠ s.cpl) {d : SegDesc}
    (h : stackSegment s .ts level (tssStack s level).ss = .ok d) :
    switchStack level s = pushAll 4 [s.ss.sel.setWidth 32, s.regs.esp] (entryStack level d s) := by
  rw [switchStack_eq, h, entryStack, if_neg hl]
  rfl

theorem entryStack_mem (level : BitVec 2) (d : SegDesc) (s : State) : (entryStack level d s).mem = s.mem := by
  unfold entryStack
  split <;> rfl

theorem entryStack_params (level : BitVec 2) (d : SegDesc) (s : State) :
    (entryStack level d s).params = s.params := by
  unfold entryStack
  split <;> rfl

end StackSwitch

/-- An entry to a handler of another level whose stack switch raises takes that exception, with EXT as the event
asks (60_exceptions R285, R286). -/
theorem enterHandler_switchRaises {ev : Event} {g : IntGate} {c : SegDesc} {e : Exc} {s p : State}
    (hm : s.mode = .protectedMode) (hg : handlerGate ev s = .ok (g, c)) (hl : c.dpl ≠ s.cpl)
    (h : switchStack c.dpl s = .error ⟨.exc e, p⟩) :
    enterHandler ev s = .error ⟨.exc (e.withExt ev.kind), p⟩ := by
  have run : enterProtected ev s = .error ⟨.exc e, p⟩ := by
    rw [enterProtected_eq, hg]
    simp only [attempt, if_neg hl, h, bind, Except.bind]
  simp only [enterHandler, hm, run, markExt]

/-- Settles O40: the checks are the branches of `stackSegment`; a call and an entry both go through `switchStack`, which
stops at a failed check or at the first push that raises. -/
theorem stackSwitchChecks : Obligations.StackSwitchChecks := by
  refine ⟨fun s level sel => ⟨stackSegment_none, fun x => stackSegment_notData, fun d => stackSegment_unfit,
    fun d => stackSegment_absent⟩, fun i sz sel off g c e s target hm hd hk hc hl => ?_,
    fun ev g c e s hm hg hl => ⟨fun unfit => ?_, fun d j slot fit fails => ?_⟩⟩
  · rw [exec_farCall target, farCall_gate hm hd, gateCall_inward hk hc hl]
    refine ⟨fun unfit => ?_, fun d j slot fit fails => ?_⟩
    · rw [switchStack_unfit unfit]
      exact complete_exc s e
    · rw [switchStack_fit (BitVec.ne_of_lt hl) fit]
      exact complete_pushFails (sz := .w32) (vs := [s.ss.sel.setWidth 32, s.regs.esp]) _ (entryStack_mem ..)
        (entryStack_params ..) (itemBytes_mul_two_le .w32) fails
  · exact enterHandler_switchRaises hm hg hl (switchStack_unfit unfit)
  · obtain ⟨p, run, stored, -⟩ :=
      pushAll_fails .w32 [s.ss.sel.setWidth 32, s.regs.esp] (itemBytes_mul_two_le .w32) fails
    exact ⟨p, enterHandler_switchRaises hm hg hl ((switchStack_fit hl fit).trans run),
      pushedAt_congr stored (entryStack_mem ..).symm (entryStack_params ..).symm rfl⟩

end Sys2Proof.Proofs
end

section
/-! IRET and IRETD (42_int R194 to R196): the three items an interrupt return reads, the branches it takes then in
protected mode, and what stops it. -/

namespace Sys2Proof.Proofs

open Sys2Proof Sys2Proof.Machine Sys2Proof.Safety Sys2Proof.Laws

theorem exec_interruptReturn {i : Instr} {sz : OpSize} (h : interruptReturnForm i = some sz) (s : State) :
    exec i s = complete s (interruptReturn sz s) := by
  cases i with
  | iret | iretd => cases h; rfl
  | _ => cases h

/-! ## The three items -/

theorem popOffset_two (n : Nat) (s : State) :
    popOffset n 2 s = wrapStack s (stackPtr s + 2 * BitVec.ofNat 32 n) := by
  rw [popOffset, Nat.mul_comm, BitVec.ofNat_mul]
  rfl

theorem canPop_mono {n lo hi hi' : Nat} {slot : Nat → Dword} {s : State} (can : CanPop n lo hi slot s) (h : hi' ≤ hi) :
    CanPop n lo hi' slot s :=
  fun j hlo hj => can j hlo (Nat.lt_of_lt_of_le hj h)

theorem peek_flagsImage {sz : OpSize} {slot : Nat → Dword} {s : State} (can : CanPop (itemBytes sz) 0 3 slot s) :
    peek (itemBytes sz) (wrapStack s (stackPtr s + 2 * BitVec.ofNat 32 (itemBytes sz))) s =
      .ok (s.mem.loadLE (slot 2) (itemBytes sz)) := by
  have third := can 2 (Nat.zero_le 2) (by decide)
  rw [popOffset_two] at third
  exact peek_ok third

/-- Of the three reads of an interrupt return the first that cannot be made stops it, in either mode. -/
theorem interruptReturn_raises {sz : OpSize} {j : Nat} {slot : Nat → Dword} {e : Exc} {s : State}
    (h : PopFails (itemBytes sz) 3 j slot e s) : interruptReturn sz s = .error ⟨.exc e, s⟩ := by
  obtain ⟨hj, can, raises⟩ := h
  match j, hj with
  | 0, _ =>
    rw [popOffset_zero] at raises
    simp only [interruptReturn, peek_raises raises, bind, Except.bind]
  | 1, _ =>
    have first := can 0 (Nat.le_refl 0) Nat.zero_lt_one
    rw [popOffset_zero] at first
    rw [popOffset_one] at raises
    simp only [interruptReturn, peek_ok first, peek_raises raises, bind, Except.bind]
  | 2, _ =>
    rw [popOffset_two] at raises
    simp only [interruptReturn, peek_farOffset can, peek_farSelector can, peek_raises raises, bind, Except.bind]

/-! ## The code segment of a return to a less privileged level (R196, log 9) -/

section ReturnSegment

variable {s : State} {sel : Word}

theorem returnSegment_lookupFails {x : Trouble} (h : codeSegment s sel = .error x) : returnSegment s sel = .error x := by
  simp only [returnSegment, h, bind, Except.bind]

theorem returnSegment_denied {d : SegDesc} (h : codeSegment s sel = .ok d)
    (hk : gateAllows s (.ret d sel s.cpl) = false) : returnSegment s sel = .error (.exc (.gp (selCode sel))) := by
  simp only [returnSegment, h, hk, Bool.false_eq_true, if_false, bind, Except.bind]

theorem outerReturn_segmentFails {sz : OpSize} {q eip : Dword} {x : Trouble} (h : returnSegment s sel = .error x) :
    outerReturn sz q eip sel s = .error ⟨x, s⟩ := by
  simp only [outerReturn, h, attempt, bind, Except.bind]

end ReturnSegment

/-! ## The branches in protected mode, once the three items were read (R194 to R196) -/

section InterruptReturn

variable {sz : OpSize} {eip item image : Dword} {s : State} (hm : s.mode = .protectedMode)
  (offset : peek (itemBytes sz) (stackPtr s) s = .ok eip)
  (selector : peek (itemBytes sz) (wrapStack s (stackPtr s + BitVec.ofNat 32 (itemBytes sz))) s = .ok item)
  (flags : peek (itemBytes sz) (wrapStack s (stackPtr s + 2 * BitVec.ofNat 32 (itemBytes sz))) s = .ok image)
include hm offset selector flags

theorem interruptReturn_task (hnt : flagNT s.eflags = true) :
    interruptReturn sz s = .error ⟨.refuse .taskReturn, s⟩ := by
  simp only [interruptReturn, offset, selector, flags, hm, hnt, if_true, bind, Except.bind]

variable (hnt : flagNT s.eflags = false)
include hnt

theorem interruptReturn_virtual8086 (hv : sz = .w32 ∧ flagVM image = true ∧ s.cpl = 0) :
    interruptReturn sz s = .error ⟨.refuse .virtual8086Return, s⟩ := by
  simp only [interruptReturn, offset, selector, flags, hm, hnt, if_pos hv, Bool.false_eq_true, if_false, bind,
    Except.bind]

variable (hv : ¬ (sz = .w32 ∧ flagVM image = true ∧ s.cpl = 0))
include hv

theorem interruptReturn_inward (hl : rpl (item.setWidth 16) < s.cpl) :
    interruptReturn sz s = .error ⟨.exc (.gp (selCode (item.setWidth 16))), s⟩ := by
  simp only [interruptReturn, offset, selector, flags, hm, hnt, if_neg hv, if_pos hl, Bool.false_eq_true, if_false,
    bind, Except.bind]

/-- At the same level the lookup of the selector decides, and nothing is asked of `P_GATECHECK` (R195). -/
theorem interruptReturn_same (hl : rpl (item.setWidth 16) = s.cpl) :
    interruptReturn sz s = attempt s (codeSegment s (item.setWidth 16)) >>= fun d =>
      .ok (setStackPtr (wrapStack s (stackPtr s + 3 * BitVec.ofNat 32 (itemBytes sz))) { s with
        cs := ⟨item.setWidth 16, some d⟩, eip := eip, eflags := flagsAfterIret sz s image }) := by
  simp only [interruptReturn, offset, selector, flags, hm, hnt, if_neg hv, hl, BitVec.lt_irrefl, Bool.false_eq_true,
    if_true, if_false, bind, Except.bind]

theorem interruptReturn_outward (hl : s.cpl < rpl (item.setWidth 16)) :
    interruptReturn sz s =
      outerReturn sz (stackPtr s + 3 * BitVec.ofNat 32 (itemBytes sz)) eip (item.setWidth 16) s >>= fun t =>
        .ok { t with
          eflags := flagsAfterIret sz s image
          regs := { t.regs with esp := iretEsp sz s.regs.esp t.regs.esp } } := by
  have notInward : ¬ rpl (item.setWidth 16) < s.cpl := BitVec.not_lt.2 (BitVec.le_of_lt hl)
  have notSame : rpl (item.setWidth 16) ≠ s.cpl := (BitVec.ne_of_lt hl).symm
  simp only [interruptReturn, offset, selector, flags, hm, hnt, if_neg hv, notInward, notSame, Bool.false_eq_true,
    if_false, bind, Except.bind]

/-- A return to a less privileged level whose code segment is not had stops there, before the outer items are read. -/
theorem interruptReturn_outwardFails (hl : s.cpl < rpl (item.setWidth 16)) {x : Trouble}
    (h : returnSegment s (item.setWidth 16) = .error x) : interruptReturn sz s = .error ⟨x, s⟩ := by
  rw [interruptReturn_outward hm offset selector flags hnt hv hl, outerReturn_segmentFails h]
  rfl

/-- A lookup that fails stops a return to the same level and one to a less privileged level alike (R195, R196). -/
theorem interruptReturn_lookupFails (hl : s.cpl ≤ rpl (item.setWidth 16)) {x : Trouble}
    (h : codeSegment s (item.setWidth 16) = .error x) : interruptReturn sz s = .error ⟨x, s⟩ := by
  by_cases same : rpl (item.setWidth 16) = s.cpl
  · rw [interruptReturn_same hm offset selector flags hnt hv same, h]
    rfl
  · have outward : s.cpl < rpl (item.setWidth 16) := level_lt (BitVec.not_lt.2 hl) same
    exact interruptReturn_outwardFails hm offset selector flags hnt hv outward (returnSegment_lookupFails h)

end InterruptReturn

/-- With 16-bit items, VM clear in the image or a level above 0 there is no return to virtual-8086 mode (R194). -/
theorem not_virtual8086 {sz : OpSize} {image : Dword} {s : State}
    (h : sz = .w16 ∨ flagVM image = false ∨ s.cpl ≠ 0) : ¬ (sz = .w32 ∧ flagVM image = true ∧ s.cpl = 0) := by
  rintro ⟨rfl, vm, top⟩
  rcases h with narrow | clear | low
  · cases narrow
  · rw [vm] at clear
    cases clear
  · exact low top

/-- Settles O56: the first of the three reads that fails, else the first branch of `interruptReturn` that stops. -/
theorem interruptReturnStops : Obligations.InterruptReturnStops := by
  intro i sz slot s form
  rw [exec_interruptReturn form]
  refine ⟨fun j e fails => by rw [interruptReturn_raises fails, complete_exc], fun hm can => ?_⟩
  have offset := peek_farOffset (canPop_mono can (by decide))
  have selector := peek_farSelector (canPop_mono can (by decide))
  have flags := peek_flagsImage can
  refine ⟨fun hnt => ?_, fun hnt hsz vm top => ?_, fun hnt hl => ?_, fun hnt hv hl =>
    ⟨fun e lookup => ?_, fun d lookup outward denied => ?_⟩⟩
  · rw [interruptReturn_task hm offset selector flags hnt]
    rfl
  · rw [interruptReturn_virtual8086 hm offset selector flags hnt ⟨hsz, vm, top⟩]
    rfl
  · have low : s.cpl ≠ 0 := fun top => BitVec.not_lt_zero (top ▸ hl)
    rw [interruptReturn_inward hm offset selector flags hnt (not_virtual8086 (.inr (.inr low))) hl, complete_exc]
  · rw [interruptReturn_lookupFails hm offset selector flags hnt (not_virtual8086 hv) hl lookup, complete_exc]
  · rw [interruptReturn_outwardFails hm offset selector flags hnt (not_virtual8086 hv) outward
      (returnSegment_denied lookup denied), complete_exc]

end Sys2Proof.Proofs
end

section
/-! ENTER and LEAVE (43_enter_leave R220 to R223, R226): one push, the display copy and the frame's offset as a run of
pushes, and what the end of ENTER leaves of EBP and the stack pointer. -/

namespace Sys2Proof.Proofs

open Sys2Proof Sys2Proof.Machine Sys2Proof.Safety Sys2Proof.Laws

/-! ## One pushed item -/

/-- `s` after `v` was pushed in `n` bytes at `lin`. -/
def pushed (n : Nat) (lin v : Dword) (s : State) : State :=
  { s with regs := movedRegs (-BitVec.ofNat 32 n) s, mem := s.mem.storeLE lin n v
           written := markWritten s.written lin n }

theorem push_pushed {n : Nat} {lin : Dword} {s : State} (v : Dword)
    (h : stackSlot s (pushOffset n 0 s) n .stackWrite = .ok lin) : push n v s = .ok (pushed n lin v s) := push_ok v h

theorem push_raises {n : Nat} {s : State} {x : Trouble} (v : Dword)
    (h : stackSlot s (pushOffset n 0 s) n .stackWrite = .error x) : push n v s = .error ⟨x, s⟩ := by
  rw [push_eq, h]

/-- The top of stack after a push is the slot's offset. -/
theorem stackPtr_pushed (n : Nat) (lin v : Dword) (s : State) : stackPtr (pushed n lin v s) = pushOffset n 0 s := by
  rw [stackPtr_moved (s := s) (t := pushed n lin v s) (d := -BitVec.ofNat 32 n) rfl rfl, ← wrap_sub, pushOffset,
    Nat.zero_add, Nat.mul_one]

/-- A walk of the stack segment from an offset is the same one after a push. -/
theorem stackSlot_pushed_walk (n : Nat) (lin v : Dword) (s : State) (x d : Dword) (m : Nat) (k : AccessKind) :
    stackSlot (pushed n lin v s) (wrapStack s (wrapStack s x - d)) m k = stackSlot s (wrapStack s (x - d)) m k := by
  rw [BitVec.sub_eq_add_neg, wrapStack_add, ← BitVec.sub_eq_add_neg]
  exact stackSlot_congr rfl rfl rfl rfl rfl _ m k

theorem canPush_pushed {n count : Nat} {slot : Nat → Dword} {s : State} (can : CanPush n (count + 1) slot s)
    (lin v : Dword) : CanPush n count (fun j => slot (j + 1)) (pushed n lin v s) :=
  canPush_next can rfl rfl rfl rfl rfl rfl

/-! ## The end of ENTER (R220, R226) -/

/-- EBP loaded with the frame's offset, and the storage taken from the stack. -/
def openFrame (sz : OpSize) (storage : Word) (frame : Dword) (s : State) : State :=
  advance (release (-storage.setWidth 32) (setFrame sz frame s))

/-- The frame's offset in EBP: all of it where operand and stack are 32-bit, else its low word in BP alone. -/
theorem setFrame_eq (sz : OpSize) (frame : Dword) (s : State) : setFrame sz frame s = { s with regs := { s.regs with
    ebp := if sz = .w32 ∧ wideStack s = true then frame else setLow16 s.regs.ebp frame } } := by
  unfold setFrame
  cases sz <;> cases wideStack s <;> rfl

/-- The end of ENTER, on a state that pushes left: the pointer moves by the storage too, and the rest stays. -/
theorem openFrame_eq {d : Dword} {s t : State}
    (moved : t = { s with regs := movedRegs d s, mem := t.mem, written := t.written })
    (sz : OpSize) (storage : Word) (frame : Dword) :
    openFrame sz storage frame t = { s with
      regs := { movedRegs (d - storage.setWidth 32) s with
        ebp := if sz = .w32 ∧ wideStack s = true then frame else setLow16 s.regs.ebp frame }
      eip := s.pcNext, mem := t.mem, written := t.written } := by
  have esp := movedEsp_movedEsp (s := s) (t := setFrame sz frame t) d (-storage.setWidth 32) (by rw [moved]; rfl)
    (by rw [moved]; rfl)
  rw [openFrame, release_eq, movedRegs, esp, ← BitVec.sub_eq_add_neg, setFrame_eq, moved]
  rfl

theorem exec_enter (sz : OpSize) (storage : Word) (level : Byte) (s : State) :
    exec (.enter sz storage level) s = complete s (enterFrame sz storage (level.toNat % 32) s) := rfl

/-! ## ENTER with level 0 (R221) -/

theorem enterFrame_zero {sz : OpSize} {lin : Dword} {s : State} (storage : Word)
    (h : stackSlot s (pushOffset (itemBytes sz) 0 s) (itemBytes sz) .stackWrite = .ok lin) :
    enterFrame sz storage 0 s = .ok (openFrame sz storage (pushOffset (itemBytes sz) 0 s)
      (pushed (itemBytes sz) lin (truncSize sz s.regs.ebp) s)) := by
  rw [enterFrame_eq, push_pushed _ h, ← stackPtr_pushed _ lin (truncSize sz s.regs.ebp)]
  simp only [bind, Except.bind, if_true, BitVec.sub_eq_add_neg]
  rfl

theorem enterFrame_raises {sz : OpSize} {x : Trouble} {s : State} (storage : Word) (level : Nat)
    (h : stackSlot s (pushOffset (itemBytes sz) 0 s) (itemBytes sz) .stackWrite = .error x) :
    enterFrame sz storage level s = .error ⟨x, s⟩ := by
  rw [enterFrame_eq, push_raises _ h]
  rfl

/-- Settles O43: one push, then the end of ENTER (`openFrame_eq`); a push that raises does so before anything is
stored. -/
theorem enterNonNested : Obligations.EnterNonNested := by
  intro sz storage level s zero
  rw [exec_enter, zero]
  refine ⟨fun e hslot => ?_, fun lin hslot => ?_⟩
  · rw [enterFrame_raises storage 0 hslot, complete_exc]
  · rw [enterFrame_zero storage hslot]
    have frame := openFrame_eq (s := s) (t := pushed (itemBytes sz) lin (truncSize sz s.regs.ebp) s) rfl sz storage
      (pushOffset (itemBytes sz) 0 s)
    rw [frame]
    refine ⟨_, rfl, storesAt_of_store (truncSize_truncSize sz _) rfl rfl, fun hsz wide => ?_, rfl, rfl⟩
    subst hsz
    simp only [movedRegs, movedEsp_wide wide, wide, and_self, if_true, pushOffset, wrapStack, stackPtr_wide wide,
      itemBytes, BitVec.sub_eq_add_neg, BitVec.add_assoc]
    rfl

/-! ## ENTER with a level above 0 (R222) -/

/-- ENTER as a run of pushes, where its slots can be stored and the caller's display read: EBP, the copied display, the
frame's offset. The display is as before ENTER where it lies apart from the slots. -/
theorem enterFrame_nested {sz : OpSize} {level : Nat} {slot src : Nat → Dword} {s : State} (storage : Word)
    (positive : 0 < level) (can : CanPush (itemBytes sz) (level + 1) slot s)
    (reads : ∀ k < level - 1, stackSlot s (wrapStack s (s.regs.ebp - BitVec.ofNat 32 (itemBytes sz * (k + 1))))
      (itemBytes sz) .stackRead = .ok (src k)) :
    ∃ copied : List Dword, copied.length = level - 1 ∧
      ((∀ k < level - 1, ∀ b < itemBytes sz, ∀ j < level + 1,
          Outside (slot j) (itemBytes sz) (src k + BitVec.ofNat 32 b).toNat) →
        copied = (List.range (level - 1)).map fun k => s.mem.loadLE (src k) (itemBytes sz)) ∧
      enterFrame sz storage level s =
        pushAll (itemBytes sz) (truncSize sz s.regs.ebp ::
          (copied ++ [truncSize sz (pushOffset (itemBytes sz) 0 s)])) s >>= fun t =>
            .ok (openFrame sz storage (pushOffset (itemBytes sz) 0 s) t) := by
  have first := push_pushed (truncSize sz s.regs.ebp) (can 0 (by omega))
  have top := stackPtr_pushed (itemBytes sz) (slot 0) (truncSize sz s.regs.ebp) s
  have canRest := canPush_pushed can (slot 0) (truncSize sz s.regs.ebp)
  obtain ⟨copied, length, copy, asBefore⟩ := copyDisplay_pushes (fun j hj => canRest j (by omega))
    fun k hk => (stackSlot_pushed_walk _ _ _ s _ _ _ _).trans (reads k hk)
  refine ⟨copied, length, fun apart => ?_, ?_⟩
  · rw [asBefore fun k hk b hb j hj => apart k hk b hb (j + 1) (by omega)]
    exact List.map_congr_left fun k hk =>
      loadLE_store_apart fun b hb => apart k (List.mem_range.1 hk) b hb 0 (by omega)
  · rw [enterFrame_eq, pushAll, first]
    simp only [bind, Except.bind, top, Nat.ne_of_gt positive, if_false, copy, pushAll_append, BitVec.sub_eq_add_neg]
    cases pushAll (itemBytes sz) copied (pushed (itemBytes sz) (slot 0) (truncSize sz s.regs.ebp) s) with
    | error x => rfl
    | ok t =>
      simp only [pushAll]
      cases push (itemBytes sz) (truncSize sz (pushOffset (itemBytes sz) 0 s)) t <;> rfl

/-- ENTER pushes the low `OpSize` bits of EBP and of the frame's offset. -/
theorem map_truncSize_enterItems (sz : OpSize) {level : Nat} (positive : 0 < level) (src : Nat → Dword) (s : State) :
    (enterItems sz level src s).map (truncSize sz) =
      (truncSize sz s.regs.ebp :: ((List.range (level - 1)).map (fun k => s.mem.loadLE (src k) (itemBytes sz)) ++
        [truncSize sz (pushOffset (itemBytes sz) 0 s)])).map (truncSize sz) := by
  simp only [enterItems, Nat.ne_of_gt positive, if_false, List.map_cons, List.map_append, List.map_nil,
    truncSize_truncSize]

/-- The most items ENTER pushes, those of level 31, fit in a 16-bit stack. -/
theorem itemBytes_mul_level_le (sz : OpSize) {level : Nat} (h : level < 32) : itemBytes sz * (level + 1) ≤ 2 ^ 16 := by
  cases sz <;> simp only [itemBytes] <;> omega

/-- Settles O44: ENTER is a run of pushes (`enterFrame_nested`, `pushAll_ok`), then its end (`openFrame_eq`). -/
theorem enterNested : Obligations.EnterNested := by
  intro sz storage level slot src s L positive can reads apart
  obtain ⟨copied, length, asBefore, run⟩ := enterFrame_nested storage positive can reads
  have count : (truncSize sz s.regs.ebp :: (copied ++ [truncSize sz (pushOffset (itemBytes sz) 0 s)])).length =
      L + 1 := by
    rw [List.length_cons, List.length_append, length, List.length_singleton, Nat.sub_add_cancel positive]
  obtain ⟨t, pushes, stored, moved, -⟩ := pushAll_ok sz _ slot s
    (count ▸ itemBytes_mul_level_le sz (Nat.mod_lt _ (by decide))) (count.symm ▸ can)
  rw [count] at moved
  rw [asBefore apart] at stored
  have frame := openFrame_eq moved sz storage (pushOffset (itemBytes sz) 0 s)
  refine ⟨openFrame sz storage (pushOffset (itemBytes sz) 0 s) t, by rw [exec_enter, run, pushes]; rfl,
    pushedAt_congr (pushedAt_truncated (map_truncSize_enterItems sz positive src s) stored) rfl rfl ?_, ?_⟩
  · rw [frame]
  · rw [frame]

/-! ## LEAVE (R223) -/

/-- The pointer set to an offset, in the width of the stack. -/
theorem setStackPtr_wrapStack (v : Dword) (s : State) : setStackPtr (wrapStack s v) s =
    { s with regs := { s.regs with esp := if wideStack s then v else setLow16 s.regs.esp v } } := by
  unfold setStackPtr wrapStack
  cases wideStack s with
  | true => rfl
  | false => simp only [Bool.false_eq_true, if_false, setLow16_low16]

theorem exec_leave (sz : OpSize) (s : State) : exec (.leave sz) s =
    complete s (peek (itemBytes sz) (wrapStack s s.regs.ebp) s >>= fun v => .ok (advance (writeReg sz .ebp v
      (setStackPtr (wrapStack s (wrapStack s s.regs.ebp + BitVec.ofNat 32 (itemBytes sz))) s)))) := rfl

/-- Settles O45: one read at EBP, then the pointer set above it and EBP loaded. -/
theorem leave : Obligations.Leave := by
  refine ⟨fun d rest => decode_opcodeAlone (by decide) rfl, fun sz s => ⟨fun lin hslot => ?_, fun e hslot => ?_⟩⟩
  · rw [exec_leave, peek_ok hslot, wrapStack_add, setStackPtr_wrapStack]
    rfl
  · rw [exec_leave, peek_raises hslot]
    exact complete_exc s e

end Sys2Proof.Proofs
end

section
/-! External events at an instruction boundary (60_exceptions R253, R273, R291 to R293): what the environment presents is
latched, and the first event that is due is taken or refused. -/

namespace Sys2Proof.Proofs

open Sys2Proof Sys2Proof.Machine Sys2Proof.Safety Sys2Proof.Laws

/-! ## Asking the environment (R291, log 15) -/

/-- A pending vector stays pending, and those that wait stay behind it. -/
theorem latchINTR_pending (v : Byte) (queue : List Byte) : latchINTR (some v) queue = (some v, queue) := rfl

/-- Where none is pending the first that waits becomes pending. -/
theorem latchINTR_waiting (v : Byte) (queue : List Byte) : latchINTR none (v :: queue) = (some v, queue) := rfl

/-- Where none is pending and none waits, a presented vector is pending at once. -/
theorem latchINTR_presented (presented : Option Byte) : latchINTR none presented.toList = (presented, []) := by
  cases presented <;> rfl

section Ask

variable {s : State} {e : ExtInput} {rest : List ExtInput}

/-- A presentation latched: NMI, SMI and a machine check whatever waits, an INTR by `latchINTR`. -/
theorem askEnvironment_cons (h : s.ext = e :: rest) {pending : Option Byte} {queue : List Byte}
    (hq : latchINTR s.pendingINTR (s.waitingINTR ++ e.intr.toList) = (pending, queue)) :
    askEnvironment s = { s with
      pendingNMI := s.pendingNMI || e.nmi, pendingSMI := s.pendingSMI || e.smi
      pendingMC := s.pendingMC || e.machineCheck
      pendingINTR := pending, waitingINTR := queue, ext := rest } := by
  simp only [askEnvironment, h, List.headD_cons, List.tail_cons, hq]

/-- An SMI presented at this boundary is pending. -/
theorem askEnvironment_pendingSMI (h : s.ext = e :: rest) (smi : e.smi = true) :
    (askEnvironment s).pendingSMI = true := by
  rw [askEnvironment_cons h rfl, smi]
  exact Bool.or_true _

end Ask

/-! ## What is due (R253, R291 to R293) -/

theorem dueEvent_smi {s : State} (smi : s.pendingSMI = true) : dueEvent s = .refused .smi := by
  rw [dueEvent, if_pos smi]

section Due

variable {s : State} (noSmi : s.pendingSMI = false)
include noSmi

theorem dueEvent_machineCheck (mc : s.pendingMC = true) :
    dueEvent s = .event ⟨18, .abort, none⟩ { s with pendingMC := false } := by
  simp only [dueEvent, noSmi, mc, Bool.false_eq_true, if_false, if_true]

variable (noMc : s.pendingMC = false)
include noMc

theorem dueEvent_nmi (nmi : s.pendingNMI = true) :
    dueEvent s = .event ⟨2, .nmi, none⟩ { s with pendingNMI := false } := by
  simp only [dueEvent, noSmi, noMc, nmi, Bool.false_eq_true, if_false, if_true]

variable (noNmi : s.pendingNMI = false) {v : Byte} (intr : s.pendingINTR = some v)
include noNmi intr

/-- With nothing before it a pending INTR alone decides. -/
theorem dueEvent_intr : dueEvent s =
    if v < 32 then .refused .intrVectorOutOfRange
    else if flagIF s.eflags then .event ⟨v, .external, none⟩ { s with pendingINTR := none } else .none := by
  simp only [dueEvent, noSmi, noMc, noNmi, intr, Bool.false_eq_true, if_false]

theorem dueEvent_intrReserved (low : v < 32) : dueEvent s = .refused .intrVectorOutOfRange := by
  rw [dueEvent_intr noSmi noMc noNmi intr, if_pos low]

theorem dueEvent_intrTaken (range : 32 ≤ v) (enabled : flagIF s.eflags = true) :
    dueEvent s = .event ⟨v, .external, none⟩ { s with pendingINTR := none } := by
  rw [dueEvent_intr noSmi noMc noNmi intr, if_neg (BitVec.not_lt.2 range), if_pos enabled]

theorem dueEvent_intrMasked (range : 32 ≤ v) (masked : flagIF s.eflags = false) : dueEvent s = .none := by
  rw [dueEvent_intr noSmi noMc noNmi intr, if_neg (BitVec.not_lt.2 range), if_neg (ne_true_of_eq_false masked)]

end Due

/-! ## The step at a boundary that asks -/

/-- A boundary that runs an instruction runs what the bytes at CS:EIP decode to. -/
theorem step_decoded {s u : State} {i : Instr} {len : Nat} (h : AtFetch s u)
    (hd : decode (codeD u) (fetchWindow u).1 = .ok (i, len)) :
    step s = exec i { u with pcNext := u.eip + BitVec.ofNat 32 len } := by
  simp only [step, boundary_atFetch h, fetchDecode, hd]

section Boundary

variable {s : State} (running : s.shutdown = false) (asks : s.intShadow = false)
include running asks

theorem atFetch_asks (nothing : dueEvent (askEnvironment s) = .none) : AtFetch s (askEnvironment s) := by
  refine ⟨running, ?_⟩
  rw [if_neg (ne_true_of_eq_false asks)]
  exact ⟨nothing, rfl⟩

theorem step_event {ev : Event} {u : State} (due : dueEvent (askEnvironment s) = .event ev u) :
    step s = deliver ev u := by
  simp only [step, boundary, running, asks, due, Bool.false_eq_true, if_false]

theorem step_eventRefused {r : Refusal} (due : dueEvent (askEnvironment s) = .refused r) : step s = .refused r := by
  simp only [step, boundary, running, asks, due, Bool.false_eq_true, if_false]

end Boundary

/-! ## The obligations -/

/-- Settles O8: what is presented is pending at once, and a pending SMI goes before everything else. -/
theorem smiRefused : Obligations.SmiRefused := fun _ _ _ running asks presented smi =>
  step_eventRefused running asks (dueEvent_smi (askEnvironment_pendingSMI presented smi))

/-- Settles O7: the first of the events that is due decides the step (`dueEvent`'s lemmas); what is latched is
`latchINTR`'s answer. -/
theorem eventRecognition : Obligations.EventRecognition := by
  rintro s u running asks rfl
  refine ⟨fun noSmi mc => step_event running asks (dueEvent_machineCheck noSmi mc), fun noSmi noMc =>
    ⟨fun nmi => step_event running asks (dueEvent_nmi noSmi noMc nmi), fun v noNmi intr range enabled => ?taken,
      fun v i len noNmi intr range masked bytes => ?masked, fun v noNmi intr low => ?reserved⟩,
    fun e rest presented => ?latched, askEnvironment_nil⟩
  case taken => exact step_event running asks (dueEvent_intrTaken noSmi noMc noNmi intr range enabled)
  case masked =>
    exact step_decoded (atFetch_asks running asks (dueEvent_intrMasked noSmi noMc noNmi intr range masked)) bytes
  case reserved => exact step_eventRefused running asks (dueEvent_intrReserved noSmi noMc noNmi intr low)
  case latched =>
    intro latched
    refine ⟨fun idle queue => ?_, fun w l idle queue => ?_, fun w busy => ?_⟩
    · exact askEnvironment_cons presented (by rw [idle, queue]; exact latchINTR_presented e.intr)
    · exact askEnvironment_cons presented (by rw [idle, queue]; exact latchINTR_waiting w _)
    · exact askEnvironment_cons presented (by rw [busy]; exact latchINTR_pending w _)

end Sys2Proof.Proofs
end

section
/-! Taking an exception or interrupt (60_exceptions R283 to R288, R294): entry to a handler in either mode, and what
follows an exception raised on the way. -/

namespace Sys2Proof.Proofs

open Sys2Proof Sys2Proof.Machine Sys2Proof.Safety Sys2Proof.Laws

/-! ## Entry in real-address mode (R288) -/

/-- By default no error code is pushed in real-address mode. -/
theorem pushed_real {ev : Event} {s : State} (hm : s.mode = .realMode) (h : s.params.errCode = []) :
    ev.pushed s = none := by
  simp only [Event.pushed, errCode, h, hm, List.lookup_nil, pushesCode, Option.getD_none, Bool.false_eq_true, if_false]

theorem realItems_default {ev : Event} {s : State} (hm : s.mode = .realMode) (h : s.params.errCode = []) :
    realItems ev s = [s.eflags, s.cs.sel.setWidth 32, savedEip ev.kind s] := by
  rw [realItems, pushed_real hm h]
  rfl

theorem realSegment_sel (sel : Word) (r : SegReg) : (realSegment sel r).sel = sel := by
  unfold realSegment
  cases r.desc <;> rfl

/-- Base 16 × selector, whatever record was there. -/
theorem realSegment_base {sel : Word} {r : SegReg} {d : SegDesc} (h : (realSegment sel r).desc = some d) :
    d.base = 16 * sel.setWidth 32 := by
  have shifted : sel.setWidth 32 <<< 4 = 16 * sel.setWidth 32 := by
    rw [BitVec.shiftLeft_eq_mul_twoPow, BitVec.mul_comm]
    rfl
  unfold realSegment at h
  cases hr : r.desc with
  | some old => rw [hr] at h; cases h; exact shifted
  | none => rw [hr] at h; cases h; exact shifted

theorem enteredReal_cs {ev : Event} {slot : Nat → Dword} {s t : State} (h : EnteredReal ev slot s t) :
    t.cs = realSegment ((t.mem.loadLE (4 * ev.vector.setWidth 32 + 2) 2).setWidth 16) s.cs := by
  obtain ⟨-, ht⟩ := h
  exact congrArg State.cs ht

/-! ## What follows an exception raised during delivery (R294) -/

theorem contributory_iff (v : Byte) : contributory v = true ↔ v ∈ [0, 10, 11, 12, 13] := by
  simp only [contributory, Bool.or_eq_true, Bool.and_eq_true, beq_iff_eq, decide_eq_true_eq, List.mem_cons,
    List.not_mem_nil, or_false]
  bv_omega

theorem escalate_notRaised {first : Event} (second : Byte) (h : raisedByProcessor first.kind = false) :
    escalate first second = .serial := by
  obtain ⟨vector, kind, code⟩ := first
  cases kind with
  | fault | trap | abort => cases h
  | software | external | nmi => rfl

theorem escalate_raised {first : Event} (second : Byte) (h : raisedByProcessor first.kind = true) :
    escalate first second =
      if first.vector = 8 then .shutdown
      else if contributory first.vector && contributory second then .double
      else if first.vector = 14 && (contributory second || second == 14) then .double
      else .serial := by
  obtain ⟨vector, kind, code⟩ := first
  cases kind with
  | fault | trap | abort => rfl
  | software | external | nmi => cases h

/-- The pairs that make a double fault, as `escalate` tests them. -/
theorem doubleFaults_iff (first second : Byte) : DoubleFaults first second ↔
    (contributory first && contributory second) = true ∨
      (decide (first = 14) && (contributory second || second == 14)) = true := by
  simp only [DoubleFaults, Bool.and_eq_true, Bool.or_eq_true, contributory_iff, decide_eq_true_eq, beq_iff_eq,
    List.mem_cons, List.not_mem_nil, or_false, or_assoc]

theorem not_doubleFaults_df (second : Byte) : ¬ DoubleFaults 8 second := by
  rintro (⟨h, -⟩ | ⟨h, -⟩)
  · exact absurd h (by decide)
  · exact absurd h (by decide)

theorem escalate_double {first : Event} {second : Byte} (h : raisedByProcessor first.kind = true)
    (pair : DoubleFaults first.vector second) : escalate first second = .double := by
  have notDf : first.vector ≠ 8 := fun df => not_doubleFaults_df second (df ▸ pair)
  rw [escalate_raised second h, if_neg notDf]
  rcases (doubleFaults_iff _ _).1 pair with both | page
  · rw [if_pos both]
  · rw [if_pos page, ite_self]

theorem escalate_serial {first : Event} {second : Byte} (notDf : first.vector ≠ 8)
    (noPair : ¬ DoubleFaults first.vector second) : escalate first second = .serial := by
  cases h : raisedByProcessor first.kind with
  | false => exact escalate_notRaised second h
  | true =>
    rw [doubleFaults_iff, not_or] at noPair
    obtain ⟨both, page⟩ := noPair
    rw [escalate_raised second h, if_neg notDf, if_neg both, if_neg page]

theorem escalate_shutdown {first : Event} (second : Byte) (h : raisedByProcessor first.kind = true)
    (df : first.vector = 8) : escalate first second = .shutdown := by
  rw [escalate_raised second h, if_pos df]

/-! ## One entry, and the one in its place -/

theorem enterHandler_ready {ev : Event} {g : IntGate} {c d : SegDesc} {slot : Nat → Dword} {s : State}
    (h : HandlerReady ev g c d slot s) : ∃ t, enterHandler ev s = .ok t ∧ Entered ev g c d slot s t := by
  obtain ⟨t, run, entered, -⟩ := enterProtected_ok h
  obtain ⟨hm, -⟩ := h
  exact ⟨t, by simp only [enterHandler, hm, run, markExt], entered⟩

theorem enterHandler_real {ev : Event} {slot : Nat → Dword} {s : State} (hm : s.mode = .realMode)
    (h : CanPush 2 (realItems ev s).length slot s) : ∃ t, enterHandler ev s = .ok t ∧ EnteredReal ev slot s t := by
  obtain ⟨t, run, entered, -⟩ := enterReal_ok h
  exact ⟨t, by simp only [enterHandler, hm, run, markExt], entered⟩

/-- A delivery enters the handler that stands ready, in either mode. -/
theorem deliverFrom_enters (n : Nat) (ev : Event) (s : State) :
    (∀ g c d slot, HandlerReady ev g c d slot s →
      ∃ t, deliverFrom (n + 1) ev s = .next t ∧ Entered ev g c d slot s t) ∧
    (∀ slot, s.mode = .realMode → CanPush 2 (realItems ev s).length slot s →
      ∃ t, deliverFrom (n + 1) ev s = .next t ∧ EnteredReal ev slot s t) := by
  refine ⟨fun g c d slot ready => ?_, fun slot hm can => ?_⟩
  · obtain ⟨t, run, entered⟩ := enterHandler_ready ready
    exact ⟨t, by simp only [deliverFrom, run], entered⟩
  · obtain ⟨t, run, entered⟩ := enterHandler_real hm can
    exact ⟨t, by simp only [deliverFrom, run], entered⟩

section Nested

variable {ev : Event} {e : Exc} {p s : State} (raised : enterHandler ev s = .error ⟨.exc e, p⟩)
include raised

/-- The exception is delivered in the event's place. -/
theorem deliver_serial (h : escalate ev e.vector = .serial) : deliver ev s = deliverFrom 9 e.event (abandon s p) := by
  rw [deliver, deliverFrom_nested raised, h]

/-- The double fault, with code 0, is delivered in the event's place. -/
theorem deliver_double (h : escalate ev e.vector = .double) :
    deliver ev s = deliverFrom 9 ⟨8, .abort, some 0⟩ (abandon s p) := by
  rw [deliver, deliverFrom_nested raised, h]
  rfl

theorem deliver_shutdown (h : escalate ev e.vector = .shutdown) :
    deliver ev s = .next { abandon s p with shutdown := true } := by
  rw [deliver, deliverFrom_nested raised, h]

end Nested

theorem abandon_mode (s p : State) : (abandon s p).mode = s.mode := by
  rw [abandon_keeps]

/-! ## The obligations -/

/-- Settles O47: a ready handler is entered (`enterProtected_ok`), so the delivery is that entry. -/
theorem protectedEntry : Obligations.ProtectedEntry := fun _ _ _ _ _ _ ready => deliver_ready ready

/-- Settles O48: the pushes are one run (`enterReal_ok`), CS:IP is read from the memory it leaves. -/
theorem realEntry : Obligations.RealEntry := by
  refine fun ev slot s hm => ⟨realItems_default hm, fun can => ?_⟩
  obtain ⟨t, run, entered⟩ := deliver_real hm can
  have cs := enteredReal_cs entered
  have selector : t.cs.sel = (t.mem.loadLE (4 * ev.vector.setWidth 32 + 2) 2).setWidth 16 := by
    rw [cs, realSegment_sel]
  refine ⟨t, run, entered, selector, fun d hd => ?_⟩
  rw [selector]
  exact realSegment_base (cs ▸ hd)

/-- Settles O52: `escalate` says which event the failed entry's exception becomes, and the next entry, from the state
`abandon` leaves, succeeds where its handler stands ready. -/
theorem nestedDelivery : Obligations.NestedDelivery := by
  intro ev e p s raised
  have enters := fun inPlace => deliverFrom_enters 8 inPlace (abandon s p)
  simp only [abandon_mode] at enters
  refine ⟨fun noPair => ?serial, fun processor pair => ?double, fun processor df => ?shutdown⟩
  case serial =>
    have serial : escalate ev e.vector = .serial :=
      noPair.elim (escalate_notRaised _) fun ⟨notDf, noPair⟩ => escalate_serial notDf noPair
    rw [deliver_serial raised serial]
    exact enters e.event
  case double =>
    rw [deliver_double raised (escalate_double processor pair)]
    exact enters ⟨8, .abort, some 0⟩
  case shutdown => exact deliver_shutdown raised (escalate_shutdown _ processor df)

end Sys2Proof.Proofs
end

section
/-! The privilege level over a step (60_exceptions R298): it becomes less privileged by a far RET or an IRET alone, and
more privileged only onto the stack the TSS names for the new level. -/

namespace Sys2Proof.Proofs

open Sys2Proof Sys2Proof.Machine Sys2Proof.Safety Sys2Proof.Laws

/-! ## The switch to the TSS stack -/

/-- `t` stands on the TSS stack of its level, the SS and ESP of `s` the first two items pushed on it. -/
def OnTssStack (s t : State) : Prop :=
  ∃ d count slot, stackSegment s .ts t.cpl (tssStack s t.cpl).ss = .ok d ∧
    t.ss = ⟨(tssStack s t.cpl).ss, some d⟩ ∧ rpl t.cs.sel = t.cpl ∧
    2 ≤ count ∧ CanPush 4 count slot (entryStack t.cpl d s) ∧
    (Untouched 4 count 0 slot s → t.mem.loadLE (slot 0) 4 = s.ss.sel.setWidth 32) ∧
    (Untouched 4 count 1 slot s → t.mem.loadLE (slot 1) 4 = s.regs.esp)

/-- A run of pushes on the new stack whose first two items are SS and ESP. -/
theorem onTssStack_of_pushed {s t : State} {d : SegDesc} {slot : Nat → Dword} {rest : List Dword}
    (fit : stackSegment s .ts t.cpl (tssStack s t.cpl).ss = .ok d)
    (hss : t.ss = ⟨(tssStack s t.cpl).ss, some d⟩) (hcs : rpl t.cs.sel = t.cpl)
    (can : CanPush 4 ([s.ss.sel.setWidth 32, s.regs.esp] ++ rest).length slot (entryStack t.cpl d s))
    (stored : PushedAt .w32 ([s.ss.sel.setWidth 32, s.regs.esp] ++ rest) slot s t) : OnTssStack s t := by
  obtain ⟨items, -⟩ := stored
  exact ⟨d, _, slot, fit, hss, hcs, by simp, can, items 0 _ rfl, items 1 _ rfl⟩

/-! ## What a change of level may be -/

/-- How the level moved from `s` to `t`: less privileged only where `returns` holds, to the level CS names; more
privileged only onto the TSS stack; in real-address mode not at all. -/
inductive LevelMoved (returns : Bool) (s t : State) : Prop where
  | stays (h : t.cpl = s.cpl)
  | outward (hm : s.mode = .protectedMode) (hr : returns = true) (h : s.cpl < t.cpl) (hcs : rpl t.cs.sel = t.cpl)
  | inward (hm : s.mode = .protectedMode) (h : t.cpl < s.cpl) (hs : OnTssStack s t)

/-- A far CALL moves inward only, through a gate (41_call_ret R172). -/
theorem levelMoved_called {s t : State} (returns : Bool) (h : Called s t) : LevelMoved returns s t := by
  cases h with
  | real _ _ ht | direct _ _ _ _ _ ht => exact .stays (by rw [ht])
  | gateSame _ _ g c _ _ _ hl ht => exact .stays (by rw [ht])
  | gateInward hm gsel g c d _ _ _ hl fit slot rest can stored ht =>
    have level : t.cpl = c.dpl := by rw [ht]
    refine .inward hm (level ▸ hl) (onTssStack_of_pushed (rest := rest) (level ▸ fit) ?_ ?_ ?_ stored)
    · rw [level, ht]
    · rw [level, ht]
      exact rpl_withRpl _ _
    · rw [level, List.length_append]
      exact can

/-- A far RET or IRET moves outward only (41_call_ret R174, 42_int R196). -/
theorem levelMoved_returned {s t : State} {flags : Dword} (h : Returned s flags t) : LevelMoved true s t := by
  cases h with
  | real _ _ ht | same _ _ _ _ _ ht => exact .stays (by rw [ht])
  | outward hm sel d ssSel sd _ hl _ ht =>
    have level : t.cpl = rpl sel := by rw [ht]
    exact .outward hm rfl (level ▸ hl) (by rw [level, ht])

theorem levelMoved_ownEffect {i : Instr} {s t : State} (h : OwnEffect i s t) :
    LevelMoved (returnsOutward i) s t := by
  cases h with
  | plain ht | popf _ _ ht | popfd _ _ ht | dataSeg ht | stackSeg _ _ _ _ ht => exact .stays (by rw [ht])
  | call hc => exact levelMoved_called _ hc
  | far hi hr =>
    rw [hi]
    exact levelMoved_returned hr
  | iret sz image hi hr =>
    have returns : returnsOutward i = true := by rcases hi with rfl | rfl <;> rfl
    rw [returns]
    exact levelMoved_returned hr

/-- An entry moves inward only: a handler's level is not above the current one (60_exceptions R281, R285). -/
theorem levelMoved_entered {ev : Event} {g : IntGate} {c d : SegDesc} {slot : Nat → Dword} {s t : State}
    (returns : Bool) (hr : HandlerReady ev g c d slot s) (he : Entered ev g c d slot s t) :
    LevelMoved returns s t := by
  obtain ⟨hm, hgate, fit, can⟩ := hr
  obtain ⟨-, -, notAbove, -⟩ := handlerGate_ok hgate
  obtain ⟨stored, ht⟩ := he
  have level : t.cpl = c.dpl := by rw [ht]
  by_cases same : c.dpl = s.cpl
  · exact .stays (level.trans same)
  · rw [entryItems_eq, if_neg same] at can stored
    refine .inward hm (level ▸ level_lt (BitVec.not_lt.2 notAbove) (Ne.symm same))
      (onTssStack_of_pushed (level ▸ fit same) ?_ ?_ (level ▸ can) stored)
    · rw [level, ht, entryStack, if_neg same]
    · rw [level, ht]
      exact rpl_withRpl _ _

/-! ## From the state a step begins in -/

/-- `u` agrees with `s` in all that a stack switch reads, memory aside: true of the state a boundary leaves and of the
one an event is taken in. -/
structure SwitchesAs (s u : State) : Prop where
  mode : u.mode = s.mode
  gdt : u.gdt = s.gdt
  tss0 : u.tss0 = s.tss0
  tss1 : u.tss1 = s.tss1
  tss2 : u.tss2 = s.tss2
  segTraps : u.segTraps = s.segTraps
  params : u.params = s.params
  eflags : u.eflags = s.eflags
  cpl : u.cpl = s.cpl
  ss : u.ss = s.ss
  regs : u.regs = s.regs

theorem switchesAs_latched {s u : State} (h : Latched s u) : SwitchesAs s u := by
  constructor <;> rw [h]

theorem switchesAs_restarted {s u : State} (h : Restarted s u) : SwitchesAs s u := by
  constructor <;> rw [h.keeps]

section SwitchesAs

variable {s u : State} (h : SwitchesAs s u)
include h

theorem tssStack_congr (level : BitVec 2) : tssStack u level = tssStack s level := by
  unfold tssStack
  rw [h.tss0, h.tss1, h.tss2]

theorem stackSegment_congr (bad : Dword → Exc) (level : BitVec 2) (sel : Word) :
    stackSegment u bad level sel = stackSegment s bad level sel := by
  unfold stackSegment descriptorOf
  rw [h.gdt]

theorem pushOffset_congr (n j : Nat) : pushOffset n j u = pushOffset n j s := by
  unfold pushOffset stackPtr
  rw [wrapStack_congr h.ss, wrapStack_congr h.ss, h.regs]

theorem canPush_congr {n count : Nat} {slot : Nat → Dword} (can : CanPush n count slot u) :
    CanPush n count slot s := fun j hj => by
  rw [← pushOffset_congr h, ← stackSlot_congr h.segTraps h.params h.eflags h.cpl h.ss]
  exact can j hj

theorem untouched_congr {n count j : Nat} {slot : Nat → Dword} (hs : Untouched n count j slot s) :
    Untouched n count j slot u := by
  unfold Untouched
  rw [h.params]
  exact hs

theorem switchesAs_entryStack (level : BitVec 2) (d : SegDesc) :
    SwitchesAs (entryStack level d s) (entryStack level d u) := by
  unfold entryStack
  rw [h.cpl, h.regs, tssStack_congr h]
  split
  · exact h
  · exact { h with cpl := rfl, ss := rfl, regs := rfl }

theorem onTssStack_congr {t : State} (hu : OnTssStack u t) : OnTssStack s t := by
  obtain ⟨d, count, slot, fit, hss, hcs, two, can, ssItem, espItem⟩ := hu
  rw [stackSegment_congr h, tssStack_congr h] at fit
  rw [tssStack_congr h] at hss
  refine ⟨d, count, slot, fit, hss, hcs, two, canPush_congr (switchesAs_entryStack h _ d) can, fun free => ?_,
    fun free => ?_⟩
  · rw [ssItem (untouched_congr h free), h.ss]
  · rw [espItem (untouched_congr h free), h.regs]

theorem levelMoved_congr {returns : Bool} {t : State} (hu : LevelMoved returns u t) : LevelMoved returns s t := by
  cases hu with
  | stays hl => exact .stays (hl.trans h.cpl)
  | outward hm hr hl hcs => exact .outward (h.mode ▸ hm) hr (h.cpl ▸ hl) hcs
  | inward hm hl hs => exact .inward (h.mode ▸ hm) (h.cpl ▸ hl) (onTssStack_congr h hs)

end SwitchesAs

/-- An event moves inward only, whatever was raised on the way. -/
theorem levelMoved_delivered {s t : State} (returns : Bool) (h : Delivered s t) : LevelMoved returns s t := by
  cases h with
  | entered ev u g c d slot hu hr he _ =>
    exact levelMoved_congr (switchesAs_restarted hu) (levelMoved_entered returns hr he)
  | enteredReal ev u slot hu _ _ he _ =>
    obtain ⟨-, ht⟩ := he
    exact levelMoved_congr (switchesAs_restarted hu) (.stays (by rw [ht]))
  | shutdown u hu ht => exact levelMoved_congr (switchesAs_restarted hu) (.stays (by rw [ht]))

theorem levelMoved_exec {i : Instr} {s t : State} (h : exec i s = .next t) : LevelMoved (returnsOutward i) s t :=
  (exec_cases h).elim (fun own => levelMoved_ownEffect own.1) (levelMoved_delivered _)

/-- A step moves the level as the instruction it runs may, and as an event may where it runs none. -/
theorem levelMoved_step {s t : State} (h : step s = .next t) :
    LevelMoved false s t ∨ ∃ u i len, AtFetch s u ∧ decode (codeD u) (fetchWindow u).1 = .ok (i, len) ∧
      LevelMoved (returnsOutward i) s t := by
  cases step_next h with
  | ran u i len hu hd run =>
    have placed : SwitchesAs u { u with pcNext := u.eip + BitVec.ofNat 32 len } := by constructor <;> rfl
    exact .inr ⟨u, i, len, hu, hd,
      levelMoved_congr (switchesAs_latched (atFetch_latched hu)) (levelMoved_congr placed (levelMoved_exec run))⟩
  | took u ev hu run =>
    exact .inl (levelMoved_congr (switchesAs_latched hu) (levelMoved_delivered false (deliver_cases run)))

/-! ## The obligation -/

theorem levelMoved_real {returns : Bool} {s t : State} (h : LevelMoved returns s t) (hm : s.mode = .realMode) :
    t.cpl = s.cpl := by
  cases h with
  | stays hl => exact hl
  | outward prot | inward prot => rw [hm] at prot; cases prot

theorem levelMoved_lessPrivileged {returns : Bool} {s t : State} (h : LevelMoved returns s t) (hl : s.cpl < t.cpl) :
    rpl t.cs.sel = t.cpl ∧ returns = true := by
  cases h with
  | stays same => exact absurd hl (same ▸ BitVec.lt_irrefl _)
  | outward _ hr _ hcs => exact ⟨hcs, hr⟩
  | inward _ falls _ => exact absurd (BitVec.lt_trans hl falls) (BitVec.lt_irrefl _)

theorem levelMoved_morePrivileged {returns : Bool} {s t : State} (h : LevelMoved returns s t) (hl : t.cpl < s.cpl) :
    OnTssStack s t := by
  cases h with
  | stays same => exact absurd hl (same ▸ BitVec.lt_irrefl _)
  | outward _ _ rises _ => exact absurd (BitVec.lt_trans hl rises) (BitVec.lt_irrefl _)
  | inward _ _ hs => exact hs

/-- Settles O59: by `levelMoved_step`, over the ways a step can answer (`step_next`). -/
theorem privilegeChanges : Obligations.PrivilegeChanges := by
  intro s t h
  rcases levelMoved_step h with moved | ⟨u, i, len, hu, hd, moved⟩
  · refine ⟨levelMoved_real moved, fun rises => ?_, levelMoved_morePrivileged moved⟩
    obtain ⟨-, noReturn⟩ := levelMoved_lessPrivileged moved rises
    cases noReturn
  · refine ⟨levelMoved_real moved, fun rises => ?_, levelMoved_morePrivileged moved⟩
    obtain ⟨hcs, hr⟩ := levelMoved_lessPrivileged moved rises
    exact ⟨hcs, u, i, len, hu, hd, hr⟩

end Sys2Proof.Proofs
end

section
/-! The encoder and the decoder (30_encoding R90 to R106): what was encoded decodes to itself, and what decodes is well
formed and depends on its own bytes alone. -/

namespace Sys2Proof.Proofs

open Sys2Proof Sys2Proof.Machine Sys2Proof.Safety Sys2Proof.Laws

/-! ## Immediates (R102 to R104) -/

theorem readWord_wordBytes (v : Word) (t : List Byte) : readWord (wordBytes v ++ t) = .ok (v, t) := by
  have joined : v.extractLsb' 8 8 ++ v.extractLsb' 0 8 = v := by
    rw [BitVec.extractLsb'_append_extractLsb'_eq_extractLsb' (by decide)]
    exact BitVec.extractLsb'_eq_self
  exact congrArg (fun w => Except.ok (w, t)) joined

theorem readDword_dwordBytes (v : Dword) (t : List Byte) : readDword (dwordBytes v ++ t) = .ok (v, t) := by
  have joined : byteOf v 3 ++ byteOf v 2 ++ byteOf v 1 ++ byteOf v 0 = v := by
    unfold byteOf
    rw [BitVec.extractLsb'_append_extractLsb'_eq_extractLsb' (by decide),
      BitVec.extractLsb'_append_extractLsb'_eq_extractLsb' (by decide),
      BitVec.extractLsb'_append_extractLsb'_eq_extractLsb' (by decide)]
    exact BitVec.extractLsb'_eq_self
  exact congrArg (fun w => Except.ok (w, t)) joined

/-- The two low bytes of a doubleword are the bytes of its low word. -/
theorem sizedBytes_w16 (v : Dword) : sizedBytes .w16 v = wordBytes (v.setWidth 16) := by
  have byte : ∀ k, k + 8 ≤ 16 → v.extractLsb' k 8 = (v.setWidth 16).extractLsb' k 8 := fun k hk => by
    apply BitVec.eq_of_getLsbD_eq
    intro i hi
    simp only [BitVec.getLsbD_extractLsb', BitVec.getLsbD_setWidth, show k + i < 16 by omega, decide_true, Bool.true_and]
  exact congr (congrArg (fun a b : Byte => [a, b]) (byte 0 (by decide))) (byte 8 (by decide))

theorem readSized_sizedBytes {sz : OpSize} {v : Dword} (h : sz.fitsZero v = true) (t : List Byte) :
    readSized sz (sizedBytes sz v ++ t) = .ok (v, t) := by
  cases sz with
  | w16 =>
    have zext : (v.setWidth 16).setWidth 32 = v := beq_iff_eq.1 h
    rw [sizedBytes_w16]
    simp only [readSized, readWord_wordBytes, bind, Except.bind, zext]
  | w32 => exact readDword_dwordBytes v t

theorem readSigned_sizedBytes {sz : OpSize} {v : Dword} (h : sz.fitsSign v = true) (t : List Byte) :
    readSigned sz (sizedBytes sz v ++ t) = .ok (v, t) := by
  cases sz with
  | w16 =>
    have sext : (v.setWidth 16).signExtend 32 = v := beq_iff_eq.1 h
    rw [sizedBytes_w16]
    simp only [readSigned, readWord_wordBytes, bind, Except.bind, sext]
  | w32 => exact readDword_dwordBytes v t

/-! ## ModRM and SIB (R97 to R100) -/

@[simp] theorem fieldsByte_hi : ∀ (hi : BitVec 2) (mid lo : BitVec 3),
    (fieldsByte hi mid lo).extractLsb' 6 2 = hi := by decide

@[simp] theorem fieldsByte_mid : ∀ (hi : BitVec 2) (mid lo : BitVec 3),
    (fieldsByte hi mid lo).extractLsb' 3 3 = mid := by decide

@[simp] theorem fieldsByte_lo : ∀ (hi : BitVec 2) (mid lo : BitVec 3),
    (fieldsByte hi mid lo).extractLsb' 0 3 = lo := by decide

@[simp] theorem ofNumber_number (r : Reg) : Reg.ofNumber r.number = r := by cases r <;> rfl

/-- Each 16-bit form but `disp16` alone has its own number (R100). -/
theorem base16_ofNumber_number {f : Base16} (h : f ≠ .none) : Base16.ofNumber f.number = f := by
  cases f with
  | none => exact absurd rfl h
  | _ => rfl

/-- Number 4 is ESP's (10_state R21). -/
theorem number_eq_four {r : Reg} : r.number = 4 ↔ r = .esp := by cases r <;> decide

theorem sibIndex_none (sc : BitVec 2) (lo : BitVec 3) : sibIndex (fieldsByte sc 4 lo) = none := by
  simp [sibIndex]

theorem sibIndex_some {i : Reg} (hi : i ≠ .esp) (sc : BitVec 2) (lo : BitVec 3) :
    sibIndex (fieldsByte sc i.number lo) = some (i, sc) := by
  have notFour : i.number ≠ 4#3 := mt number_eq_four.1 hi
  simp only [sibIndex, fieldsByte_mid, if_neg notFour, ofNumber_number, fieldsByte_hi]

section ReadAddr

variable (disp : Dword) (t : List Byte)

theorem readAddr32_disp : readAddr32 0 5 (dwordBytes disp ++ t) = .ok (.a32 none none disp, t) := by
  simp only [readAddr32, readDword_dwordBytes, bind, Except.bind]
  rfl

theorem readAddr32_sib_disp {sib : Byte} (h : sib.extractLsb' 0 3 = 5#3) :
    readAddr32 0 4 (sib :: (dwordBytes disp ++ t)) = .ok (.a32 none (sibIndex sib) disp, t) := by
  simp only [readAddr32, readByte, h, readDword_dwordBytes, bind, Except.bind]
  rfl

theorem readAddr32_sib (sib : Byte) : readAddr32 2 4 (sib :: (dwordBytes disp ++ t)) =
    .ok (.a32 (some (Reg.ofNumber (sib.extractLsb' 0 3))) (sibIndex sib) disp, t) := by
  have mod : (2 : BitVec 2) ≠ 0#2 := by decide
  simp only [readAddr32, readByte, mod, and_false, if_false, readDisp32, readDword_dwordBytes, bind, Except.bind]
  rfl

theorem readAddr32_base {rm : BitVec 3} (h : rm ≠ 4#3) : readAddr32 2 rm (dwordBytes disp ++ t) =
    .ok (.a32 (some (Reg.ofNumber rm)) none disp, t) := by
  have mod : (2 : BitVec 2) ≠ 0#2 := by decide
  simp only [readAddr32, h, mod, and_false, if_false, readDisp32, readDword_dwordBytes, bind, Except.bind]
  rfl

theorem readAddr16_disp (disp : Word) : readAddr16 0 6 (wordBytes disp ++ t) = .ok (.a16 .none disp, t) := by
  simp only [readAddr16, readWord_wordBytes, bind, Except.bind]
  rfl

theorem readAddr16_form {f : Base16} (h : f ≠ .none) (disp : Word) :
    readAddr16 2 f.number (wordBytes disp ++ t) = .ok (.a16 f disp, t) := by
  have mod : (2 : BitVec 2) ≠ 0#2 := by decide
  simp only [readAddr16, mod, and_false, if_false, readDisp16, readWord_wordBytes, base16_ofNumber_number h, bind,
    Except.bind]
  rfl

end ReadAddr

/-- `bytes` are a ModRM byte with `reg` in its reg field and the bytes after it, which read as the address `a`. -/
def SpellsAddr (reg : BitVec 3) (a : MemAddr) (bytes : List Byte) : Prop :=
  ∃ mod rm after, bytes = fieldsByte mod reg rm :: after ∧ mod ≠ 3 ∧
    ∀ rest, readAddr a.addrSize mod rm (after ++ rest) = .ok (a, rest)

/-- The bytes of a well-formed address spell it, form by form. -/
theorem addrBytes_spells (reg : BitVec 3) {a : MemAddr} (h : a.wf = true) : SpellsAddr reg a (addrBytes reg a) := by
  cases a with
  | a32 base index disp =>
    rcases index with _ | ⟨i, sc⟩
    · rcases base with _ | b
      · exact ⟨0, 5, _, rfl, by decide, readAddr32_disp disp⟩
      by_cases hb : b = .esp
      · subst hb
        exact ⟨2, 4, _, rfl, by decide, fun rest => readAddr32_sib disp rest (fieldsByte 0 4 4)⟩
      · refine ⟨2, b.number, dwordBytes disp, ?_, by decide, fun rest => ?_⟩
        · cases b with
          | esp => exact absurd rfl hb
          | _ => rfl
        · have run := readAddr32_base disp rest (mt number_eq_four.1 hb)
          rwa [ofNumber_number] at run
    · have hi : i ≠ .esp := by simpa [MemAddr.wf] using h
      rcases base with _ | b
      · refine ⟨0, 4, _, rfl, by decide, fun rest => ?_⟩
        have run := readAddr32_sib_disp disp rest (fieldsByte_lo sc i.number 5)
        rwa [sibIndex_some hi] at run
      · refine ⟨2, 4, fieldsByte sc i.number b.number :: dwordBytes disp, by cases b <;> rfl, by decide,
          fun rest => ?_⟩
        have run := readAddr32_sib disp rest (fieldsByte sc i.number b.number)
        rwa [sibIndex_some hi, fieldsByte_lo, ofNumber_number] at run
  | a16 f disp =>
    by_cases hf : f = .none
    · subst hf
      exact ⟨0, 6, _, rfl, by decide, fun rest => readAddr16_disp rest disp⟩
    · refine ⟨2, f.number, wordBytes disp, ?_, by decide, fun rest => readAddr16_form rest hf disp⟩
      cases f with
      | none => exact absurd rfl hf
      | _ => rfl

/-- `bytes` are a ModRM byte with `reg` in its reg field and the bytes after it, which read as the operand `rm`. -/
def SpellsRM (reg : BitVec 3) (asz : OpSize) (seg : Option SegName) (rm : RM) (bytes : List Byte) : Prop :=
  ∃ modrm after, bytes = modrm :: after ∧ modrm.extractLsb' 3 3 = reg ∧
    ∀ rest, readRM asz seg modrm (after ++ rest) = .ok (rm, rest)

theorem addrBytes_spellsRM (reg : BitVec 3) {m : MemOp} (h : m.wf = true) :
    SpellsRM reg m.addr.addrSize m.seg (.mem m) (addrBytes reg m.addr) := by
  obtain ⟨mod, rm, after, bytes, notReg, read⟩ := addrBytes_spells reg (a := m.addr) h
  refine ⟨_, after, bytes, fieldsByte_mid .., fun rest => ?_⟩
  simp only [readRM, fieldsByte_hi, fieldsByte_lo, show mod ≠ 3#2 from notReg, if_false, read, bind, Except.bind]

theorem rmBytes_spells (reg : BitVec 3) {rm : RM} (h : rm.wf = true) {asz : OpSize} {seg : Option SegName}
    (hm : ∀ m, rm = .mem m → asz = m.addr.addrSize ∧ seg = m.seg) : SpellsRM reg asz seg rm (rmBytes reg rm) := by
  cases rm with
  | reg r =>
    refine ⟨_, [], rfl, fieldsByte_mid .., fun rest => ?_⟩
    simp only [readRM, fieldsByte_hi, fieldsByte_lo, ofNumber_number]
    rfl
  | mem m =>
    obtain ⟨rfl, rfl⟩ := hm m rfl
    exact addrBytes_spellsRM reg h

theorem readMemOnly_mem {asz : OpSize} {seg : Option SegName} {modrm : Byte} {m : MemOp} {bs t : List Byte}
    (h : readRM asz seg modrm bs = .ok (.mem m, t)) : readMemOnly asz seg modrm bs = .ok (m, t) := by
  simp only [readMemOnly, h, bind, Except.bind]


/-! ## The bytes before the opcode (R93) -/

/-- What an encoding's modifier bytes say: the sizes swapped where they are not the D flag's, and the operand's
override. -/
def modifiersOf (d : Bool) (i : Instr) : Modifiers where
  opSwap := i.opSize?.elim false (attributeSize d false != ·)
  addrSwap := i.memOp?.elim false (attributeSize d false != ·.addr.addrSize)
  seg := i.memOp?.bind MemOp.seg

/-- A size is the D flag's, swapped where it is not. -/
theorem attributeSize_swapped (d : Bool) (sz : OpSize) : attributeSize d (attributeSize d false != sz) = sz := by
  cases d <;> cases sz <;> rfl

theorem readModifiers_opSwap (d : Bool) (sz : OpSize) (m : Modifiers) (hm : m.opSwap = false) (t : List Byte) :
    readModifiers m (swapByte d 0x66 sz ++ t) = readModifiers { m with opSwap := attributeSize d false != sz } t := by
  by_cases h : attributeSize d false = sz
  · obtain ⟨⟩ := m
    subst hm
    simp only [swapByte, h, if_true, bne_self_eq_false, List.nil_append]
  · simp only [swapByte, h, if_false, bne_iff_ne.2 h]
    rfl

theorem readModifiers_addrSwap (d : Bool) (sz : OpSize) (m : Modifiers) (hm : m.addrSwap = false) (t : List Byte) :
    readModifiers m (swapByte d 0x67 sz ++ t) =
      readModifiers { m with addrSwap := attributeSize d false != sz } t := by
  by_cases h : attributeSize d false = sz
  · obtain ⟨⟩ := m
    subst hm
    simp only [swapByte, h, if_true, bne_self_eq_false, List.nil_append]
  · simp only [swapByte, h, if_false, bne_iff_ne.2 h]
    rfl

theorem readModifiers_seg (g : Option SegName) (m : Modifiers) (hm : m.seg = none) (t : List Byte) :
    readModifiers m ((g.elim [] fun g => [g.overrideByte]) ++ t) = readModifiers { m with seg := g } t := by
  cases g with
  | none => obtain ⟨⟩ := m; subst hm; rfl
  | some g => cases g <;> rfl

theorem modifierBytes_eq (d : Bool) (i : Instr) : modifierBytes d i =
    i.opSize?.elim [] (swapByte d 0x66) ++ i.memOp?.elim [] fun m =>
      swapByte d 0x67 m.addr.addrSize ++ (m.seg.elim [] fun g => [g.overrideByte]) := by
  unfold modifierBytes
  cases i.opSize? <;> cases i.memOp? <;> rfl

/-- The decoder reads from the modifier bytes what they were written for. -/
theorem readModifiers_modifierBytes (d : Bool) (i : Instr) (t : List Byte) :
    readModifiers ⟨false, false, none⟩ (modifierBytes d i ++ t) = readModifiers (modifiersOf d i) t := by
  have operandSize : ∀ t, readModifiers ⟨false, false, none⟩ (i.opSize?.elim [] (swapByte d 0x66) ++ t) =
      readModifiers ⟨(modifiersOf d i).opSwap, false, none⟩ t := fun t => by
    unfold modifiersOf
    cases i.opSize? with
    | none => rfl
    | some sz => exact readModifiers_opSwap d sz _ rfl t
  rw [modifierBytes_eq, List.append_assoc, operandSize]
  unfold modifiersOf
  cases i.memOp? with
  | none => rfl
  | some m =>
    simp only [Option.elim_some, List.append_assoc]
    rw [readModifiers_addrSwap d _ _ rfl, readModifiers_seg _ _ rfl]
    rfl

/-! ## The opcode and its operands (R106) -/

section Opcode

variable {sz asz : OpSize} {seg : Option SegName} {reg : BitVec 3} {rm : RM} {m : MemOp} {bytes : List Byte}
  (rest : List Byte)

theorem decodeGroupFF_push (h : SpellsRM 6 asz seg rm bytes) :
    decodeOpcode sz asz seg (0xFF :: (bytes ++ rest)) = .ok (.pushRM sz rm, rest) := by
  obtain ⟨modrm, after, rfl, field, read⟩ := h
  rw [decodeOpcode_FF]
  simp only [decodeGroupFF, List.cons_append, readByte, field, read, bind, Except.bind]
  rfl

theorem decodeGroupFF_call (h : SpellsRM 2 asz seg rm bytes) :
    decodeOpcode sz asz seg (0xFF :: (bytes ++ rest)) = .ok (.callRM sz rm, rest) := by
  obtain ⟨modrm, after, rfl, field, read⟩ := h
  rw [decodeOpcode_FF]
  simp only [decodeGroupFF, List.cons_append, readByte, field, read, bind, Except.bind]
  rfl

theorem decodeGroupFF_callMem (h : SpellsRM 3 asz seg (.mem m) bytes) :
    decodeOpcode sz asz seg (0xFF :: (bytes ++ rest)) = .ok (.callMem sz m, rest) := by
  obtain ⟨modrm, after, rfl, field, read⟩ := h
  rw [decodeOpcode_FF]
  simp only [decodeGroupFF, List.cons_append, readByte, field, readMemOnly_mem (read rest), bind, Except.bind]
  rfl

theorem decodeGroup8F_pop (h : SpellsRM 0 asz seg rm bytes) :
    decodeOpcode sz asz seg (0x8F :: (bytes ++ rest)) = .ok (.popRM sz rm, rest) := by
  obtain ⟨modrm, after, rfl, field, read⟩ := h
  rw [decodeOpcode_8F]
  simp only [decodeGroup8F, List.cons_append, readByte, field, read, bind, Except.bind]
  rfl

theorem decodeBound_mem {r : Reg} (h : SpellsRM r.number asz seg (.mem m) bytes) :
    decodeOpcode sz asz seg (0x62 :: (bytes ++ rest)) = .ok (.bound sz r m, rest) := by
  obtain ⟨modrm, after, rfl, field, read⟩ := h
  rw [decodeOpcode_62]
  simp only [decodeBound, List.cons_append, readByte, field, readMemOnly_mem (read rest), ofNumber_number, bind,
    Except.bind]

theorem decodeOpcode_68 {v : Dword} (h : sz.fitsZero v = true) :
    decodeOpcode sz asz seg (0x68 :: (sizedBytes sz v ++ rest)) = .ok (.pushImm sz v, rest) := by
  show (readSized sz _ >>= fun p => .ok (Instr.pushImm sz p.1, p.2)) = _
  rw [readSized_sizedBytes h]
  rfl

theorem decodeOpcode_E8 {v : Dword} (h : sz.fitsSign v = true) :
    decodeOpcode sz asz seg (0xE8 :: (sizedBytes sz v ++ rest)) = .ok (.callRel sz v, rest) := by
  show (readSigned sz _ >>= fun p => .ok (Instr.callRel sz p.1, p.2)) = _
  rw [readSigned_sizedBytes h]
  rfl

theorem decodeOpcode_9A {off : Dword} (h : sz.fitsZero off = true) (sel : Word) :
    decodeOpcode sz asz seg (0x9A :: (sizedBytes sz off ++ wordBytes sel ++ rest)) =
      .ok (.callPtr sz sel off, rest) := by
  rw [List.append_assoc]
  show (readSized sz _ >>= fun p => readWord p.2 >>= fun q => .ok (Instr.callPtr sz q.1 p.1, q.2)) = _
  rw [readSized_sizedBytes h]
  show (readWord (wordBytes sel ++ rest) >>= fun q => .ok (Instr.callPtr sz q.1 off, q.2)) = _
  rw [readWord_wordBytes]
  rfl

theorem decodeOpcode_C2 (k : Word) :
    decodeOpcode sz asz seg (0xC2 :: (wordBytes k ++ rest)) = .ok (.retImm sz k, rest) := by
  show (readWord (wordBytes k ++ rest) >>= fun p => .ok (Instr.retImm sz p.1, p.2)) = _
  rw [readWord_wordBytes]
  rfl

theorem decodeOpcode_CA (k : Word) :
    decodeOpcode sz asz seg (0xCA :: (wordBytes k ++ rest)) = .ok (.retfImm sz k, rest) := by
  show (readWord (wordBytes k ++ rest) >>= fun p => .ok (Instr.retfImm sz p.1, p.2)) = _
  rw [readWord_wordBytes]
  rfl

theorem decodeOpcode_C8 (storage : Word) (level : Byte) :
    decodeOpcode sz asz seg (0xC8 :: (wordBytes storage ++ [level] ++ rest)) =
      .ok (.enter sz storage level, rest) := by
  rw [List.append_assoc]
  show (readWord (wordBytes storage ++ ([level] ++ rest)) >>= fun p => readByte p.2 >>= fun q => .ok (Instr.enter sz p.1 q.1, q.2)) = _
  rw [readWord_wordBytes]
  rfl

end Opcode

/-- The sizes and the override `decodeOpcode` is given are those the instruction was encoded for. -/
structure Fits (i : Instr) (sz asz : OpSize) (seg : Option SegName) : Prop where
  operand : ∀ z, i.opSize? = some z → sz = z
  address : ∀ m, i.memOp? = some m → asz = m.addr.addrSize ∧ seg = m.seg

theorem fits_modifiersOf (d : Bool) (i : Instr) : Fits i (attributeSize d (modifiersOf d i).opSwap)
    (attributeSize d (modifiersOf d i).addrSwap) (modifiersOf d i).seg := by
  refine ⟨fun z hz => ?_, fun m hm => ?_⟩
  · simp only [modifiersOf, hz, Option.elim_some, attributeSize_swapped]
  · simp only [modifiersOf, hm, Option.elim_some, attributeSize_swapped, Option.bind_some, and_self]

/-- No opcode is one of the bytes of R93. -/
theorem opcodeBytes_head (i : Instr) : ∃ b operand, opcodeBytes i = b :: operand ∧ b ∉ beforeOpcode := by
  cases i with
  | pushR _ r | popR _ r => cases r <;> exact ⟨_, _, rfl, by decide⟩
  | _ => exact ⟨_, _, rfl, by decide⟩

/-- The bytes of a well-formed instruction from the opcode on decode to it, row by row. -/
theorem decodeOpcode_opcodeBytes {i : Instr} (hwf : i.wf = true) {sz asz : OpSize} {seg : Option SegName}
    (h : Fits i sz asz seg) (rest : List Byte) :
    decodeOpcode sz asz seg (opcodeBytes i ++ rest) = .ok (i, rest) := by
  obtain ⟨operand, address⟩ := h
  cases i with
  | pushR z r | popR z r => cases operand z rfl; cases r <;> rfl
  | pushRM z rm =>
    cases operand z rfl
    exact decodeGroupFF_push rest (rmBytes_spells 6 hwf fun m hm => address m (by rw [hm]; rfl))
  | popRM z rm =>
    cases operand z rfl
    exact decodeGroup8F_pop rest (rmBytes_spells 0 hwf fun m hm => address m (by rw [hm]; rfl))
  | callRM z rm =>
    cases operand z rfl
    exact decodeGroupFF_call rest (rmBytes_spells 2 hwf fun m hm => address m (by rw [hm]; rfl))
  | callMem z m =>
    cases operand z rfl
    obtain ⟨rfl, rfl⟩ := address m rfl
    exact decodeGroupFF_callMem rest (addrBytes_spellsRM 3 hwf)
  | bound z r m =>
    cases operand z rfl
    obtain ⟨rfl, rfl⟩ := address m rfl
    exact decodeBound_mem rest (addrBytes_spellsRM r.number hwf)
  | pushImm z v => cases operand z rfl; exact decodeOpcode_68 rest hwf
  | callRel z rel => cases operand z rfl; exact decodeOpcode_E8 rest hwf
  | callPtr z sel off => cases operand z rfl; exact decodeOpcode_9A rest hwf sel
  | retImm z k => cases operand z rfl; exact decodeOpcode_C2 rest k
  | retfImm z k => cases operand z rfl; exact decodeOpcode_CA rest k
  | enter z storage level => cases operand z rfl; exact decodeOpcode_C8 rest storage level
  | pushImm8 z | pushEs z | pushCs z | pushSs z | pushDs z | pushFs z | pushGs z | popEs z | popSs z | popDs z
  | popFs z | popGs z | ret z | retf z | leave z => cases operand z rfl; rfl
  | pusha | popa | pushf | popf | iret => cases operand .w16 rfl; rfl
  | pushad | popad | pushfd | popfd | iretd => cases operand .w32 rfl; rfl
  | int3 | intImm | into | ud2 => rfl

/-- Settles O1: the modifier bytes are read for what they were written for (`readModifiers_modifierBytes`), then the
opcode and its operands (`decodeOpcode_opcodeBytes`). -/
theorem decodeEncode : Obligations.DecodeEncode := by
  intro d i rest hwf
  obtain ⟨b, operand, head, opcode⟩ := opcodeBytes_head i
  have modifiers : readModifiers ⟨false, false, none⟩ (encode d i ++ rest) =
      .ok (modifiersOf d i, opcodeBytes i ++ rest) := by
    rw [encode, List.append_assoc, readModifiers_modifierBytes, head]
    exact readModifiers_opcode opcode _ _
  simp only [decode, modifiers, decodeOpcode_opcodeBytes hwf (fits_modifiersOf d i), List.length_append,
    Nat.add_sub_cancel, bind, Except.bind]

end Sys2Proof.Proofs
end

section
/-! What the decoder answers (30_encoding R92): each reader answers a well-formed value and depends on the bytes it
consumed alone, and so does the decoder. -/

namespace Sys2Proof.Proofs

open Sys2Proof Sys2Proof.Machine Sys2Proof.Safety Sys2Proof.Laws

/-! ## Readers -/

/-- `read` answers values that meet `good`, and whatever follows the bytes it consumed answers the same. -/
def Reads {α : Type} (read : List Byte → Except DecodeStop (α × List Byte)) (good : α → Prop) : Prop :=
  ∀ bs a rest, read bs = .ok (a, rest) →
    good a ∧ ∃ used, bs = used ++ rest ∧ ∀ rest', read (used ++ rest') = .ok (a, rest')

section Reads

variable {α β : Type} {good : α → Prop} {good' : β → Prop}

theorem Reads.value {a : α} (h : good a) : Reads (fun bs => .ok (a, bs)) good := by
  intro bs x rest run
  cases run
  exact ⟨h, [], rfl, fun _ => rfl⟩

theorem Reads.stop (e : DecodeStop) : Reads (fun _ => .error e) good := fun _ _ _ run => nomatch run

/-- One reader after another. -/
theorem Reads.bind {read : List Byte → Except DecodeStop (α × List Byte)}
    {next : α → List Byte → Except DecodeStop (β × List Byte)} (h : Reads read good)
    (hn : ∀ a, good a → Reads (next a) good') : Reads (fun bs => read bs >>= fun p => next p.1 p.2) good' := by
  intro bs b rest run
  cases first : read bs with
  | error e => simp only [first, Bind.bind, Except.bind] at run; cases run
  | ok p =>
    obtain ⟨a, mid⟩ := p
    simp only [first, Bind.bind, Except.bind] at run
    obtain ⟨ha, used, rfl, again⟩ := h _ _ _ first
    obtain ⟨hb, used', rfl, again'⟩ := hn a ha _ _ _ run
    refine ⟨hb, used ++ used', (List.append_assoc ..).symm, fun rest' => ?_⟩
    simp only [List.append_assoc, again, Bind.bind, Except.bind]
    exact again' rest'

/-- A reader and a value made of what it read. -/
theorem Reads.map {read : List Byte → Except DecodeStop (α × List Byte)} {f : α → β} (h : Reads read good)
    (hf : ∀ a, good a → good' (f a)) : Reads (fun bs => read bs >>= fun p => .ok (f p.1, p.2)) good' :=
  h.bind fun a ha => Reads.value (hf a ha)

theorem Reads.ite {p : Prop} [Decidable p] {read read' : List Byte → Except DecodeStop (α × List Byte)}
    (h : p → Reads read good) (h' : ¬ p → Reads read' good) :
    Reads (fun bs => if p then read bs else read' bs) good := by
  by_cases hp : p
  · simpa only [if_pos hp] using h hp
  · simpa only [if_neg hp] using h' hp

end Reads

/-- A reader that answers as one known to read does. -/
theorem Reads.of_eq {α : Type} {good : α → Prop} {read read' : List Byte → Except DecodeStop (α × List Byte)}
    (h : Reads read' good) (heq : ∀ bs, read bs = read' bs) : Reads read good := by
  rwa [funext heq]

/-- A reader that needs a first byte, told byte by byte. -/
theorem Reads.cons {α : Type} {good : α → Prop} {read : List Byte → Except DecodeStop (α × List Byte)}
    {e : DecodeStop} (nil : read [] = .error e) (h : ∀ b, Reads (fun t => read (b :: t)) good) : Reads read good := by
  intro bs a rest run
  cases bs with
  | nil => rw [nil] at run; cases run
  | cons b t =>
    obtain ⟨ha, used, rfl, again⟩ := h b t a rest run
    exact ⟨ha, b :: used, rfl, again⟩

/-! ## Immediates (R102 to R104) -/

theorem readByte_reads : Reads readByte fun _ => True := by
  intro bs b rest run
  cases bs with
  | nil => cases run
  | cons b bs => cases run; exact ⟨trivial, [b], rfl, fun _ => rfl⟩

theorem readWord_reads : Reads readWord fun _ => True := by
  intro bs v rest run
  match bs, run with
  | b0 :: b1 :: t, rfl => exact ⟨trivial, [b0, b1], rfl, fun _ => rfl⟩

theorem readDword_reads : Reads readDword fun _ => True := by
  intro bs v rest run
  match bs, run with
  | b0 :: b1 :: b2 :: b3 :: t, rfl => exact ⟨trivial, [b0, b1, b2, b3], rfl, fun _ => rfl⟩

/-- A word held zero-extended fits (R102). -/
theorem fitsZero_zeroExtend (v : Word) : OpSize.fitsZero .w16 (v.setWidth 32) = true := by
  have low : (v.setWidth 32).setWidth 16 = v := by
    rw [BitVec.setWidth_setWidth_of_le _ (by decide), BitVec.setWidth_eq]
  exact beq_iff_eq.2 (congrArg (BitVec.setWidth 32) low)

/-- A word held sign-extended fits (R103). -/
theorem fitsSign_signExtend (v : Word) : OpSize.fitsSign .w16 (v.signExtend 32) = true := by
  have low : (v.signExtend 32).setWidth 16 = v := by
    apply BitVec.eq_of_getLsbD_eq
    intro i hi
    simp only [BitVec.getLsbD_setWidth, BitVec.getLsbD_signExtend, hi, decide_true, Bool.true_and, if_true,
      show i < 32 by omega]
  exact beq_iff_eq.2 (congrArg (BitVec.signExtend 32) low)

theorem readSized_reads (sz : OpSize) : Reads (readSized sz) fun v => sz.fitsZero v = true := by
  cases sz with
  | w16 => exact readWord_reads.map (f := BitVec.setWidth 32) fun v _ => fitsZero_zeroExtend v
  | w32 => exact fun bs v rest run => ⟨rfl, (readDword_reads bs v rest run).2⟩

theorem readSigned_reads (sz : OpSize) : Reads (readSigned sz) fun v => sz.fitsSign v = true := by
  cases sz with
  | w16 => exact readWord_reads.map (f := BitVec.signExtend 32) fun v _ => fitsSign_signExtend v
  | w32 => exact fun bs v rest run => ⟨rfl, (readDword_reads bs v rest run).2⟩

/-! ## ModRM operands (R97 to R100) -/

theorem readDisp32_reads (mod : BitVec 2) : Reads (readDisp32 mod) fun _ => True := by
  unfold readDisp32
  match mod.toNat with
  | 0 => exact Reads.value trivial
  | 1 => exact readByte_reads.map (f := BitVec.signExtend 32) fun _ _ => trivial
  | _ + 2 => exact readDword_reads

theorem readDisp16_reads (mod : BitVec 2) : Reads (readDisp16 mod) fun _ => True := by
  unfold readDisp16
  match mod.toNat with
  | 0 => exact Reads.value trivial
  | 1 => exact readByte_reads.map (f := BitVec.signExtend 16) fun _ _ => trivial
  | _ + 2 => exact readWord_reads

/-- Only number 4 is ESP's (10_state R21). -/
theorem ofNumber_ne_esp : ∀ n : BitVec 3, n ≠ 4#3 → Reg.ofNumber n ≠ .esp := by decide

/-- The decoder never answers ESP as an index (R99). -/
theorem wf_sibIndex (base : Option Reg) (sib : Byte) (disp : Dword) :
    (MemAddr.a32 base (sibIndex sib) disp).wf = true := by
  unfold sibIndex
  by_cases h : sib.extractLsb' 3 3 = 4#3
  · rw [if_pos h]; rfl
  · rw [if_neg h]
    exact bne_iff_ne.2 (ofNumber_ne_esp _ h)

theorem readAddr32_reads (mod : BitVec 2) (rm : BitVec 3) : Reads (readAddr32 mod rm) fun a => a.wf = true := by
  have afterSib : ∀ sib : Byte, True → Reads (fun t =>
      if sib.extractLsb' 0 3 = 5#3 ∧ mod = 0#2 then
        readDword t >>= fun p => .ok (MemAddr.a32 none (sibIndex sib) p.1, p.2)
      else readDisp32 mod t >>= fun p =>
        .ok (MemAddr.a32 (some (Reg.ofNumber (sib.extractLsb' 0 3))) (sibIndex sib) p.1, p.2))
      fun a => a.wf = true := fun sib _ =>
    Reads.ite (fun _ => readDword_reads.map fun disp _ => wf_sibIndex none sib disp)
      fun _ => (readDisp32_reads mod).map fun disp _ => wf_sibIndex _ sib disp
  refine Reads.ite (fun _ => readByte_reads.bind afterSib) fun _ => Reads.ite (fun _ => ?_) fun _ => ?_
  · exact readDword_reads.map (f := MemAddr.a32 none none) fun _ _ => rfl
  · exact (readDisp32_reads mod).map (f := MemAddr.a32 _ none) fun _ _ => rfl

theorem readAddr16_reads (mod : BitVec 2) (rm : BitVec 3) : Reads (readAddr16 mod rm) fun a => a.wf = true :=
  Reads.ite (fun _ => readWord_reads.map (f := MemAddr.a16 .none) fun _ _ => rfl)
    fun _ => (readDisp16_reads mod).map (f := MemAddr.a16 _) fun _ _ => rfl

theorem readAddr_reads (asz : OpSize) (mod : BitVec 2) (rm : BitVec 3) :
    Reads (readAddr asz mod rm) fun a => a.wf = true := by
  cases asz with
  | w16 => exact readAddr16_reads mod rm
  | w32 => exact readAddr32_reads mod rm

theorem readRM_reads (asz : OpSize) (seg : Option SegName) (modrm : Byte) :
    Reads (readRM asz seg modrm) fun rm => rm.wf = true :=
  Reads.ite (fun _ => Reads.value rfl)
    fun _ => (readAddr_reads asz _ _).map (f := fun a => RM.mem ⟨seg, a⟩) fun _ ha => ha

theorem readMemOnly_reads (asz : OpSize) (seg : Option SegName) (modrm : Byte) :
    Reads (readMemOnly asz seg modrm) fun m => m.wf = true := by
  have next : ∀ rm : RM, rm.wf = true → Reads (fun t => match rm with
      | .reg _ => .error .undefinedForm
      | .mem m => .ok (m, t)) fun m : MemOp => m.wf = true := fun rm hrm => by
    cases rm with
    | reg r => exact Reads.stop _
    | mem m => exact Reads.value hrm
  exact (readRM_reads asz seg modrm).bind next

/-! ## The opcode map (R106) -/

/-- An instruction is well formed, as a property of the instructions a reader answers. -/
def WellFormed (i : Instr) : Prop := i.wf = true

section Opcode

variable (sz asz : OpSize) (seg : Option SegName)

/-- The reg field of FF: one of the rows, the reserved 7, or another out of scope. -/
theorem groupFF_fields : ∀ f : BitVec 3, f = 2#3 ∨ f = 3#3 ∨ f = 6#3 ∨ f = 7#3 ∨ f ∈ [0#3, 1#3, 4#3, 5#3] := by
  decide

theorem decodeGroupFF_reads : Reads (decodeGroupFF sz asz seg) WellFormed := by
  refine Reads.cons rfl fun modrm => ?_
  rcases groupFF_fields (modrm.extractLsb' 3 3) with h | h | h | h | h
  · refine ((readRM_reads asz seg modrm).map (f := Instr.callRM sz) fun _ hrm => hrm).of_eq fun t => ?_
    simp only [decodeGroupFF, readByte, h, bind, Except.bind]
    rfl
  · refine ((readMemOnly_reads asz seg modrm).map (f := Instr.callMem sz) fun _ hm => hm).of_eq fun t => ?_
    simp only [decodeGroupFF, readByte, h, bind, Except.bind]
    rfl
  · refine ((readRM_reads asz seg modrm).map (f := Instr.pushRM sz) fun _ hrm => hrm).of_eq fun t => ?_
    simp only [decodeGroupFF, readByte, h, bind, Except.bind]
    rfl
  · exact (Reads.stop _).of_eq fun _ => decodeGroupFF_7 h
  · exact (Reads.stop _).of_eq fun _ => decodeGroupFF_noRow h

theorem decodeGroup8F_reads : Reads (decodeGroup8F sz asz seg) WellFormed := by
  refine Reads.cons rfl fun modrm => ?_
  exact Reads.ite (fun _ => (readRM_reads asz seg modrm).map (f := Instr.popRM sz) fun _ hrm => hrm)
    fun _ => Reads.stop _

theorem decodeBound_reads : Reads (decodeBound sz asz seg) WellFormed :=
  Reads.cons rfl fun modrm => (readMemOnly_reads asz seg modrm).map (f := Instr.bound sz _) fun _ hm => hm

theorem decodeTwoByte_reads : Reads (decodeTwoByte sz) WellFormed := by
  refine Reads.cons rfl fun b => ?_
  by_cases h : b ∈ [0x0B, 0xA0, 0xA1, 0xA8, 0xA9]
  · simp only [List.mem_cons, List.not_mem_nil, or_false] at h
    rcases h with rfl | rfl | rfl | rfl | rfl <;> exact Reads.value (good := WellFormed) rfl
  · exact (Reads.stop _).of_eq fun _ => decodeTwoByte_noRow h

/-- The opcodes of R106 that are whole instructions. -/
def wholeOpcodes : List Byte :=
  [0x06, 0x07, 0x0E, 0x16, 0x17, 0x1E, 0x1F, 0x50, 0x51, 0x52, 0x53, 0x54, 0x55, 0x56, 0x57, 0x58, 0x59, 0x5A, 0x5B,
    0x5C, 0x5D, 0x5E, 0x5F, 0x60, 0x61, 0x9C, 0x9D, 0xC3, 0xC9, 0xCB, 0xCC, 0xCE, 0xCF]

theorem decodeOpcode_whole : ∀ b ∈ wholeOpcodes,
    ∃ i, (∀ t, decodeOpcode sz asz seg (b :: t) = .ok (i, t)) ∧ WellFormed i := by
  simp only [wholeOpcodes, List.forall_mem_cons, List.not_mem_nil, false_implies, implies_true, and_true]
  and_intros
  all_goals cases sz <;> exact ⟨_, fun _ => rfl, rfl⟩

/-- The other first bytes of R106 have operands. -/
theorem firstBytes_operands : ∀ b ∈ firstBytes, b ∉ wholeOpcodes →
    b ∈ [0x0F, 0x62, 0x68, 0x6A, 0x8F, 0x9A, 0xC2, 0xC8, 0xCA, 0xCD, 0xE8, 0xFF] := by decide

theorem decodeOpcode_operands_reads {b : Byte}
    (h : b ∈ [0x0F, 0x62, 0x68, 0x6A, 0x8F, 0x9A, 0xC2, 0xC8, 0xCA, 0xCD, 0xE8, 0xFF]) :
    Reads (fun t => decodeOpcode sz asz seg (b :: t)) WellFormed := by
  simp only [List.mem_cons, List.not_mem_nil, or_false] at h
  rcases h with rfl | rfl | rfl | rfl | rfl | rfl | rfl | rfl | rfl | rfl | rfl | rfl
  · exact decodeTwoByte_reads sz
  · exact decodeBound_reads sz asz seg
  · exact (readSized_reads sz).map (f := Instr.pushImm sz) fun _ hv => hv
  · exact readByte_reads.map (f := Instr.pushImm8 sz) fun _ _ => rfl
  · exact decodeGroup8F_reads sz asz seg
  · exact (readSized_reads sz).bind (next := fun off t => readWord t >>= fun p => .ok (Instr.callPtr sz p.1 off, p.2))
      fun off hoff => readWord_reads.map (f := (Instr.callPtr sz · off)) fun _ _ => hoff
  · exact readWord_reads.map (f := Instr.retImm sz) fun _ _ => rfl
  · exact readWord_reads.bind (next := fun storage t => readByte t >>= fun p => .ok (Instr.enter sz storage p.1, p.2))
      fun storage _ => readByte_reads.map (f := Instr.enter sz storage) fun _ _ => rfl
  · exact readWord_reads.map (f := Instr.retfImm sz) fun _ _ => rfl
  · exact readByte_reads.map (f := Instr.intImm) fun _ _ => rfl
  · exact (readSigned_reads sz).map (f := Instr.callRel sz) fun _ hv => hv
  · exact decodeGroupFF_reads sz asz seg

/-- After any opcode byte the decoder reads the operands of its row, or stops. -/
theorem decodeOpcode_reads (b : Byte) : Reads (fun t => decodeOpcode sz asz seg (b :: t)) WellFormed := by
  by_cases hrow : b ∈ firstBytes
  · by_cases hwhole : b ∈ wholeOpcodes
    · obtain ⟨i, whole, hi⟩ := decodeOpcode_whole sz asz seg b hwhole
      exact (Reads.value hi).of_eq whole
    · exact decodeOpcode_operands_reads sz asz seg (firstBytes_operands b hrow hwhole)
  · exact (Reads.stop _).of_eq fun _ => decodeOpcode_noRow hrow

end Opcode

/-! ## The decoder (R92) -/

/-- The decoder from where the modifiers read so far are `m`. -/
def decodeFrom (d : Bool) (m : Modifiers) (bs : List Byte) : Except DecodeStop (Instr × List Byte) :=
  readModifiers m bs >>= fun p =>
    decodeOpcode (attributeSize d p.1.opSwap) (attributeSize d p.1.addrSwap) p.1.seg p.2

theorem decode_eq (d : Bool) (bs : List Byte) :
    decode d bs = decodeFrom d ⟨false, false, none⟩ bs >>= fun p => .ok (p.1, bs.length - p.2.length) := by
  unfold decode decodeFrom
  cases readModifiers ⟨false, false, none⟩ bs <;> rfl

/-- The bytes before the opcode: overrides, and those the decoder refuses. -/
theorem beforeOpcode_split : ∀ b ∈ beforeOpcode, b ∉ overrideBytes → b ∈ [0xF0, 0xF2, 0xF3] := by decide

/-- Byte by byte: an override changes what is read so far, LOCK, REPNE and REP stop, any other byte is the opcode. -/
theorem decodeFrom_reads (d : Bool) (m : Modifiers) : Reads (decodeFrom d m) WellFormed := by
  intro bs
  induction bs generalizing m with
  | nil => exact fun _ _ run => nomatch run
  | cons b t ih =>
    intro i rest run
    by_cases hbefore : b ∈ beforeOpcode
    · by_cases hoverride : b ∈ overrideBytes
      · obtain ⟨m', read⟩ := readModifiers_override hoverride m
        have step : ∀ t, decodeFrom d m (b :: t) = decodeFrom d m' t := fun t => by rw [decodeFrom, read, decodeFrom]
        rw [step] at run
        obtain ⟨hi, used, rfl, again⟩ := ih m' i rest run
        exact ⟨hi, b :: used, rfl, fun rest' => (step _).trans (again rest')⟩
      · rw [decodeFrom, readModifiers_lockOrRep (beforeOpcode_split b hbefore hoverride)] at run
        cases run
    · have opcode : ∀ t, decodeFrom d m (b :: t) =
          decodeOpcode (attributeSize d m.opSwap) (attributeSize d m.addrSwap) m.seg (b :: t) := fun t => by
        rw [decodeFrom, readModifiers_opcode hbefore]
        rfl
      rw [opcode] at run
      obtain ⟨hi, used, rfl, again⟩ := decodeOpcode_reads _ _ _ b t i rest run
      exact ⟨hi, b :: used, rfl, fun rest' => (opcode _).trans (again rest')⟩

/-- No instruction takes no byte. -/
theorem decodeFrom_nil (d : Bool) (m : Modifiers) : decodeFrom d m [] = .error .truncated := rfl

/-- Settles O2: the decoder is a reader of well-formed instructions (`decodeFrom_reads`), and the length it answers is
that of the bytes it consumed. -/
theorem decodeSound : Obligations.DecodeSound := by
  intro d bs i n run
  rw [decode_eq] at run
  cases read : decodeFrom d ⟨false, false, none⟩ bs with
  | error e => rw [read] at run; cases run
  | ok p =>
    obtain ⟨j, rest⟩ := p
    rw [read] at run
    cases run
    obtain ⟨hi, used, rfl, again⟩ := decodeFrom_reads d _ bs _ rest read
    have length : ∀ rest : List Byte, (used ++ rest).length - rest.length = used.length := fun rest => by
      rw [List.length_append, Nat.add_sub_cancel]
    have nonempty : used ≠ [] := fun empty => by
      have none := again []
      rw [empty, List.append_nil, decodeFrom_nil] at none
      cases none
    rw [length]
    refine ⟨hi, List.length_pos_iff.2 nonempty, List.length_append ▸ Nat.le_add_right _ _, fun rest' => ?_⟩
    rw [List.take_left, decode_eq, again]
    simp only [bind, Except.bind, length]

end Sys2Proof.Proofs
end

section
/-! The step at a boundary that fetches (30_encoding R90 to R92, 20_memory R84, 70_reset R318): it runs what the bytes
at CS:EIP spell, and is refused where it needs a byte the run has stored. -/

namespace Sys2Proof.Proofs

open Sys2Proof Sys2Proof.Machine Sys2Proof.Safety Sys2Proof.Laws

/-! ## The instruction at CS:EIP -/

/-- Settles O3: the decoder evaluated on each of the twelve words. -/
theorem decodeWords : Obligations.DecodeWords := by
  unfold Obligations.DecodeWords
  exact ⟨rfl, rfl, rfl, rfl, rfl, rfl, rfl, rfl, rfl, rfl, rfl, rfl⟩

/-- Settles O5: a boundary that takes no event goes on to fetch and decode (`step_decoded`). -/
theorem stepRunsDecoded : Obligations.StepRunsDecoded := fun _ _ _ _ h hd => step_decoded h hd

/-- Settles O9: with the shadow of POP SS the boundary asks nothing, so that only the shadow is gone. -/
theorem popSsShadow : Obligations.PopSsShadow := by
  intro s i len running shadow hd
  have h : AtFetch s { s with intShadow := false } := ⟨running, by rw [if_pos shadow]⟩
  have run := step_decoded h hd
  exact run

/-- Bytes that can be fetched one after the other stand at the front of the bytes fetched. -/
theorem fetchBytes_prefix {s : State} {bs : List Byte} {n k : Nat} (hlen : bs.length ≤ n)
    (hbytes : ∀ j b, bs[j]? = some b → fetchByte s (k + j) = .ok b) :
    ∃ rest, (fetchBytes s n k).1 = bs ++ rest := by
  induction bs generalizing n k with
  | nil => exact ⟨_, rfl⟩
  | cons b bs ih =>
    obtain ⟨n, rfl⟩ := Nat.exists_eq_succ_of_ne_zero (Nat.ne_of_gt (Nat.zero_lt_of_lt hlen))
    have first : fetchByte s k = .ok b := hbytes 0 b rfl
    obtain ⟨rest, tail⟩ := ih (k := k + 1) (Nat.le_of_succ_le_succ hlen) fun j c hj => by
      rw [Nat.add_right_comm]
      exact hbytes (j + 1) c hj
    exact ⟨rest, by simp only [fetchBytes, first, tail, List.cons_append]⟩

/-- The bytes from the opcode on are at most 8: two of opcode and ModRM, a SIB byte, and an operand. -/
theorem opcodeBytes_length_le (i : Instr) : (opcodeBytes i).length ≤ 8 := by
  cases i with
  | pushRM _ rm | popRM _ rm | callRM _ rm =>
    obtain ⟨-, atMost⟩ := rmBytes_length _ rm
    exact Nat.succ_le_succ (Nat.le_succ_of_le atMost)
  | callMem _ m | bound _ _ m =>
    obtain ⟨-, atMost⟩ := addrBytes_length _ m.addr
    exact Nat.succ_le_succ (Nat.le_succ_of_le atMost)
  | pushImm sz v | callRel sz v =>
    exact Nat.succ_le_succ (Nat.le_trans (sizedBytes_length sz v) (by decide))
  | callPtr sz sel off =>
    have atMost := sizedBytes_length sz off
    simp only [opcodeBytes, wordBytes, List.length_cons, List.length_append, List.length_nil]
    omega
  | _ => simp [opcodeBytes, wordBytes]

/-- An instruction takes no more than 15 bytes (R90). -/
theorem encode_length_le (d : Bool) (i : Instr) : (encode d i).length ≤ Config.maxInstrLength := by
  obtain ⟨b, operand, head, -⟩ := opcodeBytes_head i
  have nonempty : 1 ≤ (opcodeBytes i).length := head ▸ Nat.le_add_left 1 operand.length
  obtain ⟨-, atMost⟩ := encode_length nonempty (opcodeBytes_length_le i) d
  exact atMost

/-- Settles O6: the fetch window begins with the encoding (`fetchBytes_prefix`), which decodes whatever follows. -/
theorem stepRunsEncoded : Obligations.StepRunsEncoded := by
  intro s u i h hwf hbytes
  obtain ⟨rest, window⟩ := fetchBytes_prefix (k := 0) (encode_length_le (codeD u) i) fun j b hj => by
    rw [Nat.zero_add]
    exact hbytes j b hj
  exact step_decoded h ((congrArg (decode (codeD u)) window).trans (decodeEncode (codeD u) i rest hwf))

/-! ## Bytes the run has stored (20_memory R84) -/

theorem fetchByte_stored {s : State} {k : Nat} {lin : Dword} (h : fetchSlot s k = .ok lin)
    (hw : lin.toNat ∈ s.written) : fetchByte s k = .error (.refuse .selfModifyingCode) := by
  simp only [fetchByte, h, bind, Except.bind, List.contains_iff_mem.2 hw, if_true]

theorem mem_markWritten {x : Nat} {n : Nat} {w : List Nat} {a : Dword} :
    x ∈ markWritten w a n ↔ x ∈ w ∨ ∃ k < n, x = (a + BitVec.ofNat 32 k).toNat := by
  induction n generalizing w a with
  | zero => simp [markWritten]
  | succ n ih =>
    have next : ∀ k, a + 1 + BitVec.ofNat 32 k = a + BitVec.ofNat 32 (k + 1) := fun k => by
      rw [BitVec.add_assoc, BitVec.ofNat_add, BitVec.add_comm (BitVec.ofNat 32 k)]
      rfl
    rw [markWritten, ih, mem_insertAddr]
    constructor
    · rintro ((rfl | old) | ⟨k, hk, rfl⟩)
      · exact .inr ⟨0, Nat.succ_pos n, by rw [BitVec.add_zero]⟩
      · exact .inl old
      · exact .inr ⟨k + 1, Nat.succ_lt_succ hk, by rw [next]⟩
    · rintro (old | ⟨k, hk, rfl⟩)
      · exact .inl (.inr old)
      · cases k with
        | zero => exact .inl (.inl (by rw [BitVec.add_zero]))
        | succ k => exact .inr ⟨k, Nat.lt_of_succ_lt_succ hk, by rw [next]⟩

/-- Settles O10: the byte the decoder still needs stops the fetch window (`fetchBytes_stops`); what a store records is
`mem_markWritten`. -/
theorem selfModifyingCodeRefused : Obligations.SelfModifyingCodeRefused := by
  refine ⟨fun s u bs lin h hlen hbytes hd hslot hw => ?_, fun s lin v n => ⟨fun a ha => ?_, fun k hk => ?_⟩⟩
  · have window : fetchWindow u = (bs, some (.refuse .selfModifyingCode)) := by
      refine fetchBytes_stops hlen (fun j b hj => ?_) ?_ <;> rw [Nat.zero_add]
      · exact hbytes j b hj
      · exact fetchByte_stored hslot hw
    rw [step_stops h (congrArg Prod.fst window) hd, window]
    exact raise_refuse u _
  · exact mem_markWritten.2 (.inl ha)
  · exact mem_markWritten.2 (.inr ⟨k, hk, rfl⟩)

end Sys2Proof.Proofs
end

section
/-! Memory and translation at their edges (20_memory R66, R67, R75, R77), and the invariant after reset (10_state R48). -/

namespace Sys2Proof.Proofs

open Sys2Proof Sys2Proof.Machine Sys2Proof.Safety Sys2Proof.Laws

/-- Settles O13: the reset state is in real-address mode at level 0, its memory empty. -/
theorem resetInv : Obligations.ResetInv :=
  (inv_iff State.reset).2 ⟨rfl, .nil, rfl, .real _ _⟩

/-! ## Little-endian memory (R66) -/

/-- Bytes that are those of `v` in order load as its low bits. -/
theorem loadLE_of_bytes {mem : Memory} {n : Nat} {a v : Dword}
    (h : ∀ k < n, mem.read (a + BitVec.ofNat 32 k).toNat = (v >>> (8 * k)).setWidth 8) :
    mem.loadLE a n = (v.setWidth (8 * n)).setWidth 32 := by
  induction n generalizing a v with
  | zero =>
    apply BitVec.eq_of_getLsbD_eq
    intro i hi
    simp [Memory.loadLE]
  | succ n ih =>
    have low : mem.read a.toNat = v.setWidth 8 := by simpa using h 0 (Nat.succ_pos n)
    have high : mem.loadLE (a + 1) n = ((v >>> 8).setWidth (8 * n)).setWidth 32 := ih fun k hk => by
      have byte := h (k + 1) (Nat.succ_lt_succ hk)
      rwa [BitVec.ofNat_add, BitVec.add_comm (BitVec.ofNat 32 k), ← BitVec.add_assoc, Nat.mul_succ, Nat.add_comm,
        BitVec.shiftRight_add] at byte
    rw [Memory.loadLE, low, high]
    apply BitVec.eq_of_getLsbD_eq
    intro i hi
    by_cases hbyte : i < 8
    · simp [hbyte, hi, show i < 8 * (n + 1) by omega]
    · simp [hbyte, hi, show i - 8 < 32 by omega, show 8 + (i - 8) = i by omega,
        show i - 8 < 8 * n ↔ i < 8 * (n + 1) by omega]

/-- Settles O14: byte by byte (`read_storeLE_byte`), and a load of some of the bytes from those (`loadLE_of_bytes`). -/
theorem littleEndian : Obligations.LittleEndian := by
  intro s lin v n hn
  have bytes : ∀ k < n, (storeAt s lin n v).mem.read (lin + BitVec.ofNat 32 k).toNat = (v >>> (8 * k)).setWidth 8 :=
    fun k hk => read_storeLE_byte n (by omega) s.mem lin v k hk
  refine ⟨fun k hk => ?_, fun m hm => loadLE_of_bytes fun k hk => bytes k (Nat.lt_of_lt_of_le hk hm),
    fun a ha => read_storeLE_outside n s.mem lin v a ha⟩
  rw [bytes k hk]
  apply BitVec.eq_of_getLsbD_eq
  intro i hi
  simp [hi]

/-! ## The top of the offset space (R77) -/

theorem translate_pastTop {s : State} {isSS : Bool} {r : SegReg} {narrow : Bool} {off : Dword} {len : Nat}
    {k : AccessKind} (h : 2 ^ 32 < off.toNat + len ∨ (narrow = true ∧ 2 ^ 16 < off.toNat + len)) :
    translate s isSS r narrow off len k = .error (.refuse .offsetSpaceTop) := by
  have past : pastTop narrow off len = true := by
    rw [← Bool.not_eq_false, pastTop_false]
    rintro ⟨below, belowNarrow⟩
    rcases h with wide | ⟨hn, low⟩
    · exact absurd below (Nat.not_le.2 wide)
    · exact absurd (belowNarrow hn) (Nat.not_le.2 low)
  rw [translate_eq, if_pos past]

/-- Through a flat segment, with nothing supplied, every access below the top is at its offset (R75). -/
theorem translate_flat {s : State} {isSS : Bool} {r : SegReg} {narrow : Bool} {off : Dword} {len : Nat}
    {k : AccessKind} (top : off.toNat + len ≤ 2 ^ 32) (narrowTop : narrow = true → off.toNat + len ≤ 2 ^ 16)
    (flat : Flat r) (noTraps : s.segTraps = []) (noVerdicts : s.params.segVerdict = []) :
    translate s isSS r narrow off len k = .ok off := by
  obtain ⟨d, hd, hbase, hlimit, hpresent, hwritable⟩ := flat
  have inside : off.toNat + len - 1 ≤ d.limit.toNat := by
    rw [hlimit]
    exact Nat.sub_le_of_le_add top
  have base : segBase r + off = off := by
    simp only [segBase, hd, hbase]
    exact BitVec.zero_add off
  rw [translate_belowTop top narrowTop, segVerdict_untrapped (by rw [noVerdicts]; rfl)
    (checkSegment_passes hd hpresent (fun _ => hwritable) inside) (by rw [noTraps]; rfl), base]

/-- Settles O15: past the top nothing else is asked; below it a flat segment passes every check. -/
theorem offsetSpaceTop : Obligations.OffsetSpaceTop :=
  fun _ _ _ _ _ _ _ => ⟨translate_pastTop, translate_flat⟩

/-- The slot of a push at any pointer of a flat 32-bit stack that leaves its doubleword below the top (R67). -/
theorem pushSlot_flat {s : State} (flat : Flat s.ss) (wide : wideStack s = true) (noTraps : s.segTraps = [])
    (noVerdicts : s.params.segVerdict = []) (hesp : s.regs.esp = 0 ∨ 4 ≤ s.regs.esp.toNat) :
    stackSlot s (pushOffset 4 0 s) 4 .stackWrite = .ok (s.regs.esp - 4) := by
  have offset : pushOffset 4 0 s = s.regs.esp - 4 := by
    simp only [pushOffset, wrapStack, wide, stackPtr_wide wide, if_true]
    rfl
  have top : (s.regs.esp - 4).toNat + 4 ≤ 2 ^ 32 := by bv_omega
  rw [offset]
  exact translate_flat top (fun narrow => by rw [wide] at narrow; cases narrow) flat noTraps noVerdicts

/-- Settles O17: the slot is at the offset (`pushSlot_flat`), so the push stores its value there (`pushValue`). -/
theorem misalignedPush : Obligations.MisalignedPush := by
  intro s r flat wide noTraps noVerdicts hesp
  obtain ⟨-, pushes⟩ := pushValue
  obtain ⟨stores, -⟩ := pushes (.pushR .w32 r) .w32 (s.regs.get r) s rfl
  obtain ⟨t, run, stored, keeps⟩ := stores _ (pushSlot_flat flat wide noTraps noVerdicts hesp)
  refine ⟨t, run, stored, ?_⟩
  rw [movedRegs, movedEsp_wide wide, ← BitVec.sub_eq_add_neg] at keeps
  exact keeps

end Sys2Proof.Proofs
end

section
/-! PUSH and POP with an explicit operand (40_stack R131, R136), POP of a segment register (R137) and of the flags (R142,
R143), and POPA after PUSHA (R138, R139). -/

namespace Sys2Proof.Proofs

open Sys2Proof Sys2Proof.Machine Sys2Proof.Safety Sys2Proof.Laws

/-! ## PUSH r/m (R131) -/

theorem exec_pushRM (sz : OpSize) (rm : RM) (s : State) :
    exec (.pushRM sz rm) s = complete s (readRMOp sz rm s >>= fun v => pushItem sz v s) := rfl

/-- Settles O20: the operand is read, then pushed as any value is (`pushItem_stores`); either trouble comes before
anything is stored. -/
theorem pushOperand : Obligations.PushOperand := by
  intro sz rm s
  rw [exec_pushRM]
  refine ⟨fun v lin value hslot => ?_, fun m e hrm hslot => ?_, fun v e value hslot => ?_⟩
  · obtain ⟨t, pushed, stores, keeps⟩ := pushItem_stores (v := v) rfl hslot
    exact ⟨t, by rw [readRMOp_ok value]; exact congrArg (complete s) pushed, stores, keeps⟩
  · rw [hrm, readRMOp, readMemOp_raises hslot]
    exact complete_exc s e
  · rw [readRMOp_ok value]
    exact (congrArg (complete s) (pushItem_raises hslot)).trans (complete_exc s e)

/-! ## POP r/m (R136) -/

theorem exec_popRM (sz : OpSize) (rm : RM) (s : State) : exec (.popRM sz rm) s =
    complete s (pop (itemBytes sz) s >>= fun p => writeRMOp sz rm p.1 p.2 >>= fun t => .ok (advance t)) := rfl

theorem writeRMOp_mem {sz : OpSize} {m : MemOp} {v dst : Dword} {s : State}
    (h : operandSlot s m 0 (itemBytes sz) .dataWrite = .ok dst) :
    writeRMOp sz (.mem m) v s = .ok (storeAt s dst (itemBytes sz) v) := by
  simp only [writeRMOp, h, attempt, bind, Except.bind]

theorem writeRMOp_raises {sz : OpSize} {m : MemOp} {v : Dword} {s : State} {x : Trouble}
    (h : operandSlot s m 0 (itemBytes sz) .dataWrite = .error x) : writeRMOp sz (.mem m) v s = .error ⟨x, s⟩ := by
  simp only [writeRMOp, h, attempt, bind, Except.bind]

/-- A rule that raised with registers changed alone delivers its exception from the state before it. -/
theorem complete_regs (s : State) (g : Regs) (e : Exc) :
    complete s (.error ⟨.exc e, { s with regs := g }⟩) = deliver e.event s := complete_exc s e

/-- Settles O22: one pop, then the operand's write over the moved pointer; a destination that raises does so before
anything is stored. -/
theorem popOperand : Obligations.PopOperand := by
  intro sz s src hsrc
  refine ⟨fun m dst hdst => ?_, fun m e hdst => ?_, fun r => ?_⟩
  · have run : exec (.popRM sz (.mem m)) s = .next (advance (storeAt
        { s with regs := movedRegs (BitVec.ofNat 32 (itemBytes sz)) s } dst (itemBytes sz)
        (s.mem.loadLE src (itemBytes sz)))) := by
      rw [exec_popRM, pop_ok hsrc]
      simp only [bind, Except.bind, writeRMOp_mem hdst]
      rfl
    exact ⟨_, run, storesAt_of_store rfl rfl rfl, rfl⟩
  · rw [exec_popRM, pop_ok hsrc]
    simp only [bind, Except.bind, writeRMOp_raises hdst, complete_regs]
  · rw [exec_popRM, pop_ok hsrc]
    rfl

/-! ## What DS, ES, FS, GS and SS are loaded with (R137, log 8) -/

section DataSegment

variable {s : State} {sel : Word} (hsel : isNull sel = false)
include hsel

theorem dataSegment_lookupFails {x : Trouble} (h : gdtLookup s sel = .error x) : dataSegment s sel = .error x := by
  simp only [dataSegment, hsel, Bool.false_eq_true, if_false, h, bind, Except.bind]

/-- A code or data segment is loaded where it is more privileged than neither CPL nor the selector's RPL. -/
theorem dataSegment_segment {d : SegDesc} (h : gdtLookup s sel = .ok (.data d) ∨ gdtLookup s sel = .ok (.code d)) :
    dataSegment s sel =
      if s.cpl ≤ d.dpl ∧ rpl sel ≤ d.dpl then .ok (some d) else .error (.exc (.gp (selCode sel))) := by
  rcases h with h | h <;> simp only [dataSegment, hsel, Bool.false_eq_true, if_false, h, bind, Except.bind]

theorem dataSegment_system {g : CallGate} {a : AccessRights} (h : gdtLookup s sel = .ok (.callGate g) ∨
    gdtLookup s sel = .ok (.taskGate a) ∨ gdtLookup s sel = .ok (.tss a)) :
    dataSegment s sel = .error (.exc (.gp (selCode sel))) := by
  rcases h with h | h | h <;> simp only [dataSegment, hsel, Bool.false_eq_true, if_false, h, bind, Except.bind]

end DataSegment

theorem dataSegment_null {s : State} {sel : Word} (h : isNull sel = true) : dataSegment s sel = .ok none := by
  rw [dataSegment, if_pos h]

theorem loadDataSeg_loaded {s : State} {r r' : SegReg} {sel : Word} (h : SegLoaded s r sel r') :
    loadDataSeg s r sel = .ok r' := by
  unfold SegLoaded at h
  unfold loadDataSeg
  cases hm : s.mode with
  | realMode => rw [hm] at h; rw [h]
  | protectedMode =>
    rw [hm] at h
    rcases h with ⟨hnull, rfl⟩ | ⟨hsel, d, hd, hcpl, hrpl, rfl⟩
    · simp only [dataSegment_null hnull, bind, Except.bind]
    · simp only [dataSegment_segment hsel hd, if_pos (And.intro hcpl hrpl), bind, Except.bind]

theorem loadDataSeg_raises {s : State} {r : SegReg} {sel : Word} {x : Trouble} (hm : s.mode = .protectedMode)
    (h : dataSegment s sel = .error x) : loadDataSeg s r sel = .error x := by
  simp only [loadDataSeg, hm, h, bind, Except.bind]

theorem stackSegment_fit {s : State} {bad : Dword → Exc} {level : BitVec 2} {sel : Word} {d : SegDesc}
    (h : descriptorOf s sel = some (.data d)) (hw : d.writable = true) (hl : d.dpl = level) (hr : rpl sel = level)
    (hp : d.present = true) : stackSegment s bad level sel = .ok d := by
  simp only [stackSegment, h, hw, hl, hr, hp, beq_self_eq_true, Bool.and_self, if_true]

theorem loadStackSeg_loaded {s : State} {sel : Word} {r : SegReg} (h : StackSegLoaded s sel r) :
    loadStackSeg s sel = .ok r := by
  unfold StackSegLoaded at h
  unfold loadStackSeg
  cases hm : s.mode with
  | realMode => rw [hm] at h; rw [h]
  | protectedMode =>
    rw [hm] at h
    obtain ⟨d, hd, hw, hl, hr, hp, rfl⟩ := h
    simp only [stackSegment_fit hd hw hl hr hp, bind, Except.bind]

theorem loadStackSeg_raises {s : State} {sel : Word} {x : Trouble} (hm : s.mode = .protectedMode)
    (h : stackSegment s .gp s.cpl sel = .error x) : loadStackSeg s sel = .error x := by
  simp only [loadStackSeg, hm, h, bind, Except.bind]

/-! ## POP of a segment register (R137) -/

section PopSegment

variable {sz : OpSize} {s : State}

theorem popDataSeg_eq (sz : OpSize) (r : SegReg) (s : State) : popDataSeg sz r s = pop (itemBytes sz) s >>= fun p =>
    attempt p.2 (loadDataSeg p.2 r (p.1.setWidth 16)) >>= fun r' => .ok (r', advance p.2) := rfl

theorem popDataSeg_readRaises {r : SegReg} {x : Trouble}
    (h : stackSlot s (stackPtr s) (itemBytes sz) .stackRead = .error x) : popDataSeg sz r s = .error ⟨x, s⟩ := by
  rw [popDataSeg_eq, pop_raises h]
  rfl

theorem exec_popSs (sz : OpSize) (s : State) : exec (.popSs sz) s = complete s (pop (itemBytes sz) s >>= fun p =>
    attempt p.2 (loadStackSeg p.2 (p.1.setWidth 16)) >>= fun r =>
      .ok (advance { p.2 with ss := r, intShadow := true })) := rfl

/-- The four POPs of a data segment register differ in the register alone. -/
theorem exec_popData {i : Instr} (h : i ∈ [.popEs sz, .popDs sz, .popFs sz, .popGs sz]) (s : State) :
    ∃ (r : SegReg) (f : SegReg × State → State), exec i s = complete s (popDataSeg sz r s >>= fun p => .ok (f p)) := by
  simp only [List.mem_cons, List.not_mem_nil, or_false] at h
  rcases h with rfl | rfl | rfl | rfl
  · exact ⟨s.es, fun p => { p.2 with es := p.1 }, rfl⟩
  · exact ⟨s.ds, fun p => { p.2 with ds := p.1 }, rfl⟩
  · exact ⟨s.fs, fun p => { p.2 with fs := p.1 }, rfl⟩
  · exact ⟨s.gs, fun p => { p.2 with gs := p.1 }, rfl⟩

variable {lin : Dword} (hslot : stackSlot s (stackPtr s) (itemBytes sz) .stackRead = .ok lin)
include hslot

theorem popDataSeg_ok {r r' : SegReg}
    (h : loadDataSeg s r ((s.mem.loadLE lin (itemBytes sz)).setWidth 16) = .ok r') :
    popDataSeg sz r s =
      .ok (r', { s with regs := movedRegs (BitVec.ofNat 32 (itemBytes sz)) s, eip := s.pcNext }) := by
  have load : loadDataSeg { s with regs := movedRegs (BitVec.ofNat 32 (itemBytes sz)) s } r
    ((s.mem.loadLE lin (itemBytes sz)).setWidth 16) = .ok r' := h
  rw [popDataSeg_eq, pop_ok hslot]
  simp only [bind, Except.bind, load, attempt]
  rfl

theorem popDataSeg_loadRaises {r : SegReg} {x : Trouble}
    (h : loadDataSeg s r ((s.mem.loadLE lin (itemBytes sz)).setWidth 16) = .error x) :
    popDataSeg sz r s = .error ⟨x, { s with regs := movedRegs (BitVec.ofNat 32 (itemBytes sz)) s }⟩ := by
  have load : loadDataSeg { s with regs := movedRegs (BitVec.ofNat 32 (itemBytes sz)) s } r
    ((s.mem.loadLE lin (itemBytes sz)).setWidth 16) = .error x := h
  rw [popDataSeg_eq, pop_ok hslot]
  simp only [bind, Except.bind, load, attempt]

/-- A data segment that is not had raises, with no more than the pointer moved. -/
theorem exec_popData_raises {i : Instr} (hi : i ∈ [.popEs sz, .popDs sz, .popFs sz, .popGs sz])
    (hm : s.mode = .protectedMode) {e : Exc}
    (h : dataSegment s ((s.mem.loadLE lin (itemBytes sz)).setWidth 16) = .error (.exc e)) :
    exec i s = deliver e.event s := by
  obtain ⟨r, f, run⟩ := exec_popData hi s
  rw [run, popDataSeg_loadRaises hslot (loadDataSeg_raises hm h)]
  exact complete_regs s _ e

theorem exec_popSs_ok {r : SegReg} (h : loadStackSeg s ((s.mem.loadLE lin (itemBytes sz)).setWidth 16) = .ok r) :
    exec (.popSs sz) s = .next { s with
      regs := movedRegs (BitVec.ofNat 32 (itemBytes sz)) s, eip := s.pcNext, ss := r, intShadow := true } := by
  have load : loadStackSeg { s with regs := movedRegs (BitVec.ofNat 32 (itemBytes sz)) s }
    ((s.mem.loadLE lin (itemBytes sz)).setWidth 16) = .ok r := h
  rw [exec_popSs, pop_ok hslot]
  simp only [bind, Except.bind, load, attempt]
  rfl

theorem exec_popSs_raises {e : Exc}
    (h : loadStackSeg s ((s.mem.loadLE lin (itemBytes sz)).setWidth 16) = .error (.exc e)) :
    exec (.popSs sz) s = deliver e.event s := by
  have load : loadStackSeg { s with regs := movedRegs (BitVec.ofNat 32 (itemBytes sz)) s }
    ((s.mem.loadLE lin (itemBytes sz)).setWidth 16) = .error (.exc e) := h
  rw [exec_popSs, pop_ok hslot]
  simp only [bind, Except.bind, load, attempt]
  exact complete_regs s _ e

end PopSegment

/-- Settles O23: one pop, then the register loaded (`popDataSeg_ok`). -/
theorem popDataSegment : Obligations.PopDataSegment := by
  rintro sz s lin sel r hslot rfl
  have run := fun {old : SegReg} (h : SegLoaded s old _ r) => popDataSeg_ok hslot (loadDataSeg_loaded h)
  refine ⟨fun h => ?es, fun h => ?ds, fun h => ?fs, fun h => ?gs⟩
  case es => exact congrArg (fun x => complete s (x >>= fun p => .ok { p.2 with es := p.1 })) (run h)
  case ds => exact congrArg (fun x => complete s (x >>= fun p => .ok { p.2 with ds := p.1 })) (run h)
  case fs => exact congrArg (fun x => complete s (x >>= fun p => .ok { p.2 with fs := p.1 })) (run h)
  case gs => exact congrArg (fun x => complete s (x >>= fun p => .ok { p.2 with gs := p.1 })) (run h)

/-- Settles O24: one pop in the old stack's width, then SS loaded (`exec_popSs_ok`). -/
theorem popStackSegment : Obligations.PopStackSegment :=
  fun _ _ _ _ hslot h => exec_popSs_ok hslot (loadStackSeg_loaded h)

/-- A POP of a segment register is of a data segment register or of SS. -/
theorem popSegment_cases {i : Instr} {sz : OpSize} (h : i ∈ [.popEs sz, .popDs sz, .popFs sz, .popGs sz, .popSs sz]) :
    i ∈ [.popEs sz, .popDs sz, .popFs sz, .popGs sz] ∨ i = .popSs sz := by
  simpa only [List.mem_cons, List.not_mem_nil, or_false, or_assoc] using h

/-- Settles O25: the stack read stops either kind; then `dataSegment` or `stackSegment` says what the selector raises,
with no more than the pointer moved. -/
theorem popSegmentChecks : Obligations.PopSegmentChecks := by
  intro i sz s hi
  refine ⟨fun e hslot => ?_, ?_⟩
  · rcases popSegment_cases hi with data | rfl
    · obtain ⟨r, f, run⟩ := exec_popData data s
      rw [run, popDataSeg_readRaises hslot]
      exact complete_exc s e
    · rw [exec_popSs, pop_raises hslot]
      exact complete_exc s e
  rintro lin sel hm hslot rfl
  refine ⟨fun notSs hsel => ?_, ?_⟩
  · have raises := fun {e : Exc} => exec_popData_raises (e := e) hslot ((popSegment_cases hi).resolve_right notSs) hm
    refine ⟨fun e lookup => raises (dataSegment_lookupFails hsel lookup), fun d lookup privileged => ?_,
      fun g a lookup => raises (dataSegment_system hsel lookup)⟩
    refine raises ((dataSegment_segment hsel lookup).trans (if_neg ?_))
    rintro ⟨hcpl, hrpl⟩
    exact privileged.elim (BitVec.not_lt.2 hcpl) (BitVec.not_lt.2 hrpl)
  · rintro rfl e unfit
    exact exec_popSs_raises hslot (loadStackSeg_raises hm unfit)

/-! ## POPF and POPFD (R142, R143) -/

theorem exec_popf (s : State) : exec .popf s =
    complete s (pop 2 s >>= fun p => .ok (advance { p.2 with eflags := flagsAfterPopf s p.1 })) := rfl

theorem exec_popfd (s : State) : exec .popfd s =
    complete s (pop 4 s >>= fun p => .ok (advance { p.2 with eflags := flagsAfterPopfd s p.1 })) := rfl

/-- Settles O29: one pop, then EFLAGS. -/
theorem popFlags : Obligations.PopFlags := by
  refine fun s => ⟨fun lin hslot => ?_, fun lin hslot => ?_, fun e hslot => ?_, fun e hslot => ?_⟩
  · rw [exec_popf, pop_ok hslot]
    rfl
  · rw [exec_popfd, pop_ok hslot]
    rfl
  · rw [exec_popf, pop_raises hslot]
    exact complete_exc s e
  · rw [exec_popfd, pop_raises hslot]
    exact complete_exc s e

/-! ## POPA after PUSHA (R138, R139) -/

/-- After `count` pushes of `n` bytes the item `j` above the top of stack is push number `k`, counted from the other
end. -/
theorem popOffset_pushed {n count j k : Nat} {s t : State} (hss : t.ss = s.ss)
    (hesp : t.regs.esp = movedEsp (-BitVec.ofNat 32 (n * count)) s) (h : j + (k + 1) = count) :
    popOffset n j t = pushOffset n k s := by
  subst h
  have cancel : ∀ a b : Dword, -a + -b + a = -b := fun a b => by bv_omega
  rw [popOffset, pushOffset, wrapStack_congr hss, stackPtr_moved hss hesp, wrapStack_add, BitVec.sub_eq_add_neg,
    BitVec.add_assoc, Nat.mul_add, BitVec.ofNat_add, BitVec.neg_add, BitVec.sub_eq_add_neg, cancel]

/-- What was truncated to `OpSize` and is written over the value it came from changes nothing. -/
@[simp] theorem writeSize_truncSize (sz : OpSize) (v : Dword) : writeSize sz v (truncSize sz v) = v := by
  cases sz with
  | w16 => exact (setLow16_low16 v v).trans (setLow16_self v)
  | w32 => rfl

/-- A move of ESP undone. -/
theorem movedEsp_undone {s t : State} {d : Dword} (hss : t.ss = s.ss) (hesp : t.regs.esp = movedEsp (-d) s) :
    movedEsp d t = s.regs.esp := by
  rw [movedEsp_movedEsp (-d) d hss hesp, BitVec.add_comm, ← BitVec.sub_eq_add_neg, BitVec.sub_self, movedEsp_zero]

/-- Settles O28: PUSHA leaves its items (`pushAllRegisters`), item `j` from the top being push `7 - j`
(`popOffset_pushed`), and POPA loads them (`popAllRegisters`). -/
theorem pushaPopa : Obligations.PushaPopa := by
  intro i j sz s slot q hij can untouched reads
  obtain ⟨-, pushes⟩ := pushAllRegisters
  obtain ⟨-, pops⟩ := popAllRegisters
  have hi : i = .pusha ∧ sz = .w16 ∨ i = .pushad ∧ sz = .w32 :=
    hij.imp (fun ⟨hi, _, hsz⟩ => ⟨hi, hsz⟩) fun ⟨hi, _, hsz⟩ => ⟨hi, hsz⟩
  have hj : j = .popa ∧ sz = .w16 ∨ j = .popad ∧ sz = .w32 := hij.imp And.right And.right
  obtain ⟨run, -⟩ := pushes i sz s slot hi
  obtain ⟨t, run, ⟨stored, -⟩, keeps⟩ := run can
  have hesp : t.regs.esp = movedEsp (-BitVec.ofNat 32 (8 * itemBytes sz)) s := by rw [keeps]; rfl
  have slots : ∀ k < 8, stackSlot { t with pcNext := q } (popOffset (itemBytes sz) k { t with pcNext := q })
      (itemBytes sz) .stackRead = .ok (slot (7 - k)) := fun k hk => by
    rw [popOffset_pushed (s := s) (count := 8) (k := 7 - k) (by rw [keeps]) (by rw [Nat.mul_comm]; exact hesp)
      (by omega), stackSlot_congr (s := s) (by rw [keeps]) (by rw [keeps]) (by rw [keeps]) (by rw [keeps])
      (by rw [keeps])]
    exact reads (7 - k) (by omega)
  have item : ∀ k v, (pushaItems s)[k]? = some v → t.mem.loadLE (slot k) (itemBytes sz) = truncSize sz v :=
    fun k v hk => stored k v hk (untouched k (List.getElem?_eq_some_iff.1 hk).1)
  obtain ⟨popped, -⟩ := pops j sz { t with pcNext := q } (fun k => slot (7 - k)) hj
  refine ⟨t, run, (popped (fun k _ hk => slots k (by omega)) fun k _ hk => slots k hk).trans ?_⟩
  simp only [Nat.reduceSub, item 7 _ rfl, item 6 _ rfl, item 5 _ rfl, item 3 _ rfl, item 2 _ rfl, item 1 _ rfl,
    item 0 _ rfl]
  have back : movedEsp (BitVec.ofNat 32 (8 * itemBytes sz)) { t with pcNext := q } = s.regs.esp :=
    movedEsp_undone (by rw [keeps]) hesp
  rw [back, keeps]
  simp only [movedRegs, writeSize_truncSize]

end Sys2Proof.Proofs
end

section
/-! Near CALL (41_call_ret R160, R161) and the RET after it, far CALL in real-address mode (R166), and calls through a
gate (R172, R173). -/

namespace Sys2Proof.Proofs

open Sys2Proof Sys2Proof.Machine Sys2Proof.Safety Sys2Proof.Laws

/-! ## Near CALL (R160, R161) -/

theorem exec_callRM (sz : OpSize) (rm : RM) (s : State) :
    exec (.callRM sz rm) s = complete s (readRMOp sz rm s >>= fun v => nearCall sz v s) := rfl

/-- Both forms are `nearCall` of their target. -/
theorem exec_nearCall {i : Instr} {sz : OpSize} {target : Dword} {s : State} (h : NearTarget i sz target s) :
    exec i s = complete s (nearCall sz target s) := by
  cases i with
  | callRel =>
    obtain ⟨rfl, rfl⟩ := h
    rfl
  | callRM =>
    obtain ⟨rfl, value⟩ := h
    rw [exec_callRM, readRMOp_ok value]
    rfl
  | _ => exact h.elim

section NearCall

variable {sz : OpSize} {target limit : Dword} {s : State} (hlimit : codeLimit s = some limit)
include hlimit

/-- A target within the limit is called: the return pointer pushed, then EIP. -/
theorem nearCall_within (within : target ≤ limit) : nearCall sz target s =
    push (itemBytes sz) (truncSize sz s.pcNext) s >>= fun t => .ok { t with eip := target } := by
  simp only [nearCall, checkTarget_within hlimit within, attempt, bind, Except.bind]

theorem nearCall_beyond (beyond : limit < target) : nearCall sz target s = .error ⟨.exc (.gp 0), s⟩ := by
  simp only [nearCall, checkTarget_beyond hlimit beyond, attempt, bind, Except.bind]

end NearCall

/-- Settles O32: the target is checked, then one push (`nearCall_within`); an operand that cannot be read and a push
that raises do so before anything is stored. -/
theorem nearCall : Obligations.NearCall := by
  refine ⟨fun i sz target limit s htarget hlimit => ?_, fun sz m e s hslot => ?_⟩
  · rw [exec_nearCall htarget]
    refine ⟨fun lin within hslot => ?_, fun beyond => ?_, fun e within hslot => ?_⟩
    · have stored : StoresAt sz lin s.pcNext s (pushed (itemBytes sz) lin (truncSize sz s.pcNext) s) :=
        storesAt_of_store (truncSize_truncSize sz _) rfl rfl
      refine ⟨{ pushed (itemBytes sz) lin (truncSize sz s.pcNext) s with eip := target }, ?_, stored, rfl⟩
      rw [nearCall_within hlimit within, push_pushed _ hslot]
      rfl
    · rw [nearCall_beyond hlimit beyond, complete_exc]
    · rw [nearCall_within hlimit within, push_raises _ hslot]
      exact complete_exc s e
  · rw [exec_callRM, readRMOp, readMemOp_raises hslot]
    exact complete_exc s e

/-- Settles O34: the CALL leaves the return pointer on top (`nearCall`), where the RET pops it (`nearReturn`). -/
theorem callThenRet : Obligations.CallThenRet := by
  intro i sz target limit lin q s htarget hlimit within returnWithin hwrite hread
  obtain ⟨calls, -⟩ := nearCall
  obtain ⟨call, -⟩ := calls i sz target limit s htarget hlimit
  obtain ⟨t, run, ⟨stored, -⟩, keeps⟩ := call lin within hwrite
  have hesp : t.regs.esp = movedEsp (-BitVec.ofNat 32 (itemBytes sz)) s := by rw [keeps]; rfl
  have top : stackPtr { t with pcNext := q } = pushOffset (itemBytes sz) 0 s := by
    rw [stackPtr_moved (s := s) (t := { t with pcNext := q }) (by rw [keeps]) hesp, ← wrap_sub, pushOffset,
      Nat.zero_add, Nat.mul_one]
  have slot : stackSlot { t with pcNext := q } (stackPtr { t with pcNext := q }) (itemBytes sz) .stackRead =
      .ok lin := by
    rw [top, stackSlot_congr (s := s) (by rw [keeps]) (by rw [keeps]) (by rw [keeps]) (by rw [keeps])
      (by rw [keeps]), hread]
  have limits : codeLimit { t with pcNext := q } = some limit := by rw [← hlimit, keeps]; rfl
  obtain ⟨-, returns⟩ := nearReturn
  obtain ⟨ret, -⟩ := returns (.ret sz) sz 0 limit { t with pcNext := q } rfl limits
  obtain ⟨ret, -⟩ := ret lin slot
  have back : movedEsp (BitVec.ofNat 32 (itemBytes sz)) { t with pcNext := q } = s.regs.esp :=
    movedEsp_undone (by rw [keeps]) hesp
  have sum : BitVec.ofNat 32 (itemBytes sz) + 0 = BitVec.ofNat 32 (itemBytes sz) := BitVec.add_zero _
  have regs : movedRegs (BitVec.ofNat 32 (itemBytes sz) + 0) { t with pcNext := q } = s.regs := by
    rw [sum, movedRegs, back, keeps]
    rfl
  refine ⟨t, run, (ret (stored ▸ returnWithin)).trans ?_⟩
  rw [regs]
  simp only [stored]
  rw [keeps]

/-! ## Far CALL in real-address mode (R166) -/

theorem farCall_real {sz : OpSize} {sel : Word} {off : Dword} {s : State} (hm : s.mode = .realMode) :
    farCall sz sel off s = pushAll (itemBytes sz) [s.cs.sel.setWidth 32, truncSize sz s.pcNext] s >>= fun t =>
      .ok { t with cs := realSegment sel s.cs, eip := off } := by
  simp only [farCall, hm, pushFarReturn]

/-- Settles O36: a run of two pushes (`pushAll_ok`), or one that raises part-way (`complete_pushFails`). -/
theorem farCallReal : Obligations.FarCallReal := by
  intro i sz sel off slot s target hm
  rw [exec_farCall target, farCall_real hm]
  have items := map_truncSize_farItems sz (s.cs.sel.setWidth 32) s.pcNext
  refine ⟨fun can => ?_, fun j e fails => ?_⟩
  · obtain ⟨t, pushed, stored, keeps, -⟩ :=
      pushAll_ok sz [s.cs.sel.setWidth 32, truncSize sz s.pcNext] slot s (itemBytes_mul_two_le sz) can
    refine ⟨{ t with cs := realSegment sel s.cs, eip := off }, by rw [pushed]; rfl,
      pushedAt_congr (pushedAt_truncated items stored) rfl rfl rfl, fun d => realSegment_base, ?_⟩
    rw [keeps, Nat.mul_comm 2]
    rfl
  · obtain ⟨u, stored, run⟩ := complete_pushFails (vs := [s.cs.sel.setWidth 32, truncSize sz s.pcNext])
      (fun t => .ok { t with cs := realSegment sel s.cs, eip := off }) rfl rfl (itemBytes_mul_two_le sz) fails
    refine ⟨u, partlyPushed_truncated ?_ stored, run⟩
    rw [List.map_take, items, ← List.map_take]

/-! ## A call through a gate to the caller's own level (R173) -/

theorem gateCall_same {g : CallGate} {gsel : Word} {c : SegDesc} {s : State}
    (hk : gateAllows s (.call g gsel s.cpl) = true) (hc : codeSegment s g.selector = .ok c) (hl : c.dpl = s.cpl) :
    gateCall g gsel s = pushAll 4 [s.cs.sel.setWidth 32, s.pcNext] s >>= fun t =>
      .ok { t with cs := ⟨withRpl g.selector c.dpl, some c⟩, eip := g.offset, cpl := c.dpl } := by
  have notOutward : ¬ s.cpl < c.dpl := hl ▸ BitVec.lt_irrefl _
  simp only [gateCall, hk, hc, notOutward, if_pos hl, Bool.true_eq_false, if_false, attempt, bind, Except.bind]

/-- Settles O38: a run of two pushes of doublewords, whatever the instruction's size (`gateCall_same`). -/
theorem gateCallSameLevel : Obligations.GateCallSameLevel := by
  intro i sz sel off g c slot s target hm hd hk hc hl
  rw [exec_farCall target, farCall_gate hm hd, gateCall_same hk hc hl]
  refine ⟨fun can => ?_, fun j e fails => ?_⟩
  · obtain ⟨t, pushed, stored, keeps, -⟩ :=
      pushAll_ok .w32 [s.cs.sel.setWidth 32, s.pcNext] slot s (itemBytes_mul_two_le .w32) can
    refine ⟨{ t with cs := ⟨withRpl g.selector c.dpl, some c⟩, eip := g.offset, cpl := c.dpl },
      congrArg (fun x => complete s (x >>= _)) pushed, pushedAt_congr stored rfl rfl rfl, ?_⟩
    rw [keeps, hl]
    rfl
  · exact complete_pushFails (sz := .w32) (vs := [s.cs.sel.setWidth 32, s.pcNext]) _ rfl rfl
      (itemBytes_mul_two_le .w32) fails

end Sys2Proof.Proofs
end

section
/-! A call through a gate to a more privileged level (41_call_ret R172): the stack switch, the parameter copy and the
return address as one run of pushes on the new stack. -/

namespace Sys2Proof.Proofs

open Sys2Proof Sys2Proof.Machine Sys2Proof.Safety Sys2Proof.Laws

/-- Two items, the parameters and more items are one run of pushes, where the parameters lie apart from the slots: the
copy then reads them as they were before the first push. -/
theorem pushAll_copyParams {old : SegReg} {narrow : Bool} {ptr : Dword} {n : Nat} {slot src : Nat → Dword}
    {v : State} (can : CanPush 4 (n + 2) slot v)
    (reads : ∀ k < n, translate v true old narrow
      (if narrow then low16 (ptr + BitVec.ofNat 32 (4 * k)) else ptr + BitVec.ofNat 32 (4 * k)) 4 .stackRead =
        .ok (src k))
    (apart : ∀ k < n, ∀ b < 4, ∀ j < n + 2, Outside (slot j) 4 (src k + BitVec.ofNat 32 b).toNat)
    (x y : Dword) (rest : List Dword) (f : State → Except Stop State) :
    (pushAll 4 [x, y] v >>= fun w => copyParams old narrow ptr n w >>= fun u => pushAll 4 rest u >>= f) =
      pushAll 4 ([x, y] ++ (List.range n).reverse.map (fun k => v.mem.loadLE (src k) 4) ++ rest) v >>= f := by
  generalize hw : pushed 4 (slot 1) y (pushed 4 (slot 0) x v) = w
  have canSecond : CanPush 4 (n + 1) (fun j => slot (j + 1)) (pushed 4 (slot 0) x v) := canPush_pushed can _ _
  have first : push 4 x v = .ok (pushed 4 (slot 0) x v) := push_pushed x (can 0 (by omega))
  have second : push 4 y (pushed 4 (slot 0) x v) = .ok w := hw ▸ push_pushed y (canSecond 0 (by omega))
  have switched : pushAll 4 [x, y] v = .ok w := by
    simp only [pushAll, first, second, bind, Except.bind]
  have canCopy : CanPush 4 n (fun j => slot (j + 2)) w := hw ▸ canPush_pushed canSecond _ _
  have load (k : Nat) (hk : k < n) : w.mem.loadLE (src k) 4 = v.mem.loadLE (src k) 4 := by
    rw [← hw]
    exact (loadLE_store_apart fun b hb => apart k hk b hb 1 (by omega)).trans
      (loadLE_store_apart fun b hb => apart k hk b hb 0 (by omega))
  have copy := copyParams_ok (old := old) (narrow := narrow) (ptr := ptr) canCopy
    (fun k hk => by rw [← reads k hk, ← hw]; exact translate_congr rfl rfl rfl rfl ..)
    fun k hk b hb j hj => apart k hk b hb (j + 2) (by omega)
  rw [List.map_congr_left fun k hk => load k (List.mem_range.1 (List.mem_reverse.1 hk))] at copy
  rw [pushAll_append, pushAll_append, switched]
  simp only [bind, Except.bind, copy]
  cases pushAll 4 ((List.range n).reverse.map fun k => v.mem.loadLE (src k) 4) w <;> rfl

/-- An offset in the caller's stack, in the width the copy is told. -/
theorem wrapStack_eq_narrow (s : State) (v : Dword) : wrapStack s v = if !wideStack s then low16 v else v := by
  unfold wrapStack
  cases wideStack s <;> rfl

/-- Settles O39: switch, copy and return address are one run of pushes on the TSS stack (`pushAll_copyParams`). -/
theorem gateCallInward : Obligations.GateCallInward := by
  intro i sz sel off g c d slot src s target hm hd hk hc hl hstack can reads apart
  have count : (([s.ss.sel.setWidth 32, s.regs.esp] ++ gateParams g.paramCount.toNat src s ++
      [s.cs.sel.setWidth 32, s.pcNext]) : List Dword).length = 4 + g.paramCount.toNat := by
    simp only [gateParams, List.length_append, List.length_map, List.length_reverse, List.length_range,
      List.length_cons, List.length_nil]
    omega
  have fits : 4 * (4 + g.paramCount.toNat) ≤ 2 ^ 16 := by
    have := g.paramCount.isLt
    omega
  obtain ⟨t, run, stored, keeps, -⟩ := pushAll_ok .w32 _ slot (entryStack c.dpl d s)
    (count.symm ▸ fits) (count.symm ▸ can)
  rw [count] at keeps
  have onEntryStack : entryStack c.dpl d s = { s with
      ss := ⟨(tssStack s c.dpl).ss, some d⟩
      regs := { s.regs with esp := (tssStack s c.dpl).esp }
      cpl := c.dpl } := by rw [entryStack, if_neg (BitVec.ne_of_lt hl)]
  refine ⟨{ t with cs := ⟨withRpl g.selector c.dpl, some c⟩, eip := g.offset, cpl := c.dpl }, ?_,
    pushedAt_congr stored (entryStack_mem ..).symm (entryStack_params ..).symm rfl, ?_⟩
  · rw [exec_farCall target, farCall_gate hm hd, gateCall_inward hk hc hl,
      switchStack_fit (BitVec.ne_of_lt hl) hstack,
      pushAll_copyParams (fun j hj => can j (by omega))
        (fun k h => by rw [← wrapStack_eq_narrow]; exact reads k h)
        fun k h b hb j hj => apart k h b hb j (by omega),
      entryStack_mem]
    exact congrArg (fun r => complete s (r >>= _)) run
  · rw [keeps]
    simp only [onEntryStack]
    rfl

end Sys2Proof.Proofs
end

section
/-! Returns to a less privileged level (41_call_ret R174, R175; 42_int R196), and IRET and IRETD to the same one (R195,
R197). -/

namespace Sys2Proof.Proofs

open Sys2Proof Sys2Proof.Machine Sys2Proof.Safety Sys2Proof.Laws

/-! ## The return to the outer stack -/

theorem returnSegment_found {s : State} {sel : Word} {d : SegDesc} (h : codeSegment s sel = .ok d)
    (hk : gateAllows s (.ret d sel s.cpl) = true) : returnSegment s sel = .ok d := by
  simp only [returnSegment, h, hk, if_true, bind, Except.bind]

/-- By default a return's code segment must be of the level its selector requests (log 9). -/
theorem gateAllows_ret {s : State} (h : s.params.gateCheck = []) (d : SegDesc) (sel : Word) :
    gateAllows s (.ret d sel s.cpl) = true ↔ d.dpl = rpl sel := by
  rw [gateAllows_default (by rw [h]; rfl), defaultGateCheck, beq_iff_eq]

/-- The state a return to a less privileged level leaves: CS:EIP, the level, SS:ESP, and the data segment registers
that name a more privileged segment nulled (R174). -/
def returned (eip : Dword) (cs : Word) (d : SegDesc) (ss : Word) (sd : SegDesc) (esp : Dword) (s : State) : State :=
  { s with
    cs := ⟨cs, some d⟩, eip := eip, cpl := rpl cs
    ss := ⟨ss, some sd⟩, regs := { s.regs with esp := esp }
    ds := nullAbove (rpl cs) s.ds, es := nullAbove (rpl cs) s.es
    fs := nullAbove (rpl cs) s.fs, gs := nullAbove (rpl cs) s.gs }

section OuterReturn

variable {sz : OpSize} {q eip : Dword} {cs : Word} {d : SegDesc} {s : State} (hd : returnSegment s cs = .ok d)
include hd

theorem outerReturn_espRaises {x : Trouble} (h : stackSlot s (wrapStack s q) (itemBytes sz) .stackRead = .error x) :
    outerReturn sz q eip cs s = .error ⟨x, s⟩ := by
  simp only [outerReturn, hd, peek_raises h, attempt, bind, Except.bind]

variable {a : Dword} (ha : stackSlot s (wrapStack s q) (itemBytes sz) .stackRead = .ok a)
include ha

theorem outerReturn_ssRaises {x : Trouble}
    (h : stackSlot s (wrapStack s (q + BitVec.ofNat 32 (itemBytes sz))) (itemBytes sz) .stackRead = .error x) :
    outerReturn sz q eip cs s = .error ⟨x, s⟩ := by
  simp only [outerReturn, hd, peek_ok ha, peek_raises h, attempt, bind, Except.bind]

variable {b : Dword}
  (hb : stackSlot s (wrapStack s (q + BitVec.ofNat 32 (itemBytes sz))) (itemBytes sz) .stackRead = .ok b)
include hb

theorem outerReturn_unfit {x : Trouble}
    (h : stackSegment s .gp (rpl cs) ((s.mem.loadLE b (itemBytes sz)).setWidth 16) = .error x) :
    outerReturn sz q eip cs s = .error ⟨x, s⟩ := by
  simp only [outerReturn, hd, peek_ok ha, peek_ok hb, h, attempt, bind, Except.bind]

theorem outerReturn_returned {sd : SegDesc}
    (h : stackSegment s .gp (rpl cs) ((s.mem.loadLE b (itemBytes sz)).setWidth 16) = .ok sd) :
    outerReturn sz q eip cs s = .ok (returned eip cs d ((s.mem.loadLE b (itemBytes sz)).setWidth 16) sd
      (s.mem.loadLE a (itemBytes sz)) s) := by
  simp only [outerReturn, hd, peek_ok ha, peek_ok hb, h, attempt, bind, Except.bind, returned]

end OuterReturn

/-! ## Far return (R174, R175) -/

theorem farReturn_outward {sz : OpSize} {k eip item : Dword} {s : State}
    (offset : peek (itemBytes sz) (stackPtr s) s = .ok eip)
    (selector : peek (itemBytes sz) (wrapStack s (stackPtr s + BitVec.ofNat 32 (itemBytes sz))) s = .ok item)
    (hm : s.mode = .protectedMode) (hl : s.cpl < rpl (item.setWidth 16)) :
    farReturn sz k s = outerReturn sz (stackPtr s + BitVec.ofNat 32 (2 * itemBytes sz) + k) eip (item.setWidth 16) s
      >>= fun t => .ok (release k t) := by
  have notInward : ¬ rpl (item.setWidth 16) < s.cpl := BitVec.not_lt.2 (BitVec.le_of_lt hl)
  have notSame : rpl (item.setWidth 16) ≠ s.cpl := (BitVec.ne_of_lt hl).symm
  have two : BitVec.ofNat 32 (2 * itemBytes sz) = 2 * BitVec.ofNat 32 (itemBytes sz) := by cases sz <;> rfl
  rw [two]
  simp only [farReturn, offset, selector, hm, notInward, notSame, if_false, bind, Except.bind]

/-- Settles O42: the outward branch of a far return (`farReturn_outward`) stops where its code segment, an outer item
or its stack segment is not had, and else releases from the outer stack. -/
theorem farReturnOutward : Obligations.FarReturnOutward := by
  intro i sz k slot s form hm can sel q espSlot ssSlot hl
  have outward := farReturn_outward (k := k) (peek_farOffset can) (peek_farSelector can) hm hl
  have raises (x : Exc) (h : outerReturn sz q (s.mem.loadLE (slot 0) (itemBytes sz)) sel s = .error ⟨.exc x, s⟩) :
      exec i s = deliver x.event s := by
    rw [exec_farReturn form, outward, h]
    exact complete_exc s x
  refine ⟨fun e lookup => raises e (outerReturn_segmentFails (returnSegment_lookupFails lookup)), fun d lookup =>
    ⟨fun default => gateAllows_ret default d sel, fun denied => raises _ (outerReturn_segmentFails
      (returnSegment_denied lookup denied)), fun allowed => ?_⟩⟩
  have segment := returnSegment_found lookup allowed
  refine ⟨fun e hesp => raises e (outerReturn_espRaises segment hesp), fun a e hesp hss => raises e
    (outerReturn_ssRaises segment hesp hss), fun a b hesp hss => ?_⟩
  refine ⟨fun e unfit => raises e (outerReturn_unfit segment hesp hss unfit), fun sd fit => ?_⟩
  rw [exec_farReturn form, outward, outerReturn_returned segment hesp hss fit]
  exact congrArg Host.Outcome.next (release_eq _ k)

/-! ## Interrupt return to the same level (R195, R197) -/

/-- The pointer set past three items, with CS, EIP and EFLAGS loaded. -/
theorem setStackPtr_interruptReturn (sz : OpSize) (eip flags : Dword) (cs : SegReg) (s : State) :
    setStackPtr (wrapStack s (stackPtr s + 3 * BitVec.ofNat 32 (itemBytes sz)))
        { s with cs := cs, eip := eip, eflags := flags } =
      { s with regs := movedRegs (BitVec.ofNat 32 (3 * itemBytes sz)) s, eip := eip, eflags := flags, cs := cs } := by
  have three : 3 * BitVec.ofNat 32 (itemBytes sz) = BitVec.ofNat 32 (3 * itemBytes sz) := by cases sz <;> rfl
  rw [three]
  exact congrArg (fun t : State => { t with cs := cs, eip := eip, eflags := flags }) (setStackPtr_move s _)

theorem interruptReturn_real {sz : OpSize} {eip item image : Dword} {s : State}
    (offset : peek (itemBytes sz) (stackPtr s) s = .ok eip)
    (selector : peek (itemBytes sz) (wrapStack s (stackPtr s + BitVec.ofNat 32 (itemBytes sz))) s = .ok item)
    (flags : peek (itemBytes sz) (wrapStack s (stackPtr s + 2 * BitVec.ofNat 32 (itemBytes sz))) s = .ok image)
    (hm : s.mode = .realMode) :
    interruptReturn sz s = .ok (setStackPtr (wrapStack s (stackPtr s + 3 * BitVec.ofNat 32 (itemBytes sz))) { s with
      cs := realSegment (item.setWidth 16) s.cs, eip := eip, eflags := flagsAfterIret sz s image }) := by
  simp only [interruptReturn, offset, selector, flags, hm, bind, Except.bind]

/-- Settles O55: three items are read, then the mode and the selector's level choose the branch, which sets the pointer
past them (`setStackPtr_interruptReturn`). -/
theorem interruptReturnSameLevel : Obligations.InterruptReturnSameLevel := by
  intro i sz slot s form can eip sel image t
  have offset := peek_farOffset (canPop_mono can (by decide))
  have selector := peek_farSelector (canPop_mono can (by decide))
  have flags := peek_flagsImage can
  rw [exec_interruptReturn form]
  refine ⟨fun hm => ?_, fun d hm hnt hv hl lookup => ?_⟩
  · rw [interruptReturn_real offset selector flags hm, setStackPtr_interruptReturn]
    rfl
  · rw [interruptReturn_same hm offset selector flags hnt (not_virtual8086 hv) hl, lookup]
    exact congrArg Host.Outcome.next (setStackPtr_interruptReturn ..)

/-! ## Interrupt return to a less privileged level (R196) -/

theorem popOffset_three (n : Nat) (s : State) :
    popOffset n 3 s = wrapStack s (stackPtr s + 3 * BitVec.ofNat 32 n) := by
  rw [popOffset, Nat.mul_comm, BitVec.ofNat_mul]
  rfl

theorem popOffset_four (sz : OpSize) (s : State) : popOffset (itemBytes sz) 4 s =
    wrapStack s (stackPtr s + 3 * BitVec.ofNat 32 (itemBytes sz) + BitVec.ofNat 32 (itemBytes sz)) := by
  have four : BitVec.ofNat 32 (itemBytes sz * 4) =
      3 * BitVec.ofNat 32 (itemBytes sz) + BitVec.ofNat 32 (itemBytes sz) := by cases sz <;> rfl
  rw [popOffset, four, BitVec.add_assoc]

/-- A word load is zero-extended. -/
theorem high_loadLE_two (m : Memory) (a : Dword) : (m.loadLE a 2).extractLsb' 16 16 = 0 := by
  apply BitVec.eq_of_getLsbD_eq
  intro i hi
  simp only [Memory.loadLE, BitVec.getLsbD_extractLsb', BitVec.getLsbD_or, BitVec.getLsbD_shiftLeft,
    BitVec.getLsbD_setWidth]
  generalize m.read a.toNat = low
  generalize m.read (a + 1).toNat = high
  simp [BitVec.getLsbD_of_ge low (16 + i) (by omega), BitVec.getLsbD_of_ge high (16 + i - 8) (by omega)]

/-- With 16-bit items SP is the item, and ESP[31:16] as before or the item's (log 18). -/
theorem iretEsp_w16 (old item : Dword) : (iretEsp .w16 old item).setWidth 16 = item.setWidth 16 ∧
    ((iretEsp .w16 old item).extractLsb' 16 16 = item.extractLsb' 16 16 ∨
      (iretEsp .w16 old item).extractLsb' 16 16 = old.extractLsb' 16 16) := by
  unfold iretEsp
  cases Config.iretKeepsUpperEsp with
  | true => exact ⟨setWidth_setLow16 old item, .inr (high_setLow16 old item)⟩
  | false => exact ⟨rfl, .inl rfl⟩

/-- Settles O57: the outward branch of an interrupt return (`interruptReturn_outward`) stops where one of the five items
or the stack segment is not had, and else loads what `returned` says and the flags. -/
theorem interruptReturnOutward : Obligations.InterruptReturnOutward := by
  intro i sz slot d s form hm hnt can item sel ssSel hv hl lookup allowed
  have outward := interruptReturn_outward hm (peek_farOffset (canPop_mono can (by decide)))
    (peek_farSelector (canPop_mono can (by decide))) (peek_flagsImage can) hnt (not_virtual8086 hv) hl
  have segment := returnSegment_found lookup allowed
  have raises (x : Exc) (h : outerReturn sz (stackPtr s + 3 * BitVec.ofNat 32 (itemBytes sz)) (item 0) sel s =
      .error ⟨.exc x, s⟩) : exec i s = deliver x.event s := by
    rw [exec_interruptReturn form, outward, h]
    exact complete_exc s x
  refine ⟨fun j e ⟨hj, before, fails⟩ => ?_, fun can => ?_⟩
  · match j, hj with
    | 0, _ | 1, _ | 2, _ =>
      rw [exec_interruptReturn form, interruptReturn_raises ⟨by decide, before, fails⟩]
      exact complete_exc s e
    | 3, _ => exact raises e (outerReturn_espRaises segment (popOffset_three _ s ▸ fails))
    | 4, _ =>
      have esp := before 3 (by decide) (by decide)
      exact raises e (outerReturn_ssRaises segment (popOffset_three _ s ▸ esp) (popOffset_four sz s ▸ fails))
  · have esp := popOffset_three _ s ▸ can 3 (by decide) (by decide)
    have ss := popOffset_four sz s ▸ can 4 (by decide) (by decide)
    refine ⟨fun e unfit => raises e (outerReturn_unfit segment esp ss unfit), fun sd fit =>
      ⟨iretEsp sz s.regs.esp (item 3), ?_, fun wide => by rw [wide]; rfl, fun narrow => ?_⟩⟩
    · rw [exec_interruptReturn form, outward, outerReturn_returned segment esp ss fit]
      rfl
    · subst narrow
      obtain ⟨low, high⟩ := iretEsp_w16 s.regs.esp (item 3)
      exact ⟨low, high.imp_left fun zero => zero.trans (high_loadLE_two s.mem (slot 3))⟩

end Sys2Proof.Proofs
end

section
/-! Exceptions and interrupts: the checks of an entry in protected mode (60_exceptions R281, R283), the instructions that
call a handler (42_int_bound_iret R190 to R193, R198), shutdown (60_exceptions R294), what an abandoned instruction
leaves (R295), and which flags an instruction can change (10_state R29). -/

namespace Sys2Proof.Proofs

open Sys2Proof Sys2Proof.Machine Sys2Proof.Safety Sys2Proof.Laws

/-! ## The checks of an entry in protected mode (R281, R283) -/

section HandlerGate

variable {ev : Event} {s : State}

/-- No IDT entry, an entry that is not present or a task gate: nothing further is checked. -/
theorem handlerGate_idtFails {x : Trouble} (h : idtGate s ev.vector = .error x) : handlerGate ev s = .error x := by
  simp only [handlerGate, h, bind, Except.bind]

theorem idtGate_missing {v : Byte} (h : s.idt.lookup v = none) : idtGate s v = .error (.exc (.gp (idtCode v))) := by
  simp only [idtGate, h]

theorem idtGate_task {v : Byte} {a : AccessRights} (h : s.idt.lookup v = some (.task a)) (hp : a.present = true) :
    idtGate s v = .error (.refuse .handlerTask) := by
  simp only [idtGate, h, hp, if_true]

variable {g : IntGate} (h : s.idt.lookup ev.vector = some (.gate g))
include h

theorem idtGate_absent (hp : g.access.present = false) :
    idtGate s ev.vector = .error (.exc (.np (idtCode ev.vector))) := by
  simp only [idtGate, h, hp, Bool.false_eq_true, if_false]

variable (hp : g.access.present = true)
include hp

theorem idtGate_found : idtGate s ev.vector = .ok g := by
  simp only [idtGate, h, hp, if_true]

/-- `P_GATECHECK` is asked for a software interrupt alone. -/
theorem handlerGate_denied (software : ev.kind = .software) (hk : gateAllows s (.softint g ev.vector s.cpl) = false) :
    handlerGate ev s = .error (.exc (.gp (idtCode ev.vector))) := by
  simp only [handlerGate, idtGate_found h hp, software, hk, and_self, if_true, bind, Except.bind]

/-- A gate that may be used: the lookup of its code segment, then that segment's level. -/
theorem handlerGate_allowed (hk : ev.kind = .software → gateAllows s (.softint g ev.vector s.cpl) = true) :
    handlerGate ev s = codeSegment s g.selector >>= fun c =>
      if s.cpl < c.dpl then .error (.exc (.gp (selCode g.selector))) else .ok (g, c) := by
  have passes : ¬ (ev.kind = .software ∧ gateAllows s (.softint g ev.vector s.cpl) = false) :=
    fun ⟨software, denied⟩ => Bool.false_ne_true (denied.symm.trans (hk software))
  simp only [handlerGate, idtGate_found h hp, if_neg passes, bind, Except.bind]

end HandlerGate

/-- By default a software interrupt may use a gate of its own or a less privileged level (log 9). -/
theorem gateAllows_softint {s : State} (h : s.params.gateCheck = []) (g : IntGate) (v : Byte) :
    gateAllows s (.softint g v s.cpl) = true ↔ s.cpl ≤ g.access.dpl := by
  rw [gateAllows_default (by rw [h]; rfl), defaultGateCheck, decide_eq_true_eq]

theorem enterHandler_gateFails {ev : Event} {s : State} (hm : s.mode = .protectedMode) {x : Trouble}
    (h : handlerGate ev s = .error x) : enterHandler ev s = markExt ev.kind (.error ⟨x, s⟩) := by
  have run : enterProtected ev s = .error ⟨x, s⟩ := by
    rw [enterProtected_eq, h]
    rfl
  simp only [enterHandler, hm, run]

theorem deliver_refused {ev : Event} {r : Refusal} {s p : State} (h : enterHandler ev s = .error ⟨.refuse r, p⟩) :
    deliver ev s = .refused r := by
  rw [deliver, deliverFrom, h]

/-- Settles O51: the checks are the branches of `idtGate` and `handlerGate`, in order. -/
theorem entryChecks : Obligations.EntryChecks := by
  refine fun ev s => ⟨fun missing => handlerGate_idtFails (idtGate_missing missing),
    fun g default => gateAllows_softint default g ev.vector, fun g found =>
    ⟨fun absent => handlerGate_idtFails (idtGate_absent found absent), fun present => handlerGate_denied found present,
    fun present allowed => ⟨fun x lookup => ?_, fun c lookup => ?_⟩⟩, fun a found present => ?_⟩
  · rw [handlerGate_allowed found present allowed, lookup]
    rfl
  · rw [handlerGate_allowed found present allowed, lookup]
    rfl
  · have refuses : handlerGate ev s = .error (.refuse .handlerTask) :=
      handlerGate_idtFails (idtGate_task found present)
    exact ⟨refuses, fun hm => deliver_refused (enterHandler_gateFails hm refuses)⟩

/-! ## The instructions that call a handler (R190 to R193, R198) -/

theorem exec_bound (sz : OpSize) (r : Reg) (m : MemOp) (s : State) : exec (.bound sz r m) s =
    complete s (readMemOp (itemBytes sz) m 0 s >>= fun lo =>
      readMemOp (itemBytes sz) m (BitVec.ofNat 32 (itemBytes sz)) s >>= fun hi =>
      if signedSize sz (s.regs.get r) < signedSize sz lo ∨ signedSize sz hi < signedSize sz (s.regs.get r)
        then .error ⟨.exc .br, s⟩ else .ok (advance s)) := rfl

theorem exec_into (s : State) :
    exec .into s = if flagOF s.eflags then deliver (softwareEvent 4) s else .next (advance s) := rfl

/-- Each of them delivers its event from the state before it. -/
theorem exec_callsHandler {i : Instr} {ev : Event} {s : State} (h : CallsHandler i ev s) : exec i s = deliver ev s := by
  cases i with
  | int3 | intImm =>
    cases h
    rfl
  | into =>
    obtain ⟨overflow, rfl⟩ := h
    rw [exec_into, if_pos overflow]
    rfl
  | ud2 =>
    cases h
    exact complete_exc s .ud
  | bound =>
    obtain ⟨rfl, lo, hi, lower, upper, outside⟩ := h
    rw [exec_bound, readMemOp_ok lower, readMemOp_ok upper]
    exact (congrArg (complete s) (if_pos outside)).trans (complete_exc s .br)
  | _ => exact h.elim

/-- A software interrupt, #BR or #UD. -/
theorem callsHandler_kind {i : Instr} {ev : Event} {s : State} (h : CallsHandler i ev s) :
    ev.kind = .software ∨ (ev.kind = .fault ∧ (ev.vector = 5 ∨ ev.vector = 6)) := by
  cases i with
  | int3 | intImm =>
    cases h
    exact .inl rfl
  | into =>
    obtain ⟨-, rfl⟩ := h
    exact .inl rfl
  | ud2 =>
    cases h
    exact .inr ⟨rfl, .inr rfl⟩
  | bound =>
    obtain ⟨rfl, -⟩ := h
    exact .inr ⟨rfl, .inl rfl⟩
  | _ => exact h.elim

/-- By default no error code is pushed where the vector and the kind ask for none (R286). -/
theorem pushed_default {ev : Event} {s : State} (h : s.params.errCode = [])
    (noCode : pushesCode ⟨s.mode, ev.vector, ev.kind⟩ = false) : ev.pushed s = none := by
  simp only [Event.pushed, errCode, h, List.lookup_nil, noCode, Option.getD_none, Bool.false_eq_true, if_false]

theorem pushesCode_software (m : Mode) (v : Byte) : pushesCode ⟨m, v, .software⟩ = false := by
  cases m <;> rfl

theorem pushesCode_boundOrUndefined (m : Mode) {v : Byte} (h : v = 5 ∨ v = 6) : pushesCode ⟨m, v, .fault⟩ = false := by
  rcases h with rfl | rfl <;> cases m <;> rfl

theorem savedEip_default {k : EventKind} {s : State} (h : s.params.savedEip = []) (hk : k = .software ∨ k = .fault) :
    savedEip k s = if k = .software then s.pcNext else s.eip := by
  simp only [savedEip, h, List.lookup_nil, Option.getD_none]
  rcases hk with rfl | rfl <;> rfl

/-- Settles O49: each instruction is the delivery of its event (`exec_callsHandler`), which enters the handler that
stands ready. -/
theorem callsItsHandler : Obligations.CallsItsHandler := by
  intro i ev s calls
  have kinds := callsHandler_kind calls
  have kind : ev.kind = .software ∨ ev.kind = .fault := kinds.imp_right And.left
  rw [exec_callsHandler calls]
  refine ⟨fun default => pushed_default default ?_, kind, fun default => savedEip_default default kind,
    fun g c d slot => deliver_ready, fun slot => deliver_real⟩
  rcases kinds with software | ⟨fault, vector⟩
  · rw [software, pushesCode_software]
  · rw [fault, pushesCode_boundOrUndefined _ vector]

/-- Settles O50: INTO and BOUND take their other branch, and a bound that cannot be read stops BOUND at its read. -/
theorem noHandlerCalled : Obligations.NoHandlerCalled := by
  refine ⟨fun s clear => ?_, fun sz r m e s fails => ?_, fun sz r m lo hi s lower upper above below => ?_⟩
  · rw [exec_into, clear]
    rfl
  · rw [exec_bound]
    rcases fails with first | ⟨⟨lin, first⟩, second⟩
    · rw [readMemOp_raises first]
      exact complete_exc s e
    · rw [readMemOp_ok first, readMemOp_raises second]
      exact complete_exc s e
  · rw [exec_bound, readMemOp_ok lower, readMemOp_ok upper]
    exact congrArg (complete s) (if_neg (not_or.2 ⟨Int.not_lt.2 above, Int.not_lt.2 below⟩))

/-! ## Shutdown (R294) -/

theorem vector_withExt_gp (k : EventKind) (code : Dword) : ((Exc.gp code).withExt k).vector = 13 := by
  cases k <;> rfl

/-- An event without an IDT entry raises #GP, with EXT as the event asks. -/
theorem enterHandler_missing {ev : Event} {s : State} (hm : s.mode = .protectedMode)
    (h : s.idt.lookup ev.vector = none) :
    enterHandler ev s = .error ⟨.exc ((Exc.gp (idtCode ev.vector)).withExt ev.kind), s⟩ :=
  enterHandler_gateFails hm (handlerGate_idtFails (idtGate_missing h))

theorem step_shutdown {s : State} (h : s.shutdown = true) : step s = .fault .shutdown := by
  simp only [step, boundary, if_pos h]

/-- Settles O53: #GP on a contributory fault is a double fault (`escalate_double`), and #GP on a double fault is shutdown
(`escalate_shutdown`). -/
theorem shutdown : Obligations.Shutdown := by
  refine ⟨fun s e hm fault vector missing missingDf => ?_, fun s => step_shutdown⟩
  have first := enterHandler_missing (ev := e.event) hm missing
  have second := enterHandler_missing (ev := ⟨8, .abort, some 0⟩) hm missingDf
  have pair : DoubleFaults e.event.vector ((Exc.gp (idtCode e.event.vector)).withExt e.event.kind).vector := by
    rw [vector_withExt_gp]
    exact .inl ⟨List.mem_cons_of_mem 0 vector, by decide⟩
  have processor : raisedByProcessor e.event.kind = true := (congrArg raisedByProcessor fault).trans rfl
  rw [deliver_double first (escalate_double processor pair), abandon_self, deliverFrom_nested second,
    escalate_shutdown _ rfl rfl, abandon_self]

/-! ## What an abandoned instruction leaves (R10, R295) -/

theorem abandon_wf {s p : State} (hs : s.mem.wf = true) (hp : p.mem.wf = true) : (abandon s p).mem.wf = true := by
  unfold abandon
  split
  · exact hs
  · exact partialMix_wf hs hp

theorem abandon_mem {s p : State} (h : p.mem = s.mem) : (abandon s p).mem = s.mem := by
  unfold abandon
  rw [if_pos h]

/-- Settles O54: the exception is delivered from `abandon s p`, whatever the free value. -/
theorem abandonedInstruction : Obligations.AbandonedInstruction :=
  fun s p _ => ⟨⟨abandon s p, rfl, abandon_keeps s p, read_abandon s p, abandon_mem⟩, abandon_wf⟩

/-! ## Which flags an instruction can change (10_state R29) -/

/-- No flag of `t` is set that is not set in `s`, and all but IF, and TF in real-address mode, are the same. -/
def FlagsKept (s t : State) : Prop :=
  ∀ b < 32, (t.eflags.getLsbD b = true → s.eflags.getLsbD b = true) ∧
    (b ≠ 9 → (b ≠ 8 ∨ s.mode = .protectedMode) → t.eflags.getLsbD b = s.eflags.getLsbD b)

theorem flagsKept_of_eq {s t : State} (h : t.eflags = s.eflags) : FlagsKept s t := by
  intro b _
  rw [h]
  exact ⟨id, fun _ _ => rfl⟩

theorem getLsbD_clearIF (e : Dword) {b : Nat} (hb : b < 32) :
    (clearIF e).getLsbD b = (e.getLsbD b && decide (b ≠ 9)) := by
  have mask : ∀ b < 32, (0xFFFFFDFF : Dword).getLsbD b = decide (b ≠ 9) := by decide
  rw [clearIF, BitVec.getLsbD_and, mask b hb]

theorem getLsbD_clearIFTF (e : Dword) {b : Nat} (hb : b < 32) :
    (clearIFTF e).getLsbD b = (e.getLsbD b && decide (b ≠ 9 ∧ b ≠ 8)) := by
  have mask : ∀ b < 32, (0xFFFFFCFF : Dword).getLsbD b = decide (b ≠ 9 ∧ b ≠ 8) := by decide
  rw [clearIFTF, BitVec.getLsbD_and, mask b hb]

theorem flagsKept_clearIF {s t : State} (h : t.eflags = clearIF s.eflags) : FlagsKept s t := by
  intro b hb
  rw [h, getLsbD_clearIF _ hb]
  exact ⟨fun set => (Bool.and_eq_true_iff.1 set).1, fun notIF _ => by rw [decide_eq_true notIF, Bool.and_true]⟩

theorem flagsKept_clearIFTF {s t : State} (hm : s.mode = .realMode) (h : t.eflags = clearIFTF s.eflags) :
    FlagsKept s t := by
  intro b hb
  rw [h, getLsbD_clearIFTF _ hb]
  refine ⟨fun set => (Bool.and_eq_true_iff.1 set).1, fun notIF notTF => ?_⟩
  have notTF : b ≠ 8 := notTF.resolve_right fun prot => by rw [hm] at prot; cases prot
  rw [decide_eq_true ⟨notIF, notTF⟩, Bool.and_true]

/-- Taking an event clears IF at most, and TF in real-address mode. -/
theorem flagsKept_delivered {s t : State} (h : Delivered s t) : FlagsKept s t := by
  have flags {u : State} (hu : Restarted s u) : u.eflags = s.eflags := by rw [hu.keeps]
  have mode {u : State} (hu : Restarted s u) : u.mode = s.mode := by rw [hu.keeps]
  cases h with
  | entered ev u g c d slot hu _ he _ =>
    obtain ⟨-, keeps⟩ := he
    have after : t.eflags = if g.kind = .interrupt then clearIF u.eflags else u.eflags := by rw [keeps]
    rw [flags hu] at after
    by_cases interrupt : g.kind = .interrupt
    · exact flagsKept_clearIF (after.trans (if_pos interrupt))
    · exact flagsKept_of_eq (after.trans (if_neg interrupt))
  | enteredReal ev u slot hu hm _ he _ =>
    obtain ⟨-, keeps⟩ := he
    have after : t.eflags = clearIFTF u.eflags := by rw [keeps]
    exact flagsKept_clearIFTF (mode hu ▸ hm) (flags hu ▸ after)
  | shutdown u hu h => exact flagsKept_of_eq ((congrArg State.eflags h).trans (flags (u := u) hu))

/-- An instruction that writes no flags leaves them, events aside. -/
theorem eflags_ownEffect {i : Instr} {s t : State} (h : OwnEffect i s t) (hw : writesFlags i = false) :
    t.eflags = s.eflags := by
  cases h with
  | plain h | dataSeg h | stackSeg _ _ _ _ h => rw [h]
  | call h => exact eflags_called h
  | far _ h => exact eflags_returned h
  | popf _ hi _ | popfd _ hi _ =>
    subst hi
    cases hw
  | iret _ _ hi _ =>
    rcases hi with rfl | rfl <;> cases hw

/-- Settles O31: an instruction's own effect leaves EFLAGS (`eflags_ownEffect`), and an event taken instead clears at
most IF and TF (`flagsKept_delivered`). -/
theorem flagsUnchanged : Obligations.FlagsUnchanged := fun _ _ _ run hw =>
  (exec_cases run).elim (fun ⟨own, _⟩ => flagsKept_of_eq (eflags_ownEffect own hw)) flagsKept_delivered

end Sys2Proof.Proofs
end

section
/-! LEAVE after ENTER (43_enter_leave R223, R224): the frame ENTER opens at any level, and the stack pointer LEAVE takes
from it. -/

namespace Sys2Proof.Proofs

open Sys2Proof Sys2Proof.Machine Sys2Proof.Safety Sys2Proof.Laws

/-- EBP as ENTER leaves it (R220, R226). -/
def frameEbp (sz : OpSize) (s : State) : Dword :=
  if sz = .w32 ∧ wideStack s = true then pushOffset (itemBytes sz) 0 s
  else setLow16 s.regs.ebp (pushOffset (itemBytes sz) 0 s)

/-- ENTER at any level: the saved EBP in its slot, the pointer moved, and EBP at the frame. -/
theorem exec_enter_frame {sz : OpSize} {storage : Word} {level : Byte} {slot src : Nat → Dword} {s : State}
    (can : CanPush (itemBytes sz) (level.toNat % 32 + 1) slot s)
    (untouched : Untouched (itemBytes sz) (level.toNat % 32 + 1) 0 slot s)
    (reads : ∀ k < level.toNat % 32 - 1, stackSlot s
      (wrapStack s (s.regs.ebp - BitVec.ofNat 32 (itemBytes sz * (k + 1)))) (itemBytes sz) .stackRead = .ok (src k)) :
    ∃ t d, exec (.enter sz storage level) s = .next t ∧
      t.mem.loadLE (slot 0) (itemBytes sz) = truncSize sz s.regs.ebp ∧
      t = { s with regs := { movedRegs d s with ebp := frameEbp sz s }, eip := s.pcNext
                   mem := t.mem, written := t.written } := by
  have bound : level.toNat % 32 < 32 := Nat.mod_lt _ (by decide)
  rw [exec_enter]
  generalize level.toNat % 32 = L at can untouched reads bound
  cases L with
  | zero =>
    have frame := openFrame_eq (s := s) (t := pushed (itemBytes sz) (slot 0) (truncSize sz s.regs.ebp) s) rfl sz storage
      (pushOffset (itemBytes sz) 0 s)
    rw [enterFrame_zero storage (can 0 (by decide)), frame]
    refine ⟨_, _, rfl, ?_, rfl⟩
    exact (load_store_item sz s.mem (slot 0) _).trans (truncSize_truncSize sz _)
  | succ L =>
    obtain ⟨copied, length, -, run⟩ := enterFrame_nested storage (Nat.succ_pos L) can reads
    have count : (truncSize sz s.regs.ebp :: (copied ++ [truncSize sz (pushOffset (itemBytes sz) 0 s)])).length =
        L + 1 + 1 := by
      rw [List.length_cons, List.length_append, length, List.length_singleton, Nat.succ_sub_one]
    obtain ⟨t, pushes, ⟨stored, -⟩, moved, -⟩ := pushAll_ok sz _ slot s (count ▸ itemBytes_mul_level_le sz bound)
      (count.symm ▸ can)
    have frame := openFrame_eq moved sz storage (pushOffset (itemBytes sz) 0 s)
    have saved := stored 0 (truncSize sz s.regs.ebp) rfl (count.symm ▸ untouched)
    rw [run, pushes]
    exact ⟨_, _, rfl, saved.trans (truncSize_truncSize sz _), frame⟩

/-- The frame's offset is the slot of the saved EBP, where ENTER is not the 16-bit form on a 32-bit stack. -/
theorem wrapStack_frameEbp {sz : OpSize} {s : State} (h : sz = .w32 ∨ wideStack s = false) :
    wrapStack s (frameEbp sz s) = pushOffset (itemBytes sz) 0 s := by
  unfold frameEbp
  cases wide : wideStack s with
  | true =>
    have size : sz = .w32 := h.resolve_right (by rw [wide]; decide)
    rw [if_pos ⟨size, rfl⟩, pushOffset, wrapStack_wrapStack]
  | false =>
    rw [if_neg fun both => Bool.false_ne_true both.2, pushOffset]
    simp only [wrapStack, wide, Bool.false_eq_true, if_false, low16_setLow16, low16_low16]

/-- ESP taken from an offset that is one item below the top of stack is ESP as it was, wherever it has moved to since. -/
theorem esp_above_slot {n : Nat} {x esp d : Dword} {s : State} (slot : wrapStack s x = pushOffset n 0 s)
    (moved : esp = movedEsp d s) :
    (if wideStack s then x + BitVec.ofNat 32 n else setLow16 esp (x + BitVec.ofNat 32 n)) = s.regs.esp := by
  have top : wrapStack s (x + BitVec.ofNat 32 n) = wrapStack s s.regs.esp := by
    rw [← wrapStack_add, slot, pushOffset, Nat.zero_add, Nat.mul_one, wrapStack_add, BitVec.sub_add_cancel, stackPtr,
      wrapStack_wrapStack]
  unfold wrapStack at top
  cases wide : wideStack s with
  | true => simpa only [wide, if_true] using top
  | false =>
    simp only [wide, Bool.false_eq_true, if_false] at top ⊢
    rw [moved, movedEsp_narrow wide, setLow16_setLow16, ← setLow16_low16, top, setLow16_low16, setLow16_self]

/-- The saved EBP written back over the frame's. -/
theorem writeSize_frameEbp {sz : OpSize} {s : State} (h : sz = .w32 ∨ wideStack s = false) :
    writeSize sz (frameEbp sz s) (truncSize sz s.regs.ebp) = s.regs.ebp := by
  cases sz with
  | w32 => rfl
  | w16 =>
    rw [frameEbp, if_neg (fun both => by cases both.1)]
    simp only [writeSize, truncSize, setLow16_setLow16, setLow16_low16, setLow16_self]

/-- Settles O46: LEAVE reads the saved EBP at the frame's offset (`wrapStack_frameEbp`) and takes ESP from just above it
(`esp_above_slot`). -/
theorem enterThenLeave : Obligations.EnterThenLeave := by
  intro sz storage level slot src q s L width can untouched reads readBack
  obtain ⟨t, d, run, saved, keeps⟩ := exec_enter_frame (storage := storage) can untouched reads
  have ebp : t.regs.ebp = frameEbp sz s := by rw [keeps]
  have esp : t.regs.esp = movedEsp d s := by rw [keeps]; rfl
  have ss : t.ss = s.ss := by rw [keeps]
  have wide : wideStack { t with pcNext := q } = wideStack s := by rw [keeps]; rfl
  have slotRead : stackSlot { t with pcNext := q } (wrapStack { t with pcNext := q } t.regs.ebp) (itemBytes sz)
      .stackRead = .ok (slot 0) := by
    rw [wrapStack_congr (t := { t with pcNext := q }) ss, ebp, wrapStack_frameEbp width, ← readBack]
    exact stackSlot_congr (by rw [keeps]) (by rw [keeps]) (by rw [keeps]) (by rw [keeps]) ss ..
  obtain ⟨-, leaves⟩ := leave
  obtain ⟨undo, -⟩ := leaves sz { t with pcNext := q }
  refine ⟨t, run, (undo (slot 0) slotRead).trans ?_⟩
  have espBack := esp_above_slot (wrapStack_frameEbp width) esp
  have ebpBack := writeSize_frameEbp width
  rw [wide]
  simp only [saved, ebp, espBack, ebpBack]
  rw [keeps]
  rfl

end Sys2Proof.Proofs
end

section
/-! IRETD from a level 0 handler (60_exceptions R282, 42_int_bound_iret R194 to R196): the frame an entry pushed gives
the interrupted program back. -/

namespace Sys2Proof.Proofs

open Sys2Proof Sys2Proof.Machine Sys2Proof.Safety Sys2Proof.Laws

/-! ## The frame of an entry -/

theorem entryItems_sameLevel {level : BitVec 2} {ev : Event} {s : State} (hl : level = s.cpl)
    (noCode : ev.pushed s = none) :
    entryItems level ev s = [s.eflags, s.cs.sel.setWidth 32, savedEip ev.kind s] := by
  rw [entryItems, if_pos hl, noCode]
  rfl

theorem entryItems_switched {level : BitVec 2} {ev : Event} {s : State} (hl : level ≠ s.cpl)
    (noCode : ev.pushed s = none) : entryItems level ev s =
      [s.ss.sel.setWidth 32, s.regs.esp, s.eflags, s.cs.sel.setWidth 32, savedEip ev.kind s] := by
  rw [entryItems, if_neg hl, noCode]
  rfl

/-- A selector as a pushed doubleword. -/
theorem setWidth_selector (sel : Word) : (sel.setWidth 32).setWidth 16 = sel := by
  rw [BitVec.setWidth_setWidth_of_le _ (by decide), BitVec.setWidth_eq]

section Entered

variable {ev : Event} {g : IntGate} {c d : SegDesc} {slot : Nat → Dword} {s t : State}
  (entered : Entered ev g c d slot s t)
include entered

/-- Each item of the frame is in its slot, where no later one touches it. -/
theorem entered_item (untouched : AllUntouched 4 (entryItems c.dpl ev s).length slot s) (j : Nat) (v : Dword)
    (h : (entryItems c.dpl ev s)[j]? = some v) : t.mem.loadLE (slot j) 4 = v := by
  obtain ⟨⟨stored, -⟩, -⟩ := entered
  exact stored j v h (untouched j (List.getElem?_eq_some_iff.1 h).1)

theorem entered_eflags : t.eflags = s.eflags ∨ t.eflags = clearIF s.eflags := by
  obtain ⟨-, keeps⟩ := entered
  have after : t.eflags = if g.kind = .interrupt then clearIF s.eflags else s.eflags := by rw [keeps]
  by_cases interrupt : g.kind = .interrupt
  · exact .inr (after.trans (if_pos interrupt))
  · exact .inl (after.trans (if_neg interrupt))

end Entered

/-! ## What IRETD puts back -/

/-- At level 0 the default mask of IRET admits IF, whatever EFLAGS holds (decision D21). -/
theorem flagMask_iret_top {s : State} (top : s.cpl = 0) (default : s.params.flagMask = []) :
    (flagMask .iret s).getLsbD 9 = true := by
  have notBelow : (0 : BitVec 2) ≤ iopl s.eflags := by bv_omega
  simp only [flagMask, suppliedMask, default, List.lookup_nil, Option.getD_none, defaultFlagMask, iretFlagMask,
    popFlagMask, top, if_pos notBelow, if_true]
  decide

/-- An image that differs from EFLAGS in IF at most is loaded whole at level 0. -/
theorem flagsAfterIret_top {s : State} {image : Dword} (top : s.cpl = 0) (default : s.params.flagMask = [])
    (h : s.eflags = image ∨ s.eflags = clearIF image) : flagsAfterIret .w32 s image = image := by
  apply BitVec.eq_of_getLsbD_eq
  intro b hb
  have other : b ≠ 9 → s.eflags.getLsbD b = image.getLsbD b := fun notIF => by
    rcases h with h | h
    · rw [h]
    · rw [h, getLsbD_clearIF _ hb, decide_eq_true notIF, Bool.and_true]
  rw [flagsAfterIret, getLsbD_mergeFlags hb]
  by_cases isIF : b = 9
  · rw [isIF, flagMask_iret_top top default, if_pos rfl]
  · rw [other isIF, ite_self]

theorem nullAbove_keeps {level : BitVec 2} {r : SegReg} (h : ∀ x, r.desc = some x → level ≤ x.dpl) :
    nullAbove level r = r := by
  unfold nullAbove
  cases hd : r.desc with
  | none => rfl
  | some x => exact if_neg (BitVec.not_lt.2 (h x hd))

theorem movedRegs_undone {s t : State} {d : Dword} (hss : t.ss = s.ss) (hr : t.regs = movedRegs (-d) s) :
    movedRegs d t = s.regs := by
  rw [movedRegs_movedRegs (-d) d hss hr, BitVec.add_comm, ← BitVec.sub_eq_add_neg, BitVec.sub_self, movedRegs,
    movedEsp_zero]

/-- A segment register from its selector and its record. -/
theorem segReg_eq {r : SegReg} {x : SegDesc} (h : r.desc = some x) : (⟨r.sel, some x⟩ : SegReg) = r := by
  rw [← h]

/-! ## IRETD by what its items hold -/

section Iretd

variable {slot : Nat → Dword} {eip image : Dword} {cs : Word} {d : SegDesc} {s : State}
  (hm : s.mode = .protectedMode) (hnt : flagNT s.eflags = false) (hvm : flagVM image = false)
  (offset : s.mem.loadLE (slot 0) 4 = eip) (selector : (s.mem.loadLE (slot 1) 4).setWidth 16 = cs)
  (flags : s.mem.loadLE (slot 2) 4 = image) (lookup : codeSegment s cs = .ok d)
include hm hnt hvm offset selector flags lookup

theorem iretd_same (can : CanPop 4 0 3 slot s) (level : rpl cs = s.cpl) : exec .iretd s = .next { s with
    regs := movedRegs 12#32 s, eip := eip, eflags := flagsAfterIret .w32 s image, cs := ⟨cs, some d⟩ } := by
  subst offset selector flags
  obtain ⟨-, returns⟩ := interruptReturnSameLevel .iretd .w32 slot s rfl can
  exact returns d hm hnt (.inr (.inl hvm)) level lookup

theorem iretd_outward (can : CanPop 4 0 5 slot s) {esp : Dword} {ss : Word} {sd : SegDesc}
    (outerEsp : s.mem.loadLE (slot 3) 4 = esp) (outerSs : (s.mem.loadLE (slot 4) 4).setWidth 16 = ss)
    (level : s.cpl < rpl cs) (allowed : gateAllows s (.ret d cs s.cpl) = true)
    (fit : stackSegment s .gp (rpl cs) ss = .ok sd) : exec .iretd s = .next { s with
      regs := { s.regs with esp := esp }, eip := eip, cs := ⟨cs, some d⟩, cpl := rpl cs, ss := ⟨ss, some sd⟩
      eflags := flagsAfterIret .w32 s image
      ds := nullAbove (rpl cs) s.ds, es := nullAbove (rpl cs) s.es
      fs := nullAbove (rpl cs) s.fs, gs := nullAbove (rpl cs) s.gs } := by
  subst offset selector flags outerEsp outerSs
  obtain ⟨-, returns⟩ := interruptReturnOutward .iretd .w32 slot d s rfl hm hnt (canPop_mono can (by decide))
    (.inr (.inl hvm)) level lookup allowed
  obtain ⟨-, result⟩ := returns can
  obtain ⟨esp, run, espItem, -⟩ := result sd fit
  obtain rfl := espItem rfl
  exact run

end Iretd

/-! ## The return -/

section Return

variable {ev : Event} {g : IntGate} {c d cd sd : SegDesc} {slot : Nat → Dword} {q : Dword} {s t : State}
  (entered : Entered ev g c d slot s t) (top : c.dpl = 0) (default : s.params.flagMask = [])
include entered

theorem entered_flagNT (hnt : flagNT s.eflags = false) : flagNT t.eflags = false := by
  rcases entered_eflags entered with same | cleared
  · rw [same, hnt]
  · rw [cleared, flagNT, getLsbD_clearIF _ (by decide)]
    exact congrArg (· && _) hnt

include top default

/-- EFLAGS after IRETD of the image the entry pushed. -/
theorem entered_flagsBack : flagsAfterIret .w32 { t with pcNext := q } s.eflags = s.eflags := by
  have differs := entered_eflags entered
  obtain ⟨-, keeps⟩ := entered
  refine flagsAfterIret_top ?_ ?_ differs
  · rw [keeps]
    exact top
  · rw [keeps]
    exact default

variable (noCode : ev.pushed s = none) (hm : s.mode = .protectedMode)
  (hnt : flagNT s.eflags = false) (hvm : flagVM s.eflags = false)
  (code : s.cs.desc = some cd) (lookup : codeSegment s s.cs.sel = .ok cd) (level : rpl s.cs.sel = s.cpl)
  (untouched : AllUntouched 4 (entryItems c.dpl ev s).length slot s)
  (can : CanPop 4 0 (entryItems c.dpl ev s).length (fun j => slot ((entryItems c.dpl ev s).length - 1 - j)) t)
include noCode hm hnt hvm code lookup level untouched can

/-- Without a stack switch IRETD is a return to the same level. -/
theorem handlerReturn_same (same : s.cpl = 0) : exec .iretd { t with pcNext := q } =
    .next { s with eip := savedEip ev.kind s, pcNext := q, mem := t.mem, written := t.written } := by
  have items := entryItems_sameLevel (ev := ev) (top.trans same.symm) noCode
  have item := entered_item entered untouched
  have flagsBack := entered_flagsBack (q := q) entered top default
  have ntClear := entered_flagNT entered hnt
  rw [items] at item can
  have selector : (t.mem.loadLE (slot 1) 4).setWidth 16 = s.cs.sel := by rw [item 1 _ rfl, setWidth_selector]
  obtain ⟨-, keeps⟩ := entered
  rw [items, entryStack, if_pos (top.trans same.symm)] at keeps
  have regsBack : movedRegs 12#32 { t with pcNext := q } = s.regs :=
    movedRegs_undone (by rw [keeps]) (by rw [keeps]; rfl)
  have run := iretd_same (slot := fun j => slot (2 - j)) (s := { t with pcNext := q }) (by rw [keeps]; exact hm)
    ntClear hvm (item 2 _ rfl) selector (item 0 _ rfl) (d := cd) (by rw [keeps]; exact lookup) can
    (level.trans (by rw [keeps]; exact same.trans top.symm))
  rw [run, regsBack, flagsBack, segReg_eq code, keeps]
  simp only [top, same]

/-- With a stack switch IRETD is a return to the less privileged level of the program. -/
theorem handlerReturn_switched (switched : s.cpl ≠ 0) (allowed : gateAllows s (.ret cd s.cs.sel 0) = true)
    (stack : s.ss.desc = some sd) (fit : stackSegment s .gp s.cpl s.ss.sel = .ok sd)
    (notAbove : ∀ r ∈ [s.ds, s.es, s.fs, s.gs], ∀ x, r.desc = some x → s.cpl ≤ x.dpl) :
    exec .iretd { t with pcNext := q } =
      .next { s with eip := savedEip ev.kind s, pcNext := q, mem := t.mem, written := t.written } := by
  have other : c.dpl ≠ s.cpl := fun h => switched (h.symm.trans top)
  have items := entryItems_switched (ev := ev) other noCode
  have item := entered_item entered untouched
  have flagsBack := entered_flagsBack (q := q) entered top default
  have ntClear := entered_flagNT entered hnt
  rw [items] at item can
  have selector : (t.mem.loadLE (slot 3) 4).setWidth 16 = s.cs.sel := by rw [item 3 _ rfl, setWidth_selector]
  have outerSs : (t.mem.loadLE (slot 0) 4).setWidth 16 = s.ss.sel := by rw [item 0 _ rfl, setWidth_selector]
  obtain ⟨-, keeps⟩ := entered
  rw [items, entryStack, if_neg other] at keeps
  have outward : ({ t with pcNext := q } : State).cpl < rpl s.cs.sel := by
    rw [level, keeps]
    exact level_lt (fun below => BitVec.not_lt_zero (top ▸ below)) other.symm
  have mayReturn : gateAllows { t with pcNext := q } (.ret cd s.cs.sel ({ t with pcNext := q } : State).cpl) = true := by
    rw [keeps]
    exact (congrArg (fun l => gateAllows s (.ret cd s.cs.sel l)) top).trans allowed
  have run := iretd_outward (slot := fun j => slot (4 - j)) (s := { t with pcNext := q }) (by rw [keeps]; exact hm)
    ntClear hvm (item 4 _ rfl) selector (item 2 _ rfl) (d := cd) (by rw [keeps]; exact lookup) can (item 1 _ rfl)
    outerSs outward mayReturn (sd := sd) (by rw [level, keeps]; exact fit)
  have keptAbove (r : SegReg) (h : r ∈ [s.ds, s.es, s.fs, s.gs]) : nullAbove s.cpl r = r :=
    nullAbove_keeps (notAbove r h)
  rw [run, flagsBack, level, segReg_eq code, segReg_eq stack, keeps]
  simp only [keptAbove, List.mem_cons, true_or, or_true]
  rfl

end Return

/-- Settles O58: the frame pushed is the items IRETD loads (`entered_item`), read on the stack it was pushed on, by the
same-level branch where the entry switched no stack and the outward one where it did. -/
theorem handlerReturnRestores : Obligations.HandlerReturnRestores := by
  intro ev g c d cd sd slot q s t ready entered top noCode default hnt hvm code lookup allowed level stack fit notAbove
    untouched can
  obtain ⟨hm, -⟩ := ready
  by_cases same : s.cpl = 0
  · exact handlerReturn_same entered top default noCode hm hnt hvm code lookup level untouched can same
  · exact handlerReturn_switched entered top default noCode hm hnt hvm code lookup level untouched can same
      (allowed same) stack fit notAbove

end Sys2Proof.Proofs
end
